-- ==== Sys2Proof/Word.lean ====
section
/-!
DEFINITION. The plain value types of the block (spec/00_scope.md R12, R15): bits, bytes, words, the two
directions, endpoint numbers and the eight-byte setup packet as its fields.
-/

namespace Sys2Proof

/-- One bit: a pin level, a toggle, a parity, a flag the spec gives width 1. -/
abbrev Bit := BitVec 1

/-- A byte (R12). -/
abbrev Byte := BitVec 8

/-- A 16-bit word: a bit-transport payload or a setup field. -/
abbrev Half := BitVec 16

/-- A 32-bit word: a byte address or one of the two words of a BDT slot (spec/30_encoding.md R99). -/
abbrev Word := BitVec 32

/-- The shared memory's representation: pairs of an address and a byte (see Machine/Ops.lean for its canonical form). -/
abbrev Memory := List (Nat × BitVec 8)

/-- An endpoint number as TOK_STATUS bits 7:4 hold it (spec/30_encoding.md R103). -/
abbrev Endpoint := Fin 16

/-- Directions (R15): `rx` is 0, host to device (SETUP and OUT tokens); `tx` is 1, device to host (IN tokens). -/
inductive Dir where
  | rx
  | tx
  deriving DecidableEq, Repr

/-- A setup packet as its five fields (spec/30_encoding.md R96). -/
structure Setup where
  /-- `b0`: direction, type class, recipient (R97). -/
  requestType : Byte
  /-- `b1`. -/
  requestCode : Byte
  /-- `b3 :: b2`. -/
  value : Half
  /-- `b5 :: b4`. -/
  index : Half
  /-- `b7 :: b6`. -/
  length : Half
  deriving DecidableEq, Repr

end Sys2Proof
end

