-- ==== Sys2Proof/Config.lean ====
section
/-!
DEFINITION. The open parameters of the block (spec/00_scope.md R9, R10; spec/92_eei_decisions.md "Open parameters"),
the example values, and the free values of the model.
-/

namespace Sys2Proof

/-! ## Fixed parameters (R9) -/

/-- `EP0_MAX_PACKET`, in bytes. -/
def ep0MaxPacket : Nat := 64

/-- One entry of DESC_TABLE (spec/30_encoding.md R107) with the bytes its pointer points at: byte `k < length` of the
descriptor is `bytes[k]`, 0 beyond the end of the list. -/
structure DescEntry where
  value : Half
  index : Half
  pointer : Word
  length : Half
  bytes : List Byte
  deriving DecidableEq, Repr

/-- What the vendor-command handler may answer (spec/43_ep0_control.md R204). -/
inductive VendorAction where
  | respond (ptr : Word) (len : Half)
  | acknowledge
  | reject
  | nothing
  deriving DecidableEq, Repr

/-- The open parameters (R10). Constraints are checked by `Machine.configOk`; a machine outside them is refused
(spec/93_implementation_defined.md U9). -/
structure Params where
  retryBudget : Nat
  resyncProbeMax : Nat
  fillerWord : Half
  notReadyWord : Half
  tFallHold : Nat
  tDataHold : Nat
  tRiseHold : Nat
  tBkptHold : Nat
  tRstPulse : Nat
  tRstSettle : Nat
  bkptActive : Bit
  rstActive : Bit
  numEndpoints : Nat
  activeEndpoints : List Endpoint
  descTable : List DescEntry
  cdWidth : Nat
  cdReload : Nat
  cdTicksPerUs : Nat
  bdtBase : Word
  ep0RxBufEven : Word
  ep0RxBufOdd : Word
  queueDepth : Nat
  /-- What the vendor handler answers once the answers held in State are used up (log 12). -/
  vendorDefault : VendorAction
  deriving DecidableEq, Repr

/-! ## The example values (R10; spec/95_test_vectors.md section 2.1) -/

/-- The example DESC_TABLE. The configuration descriptor's bytes are immaterial in the spec and are zero here. -/
def Config.exampleDescTable : List DescEntry :=
  [ { value := 0x0100, index := 0x0000, pointer := 0x00002000, length := 18,
      bytes := [0x12, 0x01, 0x00, 0x02, 0xFF, 0x00, 0x00, 0x40, 0x34, 0x12, 0x78, 0x56, 0x00, 0x01, 0x01, 0x02,
        0x03, 0x01] },
    { value := 0x0200, index := 0x0000, pointer := 0x00002020, length := 32, bytes := [] },
    { value := 0x0300, index := 0x0000, pointer := 0x00002040, length := 4, bytes := [0x04, 0x03, 0x09, 0x04] },
    { value := 0x0301, index := 0x0409, pointer := 0x00003000, length := 130,
      bytes := [0x82, 0x03] ++ (List.replicate 64 [0x41, 0x00]).flatten },
    { value := 0x0302, index := 0x0409, pointer := 0x00003100, length := 128,
      bytes := [0x80, 0x03] ++ (List.replicate 63 [0x42, 0x00]).flatten },
    { value := 0x0303, index := 0x0409, pointer := 0x00003200, length := 64,
      bytes := [0x40, 0x03] ++ (List.replicate 31 [0x43, 0x00]).flatten },
    { value := 0x0300, index := 0x0000, pointer := 0x00002050, length := 4, bytes := [0x04, 0x03, 0x07, 0x04] } ]

/-- The example column of R10 (DESIGN CHOICE, log 1: no source gives these values). -/
def Config.exampleParams : Params :=
  { retryBudget := 3
    resyncProbeMax := 20
    fillerWord := 0x0000
    notReadyWord := 0x0000
    tFallHold := 1
    tDataHold := 1
    tRiseHold := 1
    tBkptHold := 100
    tRstPulse := 50000
    tRstSettle := 10000
    bkptActive := 0
    rstActive := 0
    numEndpoints := 16
    activeEndpoints := [0]
    descTable := Config.exampleDescTable
    cdWidth := 24
    cdReload := 0xFFFFFF
    cdTicksPerUs := 48
    bdtBase := 0x1FFF8000
    ep0RxBufEven := 0x1FFF8200
    ep0RxBufOdd := 0x1FFF8240
    queueDepth := 4
    vendorDefault := .nothing }

/-! ## Free values -/

/-- How many ticks beyond its bound the `k`-th delay of the run lasted (spec/93_implementation_defined.md U11: "any
value not below the bound"). Nothing is known of it (log 9). -/
opaque Config.delayExtra : Nat → Nat

/-- `RXBUF(e, p)`, the address of a receive buffer, for an endpoint other than 0: the spec gives no value (log 11). -/
opaque Config.rxBufAddr : Endpoint → Bit → Word

end Sys2Proof
end

