-- ==== Sys2Proof/Syntax.lean ====
section
/-!
DEFINITION. The operations the block selects: one constructor per row of spec/opcode_table.json, in the table's
order, with the operands the row's rule names (spec/30_encoding.md R90, R93, R98, R104, R106).
-/

namespace Sys2Proof

/-- The 24 selectable operations. The block fetches no program (spec/10_state.md R21): a `REQ` row is selected by
the request port, a `COND` row by the status snapshot, a `TOKEN` row by the token-done event, a `SETUP` row by the
setup packet. -/
inductive Instr where
  /-- `TX` (R141): send the word, discard the answer. -/
  | tx (w : Half)
  /-- `TXRX` (R142): exchange the word and report status and answer. -/
  | txrx (w : Half)
  /-- `TXC` (R143): confirmation with bounded retry. -/
  | txc
  /-- `RXR` (R144): receive with bounded retry. -/
  | rxr
  /-- `RESYNC` (R145). -/
  | resync
  /-- `HALT` (R146). -/
  | halt
  /-- `RESET h` (R147): `h` is `hold_bkpt`. -/
  | reset (h : Bit)
  /-- `BTE.ILLEGAL` (R148): a request that selects no operation; it carries the request's bytes. -/
  | bteIllegal (req : List Byte)
  /-- `VENDOR` (R204). -/
  | vendor (requestType requestCode : Byte) (value index length : Half)
  /-- `GET_DESCRIPTOR` (R193): request code 0x06. -/
  | getDescriptor (requestType : Byte) (value index length : Half)
  /-- `SET_ADDRESS` (R194): request code 0x05. -/
  | setAddress (requestType : Byte) (value index length : Half)
  /-- `SET_CONFIGURATION` (R195): request code 0x09. -/
  | setConfiguration (requestType : Byte) (value index length : Half)
  /-- `UNRECOGNISED` (R203). -/
  | unrecognised (requestType requestCode : Byte) (value index length : Half)
  /-- `EP0.SETUP` (R191): a SETUP token completed receive slot `p` of endpoint 0. -/
  | ep0Setup (p : Bit)
  /-- `EP0.OUT` (R201): an OUT token completed receive slot `p` of endpoint 0. -/
  | ep0Out (p : Bit)
  /-- `EP0.IN` (R200): an IN token completed transmit slot `p` of endpoint 0. -/
  | ep0In (p : Bit)
  /-- `EP0.UNEXPECTED` (R205): any other token-done event on endpoint 0; it carries the event code `T` (R106). -/
  | ep0Unexpected (t : BitVec 12)
  /-- `EPN.DEFAULT` (R241): a token-done event on an endpoint without a handler of its own; it carries `T`. -/
  | epnDefault (t : BitVec 12)
  /-- `USBRST` (R232): bus reset. -/
  | usbrst
  /-- `ERROR` (R234): transfer error. -/
  | error
  /-- `SOFTOK` (R235): start of frame. -/
  | softok
  /-- `TOKDNE` (R236): token done. -/
  | tokdne
  /-- `SLEEP` (R237). -/
  | sleep
  /-- `STALL` (R238). -/
  | stall
  deriving DecidableEq, Repr

end Sys2Proof
end

