-- ==== Sys2Proof/WellFormed.lean ====
section
/-!
DEFINITION. Which terms of Instr stand for a selection the encoding tables can make (spec/30_encoding.md R93,
R98, R106): a term that another row of the table would claim, or that fits no row, is ill formed.
-/

namespace Sys2Proof

/-- The type class of a request type byte is vendor: bits 6:5 are 2 (R97, R98). -/
def vendorClass (requestType : Byte) : Bool := requestType.extractLsb' 5 2 = 2#2

/-- The three request codes that have a row of their own (R98). -/
def knownCode (requestCode : Byte) : Bool :=
  requestCode = 0x05#8 || requestCode = 0x06#8 || requestCode = 0x09#8

/-- The request selects one of the seven operations: a selector 1 to 7, at least the row's minimum length, and for
RESET the seven reserved bits zero (R93). -/
def selectsOperation : List Byte → Bool
  | [] => false
  | op :: operands =>
    ((op = 0x01#8 || op = 0x02#8 || op = 0x04#8) && decide (2 ≤ operands.length))
      || (op = 0x03#8 || op = 0x05#8 || op = 0x06#8)
      || (op = 0x07#8 && (match operands with
          | [] => false
          | b :: _ => b.extractLsb' 1 7 = 0#7))

/-- A token event code that one of the three priority-1 rows of endpoint 0 claims (R106): endpoint 0 and RX with
kind SETUP or OUT, or TX with kind IN. -/
def expectedToken (t : BitVec 12) : Bool :=
  t.extractLsb' 8 4 = 0#4 &&
    ((t.extractLsb' 7 1 = 0#1 && (t.extractLsb' 0 4 = 0xD#4 || t.extractLsb' 0 4 = 0x1#4))
      || (t.extractLsb' 7 1 = 1#1 && t.extractLsb' 0 4 = 0x9#4))

/-- The well-formedness checks, one per constructor. -/
def Instr.wf : Instr → Bool
  | .tx _ | .txrx _ | .txc | .rxr | .resync | .halt | .reset _ => true
  | .bteIllegal req => decide (req.length ≤ 255) && !selectsOperation req
  | .vendor rt _ _ _ _ => vendorClass rt
  | .getDescriptor rt _ _ _ => !vendorClass rt
  | .setAddress rt _ _ _ => !vendorClass rt
  | .setConfiguration rt _ _ _ => !vendorClass rt
  | .unrecognised rt code _ _ _ => !vendorClass rt && !knownCode code
  | .ep0Setup _ | .ep0Out _ | .ep0In _ => true
  | .ep0Unexpected t => t.extractLsb' 8 4 = 0#4 && !expectedToken t
  | .epnDefault t => !(t.extractLsb' 8 4 = 0#4)
  | .usbrst | .error | .softok | .tokdne | .sleep | .stall => true

end Sys2Proof
end

