-- ==== Sys2Proof/Decode.lean ====
section
/-!
DEFINITION. The four decoders of the block, total on any bytes and rejecting by name, the encoder written from the
same tables, and the host's numbering of a table row's bits (spec/30_encoding.md R90 to R109).
-/

namespace Sys2Proof

/-- What the block decodes, by format (R90). -/
inductive Code where
  /-- A request: `REQ_BUF[0 .. REQ_LEN-1]` (R92). -/
  | req (bytes : List Byte)
  /-- The eight bytes of a setup packet, in buffer order (R96). -/
  | setup (bytes : List Byte)
  /-- The event code `T = TOK_STATUS :: slot.token` (R106). -/
  | token (t : BitVec 12)
  /-- Status bits, of which the lowest priority number selects (R104). -/
  | cond (st : Byte)
  deriving DecidableEq, Repr

/-- Why a code selects nothing. -/
inductive Reject where
  /-- A request longer than the 255 bytes REQ_LEN can say (spec/10_state.md R28). -/
  | requestTooLong
  /-- A setup packet is always 8 bytes (R109). -/
  | setupNotEightBytes
  /-- No condition bit is set. -/
  | noCondition
  /-- INT_STATUS bits 5 and 6 are reserved and a state with them set is refused (R108). -/
  | reservedCondition
  deriving DecidableEq, Repr

/-! ## Fields of a setup packet (R63, R96) -/

/-- The fields of the packet with bytes `b0 .. b7`: each 16-bit field low byte first. -/
def Setup.ofBytes (b0 b1 b2 b3 b4 b5 b6 b7 : Byte) : Setup :=
  { requestType := b0, requestCode := b1, value := b3 ++ b2, index := b5 ++ b4, length := b7 ++ b6 }

/-- The low byte of a 16-bit field (R65 with `k = 0`). -/
def lowByte (h : Half) : Byte := h.extractLsb' 0 8

/-- The high byte of a 16-bit field. -/
def highByte (h : Half) : Byte := h.extractLsb' 8 8

/-- The eight bytes of a packet in buffer order. -/
def Setup.toBytes (p : Setup) : List Byte :=
  [p.requestType, p.requestCode, lowByte p.value, highByte p.value, lowByte p.index, highByte p.index,
    lowByte p.length, highByte p.length]

/-! ## The decoders -/

/-- Byte `k` of a request, 0 beyond its end (R92: where REQ_LEN is 1 the second byte of `Q` is taken as 0). -/
def reqByte (bs : List Byte) (k : Nat) : Byte := bs.getD k 0#8

/-- Format REQ (R93): selector, minimum length, reserved bits; everything else is BTE.ILLEGAL. -/
def decodeReq (bs : List Byte) : Instr :=
  let op := reqByte bs 0
  let w := reqByte bs 1 ++ reqByte bs 2
  if op = 0x01#8 ∧ 3 ≤ bs.length then .tx w
  else if op = 0x02#8 ∧ 3 ≤ bs.length then .txrx w
  else if op = 0x03#8 ∧ 1 ≤ bs.length then .txc
  else if op = 0x04#8 ∧ 3 ≤ bs.length then .rxr
  else if op = 0x05#8 ∧ 1 ≤ bs.length then .resync
  else if op = 0x06#8 ∧ 1 ≤ bs.length then .halt
  else if op = 0x07#8 ∧ 2 ≤ bs.length ∧ (reqByte bs 1).extractLsb' 1 7 = 0#7 then
    .reset ((reqByte bs 1).extractLsb' 0 1)
  else .bteIllegal bs

/-- Format SETUP (R98, spec/43_ep0_control.md R192): vendor class first, then the request code. -/
def decodeSetup (p : Setup) : Instr :=
  if p.requestType.extractLsb' 5 2 = 2#2 then .vendor p.requestType p.requestCode p.value p.index p.length
  else if p.requestCode = 0x06#8 then .getDescriptor p.requestType p.value p.index p.length
  else if p.requestCode = 0x05#8 then .setAddress p.requestType p.value p.index p.length
  else if p.requestCode = 0x09#8 then .setConfiguration p.requestType p.value p.index p.length
  else .unrecognised p.requestType p.requestCode p.value p.index p.length

/-- The endpoint field of an event code, bits 11:8 (R106). -/
def tokenEndpoint (t : BitVec 12) : BitVec 4 := t.extractLsb' 8 4

/-- The direction bit of an event code, bit 7. -/
def tokenDirection (t : BitVec 12) : Bit := t.extractLsb' 7 1

/-- The parity bit of an event code, bit 6. -/
def tokenParity (t : BitVec 12) : Bit := t.extractLsb' 6 1

/-- The token kind of an event code, bits 3:0 (R102: 1 OUT, 9 IN, 0xD SETUP). -/
def tokenKind (t : BitVec 12) : BitVec 4 := t.extractLsb' 0 4

/-- Format TOKEN (R106): endpoint 0's three events, anything else on endpoint 0, any other endpoint. -/
def decodeToken (t : BitVec 12) : Instr :=
  if tokenEndpoint t ≠ 0#4 then .epnDefault t
  else if tokenDirection t = 0#1 ∧ tokenKind t = 0xD#4 then .ep0Setup (tokenParity t)
  else if tokenDirection t = 0#1 ∧ tokenKind t = 0x1#4 then .ep0Out (tokenParity t)
  else if tokenDirection t = 1#1 ∧ tokenKind t = 0x9#4 then .ep0In (tokenParity t)
  else .ep0Unexpected t

/-- Format COND (R104, R231): the asserted condition with the lowest priority number. -/
def decodeCond (st : Byte) : Except Reject Instr :=
  if st &&& 0x60#8 ≠ 0#8 then .error .reservedCondition
  else if st.getLsbD 0 then .ok .usbrst
  else if st.getLsbD 1 then .ok .error
  else if st.getLsbD 2 then .ok .softok
  else if st.getLsbD 3 then .ok .tokdne
  else if st.getLsbD 4 then .ok .sleep
  else if st.getLsbD 7 then .ok .stall
  else .error .noCondition

/-- The decoder of all four formats. -/
def decode : Code → Except Reject Instr
  | .req bs => if bs.length ≤ 255 then .ok (decodeReq bs) else .error .requestTooLong
  | .setup [b0, b1, b2, b3, b4, b5, b6, b7] => .ok (decodeSetup (Setup.ofBytes b0 b1 b2 b3 b4 b5 b6 b7))
  | .setup _ => .error .setupNotEightBytes
  | .token t => .ok (decodeToken t)
  | .cond st => decodeCond st

/-! ## The encoder -/

/-- The setup packet of a control request. -/
def encodeSetup (rt code : Byte) (value index length : Half) : Code :=
  .setup (Setup.toBytes { requestType := rt, requestCode := code, value := value, index := index, length := length })

/-- An event code from its fields, bits 5:4 zero (R106). -/
def encodeToken (e : BitVec 4) (d p : Bit) (kind : BitVec 4) : Code := .token (e ++ d ++ p ++ 0#2 ++ kind)

/-- The code of an operation: for a request the shortest request that selects it. -/
def encode : Instr → Code
  | .tx w => .req [0x01#8, highByte w, lowByte w]
  | .txrx w => .req [0x02#8, highByte w, lowByte w]
  | .txc => .req [0x03#8]
  | .rxr => .req [0x04#8, 0#8, 0#8]
  | .resync => .req [0x05#8]
  | .halt => .req [0x06#8]
  | .reset h => .req [0x07#8, 0#7 ++ h]
  | .bteIllegal req => .req req
  | .vendor rt code value index length => encodeSetup rt code value index length
  | .getDescriptor rt value index length => encodeSetup rt 0x06#8 value index length
  | .setAddress rt value index length => encodeSetup rt 0x05#8 value index length
  | .setConfiguration rt value index length => encodeSetup rt 0x09#8 value index length
  | .unrecognised rt code value index length => encodeSetup rt code value index length
  | .ep0Setup p => encodeToken 0#4 0#1 p 0xD#4
  | .ep0Out p => encodeToken 0#4 0#1 p 0x1#4
  | .ep0In p => encodeToken 0#4 1#1 p 0x9#4
  | .ep0Unexpected t => .token t
  | .epnDefault t => .token t
  | .usbrst => .cond 0x01#8
  | .error => .cond 0x02#8
  | .softok => .cond 0x04#8
  | .tokdne => .cond 0x08#8
  | .sleep => .cond 0x10#8
  | .stall => .cond 0x80#8

/-! ## A table row's bits as one number -/

/-- Byte `k` of a number, byte 0 the least significant. -/
def byteOfNat (w k : Nat) : Byte := BitVec.ofNat 8 (w >>> (8 * k))

/-- The request whose `Q` (R92) is `w`, with a third byte of zero: the longest operand the table leaves without bits. -/
def tableRequest (w : Nat) : List Byte := [byteOfNat w 0, byteOfNat w 1, 0#8]

/-- The eight bytes of the setup packet `P = w` (R96). -/
def tableSetup (w : Nat) : List Byte := (List.range 8).map (byteOfNat w)

/-- The code a table row's bits stand for. The width says the format (8 COND, 12 TOKEN, 16 REQ, 64 SETUP). A width
in whole bytes cannot tell a 12-bit TOKEN row from a 16-bit REQ row (log 20): at 16 bits a number is a request where
a priority-1 REQ row selects it, else a token where a priority-1 TOKEN row does, else a request. -/
def tableCode (nbits w : Nat) : Option Code :=
  if 2 ^ nbits ≤ w then none
  else if nbits = 8 then some (.cond (BitVec.ofNat 8 w))
  else if nbits = 12 then some (.token (BitVec.ofNat 12 w))
  else if nbits = 16 then
    if selectsOperation (tableRequest w) then some (.req (tableRequest w))
    else if w < 4096 ∧ expectedToken (BitVec.ofNat 12 w) then some (.token (BitVec.ofNat 12 w))
    else some (.req (tableRequest w))
  else if nbits = 64 then some (.setup (tableSetup w))
  else none

/-- The host's fixed name: the operation the decoder reads from a table row's bits (log 20). -/
def decodeTableWord (nbits w : Nat) : Option Instr :=
  match tableCode nbits w with
  | none => none
  | some c =>
    match decode c with
    | .ok i => some i
    | .error _ => none

end Sys2Proof
end

