-- ==== Sys2Proof/Machine/State.lean ====
section
/-!
DEFINITION. All state of the block, of the SIE as far as the block's rules depend on it, and of the environment's
inputs, as plain data; the fault records, the refusals, and the state right after power-on reset
(spec/10_state.md R20 to R49).
-/

namespace Sys2Proof.Machine

/-! ## Why a run stops or is refused -/

/-- The spec's fault records (spec/60_exceptions.md R262). `raise` adds one to `State.faults`, ends the invocation
without return and stops the CTS for good; the step answers a NEXT state that holds the record (log 4), so no
step of this model answers `.fault`. Each is SAFE: the model claims nothing of hardware that reaches it. -/
inductive Fault where
  /-- Raised by Submit when the transmit slot the tracker names is still SIE-owned (R161). Safe. -/
  | slotBusy (e : Endpoint) (d : Dir) (p : Bit)
  /-- Raised by Consume when the slot of a token-done event is SIE-owned (R162). Safe. -/
  | ownershipViolation (e : Endpoint) (d : Dir) (p : Bit)
  /-- Raised by EP0.SETUP when the completed slot does not hold 8 bytes (R191). Safe. -/
  | badSetupLength (n : BitVec 10)
  deriving DecidableEq, Repr

/-- Inputs the model does not admit (spec/93_implementation_defined.md, treatment "refuse"). All are SAFE: a
refused input has no successor state to claim anything of. -/
inductive Refusal where
  /-- Raised by `exec` for an instruction without a meaning. Safe. -/
  | notModelled (mnemonic : String)
  /-- Raised by `step` when a parameter is outside its constraint (U9, R10). Safe. -/
  | badParameter
  /-- Raised by `step` in a state whose reserved INT_STATUS bits 5 or 6 are set (U10, R108). Safe. -/
  | reservedCondition
  /-- Raised by the events `writeReq` and `bootBte` while BUSY is 1 (U7, R275). Safe. -/
  | commandWhileBusy
  /-- Raised by the events `bootBte` and `bootIntEnable` once that duty is done or something else has happened
  (R275: "once before anything else"; log 32). Safe. -/
  | bootOver
  /-- Raised by the event `bootIntEnable` for a mask without the bus-reset condition
  (spec/70_reset_and_hazards.md R293: "0x01 at least"). Safe. -/
  | bootMaskTooSmall
  /-- Raised by an SIE write that would change a descriptor's bytes (U8, R75). Safe. -/
  | immutableWrite
  /-- Raised by the event `sieBuffer` for a byte the SIE does not own (R275: it must not write it). Safe. -/
  | notOwnedBySie
  /-- Raised when the port holds a request longer than REQ_LEN can say (R28). Safe. -/
  | requestTooLong
  /-- Raised when the CTS would decode a code that selects nothing; no run reaches it. Safe. -/
  | undecodable (r : Reject)
  deriving DecidableEq, Repr

/-! ## The bit-transport engine -/

/-- One position of a BTE operation's pseudocode: a pin event, a sample, a delay or a register update
(spec/10_state.md R21). -/
inductive Micro where
  /-- `Pin(DCLK) <- b`. -/
  | clk (b : Bit)
  /-- `Pin(BKPT)` to the asserted or deasserted level (R14). -/
  | bkpt (asserted : Bool)
  /-- `Pin(RST)` to the asserted or deasserted level. -/
  | rst (asserted : Bool)
  /-- `Pin(DOUT) <- b`. -/
  | drive (b : Bit)
  /-- `Pin(DOUT) <- SHIFT_OUT[BITCNT]`. -/
  | driveShift
  /-- `b_in <- Sample(DIN)`. -/
  | sample
  /-- `SHIFT_IN[BITCNT] <- b_in`. -/
  | latch
  /-- `SHIFT_OUT <- 0b0 :: w`. -/
  | loadOut (w : Half)
  /-- `SHIFT_IN <- 0`. -/
  | clearIn
  /-- `BITCNT <- n`. -/
  | count (n : BitVec 5)
  /-- `start <- COUNTDOWN` of a delay (R121). -/
  | waitStart
  /-- The polling loop of a delay of `us` microseconds, `ticks` counter ticks (R121, R122). -/
  | waitPoll (ticks us : Nat)
  /-- `RETRY <- RETRY_BUDGET`. -/
  | loadRetry
  /-- `RETRY <- RETRY - 1`. -/
  | decRetry
  /-- `PROBE <- RESYNC_PROBE_MAX`. -/
  | loadProbe
  /-- `PROBE <- PROBE - 1`. -/
  | decProbe
  /-- `RESET_DETECTED <- 0`. -/
  | clearResetDetected
  /-- `REQ_BUF[k]` takes byte `k` of the buffer out (spec/30_encoding.md R93; spec/41_bit_transport.md R140). -/
  | putByte (k : Fin 3)
  /-- `RESULT <- code` (R140). -/
  | setResult (code : Byte)
  deriving DecidableEq, Repr

/-- What follows a straight run of positions: one of the tests the pseudocode makes, or the operation's last position. -/
inductive Tail where
  /-- `BUSY <- 0`, `bte_seq <- Idle`: the last write of a return (R140), one register, BUSY being computed (R25). -/
  | leave
  /-- The two tests of Confirm's loop (R135). -/
  | confirmTest
  /-- The tests of RxRetry's loop (R136); `out`: RXR reports the frame. -/
  | rxTest (out : Bool)
  /-- RESYNC's dead-channel test after the third message (R145). -/
  | resyncTest
  /-- RESYNC's test after a probe pulse (R145). -/
  | probeTest
  deriving DecidableEq, Repr

/-- The operation a running BTE performs (spec/30_encoding.md R93). -/
inductive ReqOp where
  | tx (w : Half)
  | txrx (w : Half)
  | txc
  | rxr
  | resync
  | halt
  | reset (h : Bit)
  | illegal
  deriving DecidableEq, Repr

/-- `bte_seq` (R21): Idle, or Running with the operation and its position, held as what is left of the pseudocode
(log 6). -/
inductive BteSeq where
  | idle
  | running (op : ReqOp) (rest : List Micro) (tail : Tail)
  deriving DecidableEq, Repr

/-- One event of a pin-level trace (spec/00_scope.md R16). -/
inductive PinEvent where
  /-- `C0`/`C1`. -/
  | c (b : Bit)
  /-- `O0`/`O1`. -/
  | o (b : Bit)
  /-- `I=b`. -/
  | i (b : Bit)
  /-- `B+`/`B-`. -/
  | b (asserted : Bool)
  /-- `R+`/`R-`. -/
  | r (asserted : Bool)
  /-- `W(t)`, a delay of at least `t` microseconds. -/
  | w (us : Nat)
  deriving DecidableEq, Repr

/-! ## The CTS and the SIE -/

/-- Where an invocation stands between two of its rows (log 7). -/
inductive CtsPhase where
  /-- Dispatch chooses the next condition of its snapshot (spec/44_usb_dispatcher.md R231). -/
  | select
  /-- HandleToken has called the handler of the endpoint TOK_STATUS names (R236). -/
  | token
  /-- The SETUP event has called Classify (spec/43_ep0_control.md R191, R192). -/
  | request
  deriving DecidableEq, Repr

/-- `cts_seq` (R21): Idle, or InInvocation with Dispatch's snapshot `st`, those of its conditions not yet
acknowledged, and the phase. -/
inductive CtsSeq where
  | idle
  | inInvocation (st rest : Byte) (phase : CtsPhase)
  deriving DecidableEq, Repr

/-- `ctl_state` (R37). -/
inductive CtlState where
  | awaitingSetup
  | dataStage
  | statusPending
  deriving DecidableEq, Repr

/-- One bit for each endpoint and direction: `toggle`, `parity`, `sie_parity` (R38, R39, R44). -/
structure EpBits where
  rx : Vector Bit 16
  tx : Vector Bit 16
  deriving DecidableEq, Repr

/-- All bits 0 (EVEN). -/
def EpBits.zero : EpBits := { rx := Vector.replicate 16 0#1, tx := Vector.replicate 16 0#1 }

/-- A record of the completion queue (R45). -/
structure Completion where
  endpoint : Endpoint
  dir : Dir
  parity : Bit
  deriving DecidableEq, Repr

/-- The registers whose writes a USB trace shows (R16). -/
inductive Reg where
  | intStatus
  | intEnable
  | devAddr
  | ep0Ctl
  deriving DecidableEq, Repr

/-- One event of a USB trace (R16; spec/44_usb_dispatcher.md R244). -/
inductive UsbEvent where
  | submit (e : Endpoint) (p : Bit) (ptr : Word) (n : BitVec 10) (toggle : Bit)
  | rearm (e : Endpoint) (p : Bit)
  | write (r : Reg) (v : Byte)
  | logTransferError
  | logUnexpectedToken (t : BitVec 12)
  | logUnexpectedEndpoint (e : BitVec 4) (d p : Bit)
  | vendorRequest (p : Setup)
  deriving DecidableEq, Repr

/-- What the SIE answers to a token (spec/42_bdt_handoff.md R164 to R171). -/
inductive Reply where
  /-- Data accepted. -/
  | ack
  /-- The not-ready handshake (R166). -/
  | nak
  /-- The STALL handshake (R168). -/
  | stall
  /-- A packet with its data toggle (R165). -/
  | data (toggle : Bit) (bytes : List Byte)
  /-- No answer: dropped, ignored or frozen (R167, R169, R171). -/
  | silent
  deriving DecidableEq, Repr

/-- One token of the host and the SIE's answer. -/
structure BusEvent where
  token : BitVec 4
  endpoint : Endpoint
  reply : Reply
  deriving DecidableEq, Repr

/-! ## The environment's moves -/

/-- A move of the environment, or a turn given to one of the block's two sequencers (spec/60_exceptions.md R275;
log 5). -/
inductive Event where
  /-- The BTE takes its turn: it performs the next request, or what is left of the running one, to completion. -/
  | bte
  /-- The BTE takes one position (R21). -/
  | bteMicro
  /-- The CTS takes its turn: one row of an invocation. -/
  | cts
  /-- The command layer issues a request (spec/41_bit_transport.md R140). -/
  | request (bytes : List Byte)
  /-- The command layer writes REQ_BUF and REQ_LEN without a request (R275). -/
  | writeReq (bytes : List Byte)
  /-- Boot's duty for the BTE: BTE_CFG, and the pins at their idle levels (spec/70_reset_and_hazards.md R292;
  log 17). -/
  | bootBte (v : BitVec 2)
  /-- Boot's duty for the CTS: it writes INT_ENABLE (R293 step 4). -/
  | bootIntEnable (v : Byte)
  /-- The target sets RESET_DETECTED (R25). -/
  | resetSense
  /-- The timer decrements COUNTDOWN `k` times (R29). -/
  | tick (k : Nat)
  /-- The host signals a bus reset (R169). -/
  | busReset
  /-- Start of frame (R172). -/
  | sof
  /-- The bus has been idle (R172). -/
  | sleep
  /-- A bus error (R172). -/
  | busError
  /-- A SETUP token with its 8 data bytes (R164). -/
  | hostSetup (addr : BitVec 7) (e : Endpoint) (p : Setup)
  /-- An OUT token with a data packet (R164, R167). -/
  | hostOut (addr : BitVec 7) (e : Endpoint) (toggle : Bit) (bytes : List Byte)
  /-- An IN token; `acked`: the host acknowledges what it gets (R165). -/
  | hostIn (addr : BitVec 7) (e : Endpoint) (acked : Bool)
  /-- The SIE writes byte `off` of the buffer of a receive slot it owns (R72, U22; log 30). -/
  | sieBuffer (e : Endpoint) (p : Bit) (off : Nat) (b : Byte)
  deriving DecidableEq, Repr

/-! ## The state -/

/-- Everything the spec gives the machine (R20), the SIE's hidden state its rules depend on (R44 to R46), and the
environment's inputs. Plain data only. -/
structure State where
  /-- The open parameters; never written (R20). -/
  cfg : Params
  /-- The coming moves of the environment (log 5). -/
  script : List Event
  /-- Boot's duty for the BTE (R292) is done, or its time is over (R291: not yet done after reset; log 32). -/
  bootBteDone : Bool
  /-- Boot's duty for the CTS (R293) is done, or its time is over. -/
  bootIntDone : Bool
  /-- `bte_seq` (R21); `BUSY` is computed from it (R25). -/
  bteSeq : BteSeq
  /-- `DCLK` (R23). -/
  dclk : Bit
  /-- `DOUT`. -/
  dout : Bit
  /-- `DIN`: the level the target last presented. -/
  din : Bit
  /-- `BKPT`. -/
  bkpt : Bit
  /-- `RST`. -/
  rst : Bit
  /-- `BTE_CFG` (R24): bit 0 BKPT_ACTIVE, bit 1 RST_ACTIVE. -/
  bteCfg : BitVec 2
  /-- `RESET_DETECTED` (R25). -/
  resetDetected : Bit
  /-- `SHIFT_OUT` (R26). -/
  shiftOut : BitVec 17
  /-- `SHIFT_IN` (R26). -/
  shiftIn : BitVec 17
  /-- `BITCNT` (R26). -/
  bitCnt : BitVec 5
  /-- `RETRY` (R27). -/
  retry : Byte
  /-- `PROBE` (R27). -/
  probe : Byte
  /-- The local `b_in` of BitCell (R132). -/
  bIn : Bit
  /-- The local `start` of DelayTicks (R121). -/
  waitStart : Nat
  /-- `REQ_BUF`; `REQ_LEN` is its length (R28). -/
  reqBuf : List Byte
  /-- A request has been issued and not yet accepted (R140). -/
  reqValid : Bool
  /-- `RESULT` (R28). -/
  result : Byte
  /-- `COUNTDOWN` (R29). -/
  countdown : Nat
  /-- How many free values the delays have drawn (log 9). -/
  freeCount : Nat
  /-- The target's coming answers (R47, R131). -/
  target : List Bit
  /-- The pin-level trace, newest first (R16). -/
  pinTrace : List PinEvent
  /-- The shared memory (R60). -/
  mem : Memory
  /-- `INT_STATUS` (R31). -/
  intStatus : Byte
  /-- `INT_ENABLE` (R32). -/
  intEnable : Byte
  /-- `TOK_STATUS` (R33). -/
  tokStatus : Byte
  /-- `DEV_ADDR` (R34). -/
  devAddr : BitVec 7
  /-- `EP0_CTL` and `EPn_CTL` (R35). -/
  epCtl : Vector Byte 16
  /-- `cts_seq` (R21). -/
  ctsSeq : CtsSeq
  /-- `setup` (R36). -/
  setup : Setup
  /-- `ctl_state` (R37). -/
  ctlState : CtlState
  /-- `toggle[e][d]` (R38). -/
  toggle : EpBits
  /-- `parity[e][d]` (R39). -/
  parity : EpBits
  /-- `cursor_valid` (R40). -/
  cursorValid : Bit
  /-- `cursor_ptr`. -/
  cursorPtr : Word
  /-- `cursor_remaining`. -/
  cursorRemaining : Half
  /-- `zlp_pending` (R41). -/
  zlpPending : Bit
  /-- `addr_pending` (R42). -/
  addrPending : Bit
  /-- `addr_value`. -/
  addrValue : BitVec 7
  /-- `faults` (R43), oldest first. -/
  faults : List Fault
  /-- The vendor handler's coming answers (R204; log 12). -/
  vendorAnswers : List VendorAction
  /-- The USB trace, newest first (R16). -/
  usbTrace : List UsbEvent
  /-- `sie_parity[e][d]` (R44). -/
  sieParity : EpBits
  /-- The completion queue, oldest first (R45). -/
  queue : List Completion
  /-- `sie_frozen` (R46). -/
  sieFrozen : Bit
  /-- The SIE's answers on the bus, newest first. -/
  busTrace : List BusEvent
  deriving DecidableEq, Repr

/-- The machine right after power-on reset (R49, R291), with the example parameters (log 1) and the values log 2
names for what R49 calls unspecified. -/
def State.reset : State :=
  { cfg := Config.exampleParams
    script := []
    bootBteDone := false
    bootIntDone := false
    bteSeq := .idle
    dclk := 1#1
    dout := 0#1
    din := 0#1
    bkpt := ~~~Config.exampleParams.bkptActive
    rst := ~~~Config.exampleParams.rstActive
    bteCfg := Config.exampleParams.rstActive ++ Config.exampleParams.bkptActive
    resetDetected := 0#1
    shiftOut := 0#17
    shiftIn := 0#17
    bitCnt := 0#5
    retry := 0#8
    probe := 0#8
    bIn := 0#1
    waitStart := 0
    reqBuf := []
    reqValid := false
    result := 0#8
    countdown := 0
    freeCount := 0
    target := []
    pinTrace := []
    mem := []
    intStatus := 0x00#8
    intEnable := 0x00#8
    tokStatus := 0x00#8
    devAddr := 0#7
    epCtl := Vector.replicate 16 0x00#8
    ctsSeq := .idle
    setup := { requestType := 0#8, requestCode := 0#8, value := 0#16, index := 0#16, length := 0#16 }
    ctlState := .awaitingSetup
    toggle := EpBits.zero
    parity := EpBits.zero
    cursorValid := 0#1
    cursorPtr := 0#32
    cursorRemaining := 0#16
    zlpPending := 0#1
    addrPending := 0#1
    addrValue := 0#7
    faults := []
    vendorAnswers := []
    usbTrace := []
    sieParity := EpBits.zero
    queue := []
    sieFrozen := 0#1
    busTrace := [] }

end Sys2Proof.Machine
end

