-- ==== Sys2Proof/Machine/Ops.lean ====
section
/-!
DEFINITION. The named operations over the shared memory, the per-endpoint bits and the countdown register; the
constraints on the parameters; entering an invocation, returning from one, and raising a fault.
-/

namespace Sys2Proof.Machine

open Sys2Proof

/-! ## Address ranges and the parameters' constraints -/

/-- The `n` bytes at `a` and the `m` bytes at `b` have none in common, addresses taken modulo 2^32
(spec/20_memory.md R69). -/
def disjoint (a : Word) (n : Nat) (b : Word) (m : Nat) : Bool :=
  n = 0 || m = 0 || (decide (n ≤ (b - a).toNat) && decide (m ≤ (a - b).toNat))

/-- A delay of `t` microseconds can be waited for: in one `Delay` or, where it does not fit the counter, in
`DelayMs` steps of 1000 microseconds (spec/40_timing_primitive.md R122, R123). -/
def delayFits (c : Params) (t : Nat) : Bool :=
  decide (t * c.cdTicksPerUs ≤ c.cdReload) || decide (1000 * c.cdTicksPerUs ≤ c.cdReload)

/-- The constraints of spec/00_scope.md R10, spec/20_memory.md R66 and R69, spec/43_ep0_control.md R199 and
spec/70_reset_and_hazards.md R293; the further readings are in log 25. -/
def configOk (c : Params) : Bool :=
  let rx0 := c.ep0RxBufEven
  let rx1 := c.ep0RxBufOdd
  let bdtBytes := 32 * c.numEndpoints
  decide (1 ≤ c.retryBudget ∧ c.retryBudget ≤ 255)
    && decide (1 ≤ c.resyncProbeMax ∧ c.resyncProbeMax ≤ 255)
    && decide (0 < c.tBkptHold ∧ 0 < c.tRstPulse)
    && decide (1 ≤ c.numEndpoints ∧ c.numEndpoints ≤ 16)
    && c.activeEndpoints.contains 0 && decide c.activeEndpoints.Nodup
    && c.activeEndpoints.all (fun e => decide (e.val < c.numEndpoints))
    && decide (0 < c.cdWidth ∧ 0 < c.cdReload ∧ 0 < c.cdTicksPerUs ∧ c.cdReload < 2 ^ c.cdWidth)
    && [c.tFallHold, c.tDataHold, c.tRiseHold, c.tBkptHold, c.tRstPulse, c.tRstSettle].all (delayFits c)
    && decide (1 ≤ c.queueDepth)
    && decide (c.bdtBase.toNat % 512 = 0)
    && disjoint rx0 ep0MaxPacket rx1 ep0MaxPacket
    && disjoint rx0 ep0MaxPacket c.bdtBase bdtBytes && disjoint rx1 ep0MaxPacket c.bdtBase bdtBytes
    && c.descTable.all (fun d =>
        disjoint d.pointer d.length.toNat rx0 ep0MaxPacket && disjoint d.pointer d.length.toNat rx1 ep0MaxPacket
          && disjoint d.pointer d.length.toNat c.bdtBase bdtBytes)
    && c.descTable.any (fun d => decide (d.value = 0x0100#16 ∧ d.index = 0x0000#16))
    && c.descTable.any (fun d => decide (d.value = 0x0300#16 ∧ d.index = 0x0000#16))

/-! ## The shared memory (spec/20_memory.md R60 to R67) -/

/-- The byte a descriptor places at an address, if it covers it (spec/00_scope.md R10: DESC_TABLE with its bytes). -/
def descByte (a : Word) (d : DescEntry) : Option Byte :=
  let off := (a - d.pointer).toNat
  if off < d.length.toNat then some (d.bytes.getD off 0#8) else none

/-- What an address nothing has written reads as: the descriptor byte there, else 0 (the BDT's reset value,
spec/10_state.md R49; DESIGN CHOICE for every other byte, log 3). -/
def romByte (c : Params) (a : Word) : Byte := (c.descTable.findSome? (descByte a)).getD 0#8

/-- The byte listed for an address. -/
def memLookup : Memory → Nat → Option Byte
  | [], _ => none
  | (x, v) :: m, a => if x = a then some v else memLookup m a

/-- List byte `b` at address `a`, keeping the canonical form: rising addresses, and no entry for the byte `d` the
address reads as unlisted. -/
def memSet : Memory → Nat → Byte → Byte → Memory
  | [], a, d, b => if b = d then [] else [(a, b)]
  | (x, v) :: m, a, d, b =>
    if a < x then (if b = d then (x, v) :: m else (a, b) :: (x, v) :: m)
    else if a = x then (if b = d then m else (a, b) :: m)
    else (x, v) :: memSet m a d b

/-- The canonical form from address `lo` on. -/
def memWfFrom (c : Params) (lo : Nat) : Memory → Bool
  | [] => true
  | (a, b) :: m =>
    decide (lo ≤ a) && decide (a < 2 ^ 32) && decide (b ≠ romByte c (BitVec.ofNat 32 a)) && memWfFrom c (a + 1) m

/-- The canonical form of the memory: strictly rising addresses below 2^32, no entry equal to what its address reads
as unlisted. -/
def memWf (c : Params) (m : Memory) : Bool := memWfFrom c 0 m

/-- Read one byte. -/
def readByte (s : State) (a : Word) : Byte := (memLookup s.mem a.toNat).getD (romByte s.cfg a)

/-- Write one byte. -/
def writeByte (a : Word) (b : Byte) (s : State) : State :=
  { s with mem := memSet s.mem a.toNat (romByte s.cfg a) b }

/-- `MemRead(a, n)` (R62): lowest address first, addresses modulo 2^32. -/
def readBytes (s : State) : Word → Nat → List Byte
  | _, 0 => []
  | a, n + 1 => readByte s a :: readBytes s (a + 1#32) n

/-- `MemWrite(a, n, v)` (R62). -/
def writeBytes : Word → List Byte → State → State
  | _, [], s => s
  | a, b :: bs, s => writeBytes (a + 1#32) bs (writeByte a b s)

/-- Read a 32-bit word, least significant byte at the lowest address (R62). -/
def readWord (s : State) (a : Word) : Word :=
  readByte s (a + 3#32) ++ readByte s (a + 2#32) ++ readByte s (a + 1#32) ++ readByte s a

/-- Byte `k` of a 32-bit word (R65). -/
def wordByte (v : Word) (k : Nat) : Byte := v.extractLsb' (8 * k) 8

/-- Write a 32-bit word, little-endian, as one store (R62, R67). -/
def writeWord (a v : Word) (s : State) : State :=
  writeBytes a [wordByte v 0, wordByte v 1, wordByte v 2, wordByte v 3] s

/-- Some of the `n` bytes at `a` belong to a descriptor: they are immutable (R75). -/
def touchesDescriptor (c : Params) (a : Word) (n : Nat) : Bool :=
  c.descTable.any (fun d => !disjoint a n d.pointer d.length.toNat)

/-! ## Bits by endpoint and direction -/

/-- Read `x[e][d]`. -/
def EpBits.get (x : EpBits) (e : Endpoint) : Dir → Bit
  | .rx => x.rx[e]
  | .tx => x.tx[e]

/-- `x[e][d] <- b`. -/
def EpBits.set (x : EpBits) (e : Endpoint) (d : Dir) (b : Bit) : EpBits :=
  match d with
  | .rx => { x with rx := x.rx.set e b }
  | .tx => { x with tx := x.tx.set e b }

/-- `x[e][d] <- x[e][d] xor 1` (spec/45_operation_laws.md R250). -/
def EpBits.flip (x : EpBits) (e : Endpoint) (d : Dir) : EpBits := x.set e d (x.get e d ^^^ 1#1)

/-! ## The countdown register (spec/10_state.md R29; spec/40_timing_primitive.md R121) -/

/-- COUNTDOWN after `k` ticks: it counts down and takes CD_RELOAD after 0 (R29). -/
def countDown (c : Params) (now k : Nat) : Nat :=
  if k ≤ now then now - k else c.cdReload - (k - now - 1) % (c.cdReload + 1)

/-- `(start - now) mod (CD_RELOAD + 1)`, the ticks a delay's loop sees elapsed. -/
def elapsed (c : Params) (start now : Nat) : Nat :=
  (start + (c.cdReload + 1) - now % (c.cdReload + 1)) % (c.cdReload + 1)

/-- The timer agent runs until a delay of `ticks` is over: COUNTDOWN moves so far that at least `ticks` have elapsed
since `waitStart`, by an amount beyond that which is a free value (spec/93_implementation_defined.md U11; log 9). -/
def timerRuns (ticks : Nat) (s : State) : State :=
  let seen := elapsed s.cfg s.waitStart s.countdown
  let base := max ticks seen
  let extra := Config.delayExtra s.freeCount % (s.cfg.cdReload + 1 - base)
  { s with countdown := countDown s.cfg s.countdown (base - seen + extra), freeCount := s.freeCount + 1 }

/-! ## Faults, entry and return (spec/60_exceptions.md R262, R266, R267) -/

/-- `raise f` (R262): the fault is recorded and never cleared. The CTS is stopped by any record (see `ctsStopped`);
cts_seq stays InInvocation, since the invocation ends without return (R267). -/
def raise (f : Fault) (s : State) : State := { s with faults := s.faults ++ [f] }

/-- A recorded fault has stopped the CTS: only the CTS raises faults (R262). -/
def ctsStopped (s : State) : Bool := !s.faults.isEmpty

/-- Entry (R266, spec/44_usb_dispatcher.md R231): `cts_seq <- InInvocation` and the one read of INT_STATUS. Nothing
is saved and no mask changes. -/
def enterInvocation (s : State) : State := { s with ctsSeq := .inInvocation s.intStatus s.intStatus .select }

/-- Within an invocation: the conditions `v` are done, and Dispatch goes on to the next of its snapshot or returns
(R231, R267: `cts_seq <- Idle`, nothing is restored). -/
def conditionDone (v : Byte) (s : State) : State :=
  match s.ctsSeq with
  | .idle => s
  | .inInvocation st rest _ =>
    if rest &&& ~~~v &&& 0x9F#8 = 0#8 then { s with ctsSeq := .idle }
    else { s with ctsSeq := .inInvocation st (rest &&& ~~~v) .select }

/-- Within an invocation: control passes to the next selection. -/
def callPhase (ph : CtsPhase) (s : State) : State :=
  match s.ctsSeq with
  | .idle => s
  | .inInvocation st rest _ => { s with ctsSeq := .inInvocation st rest ph }

/-- The result of a CTS operation: it goes on, or a fault was raised and the rest is not performed (R262). -/
inductive Flow where
  | go (s : State)
  | halted (s : State)
  deriving DecidableEq, Repr

/-- Sequence two operations; a raised fault skips the second. -/
def Flow.andThen (f : Flow) (k : State → Flow) : Flow :=
  match f with
  | .go s => k s
  | .halted s => .halted s

/-- The state an operation leaves, fault or not. -/
def Flow.state : Flow → State
  | .go s => s
  | .halted s => s

/-- A row of the CTS answers the state it leaves. -/
def Flow.outcome (f : Flow) : Host.Outcome State Fault Refusal := .next f.state

end Sys2Proof.Machine
end

