-- ==== Sys2Proof/Machine/Operands.lean ====
section
/-!
DEFINITION. Every operand form: the words of a BDT slot and their fields, the slot a token-done event names, the
event code, the frame of the last message, and the buffer bytes a request returns (spec/30_encoding.md R91 to R106).
-/

namespace Sys2Proof.Machine

open Sys2Proof

/-! ## Frames (R91) -/

/-- `SHIFT_IN[16]`: the status bit of the last frame. -/
def frameStatus (s : State) : Bit := s.shiftIn.extractLsb' 16 1

/-- `SHIFT_IN[15:0]`: the response word of the last frame. -/
def frameData (s : State) : Half := s.shiftIn.extractLsb' 0 16

/-- Byte `k` of the buffer out of TXRX and RXR (R93): the status bit zero-extended, then the word big-endian. -/
def reportByte (s : State) : Fin 3 → Byte
  | 0 => 0#7 ++ frameStatus s
  | 1 => highByte (frameData s)
  | 2 => lowByte (frameData s)

/-! ## BDT slots (R99 to R101) -/

/-- A direction's number (spec/00_scope.md R15). -/
def dirNum : Dir → Nat
  | .rx => 0
  | .tx => 1

/-- The direction a bit says: TOK_STATUS bit 3 (R103). -/
def dirOfBit (b : Bit) : Dir := if b = 1#1 then .tx else .rx

/-- A direction as a bit. -/
def dirBit : Dir → Bit
  | .rx => 0#1
  | .tx => 1#1

/-- `index = endpoint*4 + direction*2 + parity` (R100). -/
def slotIndex (e : Endpoint) (d : Dir) (p : Bit) : Nat := e.val * 4 + dirNum d * 2 + p.toNat

/-- Slot `i` stands at `BDT_BASE + 8*i` (R101): the address of its control word. -/
def slotAddr (c : Params) (e : Endpoint) (d : Dir) (p : Bit) : Word := c.bdtBase + BitVec.ofNat 32 (8 * slotIndex e d p)

/-- A control word from its fields, reserved bits 0 (R99). -/
def ctlWord (n : BitVec 10) (own tog : Bit) (tok : BitVec 4) : Word := 0#6 ++ n ++ 0#8 ++ own ++ tog ++ tok ++ 0#2

/-- `byte_count`, bits 25:16. -/
def ctlCount (w : Word) : BitVec 10 := w.extractLsb' 16 10

/-- `ownership`, bit 7. -/
def ctlOwn (w : Word) : Bit := w.extractLsb' 7 1

/-- `data_toggle`, bit 6. -/
def ctlToggle (w : Word) : Bit := w.extractLsb' 6 1

/-- `token`, bits 5:2. -/
def ctlToken (w : Word) : BitVec 4 := w.extractLsb' 2 4

/-- The control word of a slot. -/
def slotCtl (s : State) (e : Endpoint) (d : Dir) (p : Bit) : Word := readWord s (slotAddr s.cfg e d p)

/-- The buffer word of a slot. -/
def slotBuf (s : State) (e : Endpoint) (d : Dir) (p : Bit) : Word := readWord s (slotAddr s.cfg e d p + 4#32)

/-- Store a slot: the buffer word first, then the control word in one store (spec/20_memory.md R70, R73). -/
def writeSlot (e : Endpoint) (d : Dir) (p : Bit) (buf ctl : Word) (s : State) : State :=
  writeWord (slotAddr s.cfg e d p) ctl (writeWord (slotAddr s.cfg e d p + 4#32) buf s)

/-- The address `RXBUF(e, p)` (spec/42_bdt_handoff.md R163): endpoint 0's two buffers; a free value for any other
endpoint (log 11). -/
def rxBuf (c : Params) (e : Endpoint) (p : Bit) : Word :=
  if e = 0 then (if p = 0#1 then c.ep0RxBufEven else c.ep0RxBufOdd) else Config.rxBufAddr e p

/-- `RXBUF_SIZE(e)` (R163): every receive slot's buffer has 64 bytes, whichever endpoint it belongs to
(spec/92_eei_decisions.md D24), the most a rule writes as a byte count (spec/30_encoding.md R99). -/
def rxBufSize (_e : Endpoint) : BitVec 10 := BitVec.ofNat 10 ep0MaxPacket

/-- The control word of an armed receive slot (R163): full size, toggle 1, token 0, owned by the SIE. -/
def armedCtl (e : Endpoint) : Word := ctlWord (rxBufSize e) 1#1 1#1 0#4

/-! ## Token-done events (R103, R106) -/

/-- `TOK_STATUS` for a completion record: endpoint in bits 7:4, direction bit 3, parity bit 2, bits 1:0 zero. -/
def tokStatusOf (r : Completion) : Byte := BitVec.ofNat 4 r.endpoint.val ++ dirBit r.dir ++ r.parity ++ 0#2

/-- Endpoint, direction and parity that TOK_STATUS names. -/
def tokEndpoint (s : State) : Endpoint := (s.tokStatus.extractLsb' 4 4).toFin

/-- Bit 3. -/
def tokDir (s : State) : Dir := dirOfBit (s.tokStatus.extractLsb' 3 1)

/-- Bit 2. -/
def tokParity (s : State) : Bit := s.tokStatus.extractLsb' 2 1

/-- The event code `T = TOK_STATUS :: slot.token`, the slot being the one TOK_STATUS names. -/
def tokenCode (s : State) : BitVec 12 :=
  s.tokStatus ++ ctlToken (slotCtl s (tokEndpoint s) (tokDir s) (tokParity s))

end Sys2Proof.Machine
end

