-- ==== Sys2Proof/Machine/Flags.lean ====
section
/-!
DEFINITION. Every flag's rule (spec/10_state.md R48): BUSY and BTE_STAT, the asserted levels of the pins, the
condition bits of INT_STATUS with their acknowledgement and its side effects, and the endpoint-control bits.
-/

namespace Sys2Proof.Machine

open Sys2Proof

/-- `BUSY` is 1 exactly when `bte_seq` is Running (R25). -/
def busy (s : State) : Bit :=
  match s.bteSeq with
  | .idle => 0#1
  | .running _ _ _ => 1#1

/-- `BTE_STAT` as the command layer reads it (R25). -/
def bteStat (s : State) : BitVec 2 := busy s ++ s.resetDetected

/-- The level of the breakpoint pin when asserted or not (spec/00_scope.md R14). -/
def bkptLevel (s : State) (asserted : Bool) : Bit :=
  let active := s.bteCfg.extractLsb' 0 1
  if asserted then active else ~~~active

/-- The level of the reset pin when asserted or not. -/
def rstLevel (s : State) (asserted : Bool) : Bit :=
  let active := s.bteCfg.extractLsb' 1 1
  if asserted then active else ~~~active

/-! ## INT_STATUS (R31, R104) -/

/-- The SIE sets condition bits; a set bit stays until acknowledged. -/
def setCondition (v : Byte) (s : State) : State := { s with intStatus := s.intStatus ||| v }

/-- The dispatcher is invoked while some condition is asserted and enabled (R32, spec/44_usb_dispatcher.md R230). -/
def invocationCondition (s : State) : Bool := s.intStatus &&& s.intEnable ≠ 0#8

/-- The SIE appends a completion record: TOKDNE is 1 and TOK_STATUS shows the head (R33, R45). -/
def pushCompletion (r : Completion) (s : State) : State :=
  { s with
    queue := s.queue ++ [r]
    tokStatus := if s.queue.isEmpty then tokStatusOf r else s.tokStatus
    intStatus := s.intStatus ||| 0x08#8 }

/-- Acknowledging TOKDNE removes the head; if a record remains TOKDNE stays 1 and TOK_STATUS shows it
(spec/42_bdt_handoff.md R170). -/
def popCompletion (s : State) : State :=
  match s.queue.tail with
  | [] => { s with queue := [] }
  | r :: q => { s with queue := r :: q, tokStatus := tokStatusOf r, intStatus := s.intStatus ||| 0x08#8 }

/-- Acknowledging USBRST: the SIE empties the queue, clears TOKDNE, sets every parity to EVEN and unfreezes (R169). -/
def busResetAcknowledged (s : State) : State :=
  { s with
    queue := []
    intStatus := s.intStatus &&& ~~~0x08#8
    sieParity := EpBits.zero
    sieFrozen := 0#1 }

/-- `INT_STATUS <- v` by the CTS: a 1 clears that condition, a 0 leaves it, the reserved bits are ignored; with the
side effects of TOKDNE and USBRST (spec/20_memory.md R68, spec/44_usb_dispatcher.md R239). -/
def ackStatus (v : Byte) (s : State) : State :=
  let s := { s with intStatus := s.intStatus &&& ~~~(v &&& 0x9F#8), usbTrace := .write .intStatus v :: s.usbTrace }
  let s := if v.getLsbD 3 then popCompletion s else s
  if v.getLsbD 0 then busResetAcknowledged s else s

/-! ## EP0_CTL and EPn_CTL (R35, R105) -/

/-- `EPe_CTL.STALL`, bit 1. -/
def epStalled (s : State) (e : Endpoint) : Bool := (s.epCtl[e]).getLsbD 1

/-- The CTS writes EP0_CTL. -/
def writeEp0Ctl (v : Byte) (s : State) : State :=
  { s with epCtl := s.epCtl.set 0 v, usbTrace := .write .ep0Ctl v :: s.usbTrace }

/-- The SIE clears `EP0_CTL.STALL` when it accepts a SETUP token on endpoint 0 (R168). -/
def clearEp0Stall (s : State) : State := { s with epCtl := s.epCtl.set 0 (s.epCtl[0] &&& ~~~0x02#8) }

end Sys2Proof.Machine
end

