-- ==== Sys2Proof/Machine/Handoff.lean ====
section
/-!
DEFINITION. The CTS's side of the buffer-descriptor hand-off (spec/42_bdt_handoff.md R160 to R163).
-/

namespace Sys2Proof.Machine

open Sys2Proof

/-- `Submit(e, ptr, n)` (R161): SlotBusy if the slot the tracker names is SIE-owned; else the buffer word, then the
control word with the count, the toggle and ownership in one store, then toggle and parity flip. -/
def submit (e : Endpoint) (ptr : Word) (n : BitVec 10) (s : State) : Flow :=
  let p := s.parity.get e .tx
  let tog := s.toggle.get e .tx
  if ctlOwn (slotCtl s e .tx p) = 1#1 then .halted (raise (.slotBusy e .tx p) s)
  else
    let s := writeSlot e .tx p ptr (ctlWord n 1#1 tog 0#4) s
    .go { s with
      toggle := s.toggle.flip e .tx
      parity := s.parity.flip e .tx
      usbTrace := .submit e p ptr n tog :: s.usbTrace }

/-- `Consume(S)` (R162): OwnershipViolation if the slot is SIE-owned; else the byte count is handed on, and only then
may the buffer be read. -/
def consume (e : Endpoint) (d : Dir) (p : Bit) (s : State) (k : BitVec 10 → State → Flow) : Flow :=
  let ctl := slotCtl s e d p
  if ctlOwn ctl = 1#1 then .halted (raise (.ownershipViolation e d p) s) else k (ctlCount ctl) s

/-- `Rearm(e, p)` (R163): the receive slot goes back to the SIE with its own buffer, full size and toggle 1. -/
def rearm (e : Endpoint) (p : Bit) (s : State) : State :=
  let s := writeSlot e .rx p (rxBuf s.cfg e p) (armedCtl e) s
  { s with parity := s.parity.flip e .rx, usbTrace := .rearm e p :: s.usbTrace }

end Sys2Proof.Machine
end

