-- ==== Sys2Proof/Machine/Control.lean ====
section
/-!
DEFINITION. The endpoint-0 control-transfer sequencer (spec/43_ep0_control.md): acknowledgement, responses in
packet-sized chunks, the stall path, and the meanings of the five SETUP rows and the four endpoint-0 TOKEN rows.
-/

namespace Sys2Proof.Machine

open Sys2Proof

/-! ## Internal operations -/

/-- `Ack()` (R196): a zero-length packet, then StatusPending. -/
def ackRequest (s : State) : Flow :=
  (submit 0 0#32 0#10 s).andThen fun s => .go { s with ctlState := .statusPending }

/-- `cursor_valid <- (cursor_remaining > 0) or (zlp_pending = 1)`, the last line of R198. -/
def updateCursorValid (s : State) : State :=
  { s with cursorValid := if s.cursorRemaining ≠ 0#16 ∨ s.zlpPending = 1#1 then 1#1 else 0#1 }

/-- `min(r, MPS)`: the size of the next chunk (R198). -/
def chunkSize (r : Half) : Half := if r.toNat ≤ ep0MaxPacket then r else BitVec.ofNat 16 ep0MaxPacket

/-- `ServiceChunk()` (R198): the cursor's next chunk, or the terminating zero-length packet. -/
def serviceChunk (s : State) : Flow :=
  if s.cursorRemaining ≠ 0#16 then
    let k := chunkSize s.cursorRemaining
    (submit 0 s.cursorPtr (k.setWidth 10) s).andThen fun s =>
      .go (updateCursorValid { s with
        cursorPtr := s.cursorPtr + k.setWidth 32
        cursorRemaining := s.cursorRemaining - k })
  else if s.zlpPending = 1#1 then
    (submit 0 0#32 0#10 s).andThen fun s => .go (updateCursorValid { s with zlpPending := 0#1 })
  else .go (updateCursorValid s)

/-- `n = min(len, setup.length)` (R197). -/
def responseSize (len limit : Half) : Half := if len.toNat ≤ limit.toNat then len else limit

/-- A terminating zero-length packet is owed: the host asked for more than there is, there is something, and it ends
on a packet boundary (R197). -/
def owesZlp (len limit : Half) : Bool :=
  let n := responseSize len limit
  decide (len.toNat < limit.toNat) && decide (n ≠ 0#16) && decide (n.toNat % ep0MaxPacket = 0)

/-- `StartResponse(ptr, len)` (R197) for a request whose length field is `limit`: truncate, then up to two chunks at
once; what is left stays in the cursor. -/
def startResponse (ptr : Word) (len limit : Half) (s : State) : Flow :=
  let n := responseSize len limit
  let s := { s with
    zlpPending := if owesZlp len limit then 1#1 else 0#1
    cursorPtr := ptr
    cursorRemaining := n }
  if n = 0#16 then
    (submit 0 0#32 0#10 s).andThen fun s => .go { s with cursorValid := 0#1, ctlState := .statusPending }
  else
    (serviceChunk s).andThen fun s =>
      (if s.cursorRemaining ≠ 0#16 ∨ s.zlpPending = 1#1 then serviceChunk s else .go s).andThen fun s =>
        .go { s with ctlState := .dataStage }

/-- `StallPath()` (R202): the stall and handshake bits, AwaitingSetup; nothing is submitted. The two field assignments
are one store of 0x03, shown as one register write (DESIGN CHOICE, log 23). -/
def stallPath (s : State) : Flow := .go { writeEp0Ctl 0x03#8 s with ctlState := .awaitingSetup }

/-- The end of HandleToken: the handler has returned, TOKDNE is acknowledged, and Dispatch goes on
(spec/44_usb_dispatcher.md R231, R239). -/
def handlerReturn (s : State) : Flow := .go (conditionDone 0x08#8 (ackStatus 0x08#8 s))

/-- The first entry of DESC_TABLE with exactly this key (R193). -/
def findDescriptor (c : Params) (value index : Half) : Option DescEntry :=
  c.descTable.find? fun d => decide (d.value = value ∧ d.index = index)

/-- The vendor handler's answer to this request (R204): the next of its coming answers (log 12). -/
def vendorAnswer (s : State) : VendorAction × State :=
  match s.vendorAnswers with
  | [] => (s.cfg.vendorDefault, s)
  | a :: rest => (a, { s with vendorAnswers := rest })

/-! ## The SETUP rows -/

/-- `VENDOR` (R204): the request is shown to the vendor handler, which answers one of four actions. -/
def execVendor (requestType requestCode : Byte) (value index length : Half) (s : State) :
    Host.Outcome State Fault Refusal :=
  let p : Setup :=
    { requestType := requestType, requestCode := requestCode, value := value, index := index, length := length }
  let s := { s with usbTrace := .vendorRequest p :: s.usbTrace }
  let (a, s) := vendorAnswer s
  let r := match a with
    | .respond ptr len => startResponse ptr len length s
    | .acknowledge => ackRequest s
    | .reject => stallPath s
    | .nothing => .go s
  (r.andThen handlerReturn).outcome

/-- `GET_DESCRIPTOR` (R193): the first matching entry is the response; no match is the stall path. -/
def execGetDescriptor (_requestType : Byte) (value index length : Half) (s : State) :
    Host.Outcome State Fault Refusal :=
  let r := match findDescriptor s.cfg value index with
    | some d => startResponse d.pointer d.length length s
    | none => stallPath s
  (r.andThen handlerReturn).outcome

/-- `SET_ADDRESS` (R194): the low 7 bits are recorded, DEV_ADDR is not written, and the request is acknowledged. -/
def execSetAddress (_requestType : Byte) (value _index _length : Half) (s : State) :
    Host.Outcome State Fault Refusal :=
  let s := { s with addrValue := value.extractLsb' 0 7, addrPending := 1#1 }
  ((ackRequest s).andThen handlerReturn).outcome

/-- `SET_CONFIGURATION` (R195): acknowledged and nothing else. -/
def execSetConfiguration (_requestType : Byte) (_value _index _length : Half) (s : State) :
    Host.Outcome State Fault Refusal :=
  ((ackRequest s).andThen handlerReturn).outcome

/-- `UNRECOGNISED` (R203): the stall path. -/
def execUnrecognised (_requestType _requestCode : Byte) (_value _index _length : Half) (s : State) :
    Host.Outcome State Fault Refusal :=
  ((stallPath s).andThen handlerReturn).outcome

/-! ## The endpoint-0 TOKEN rows -/

/-- `EP0.SETUP` (R190, R191): Consume, the snapshot, Rearm, the toggle to 1, every pending thing of an abandoned
transfer cleared, and then Classify, which is the next row of this invocation (log 7). -/
def execEp0Setup (p : Bit) (s : State) : Host.Outcome State Fault Refusal :=
  (consume 0 .rx p s fun n s =>
    if n ≠ 8#10 then .halted (raise (.badSetupLength n) s)
    else
      let snapshot := match readBytes s (slotBuf s 0 .rx p) 8 with
        | [b0, b1, b2, b3, b4, b5, b6, b7] => Setup.ofBytes b0 b1 b2 b3 b4 b5 b6 b7
        | _ => s.setup
      let s := rearm 0 p { s with setup := snapshot }
      .go (callPhase .request { s with
        toggle := s.toggle.set 0 .tx 1#1
        cursorValid := 0#1
        cursorRemaining := 0#16
        zlpPending := 0#1
        addrPending := 0#1 })).outcome

/-- `EP0.OUT` (R201): no payload processing; the slot is re-armed at once. -/
def execEp0Out (p : Bit) (s : State) : Host.Outcome State Fault Refusal :=
  ((consume 0 .rx p s fun _ s =>
    let s := rearm 0 p s
    .go { s with ctlState := if s.ctlState = .dataStage then .awaitingSetup else s.ctlState }).andThen
      handlerReturn).outcome

/-- `DEV_ADDR <- v`. -/
def writeDevAddr (v : BitVec 7) (s : State) : State :=
  { s with devAddr := v, usbTrace := .write .devAddr (0#1 ++ v) :: s.usbTrace }

/-- The status stage of a deferred SET_ADDRESS applies the address (R200). -/
def applyAddress (s : State) : State :=
  if s.addrPending = 1#1 then { writeDevAddr s.addrValue s with addrPending := 0#1 } else s

/-- `EP0.IN` (R200): one chunk if the cursor exists, then the deferred address, then the state register. -/
def execEp0In (p : Bit) (s : State) : Host.Outcome State Fault Refusal :=
  ((consume 0 .tx p s fun _ s =>
    (if s.cursorValid = 1#1 then serviceChunk s else .go s).andThen fun s =>
      let s := applyAddress s
      .go { s with ctlState := if s.ctlState = .statusPending then .awaitingSetup else s.ctlState }).andThen
        handlerReturn).outcome

/-- `EP0.UNEXPECTED` (R205): logged; the slot is left as it is. -/
def execEp0Unexpected (t : BitVec 12) (s : State) : Host.Outcome State Fault Refusal :=
  ((consume 0 (dirOfBit (tokenDirection t)) (tokenParity t) s fun _ s =>
    .go { s with usbTrace := .logUnexpectedToken t :: s.usbTrace }).andThen handlerReturn).outcome

end Sys2Proof.Machine
end

