-- ==== Sys2Proof/Machine/Dispatcher.lean ====
section
/-!
DEFINITION. The USB condition dispatcher (spec/44_usb_dispatcher.md): the bus-reset rebuild, the default handler, and
the meanings of the six COND rows and of EPN.DEFAULT. Each COND row is its handler followed by the acknowledgement
Dispatch gives it (R231); TOKDNE is acknowledged by the row that ends its handler.
-/

namespace Sys2Proof.Machine

open Sys2Proof

/-- The four slots and the trackers of one active endpoint (R233). -/
def rebuildEndpoint (e : Endpoint) (s : State) : State :=
  let arm (p : Bit) (s : State) : State :=
    let s := writeWord (slotAddr s.cfg e .tx p) 0#32 s
    let s := writeWord (slotAddr s.cfg e .tx p + 4#32) 0#32 s
    writeSlot e .rx p (rxBuf s.cfg e p) (armedCtl e) s
  let s := arm 1#1 (arm 0#1 s)
  { s with
    parity := (s.parity.set e .rx 0#1).set e .tx 0#1
    toggle := (s.toggle.set e .rx 0#1).set e .tx 0#1 }

/-- The rebuild of every active endpoint, in the order ACTIVE_ENDPOINTS lists them. -/
def rebuildEndpoints : List Endpoint → State → State
  | [], s => s
  | e :: es, s => rebuildEndpoints es (rebuildEndpoint e s)

/-- `INT_ENABLE <- v`; writes of its reserved bits 5 and 6 are ignored (spec/30_encoding.md R104). -/
def writeIntEnable (v : Byte) (s : State) : State :=
  { s with intEnable := v &&& 0x9F#8, usbTrace := .write .intEnable v :: s.usbTrace }

/-- `BusResetRebuild()` (R233): "an atomic teardown-and-rebuild of all transfer state". -/
def busResetRebuild (s : State) : State :=
  let s := rebuildEndpoints s.cfg.activeEndpoints s
  let s := { s with
    cursorValid := 0#1
    cursorRemaining := 0#16
    cursorPtr := 0#32
    zlpPending := 0#1
    addrPending := 0#1
    addrValue := 0#7
    ctlState := .awaitingSetup }
  writeIntEnable 0x9F#8 (writeEp0Ctl 0x01#8 (writeDevAddr 0#7 s))

/-- Dispatch's snapshot `st` (R231): the one read of INT_STATUS at entry. -/
def snapshot (s : State) : Byte :=
  match s.ctsSeq with
  | .idle => s.intStatus
  | .inInvocation st _ _ => st

/-! ## The COND rows -/

/-- `USBRST` (R232): rebuild, acknowledge every bit of the snapshot, return without any other handler. -/
def execUsbrst (s : State) : Host.Outcome State Fault Refusal :=
  let st := snapshot s
  .next { ackStatus st (busResetRebuild s) with ctsSeq := .idle }

/-- `ERROR` (R234): logged and acknowledged. -/
def execError (s : State) : Host.Outcome State Fault Refusal :=
  .next (conditionDone 0x02#8 (ackStatus 0x02#8 { s with usbTrace := .logTransferError :: s.usbTrace }))

/-- `SOFTOK` (R235): acknowledged and that is all. -/
def execSoftok (s : State) : Host.Outcome State Fault Refusal :=
  .next (conditionDone 0x04#8 (ackStatus 0x04#8 s))

/-- `TOKDNE` (R236): control passes to the handler of the endpoint TOK_STATUS names, which is the next row of this
invocation (log 7); TOKDNE is acknowledged when that handler returns. -/
def execTokdne (s : State) : Host.Outcome State Fault Refusal := .next (callPhase .token s)

/-- `SLEEP` (R237): acknowledged only. -/
def execSleep (s : State) : Host.Outcome State Fault Refusal :=
  .next (conditionDone 0x10#8 (ackStatus 0x10#8 s))

/-- `STALL` (R238): acknowledged only; EP0_CTL.STALL is not cleared here. -/
def execStall (s : State) : Host.Outcome State Fault Refusal :=
  .next (conditionDone 0x80#8 (ackStatus 0x80#8 s))

/-! ## The default handler -/

/-- `EPN.DEFAULT` (R241): the event is logged; the slot is neither consumed nor re-armed. -/
def execEpnDefault (t : BitVec 12) (s : State) : Host.Outcome State Fault Refusal :=
  ((Flow.go { s with
      usbTrace := .logUnexpectedEndpoint (tokenEndpoint t) (tokenDirection t) (tokenParity t) :: s.usbTrace }).andThen
    handlerReturn).outcome

end Sys2Proof.Machine
end

