-- ==== Sys2Proof/Machine/Transport.lean ====
section
/-!
DEFINITION. The bit-transport engine (spec/41_bit_transport.md, spec/40_timing_primitive.md): the positions of the
pseudocode, the programs of the operations, running one position or a whole operation, and the meanings of the eight
REQ rows.
-/

namespace Sys2Proof.Machine

open Sys2Proof

/-! ## Status bytes (spec/30_encoding.md R94) -/

/-- `OK`. -/
def statusOk : Byte := 0x00#8
/-- `ERR_BUSY`. -/
def statusBusy : Byte := 0x01#8
/-- `ERR_TARGET`. -/
def statusTarget : Byte := 0x02#8
/-- `ERR_RESYNC_DEAD`. -/
def statusResyncDead : Byte := 0x03#8
/-- `ERR_RESYNC_NOSTART`. -/
def statusResyncNoStart : Byte := 0x04#8
/-- `ERR_ILLEGAL_OP`. -/
def statusIllegalOp : Byte := 0x05#8

/-! ## Programs -/

/-- The positions of `Delay(t)` (R122), or of `DelayMs` where `t` does not fit the counter (R123; log 10). -/
def delay (c : Params) (t : Nat) : List Micro :=
  if t * c.cdTicksPerUs ≤ c.cdReload then [.waitStart, .waitPoll (t * c.cdTicksPerUs) t]
  else (List.replicate ((t + 999) / 1000) [.waitStart, .waitPoll (1000 * c.cdTicksPerUs) 1000]).flatten

/-- `BitCell` with the drive position `d` (R132): low, hold, drive, sample, hold, high, hold. -/
def cell (c : Params) (d : Micro) : List Micro :=
  [.clk 0#1] ++ delay c c.tFallHold ++ [d, .sample] ++ delay c c.tDataHold ++ [.clk 1#1] ++ delay c c.tRiseHold

/-- `SHIFT_IN[BITCNT] <- BitCell(SHIFT_OUT[BITCNT])` for one value of BITCNT (R133). -/
def frameCell (c : Params) (n : Nat) : List Micro := .count (BitVec.ofNat 5 n) :: (cell c .driveShift ++ [.latch])

/-- The cells of BITCNT `n-1` down to 0. -/
def frameCells (c : Params) : Nat → List Micro
  | 0 => []
  | n + 1 => frameCell c n ++ frameCells c n

/-- `MsgTxRx(w)` (R133): 17 cells, most significant bit first. -/
def message (c : Params) (w : Half) : List Micro := [.loadOut w, .clearIn] ++ frameCells c 17

/-- One exchange of a retrying operation: `MsgTxRx(FILLER_WORD)`, `RETRY <- RETRY - 1` (R135, R136). -/
def retryExchange (c : Params) : List Micro := message c c.fillerWord ++ [.decRetry]

/-- One probe pulse of RESYNC: `b <- BitCell(0)`, `PROBE <- PROBE - 1` (R145). -/
def probePulse (c : Params) : List Micro := cell c (.drive 0#1) ++ [.decProbe]

/-- RESYNC's completing cells: FILLER_WORD bits `n-1` down to 0, samples discarded (R145). -/
def completingCells (c : Params) : Nat → List Micro
  | 0 => []
  | n + 1 => cell c (.drive (BitVec.ofBool (c.fillerWord.getLsbD n))) ++ completingCells c n

/-- The writes of `return code` in R140's order: the buffer-out bytes if the operation reports its frame (`out`), then
RESULT. BUSY and `bte_seq` follow as `Tail.leave`. -/
def returnWrites (code : Byte) (out : Bool) : List Micro :=
  (if out then [.putByte 0, .putByte 1, .putByte 2] else []) ++ [.setResult code]

/-- The positions of an operation up to its first test or its end, and what follows (R141 to R148). -/
def program (c : Params) : ReqOp → List Micro × Tail
  | .tx w => (message c w ++ returnWrites statusOk false, .leave)
  | .txrx w => (message c w ++ returnWrites statusOk true, .leave)
  | .txc => (.loadRetry :: retryExchange c, .confirmTest)
  | .rxr => (.loadRetry :: retryExchange c, .rxTest true)
  | .resync => (message c c.fillerWord ++ message c c.fillerWord ++ message c c.fillerWord, .resyncTest)
  | .halt => ([.bkpt true] ++ delay c c.tBkptHold ++ [.bkpt false] ++ .loadRetry :: retryExchange c, .rxTest false)
  | .reset h =>
    ((if h = 1#1 then [.bkpt true] else []) ++ [.rst true] ++ delay c c.tRstPulse ++ [.rst false]
        ++ delay c c.tRstSettle ++ (if h = 1#1 then [.bkpt false] else []) ++ [.clearResetDetected]
        ++ .loadRetry :: retryExchange c, .rxTest false)
  | .illegal => (returnWrites statusIllegalOp false, .leave)

/-! ## One position -/

/-- `Sample(DIN)` (R131): the target's next answer; once its answers are used up the pin keeps its level (log 8). -/
def sampleDin (s : State) : State :=
  match s.target with
  | [] => { s with bIn := s.din, pinTrace := .i s.din :: s.pinTrace }
  | b :: rest => { s with din := b, bIn := b, target := rest, pinTrace := .i b :: s.pinTrace }

/-- `v[n] <- b` on a 17-bit register. -/
def setFrameBit (v : BitVec 17) (n : Nat) (b : Bit) : BitVec 17 :=
  (v &&& ~~~(1#17 <<< n)) ||| (b.setWidth 17 <<< n)

/-- What a position does; a delay's poll is performed when its loop ends. -/
def doMicro (m : Micro) (s : State) : State :=
  match m with
  | .clk b => { s with dclk := b, pinTrace := .c b :: s.pinTrace }
  | .bkpt a => { s with bkpt := bkptLevel s a, pinTrace := .b a :: s.pinTrace }
  | .rst a => { s with rst := rstLevel s a, pinTrace := .r a :: s.pinTrace }
  | .drive b => { s with dout := b, pinTrace := .o b :: s.pinTrace }
  | .driveShift =>
    let b := BitVec.ofBool (s.shiftOut.getLsbD s.bitCnt.toNat)
    { s with dout := b, pinTrace := .o b :: s.pinTrace }
  | .sample => sampleDin s
  | .latch => { s with shiftIn := setFrameBit s.shiftIn s.bitCnt.toNat s.bIn }
  | .loadOut w => { s with shiftOut := 0#1 ++ w }
  | .clearIn => { s with shiftIn := 0#17 }
  | .count n => { s with bitCnt := n }
  | .waitStart => { s with waitStart := s.countdown }
  | .waitPoll _ us => { s with pinTrace := .w us :: s.pinTrace }
  | .loadRetry => { s with retry := BitVec.ofNat 8 s.cfg.retryBudget }
  | .decRetry => { s with retry := s.retry - 1#8 }
  | .loadProbe => { s with probe := BitVec.ofNat 8 s.cfg.resyncProbeMax }
  | .decProbe => { s with probe := s.probe - 1#8 }
  | .clearResetDetected => { s with resetDetected := 0#1 }
  | .putByte k => { s with reqBuf := s.reqBuf.set k (reportByte s k) }
  | .setResult code => { s with result := code }

/-- A position as a running operation performs it: a delay's loop goes on until the timer has moved far enough. -/
def runMicro (m : Micro) (s : State) : State :=
  match m with
  | .waitPoll ticks _ => doMicro m (timerRuns ticks s)
  | _ => doMicro m s

/-- A straight run of positions. -/
def runMicros : List Micro → State → State
  | [], s => s
  | m :: ms, s => runMicros ms (runMicro m s)

/-! ## Tests and returns -/

/-- The positions a test chooses and what follows them, its conditions in the order the pseudocode lists them (R135, R136,
R145): another round of the loop, or the writes of a return. No position is left of an operation that is to leave. -/
def decideTail (t : Tail) (s : State) : List Micro × Tail :=
  match t with
  | .leave => ([], .leave)
  | .confirmTest =>
    if frameStatus s = 0#1 then (returnWrites statusOk false, .leave)
    else if s.retry = 0#8 then (returnWrites statusBusy false, .leave)
    else (retryExchange s.cfg, .confirmTest)
  | .rxTest out =>
    if frameStatus s = 1#1 ∧ frameData s = s.cfg.notReadyWord then
      if s.retry = 0#8 then (returnWrites statusBusy out, .leave) else (retryExchange s.cfg, .rxTest out)
    else if frameStatus s = 0#1 then (returnWrites statusOk out, .leave)
    else (returnWrites statusTarget out, .leave)
  | .resyncTest =>
    if (frameData s).extractLsb' 0 2 = 0#2 then (returnWrites statusResyncDead false, .leave)
    else (.loadProbe :: probePulse s.cfg, .probeTest)
  | .probeTest =>
    if s.bIn = 0#1 then (completingCells s.cfg 16 ++ returnWrites statusOk false, .leave)
    else if s.probe = 0#8 then (returnWrites statusResyncNoStart false, .leave)
    else (probePulse s.cfg, .probeTest)

/-- The positions still ahead. A test is no position of its own (R21): at the end of a run its choice comes next. -/
def ahead (rest : List Micro) (tail : Tail) (s : State) : List Micro × Tail :=
  match rest with
  | [] => decideTail tail s
  | m :: rest => (m :: rest, tail)

/-- The last position of a return (R140): BUSY 0 and `bte_seq` Idle, one register, BUSY being computed (R25). -/
def leaveOp (s : State) : State := { s with bteSeq := .idle }

/-! ## Accepting a request and running it -/

/-- Acceptance (R140): BUSY 1 and `bte_seq` Running at the operation's first position. -/
def accept (op : ReqOp) (s : State) : State :=
  { s with reqValid := false, bteSeq := .running op (program s.cfg op).1 (program s.cfg op).2 }

/-- More tests than any operation makes: at most 255 exchanges or probe pulses and three more (R150). -/
def maxTests : Nat := 300

/-- From a position to the operation's end, through at most the given number of tests. An operation that needs
more stays Running; with the parameters' constraints none does (R150). -/
def finish (op : ReqOp) : Nat → List Micro → Tail → State → State
  | 0, rest, tail, s => { runMicros rest s with bteSeq := .running op [] tail }
  | n + 1, rest, tail, s =>
    let s := runMicros rest s
    match decideTail tail s with
    | ([], _) => leaveOp s
    | (m :: rest, tail) => finish op n (m :: rest) tail s

/-- What is left of a running operation, to its return ("it runs to its fixed or retry-bounded completion", R140). -/
def resume (s : State) : State :=
  match s.bteSeq with
  | .idle => s
  | .running op rest tail => finish op maxTests rest tail s

/-- A request: accepted when BUSY is 0 and run to completion; while BUSY is 1 it has no step and waits (R140,
spec/93_implementation_defined.md U6). -/
def runRequest (op : ReqOp) (s : State) : Host.Outcome State Fault Refusal :=
  match s.bteSeq with
  | .idle => .next (resume (accept op s))
  | .running _ _ _ => .next s

/-- One position of a running operation: one pin event, sample, delay or register update (R21; spec/00_scope.md R7). A
delay's loop reads COUNTDOWN once and stays where it is until enough ticks have elapsed (spec/40_timing_primitive.md
R121). -/
def advance (s : State) : State :=
  match s.bteSeq with
  | .idle => s
  | .running op rest tail =>
    match ahead rest tail s with
    | ([], _) => leaveOp s
    | (m :: rest, tail) =>
      let moved := { doMicro m s with bteSeq := .running op rest tail }
      match m with
      | .waitPoll ticks _ => if ticks ≤ elapsed s.cfg s.waitStart s.countdown then moved else s
      | _ => moved

/-- The BTE operation of a REQ row. -/
def reqOpOf : Instr → Option ReqOp
  | .tx w => some (.tx w)
  | .txrx w => some (.txrx w)
  | .txc => some .txc
  | .rxr => some .rxr
  | .resync => some .resync
  | .halt => some .halt
  | .reset h => some (.reset h)
  | .bteIllegal _ => some .illegal
  | .vendor _ _ _ _ _ | .getDescriptor _ _ _ _ | .setAddress _ _ _ _ | .setConfiguration _ _ _ _
  | .unrecognised _ _ _ _ _ | .ep0Setup _ | .ep0Out _ | .ep0In _ | .ep0Unexpected _ | .epnDefault _
  | .usbrst | .error | .softok | .tokdne | .sleep | .stall => none

/-! ## The REQ rows -/

/-- `TX w` (R141): `MsgTx(w); return OK`. -/
def execTx (w : Half) (s : State) : Host.Outcome State Fault Refusal := runRequest (.tx w) s

/-- `TXRX w` (R142): the exchange's status and word go to the buffer, `return OK`. -/
def execTxrx (w : Half) (s : State) : Host.Outcome State Fault Refusal := runRequest (.txrx w) s

/-- `TXC` (R143): `return Confirm()`. -/
def execTxc (s : State) : Host.Outcome State Fault Refusal := runRequest .txc s

/-- `RXR` (R144): RxRetry, the last frame in the buffer. -/
def execRxr (s : State) : Host.Outcome State Fault Refusal := runRequest .rxr s

/-- `RESYNC` (R145). -/
def execResync (s : State) : Host.Outcome State Fault Refusal := runRequest .resync s

/-- `HALT` (R146). -/
def execHalt (s : State) : Host.Outcome State Fault Refusal := runRequest .halt s

/-- `RESET h` (R147). -/
def execReset (h : Bit) (s : State) : Host.Outcome State Fault Refusal := runRequest (.reset h) s

/-- `BTE.ILLEGAL` (R148): `return ERR_ILLEGAL_OP`, whatever the request's bytes. -/
def execBteIllegal (_req : List Byte) (s : State) : Host.Outcome State Fault Refusal := runRequest .illegal s

end Sys2Proof.Machine
end

