-- ==== Sys2Proof/Machine/Dispatch.lean ====
section
/-!
DEFINITION. The one dispatch from an operation to its meaning: one arm per constructor of Instr.
-/

namespace Sys2Proof.Machine

open Sys2Proof

def exec (i : Instr) (s : State) : Host.Outcome State Fault Refusal :=
  match i with
  | .tx w => Sys2Proof.Machine.execTx w s
  | .txrx w => Sys2Proof.Machine.execTxrx w s
  | .txc => Sys2Proof.Machine.execTxc s
  | .rxr => Sys2Proof.Machine.execRxr s
  | .resync => Sys2Proof.Machine.execResync s
  | .halt => Sys2Proof.Machine.execHalt s
  | .reset h => Sys2Proof.Machine.execReset h s
  | .bteIllegal req => Sys2Proof.Machine.execBteIllegal req s
  | .vendor rt code value index length => Sys2Proof.Machine.execVendor rt code value index length s
  | .getDescriptor rt value index length => Sys2Proof.Machine.execGetDescriptor rt value index length s
  | .setAddress rt value index length => Sys2Proof.Machine.execSetAddress rt value index length s
  | .setConfiguration rt value index length => Sys2Proof.Machine.execSetConfiguration rt value index length s
  | .unrecognised rt code value index length => Sys2Proof.Machine.execUnrecognised rt code value index length s
  | .ep0Setup p => Sys2Proof.Machine.execEp0Setup p s
  | .ep0Out p => Sys2Proof.Machine.execEp0Out p s
  | .ep0In p => Sys2Proof.Machine.execEp0In p s
  | .ep0Unexpected t => Sys2Proof.Machine.execEp0Unexpected t s
  | .epnDefault t => Sys2Proof.Machine.execEpnDefault t s
  | .usbrst => Sys2Proof.Machine.execUsbrst s
  | .error => Sys2Proof.Machine.execError s
  | .softok => Sys2Proof.Machine.execSoftok s
  | .tokdne => Sys2Proof.Machine.execTokdne s
  | .sleep => Sys2Proof.Machine.execSleep s
  | .stall => Sys2Proof.Machine.execStall s

end Sys2Proof.Machine
end

