-- ==== Sys2Proof/Machine/Sie.lean ====
section
/-!
DEFINITION. The SIE's side of the hand-off and its other conditions (spec/42_bdt_handoff.md R164 to R172), each a
reaction to a move of the USB host or of the bus.
-/

namespace Sys2Proof.Machine

open Sys2Proof

/-- The token kinds (spec/30_encoding.md R102). -/
def kindOut : BitVec 4 := 0x1#4
/-- IN. -/
def kindIn : BitVec 4 := 0x9#4
/-- SETUP. -/
def kindSetup : BitVec 4 := 0xD#4

/-- The SIE answers a token. -/
def reply (kind : BitVec 4) (e : Endpoint) (r : Reply) (s : State) : State :=
  { s with busTrace := { token := kind, endpoint := e, reply := r } :: s.busTrace }

/-- The SIE sees a token at all: it is not frozen (R169), the address is the device's (R171), and the endpoint has
slots (log 13). -/
def sieListens (addr : BitVec 7) (e : Endpoint) (s : State) : Bool :=
  s.sieFrozen = 0#1 && addr = s.devAddr && decide (e.val < s.cfg.numEndpoints)

/-- The completion queue holds as many records as it can (R170). -/
def queueFull (s : State) : Bool := decide (s.cfg.queueDepth ≤ s.queue.length)

/-- Receive completion (R164), one step: the bytes, then the control word with ownership 0, then the parity, the
record and, for a SETUP on endpoint 0, the stall bit. Bytes of a descriptor are immutable (U8). -/
def receive (kind : BitVec 4) (e : Endpoint) (toggle : Bit) (bytes : List Byte) (s : State) :
    Host.Outcome State Fault Refusal :=
  let p := s.sieParity.get e .rx
  let buf := slotBuf s e .rx p
  if touchesDescriptor s.cfg buf bytes.length then .refused .immutableWrite
  else
    let s := writeBytes buf bytes s
    let s := writeWord (slotAddr s.cfg e .rx p) (ctlWord (BitVec.ofNat 10 bytes.length) 0#1 toggle kind) s
    let s := pushCompletion { endpoint := e, dir := .rx, parity := p }
      { s with sieParity := s.sieParity.flip e .rx }
    let s := if kind = kindSetup ∧ e = 0 then clearEp0Stall s else s
    .next (reply kind e .ack s)

/-- A SETUP token with its 8 bytes (R164, R166, R167): accepted whatever the toggle, dropped if no slot is armed. -/
def hostSetup (addr : BitVec 7) (e : Endpoint) (p : Setup) (s : State) : Host.Outcome State Fault Refusal :=
  let ctl := slotCtl s e .rx (s.sieParity.get e .rx)
  if sieListens addr e s ∧ ctlOwn ctl = 1#1 ∧ 8 ≤ (ctlCount ctl).toNat ∧ ¬ queueFull s then
    receive kindSetup e 0#1 p.toBytes s
  else .next (reply kindSetup e .silent s)

/-- An OUT token with a data packet (R164, R166 to R168). -/
def hostOut (addr : BitVec 7) (e : Endpoint) (toggle : Bit) (bytes : List Byte) (s : State) :
    Host.Outcome State Fault Refusal :=
  let ctl := slotCtl s e .rx (s.sieParity.get e .rx)
  if ¬ sieListens addr e s then .next (reply kindOut e .silent s)
  else if e = 0 ∧ epStalled s 0 then .next (reply kindOut e .stall (setCondition 0x80#8 s))
  else if ctlOwn ctl = 0#1 ∨ queueFull s then .next (reply kindOut e .nak s)
  else if (ctlCount ctl).toNat < bytes.length then .next (reply kindOut e .silent (setCondition 0x02#8 s))
  else if toggle ≠ ctlToggle ctl then .next (reply kindOut e .silent s)
  else receive kindOut e toggle bytes s

/-- Transmit completion (R165), one step: token IN and ownership 0, count and toggle as submitted. -/
def sent (e : Endpoint) (s : State) : State :=
  let p := s.sieParity.get e .tx
  let ctl := slotCtl s e .tx p
  let s := writeWord (slotAddr s.cfg e .tx p) (ctlWord (ctlCount ctl) 0#1 (ctlToggle ctl) kindIn) s
  pushCompletion { endpoint := e, dir := .tx, parity := p } { s with sieParity := s.sieParity.flip e .tx }

/-- An IN token (R165, R166, R168): the slot's bytes with its toggle; without the host's acknowledgement nothing
changes and the same slot is sent again. -/
def hostIn (addr : BitVec 7) (e : Endpoint) (acked : Bool) (s : State) : Host.Outcome State Fault Refusal :=
  let p := s.sieParity.get e .tx
  let ctl := slotCtl s e .tx p
  if ¬ sieListens addr e s then .next (reply kindIn e .silent s)
  else if epStalled s e then
    .next (reply kindIn e .stall (if e = 0 then setCondition 0x80#8 s else s))
  else if ctlOwn ctl = 0#1 ∨ queueFull s then .next (reply kindIn e .nak s)
  else
    let packet := Reply.data (ctlToggle ctl) (readBytes s (slotBuf s e .tx p) (ctlCount ctl).toNat)
    .next (reply kindIn e packet (if acked then sent e s else s))

/-- A bus reset is detected (R169). -/
def busReset (s : State) : State := setCondition 0x01#8 { s with sieFrozen := 1#1 }

/-- The SIE writes a byte of the buffer of a receive slot it owns, at any step, frozen or not (spec/20_memory.md R72;
U22; log 30). -/
def sieBufferWrite (e : Endpoint) (p : Bit) (off : Nat) (b : Byte) (s : State) : Host.Outcome State Fault Refusal :=
  let ctl := slotCtl s e .rx p
  let a := slotBuf s e .rx p + BitVec.ofNat 32 off
  if e.val < s.cfg.numEndpoints ∧ ctlOwn ctl = 1#1 ∧ off < (ctlCount ctl).toNat then
    if touchesDescriptor s.cfg a 1 then .refused .immutableWrite else .next (writeByte a b s)
  else .refused .notOwnedBySie

end Sys2Proof.Machine
end

