-- ==== Sys2Proof/Machine/Turn.lean ====
section
/-!
DEFINITION. Who moves next and what a move does: where each sequencer finds its next operation, the turns of the
BTE and the CTS, the environment's events (spec/60_exceptions.md R266, R268, R275), and where a table row's bits are
placed for the host.
-/

namespace Sys2Proof.Machine

open Sys2Proof

/-! ## Finding the next operation -/

/-- Where the CTS finds its next row: nowhere once a fault is recorded (R262); at entry the asserted conditions
(spec/44_usb_dispatcher.md R230, R231); inside an invocation the rest of the snapshot, the token-done event, or the
setup packet. -/
def ctsFetch (s : State) : Option Code :=
  if ctsStopped s then none
  else match s.ctsSeq with
    | .idle => if invocationCondition s then some (.cond s.intStatus) else none
    | .inInvocation _ rest .select => some (.cond rest)
    | .inInvocation _ _ .token => some (.token (tokenCode s))
    | .inInvocation _ _ .request => some (.setup s.setup.toBytes)

/-- The state the CTS runs its row in: the invocation is entered if it is not in progress (R266). -/
def ctsEnter (s : State) : State :=
  match s.ctsSeq with
  | .idle => enterInvocation s
  | .inInvocation _ _ _ => s

/-- Where the idle BTE finds its next operation: the request at its port (spec/41_bit_transport.md R140). -/
def bteFetch (s : State) : Option Code :=
  match s.bteSeq with
  | .idle => if s.reqValid then some (.req s.reqBuf) else none
  | .running _ _ _ => none

/-- Decode and perform. -/
def runCode (c : Code) (s : State) : Host.Outcome State Fault Refusal :=
  match decode c with
  | .ok i => exec i s
  | .error r => .refused (.undecodable r)

/-! ## Turns -/

/-- The CTS performs one row, or has nothing to do. -/
def ctsTurn (s : State) : Host.Outcome State Fault Refusal :=
  match ctsFetch s with
  | some c => runCode c (ctsEnter s)
  | none => .next s

/-- The BTE performs one request, or finishes the running one, or waits for a request. -/
def bteTurn (s : State) : Host.Outcome State Fault Refusal :=
  match s.bteSeq with
  | .running _ _ _ => .next (resume s)
  | .idle =>
    match bteFetch s with
    | some c => runCode c s
    | none => .next s

/-- The BTE takes one position: acceptance of a request, or one position of the running operation (R21). -/
def bteMicroTurn (s : State) : Host.Outcome State Fault Refusal :=
  match s.bteSeq with
  | .running _ _ _ => .next (advance s)
  | .idle =>
    if s.reqValid then
      match decode (.req s.reqBuf) with
      | .ok i =>
        match reqOpOf i with
        | some op => .next (accept op s)
        | none => .next s
      | .error r => .refused (.undecodable r)
    else .next s

/-- The block moves by itself: the CTS first, then the BTE (no rule can tell the order: they share no state,
spec/00_scope.md R8; log 26). -/
def blockTurn (s : State) : Host.Outcome State Fault Refusal :=
  if (ctsFetch s).isSome then ctsTurn s else bteTurn s

/-! ## Events -/

/-- The command layer issues a request of at most 255 bytes (R28, R140). -/
def issueRequest (bytes : List Byte) (s : State) : Host.Outcome State Fault Refusal :=
  if bytes.length ≤ 255 then .next { s with reqBuf := bytes, reqValid := true } else .refused .requestTooLong

/-- The command layer writes the port's buffer (R275; refused while BUSY, U7). Between a request's issue and its acceptance
(`reqValid` set, BUSY still 0), a window R140 does not have, the write replaces the pending request's bytes (DESIGN CHOICE,
log 33). -/
def writeRequest (bytes : List Byte) (s : State) : Host.Outcome State Fault Refusal :=
  if busy s = 1#1 then .refused .commandWhileBusy
  else if bytes.length ≤ 255 then .next { s with reqBuf := bytes } else .refused .requestTooLong

/-- Boot's duty for the BTE (spec/70_reset_and_hazards.md R292 items 2 and 3), once before anything else: BTE_CFG, and
the pins at their idle levels (refused while BUSY, U7; log 17, 32). -/
def bootBte (v : BitVec 2) (s : State) : Host.Outcome State Fault Refusal :=
  if busy s = 1#1 then .refused .commandWhileBusy
  else if s.bootBteDone then .refused .bootOver
  else
    let s := { s with bteCfg := v, bootBteDone := true }
    .next { s with dclk := 1#1, dout := 0#1, bkpt := bkptLevel s false, rst := rstLevel s false }

/-- Boot's duty for the CTS (R293 step 4), once before anything else: INT_ENABLE with at least the bus-reset condition
(log 32). -/
def bootIntEnable (v : Byte) (s : State) : Host.Outcome State Fault Refusal :=
  if s.bootIntDone then .refused .bootOver
  else if v.getLsbD 0 = false then .refused .bootMaskTooSmall
  else .next { writeIntEnable v s with bootIntDone := true }

/-- The event is one that boot comes before (R275). Boot's own two duties are not, nor are the countdown register's
ticks (R292 asks that it is running), the target's reset sense, and the turns of the two sequencers, which find nothing
to do before one of the others (log 32). -/
def endsBoot : Event → Bool
  | .bte | .bteMicro | .cts | .bootBte _ | .bootIntEnable _ | .resetSense | .tick _ => false
  | .request _ | .writeReq _ | .busReset | .sof | .sleep | .busError | .hostSetup _ _ _ | .hostOut _ _ _ _
  | .hostIn _ _ _ | .sieBuffer _ _ _ _ => true

/-- Boot's time is over once such an event happens. -/
def afterBoot (ev : Event) (s : State) : State :=
  { s with bootBteDone := s.bootBteDone || endsBoot ev, bootIntDone := s.bootIntDone || endsBoot ev }

/-- One move of the environment or one turn. -/
def applyEvent (ev : Event) (s : State) : Host.Outcome State Fault Refusal :=
  match ev with
  | .bte => bteTurn s
  | .bteMicro => bteMicroTurn s
  | .cts => ctsTurn s
  | .request bytes => issueRequest bytes s
  | .writeReq bytes => writeRequest bytes s
  | .bootBte v => bootBte v s
  | .bootIntEnable v => bootIntEnable v s
  | .resetSense => .next { s with resetDetected := 1#1 }
  | .tick k => .next { s with countdown := countDown s.cfg s.countdown k }
  | .busReset => .next (busReset s)
  | .sof => .next (setCondition 0x04#8 s)
  | .sleep => .next (setCondition 0x10#8 s)
  | .busError => .next (setCondition 0x02#8 s)
  | .hostSetup addr e p => hostSetup addr e p s
  | .hostOut addr e toggle bytes => hostOut addr e toggle bytes s
  | .hostIn addr e acked => hostIn addr e acked s
  | .sieBuffer e p off b => sieBufferWrite e p off b s

/-- A request waits while an earlier one is not done (R140, U6): the event stays and the BTE goes on. -/
def requestWaits (s : State) : Bool := busy s = 1#1 || s.reqValid

/-- The move an event at the head of the script makes, `rest` being what follows it. -/
def eventMove (ev : Event) (rest : List Event) (s : State) : Host.Outcome State Fault Refusal :=
  match ev with
  | .request bytes =>
    if requestWaits s then bteTurn s else issueRequest bytes (afterBoot ev { s with script := rest })
  | _ => applyEvent ev (afterBoot ev { s with script := rest })

/-- A move is refused for parameters outside their constraints (U9) and in a state with reserved condition bits set
(U10). -/
def guarded (s : State) (move : Host.Outcome State Fault Refusal) : Host.Outcome State Fault Refusal :=
  if configOk s.cfg = false then .refused .badParameter
  else if s.intStatus &&& 0x60#8 ≠ 0#8 then .refused .reservedCondition
  else move

/-- One step: the script's next event, or the block's own move when the script is empty. -/
def stepMachine (s : State) : Host.Outcome State Fault Refusal :=
  match s.script with
  | [] => guarded s (blockTurn s)
  | ev :: rest => guarded s (eventMove ev rest s)

/-! ## Placing a table row's bits (the host's probe; log 20, log 21) -/

/-- TOKDNE is asserted for the event `ts` names: the record at the head of the queue, TOK_STATUS, INT_STATUS and
INT_ENABLE, within an invocation whose snapshot holds just that condition. -/
def placeTokenEvent (ts : Byte) (phase : CtsPhase) (s : State) : State :=
  let r : Completion :=
    { endpoint := (ts.extractLsb' 4 4).toFin, dir := dirOfBit (ts.extractLsb' 3 1), parity := ts.extractLsb' 2 1 }
  { s with
    script := [.cts]
    faults := []
    intStatus := (s.intStatus &&& 0x9F#8) ||| 0x08#8
    tokStatus := ts
    queue := r :: s.queue.tail
    ctsSeq := .inInvocation 0x08#8 0x08#8 phase }

/-- The state whose next step finds exactly this code where the block looks for it. -/
def placeCode (c : Code) (s : State) : State :=
  match c with
  | .req bytes => { s with script := [.bte], bteSeq := .idle, reqBuf := bytes, reqValid := true }
  | .setup bytes =>
    let s := placeTokenEvent 0x00#8 .request s
    match bytes with
    | [b0, b1, b2, b3, b4, b5, b6, b7] => { s with setup := Setup.ofBytes b0 b1 b2 b3 b4 b5 b6 b7 }
    | _ => s
  | .token t =>
    let s := placeTokenEvent (t.extractLsb' 4 8) .token s
    let n : BitVec 10 := if tokenKind t = kindSetup then 8#10 else 0#10
    writeWord (slotAddr s.cfg (tokEndpoint s) (tokDir s) (tokParity s)) (ctlWord n 0#1 0#1 (tokenKind t)) s
  | .cond st =>
    let r : Completion := { endpoint := 0, dir := .rx, parity := 0#1 }
    { s with
      script := [.cts]
      faults := []
      intStatus := st
      intEnable := s.intEnable ||| (st &&& 0x9F#8)
      queue := if st.getLsbD 3 then r :: s.queue.tail else []
      tokStatus := if st.getLsbD 3 then tokStatusOf r else s.tokStatus
      ctsSeq := .idle }

end Sys2Proof.Machine
end

