-- ==== Sys2Proof/Machine/Step.lean ====
section
/-!
DEFINITION. One step of the machine, and where the host places a table row's bits for the next step to find.
-/

namespace Sys2Proof.Machine

open Sys2Proof

/-- One step (Machine/Turn.lean says who moves and what a move does). -/
def step (s : State) : Host.Outcome State Fault Refusal := stepMachine s

/-- `s` with the operation whose table bits are `w` placed where the next step finds it (log 20, log 21); `s` itself
where the number stands for no code. -/
def State.withFetchWord (s : State) (nbits w : Nat) : State :=
  match tableCode nbits w with
  | some c => placeCode c s
  | none => s

end Sys2Proof.Machine
end

