-- ==== Sys2Proof/Safety.lean ====
section
/-!
DEFINITION. The vocabulary of the statements: what the target will answer and the traces the spec draws from it, the
packets a response owes, the parts of the state the two engines own, and the invariants. Nothing here is used by the
machine; every definition follows the rule it cites and not the machine's text.
-/

namespace Sys2Proof.Safety

open Sys2Proof Sys2Proof.Machine

/-! ## Outcomes -/

/-- Apply a change to the next state, if there is one. -/
def mapNext (f : State → State) :
    Host.Outcome State Fault Refusal → Host.Outcome State Fault Refusal
  | .next s => .next (f s)
  | .fault r => .fault r
  | .refused r => .refused r

/-- The operation is one of the eight rows of format REQ (spec/30_encoding.md R90): the BTE performs it. Every other
row is the CTS's. -/
def isRequest : Instr → Bool
  | .tx _ | .txrx _ | .txc | .rxr | .resync | .halt | .reset _ | .bteIllegal _ => true
  | .vendor _ _ _ _ _ | .getDescriptor _ _ _ _ | .setAddress _ _ _ _ | .setConfiguration _ _ _ _
  | .unrecognised _ _ _ _ _ | .ep0Setup _ | .ep0Out _ | .ep0In _ | .ep0Unexpected _ | .epnDefault _
  | .usbrst | .error | .softok | .tokdne | .sleep | .stall => false

/-! ## The two halves of the state (spec/00_scope.md R8) -/

/-- `s` with the BTE's state, its port, its pins and its environment taken from `u` (spec/10_state.md R23 to R29). -/
def withBte (u s : State) : State :=
  { s with
    bteSeq := u.bteSeq, dclk := u.dclk, dout := u.dout, din := u.din, bkpt := u.bkpt, rst := u.rst
    bteCfg := u.bteCfg, resetDetected := u.resetDetected
    shiftOut := u.shiftOut, shiftIn := u.shiftIn, bitCnt := u.bitCnt, retry := u.retry, probe := u.probe
    bIn := u.bIn, waitStart := u.waitStart
    reqBuf := u.reqBuf, reqValid := u.reqValid, result := u.result
    countdown := u.countdown, freeCount := u.freeCount, target := u.target, pinTrace := u.pinTrace }

/-- `s` with the state of the CTS, of the SIE and of their environment taken from `u` (R30 to R46). -/
def withCts (u s : State) : State :=
  { s with
    mem := u.mem, intStatus := u.intStatus, intEnable := u.intEnable, tokStatus := u.tokStatus
    devAddr := u.devAddr, epCtl := u.epCtl, ctsSeq := u.ctsSeq, setup := u.setup, ctlState := u.ctlState
    toggle := u.toggle, parity := u.parity
    cursorValid := u.cursorValid, cursorPtr := u.cursorPtr, cursorRemaining := u.cursorRemaining
    zlpPending := u.zlpPending, addrPending := u.addrPending, addrValue := u.addrValue
    faults := u.faults, vendorAnswers := u.vendorAnswers, usbTrace := u.usbTrace
    sieParity := u.sieParity, queue := u.queue, sieFrozen := u.sieFrozen, busTrace := u.busTrace }

/-- `s` with the registers of the delay loop cleared: two states equal under it differ at most in how long the delays
lasted (spec/40_timing_primitive.md R124). -/
def eraseTime (s : State) : State := { s with countdown := 0, freeCount := 0, waitStart := 0 }

/-- `s` with its memory cleared: two states equal under it differ at most in memory. -/
def eraseMemory (s : State) : State := { s with mem := [] }

/-! ## The target's answers (spec/41_bit_transport.md R131) -/

/-- Answer `k` of the samples still to come. Beyond the answers State holds the pin keeps its level (log 8). -/
def answer (s : State) (k : Nat) : Bit := s.target.getD k (s.target.getLast?.getD s.din)

/-- The frame the 17 samples from answer `o` on make, the first sample in bit 16 (spec/30_encoding.md R91). -/
def heard (s : State) (o : Nat) : BitVec 17 := BitVec.ofFnLE fun i : Fin 17 => answer s (o + (16 - i.val)) = 1#1

/-- The status bit of the frame at answer `o`. -/
def heardStatus (s : State) (o : Nat) : Bit := answer s o

/-- The response word of the frame at answer `o`. -/
def heardWord (s : State) (o : Nat) : Half := (heard s o).extractLsb' 0 16

/-- How many of at most `n` attempts a bounded loop makes: it stops after the first attempt `k` (from 0) with
`stop k`, and after `n` attempts in any case (spec/41_bit_transport.md R135, R136, R145). -/
def attempts (stop : Nat → Bool) : Nat → Nat
  | 0 => 0
  | n + 1 => if stop 0 then 1 else 1 + attempts (fun k => stop (k + 1)) n

/-! ## Pin-level traces, oldest first (spec/00_scope.md R16) -/

/-- A delay of `t` microseconds: `W(t)` where it fits the counter, else `DelayMs`, `W(1000)` for each millisecond,
rounded up (spec/40_timing_primitive.md R122, R123; log 10). -/
def delayTrace (c : Params) (t : Nat) : List PinEvent :=
  if t * c.cdTicksPerUs ≤ c.cdReload then [.w t] else List.replicate ((t + 999) / 1000) (.w 1000)

/-- The trace of one cell (spec/41_bit_transport.md R132). -/
def cellTrace (c : Params) (out inp : Bit) : List PinEvent :=
  [.c 0#1] ++ delayTrace c c.tFallHold ++ [.o out, .i inp] ++ delayTrace c c.tDataHold ++ [.c 1#1]
    ++ delayTrace c c.tRiseHold

/-- Bit `16 - i` of the outbound frame `0b0 :: w`: what cell `i` drives (spec/30_encoding.md R91). -/
def outBit (w : Half) (i : Nat) : Bit := BitVec.ofBool ((0#1 ++ w).getLsbD (16 - i))

/-- The trace of a message: 17 cells, the samples from answer `o` on (R133). -/
def messageTrace (s : State) (w : Half) (o : Nat) : List PinEvent :=
  (List.range 17).flatMap fun i => cellTrace s.cfg (outBit w i) (answer s (o + i))

/-- The trace of `n` messages of the same word. -/
def messagesTrace (s : State) (w : Half) (n : Nat) : List PinEvent :=
  (List.range n).flatMap fun k => messageTrace s w (17 * k)

/-- The trace of `n` probe pulses, each driving 0 (R145). -/
def probesTrace (s : State) (n : Nat) : List PinEvent :=
  (List.range n).flatMap fun k => cellTrace s.cfg 0#1 (answer s (51 + k))

/-- The trace of the 16 cells that complete a frame after `n` pulses: the filler word, most significant bit first. -/
def completionTrace (s : State) (n : Nat) : List PinEvent :=
  (List.range 16).flatMap fun i =>
    cellTrace s.cfg (BitVec.ofBool (s.cfg.fillerWord.getLsbD (15 - i))) (answer s (51 + n + i))

/-- `t` is `s` after exactly `n` messages that sent `w` (R133): the pins, the frame registers, the target's answers
and the trace as the cells leave them, the delay registers as the delays left them, everything else as in `s`. -/
def AfterMessages (w : Half) (n : Nat) (s t : State) : Prop :=
  ∃ cd fc ws, t = { s with
    dclk := 1#1
    dout := BitVec.ofBool (w.getLsbD 0)
    din := answer s (17 * n - 1)
    bIn := answer s (17 * n - 1)
    shiftOut := 0#1 ++ w
    shiftIn := heard s (17 * (n - 1))
    bitCnt := 0#5
    target := s.target.drop (17 * n)
    pinTrace := (messagesTrace s w n).reverse ++ s.pinTrace
    countdown := cd
    freeCount := fc
    waitStart := ws }

/-- Every delay of a run of positions reads COUNTDOWN first and then polls for its time's ticks, at
CD_TICKS_PER_US a microsecond (spec/40_timing_primitive.md R121, R122). -/
def delaysTimed (c : Params) : List Micro → Prop
  | [] => True
  | .waitStart :: .waitPoll ticks us :: l => ticks = us * c.cdTicksPerUs ∧ delaysTimed c l
  | .waitStart :: _ => False
  | .waitPoll _ _ :: _ => False
  | _ :: l => delaysTimed c l

/-- The position writes the request port (spec/10_state.md R28). -/
def writesPort : Micro → Bool
  | .putByte _ | .setResult _ => true
  | _ => false

/-- A run of positions that ends its operation closes with the writes of a return in R140's order, the buffer-out bytes if
there are any, then RESULT, and writes the port nowhere else; one that ends in a test does not write the port. -/
def ReturnsLast (rest : List Micro) (tail : Tail) : Prop :=
  if tail = .leave then ∃ body code, (∀ m ∈ body, writesPort m = false)
    ∧ (rest = body ++ [.setResult code] ∨ rest = body ++ [.putByte 0, .putByte 1, .putByte 2, .setResult code])
  else ∀ m ∈ rest, writesPort m = false

/-- How many samples a trace holds: the number of its cells. -/
def samples : List PinEvent → Nat
  | [] => 0
  | .i _ :: l => samples l + 1
  | _ :: l => samples l

/-- The most cells an operation may perform (R150). -/
def cellBound (c : Params) : ReqOp → Nat
  | .tx _ | .txrx _ => 17
  | .txc | .rxr | .halt | .reset _ => 17 * c.retryBudget
  | .resync => 51 + c.resyncProbeMax + 16
  | .illegal => 0

/-! ## Retry loops (R135, R136) -/

/-- Exchange `k` ends Confirm's loop: its status bit is 0. -/
def confirmed (s : State) (k : Nat) : Bool := heardStatus s (17 * k) = 0#1

/-- Exchange `k` ends RxRetry's loop: it is not status 1 with the not-ready word. -/
def ready (s : State) (k : Nat) : Bool :=
  !(heardStatus s (17 * k) = 1#1 && heardWord s (17 * k) = s.cfg.notReadyWord)

/-- What RxRetry answers after `n` exchanges, by the last frame read (the table of R136). -/
def rxStatus (s : State) (n : Nat) : Byte :=
  if heardStatus s (17 * (n - 1)) = 0#1 then 0x00#8
  else if heardWord s (17 * (n - 1)) = s.cfg.notReadyWord then 0x01#8
  else 0x02#8

/-- How many exchanges RxRetry performs in `s`. -/
def rxExchanges (s : State) : Nat := attempts (ready s) s.cfg.retryBudget

/-- The constraint of spec/00_scope.md R10 on the retry budget. -/
def BudgetOk (c : Params) : Prop := 1 ≤ c.retryBudget ∧ c.retryBudget ≤ 255

/-- The constraint of R10 on the probe bound. -/
def ProbesOk (c : Params) : Prop := 1 ≤ c.resyncProbeMax ∧ c.resyncProbeMax ≤ 255

/-! ## Addresses and slots (spec/20_memory.md R69; spec/30_encoding.md R101) -/

/-- The address belongs to the 8 bytes of a slot. -/
def InSlot (c : Params) (e : Endpoint) (d : Dir) (p : Bit) (a : Word) : Prop := (a - slotAddr c e d p).toNat < 8

/-- The address belongs to the BDT. -/
def InBdt (c : Params) (a : Word) : Prop := (a - c.bdtBase).toNat < 32 * c.numEndpoints

/-- The address belongs to a descriptor's bytes (spec/20_memory.md R75). -/
def InDescriptor (c : Params) (a : Word) : Prop := ∃ d ∈ c.descTable, (a - d.pointer).toNat < d.length.toNat

/-- A slot is the CTS's. -/
def slotFree (s : State) (e : Endpoint) (d : Dir) (p : Bit) : Bool := ctlOwn (slotCtl s e d p) = 0#1

/-- A byte reads the same in both states. -/
def SameByte (s t : State) (a : Word) : Prop := readByte t a = readByte s a

/-- A slot of `t` holds exactly these fields, reserved bits 0 (R99). -/
def SlotHolds (t : State) (e : Endpoint) (d : Dir) (p : Bit) (buf : Word) (n : BitVec 10) (own tog : Bit)
    (tok : BitVec 4) : Prop :=
  slotBuf t e d p = buf ∧ slotCtl t e d p = ctlWord n own tog tok

/-- The memory list is in canonical form: strictly rising addresses below 2^32, no entry for the byte an address reads
as unlisted. -/
def MemoryCanonical (s : State) : Prop := memWf s.cfg s.mem = true

/-! ## The packets of a response (spec/45_operation_laws.md R251) -/

/-- The packets still to be sent for `r` bytes at `ptr`, `fuel` of them at most: 64 bytes each and what remains in the
last, then a zero-length packet if one is owed. -/
def packetsFrom : Nat → Word → Nat → Bool → List (Word × BitVec 10)
  | 0, _, _, zlp => if zlp then [(0#32, 0#10)] else []
  | fuel + 1, ptr, r, zlp =>
    if r = 0 then (if zlp then [(0#32, 0#10)] else [])
    else (ptr, BitVec.ofNat 10 (min r 64)) :: packetsFrom fuel (ptr + BitVec.ofNat 32 (min r 64)) (r - min r 64) zlp

/-- All packets for `r` bytes at `ptr`: `r` packets are always enough. -/
def packets (ptr : Word) (r : Nat) (zlp : Bool) : List (Word × BitVec 10) := packetsFrom r ptr r zlp

/-- A terminating zero-length packet is owed for a response of `len` bytes to a request for `limit` (R251). -/
def zlpOwed (len limit : Nat) : Bool := decide (len < limit ∧ 0 < len ∧ len % 64 = 0)

/-- The packets of the whole answer to a control read: the first `min(len, limit)` bytes; one zero-length packet where
that is no byte at all (R251). -/
def answerPackets (ptr : Word) (len limit : Nat) : List (Word × BitVec 10) :=
  if min len limit = 0 then [(0#32, 0#10)] else packets ptr (min len limit) (zlpOwed len limit)

/-- The packets the pending-transmit cursor still owes (spec/10_state.md R40, R41). -/
def owedPackets (s : State) : List (Word × BitVec 10) :=
  packets s.cursorPtr s.cursorRemaining.toNat (s.zlpPending = 1#1)

/-- `k` chunks in a row, as `k` IN events serve them (spec/43_ep0_control.md R200). -/
def serveChunks : Nat → State → Flow
  | 0, s => .go s
  | k + 1, s => (serviceChunk s).andThen (serveChunks k)

/-- The packets submitted, oldest first, as the USB trace shows them. -/
def submitted : List UsbEvent → List (Word × BitVec 10)
  | [] => []
  | .submit _ _ ptr n _ :: l => submitted l ++ [(ptr, n)]
  | .rearm _ _ :: l | .write _ _ :: l | .logTransferError :: l | .logUnexpectedToken _ :: l
  | .logUnexpectedEndpoint _ _ _ :: l | .vendorRequest _ :: l => submitted l

/-! ## What acknowledging does (spec/42_bdt_handoff.md R169, R170) -/

/-- `INT_STATUS` when the completion queue is `q`: TOKDNE is 1 exactly when it holds a record (R170). -/
def withTokdne (v : Byte) (q : List Completion) : Byte :=
  if q.isEmpty then v &&& ~~~0x08#8 else v ||| 0x08#8

/-- `TOK_STATUS` when the queue is `q`: its head; the last value where it is empty (log 31). -/
def shownHead (old : Byte) (q : List Completion) : Byte :=
  match q with
  | [] => old
  | r :: _ => tokStatusOf r

/-- `cts_seq` once the condition bits `v` of the snapshot are done: Dispatch goes on while a condition of its snapshot
is left, else it returns (spec/44_usb_dispatcher.md R231). -/
def seqAfter (v : Byte) : CtsSeq → CtsSeq
  | .idle => .idle
  | .inInvocation st rest _ =>
    if rest &&& ~~~v &&& 0x9F#8 = 0#8 then .idle else .inInvocation st (rest &&& ~~~v) .select

/-- `s` when a token-done handler has returned and TOKDNE is acknowledged (R231, R239; R170). -/
def tokenDone (s : State) : State :=
  { s with
    intStatus := withTokdne s.intStatus s.queue.tail
    tokStatus := shownHead s.tokStatus s.queue.tail
    queue := s.queue.tail
    usbTrace := .write .intStatus 0x08#8 :: s.usbTrace
    ctsSeq := seqAfter 0x08#8 s.ctsSeq }

/-- `cts_seq` when control passes to the next selection of the invocation (log 7). -/
def seqAt (ph : CtsPhase) : CtsSeq → CtsSeq
  | .idle => .idle
  | .inInvocation st rest _ => .inInvocation st rest ph

/-! ## What the operations of the CTS leave -/

/-- With memory `m`, the slot holds these fields and every byte outside its 8 bytes reads as in `s`. -/
def StoredSlot (s : State) (m : Memory) (e : Endpoint) (d : Dir) (p : Bit) (buf : Word) (n : BitVec 10)
    (own tog : Bit) (tok : BitVec 4) : Prop :=
  SlotHolds { s with mem := m } e d p buf n own tog tok
    ∧ ∀ a : Word, ¬ InSlot s.cfg e d p a → SameByte s { s with mem := m } a

/-- `t` is `s` after `Submit(0, ptr, n)` (spec/42_bdt_handoff.md R161): the slot the tracker names holds the packet
and is the SIE's, toggle and parity are flipped, everything else is as in `s`. -/
def Submitted (ptr : Word) (n : BitVec 10) (s t : State) : Prop :=
  ∃ m, StoredSlot s m 0 .tx (s.parity.get 0 .tx) ptr n 1#1 (s.toggle.get 0 .tx) 0#4 ∧
    t = { s with
      mem := m
      toggle := s.toggle.set 0 .tx (s.toggle.get 0 .tx ^^^ 1#1)
      parity := s.parity.set 0 .tx (s.parity.get 0 .tx ^^^ 1#1)
      usbTrace := .submit 0 (s.parity.get 0 .tx) ptr n (s.toggle.get 0 .tx) :: s.usbTrace }

/-- `t` is `s` after `Rearm(0, p)` (R163): the receive slot has its own buffer, the whole size, toggle 1, and is the
SIE's; the receive parity is flipped; everything else is as in `s`. -/
def Rearmed (p : Bit) (s t : State) : Prop :=
  ∃ m, StoredSlot s m 0 .rx p (if p = 0#1 then s.cfg.ep0RxBufEven else s.cfg.ep0RxBufOdd) 64#10 1#1 1#1 0#4 ∧
    t = { s with
      mem := m
      parity := s.parity.set 0 .rx (s.parity.get 0 .rx ^^^ 1#1)
      usbTrace := .rearm 0 p :: s.usbTrace }

/-- `t` is `s` after `ServiceChunk()` that raised no fault (spec/43_ep0_control.md R198). -/
def ChunkServed (s t : State) : Prop :=
  if s.cursorRemaining ≠ 0#16 then
    ∃ u, Submitted s.cursorPtr (BitVec.ofNat 10 (min s.cursorRemaining.toNat 64)) s u ∧
      t = { u with
        cursorPtr := s.cursorPtr + BitVec.ofNat 32 (min s.cursorRemaining.toNat 64)
        cursorRemaining := BitVec.ofNat 16 (s.cursorRemaining.toNat - 64)
        cursorValid := if 64 < s.cursorRemaining.toNat ∨ s.zlpPending = 1#1 then 1#1 else 0#1 }
  else if s.zlpPending = 1#1 then
    ∃ u, Submitted 0#32 0#10 s u ∧ t = { u with zlpPending := 0#1, cursorValid := 0#1 }
  else t = { s with cursorValid := 0#1 }

/-- `t` is `s` after `StartResponse(ptr, len)` for a request with length field `limit` that raised no fault (R197):
the first packet of the answer is submitted, and the second if there is one; the cursor holds the rest. -/
def Responded (ptr : Word) (len limit : Half) (s t : State) : Prop :=
  let n := min len.toNat limit.toNat
  let owed := zlpOwed len.toNat limit.toNat
  ∃ u,
    (match answerPackets ptr len.toNat limit.toNat with
      | [] => False
      | [q] => Submitted q.1 q.2 s u
      | q :: r :: _ => ∃ v, Submitted q.1 q.2 s v ∧ Submitted r.1 r.2 v u) ∧
    t = { u with
      cursorPtr := ptr + BitVec.ofNat 32 (min n 128)
      cursorRemaining := BitVec.ofNat 16 (n - 128)
      zlpPending := if owed ∧ 128 ≤ n then 1#1 else 0#1
      cursorValid := if 128 < n ∨ (owed ∧ 128 ≤ n) then 1#1 else 0#1
      ctlState := if n = 0 then .statusPending else .dataStage }

/-- `s` after `StallPath()` (R202). -/
def stalled (s : State) : State :=
  { s with
    epCtl := s.epCtl.set 0 0x03#8
    ctlState := .awaitingSetup
    usbTrace := .write .ep0Ctl 0x03#8 :: s.usbTrace }

/-- `s` after the address part and the state register of an IN event (R200). -/
def inStatusStage (s : State) : State :=
  { s with
    devAddr := if s.addrPending = 1#1 then s.addrValue else s.devAddr
    addrPending := 0#1
    ctlState := if s.ctlState = .statusPending then .awaitingSetup else s.ctlState
    usbTrace := if s.addrPending = 1#1 then .write .devAddr (s.addrValue.setWidth 8) :: s.usbTrace else s.usbTrace }

/-- The transmit slots an answer needs at once are the CTS's: the one the tracker names, and the other one where the
answer has a second packet. -/
def RoomFor (ptr : Word) (len limit : Half) (s : State) : Prop :=
  slotFree s 0 .tx (s.parity.get 0 .tx) = true
    ∧ (2 ≤ (answerPackets ptr len.toNat limit.toNat).length →
      slotFree s 0 .tx (s.parity.get 0 .tx ^^^ 1#1) = true)

/-! ## Invariants -/

/-- TOKDNE, TOK_STATUS and the queue agree, the queue holds no more than its depth, and the reserved bits of INT_STATUS
and INT_ENABLE are 0 (spec/10_state.md R45; R170; spec/30_encoding.md R104). -/
def QueueSound (s : State) : Prop :=
  s.intStatus = withTokdne s.intStatus s.queue ∧ s.tokStatus = shownHead s.tokStatus s.queue
    ∧ s.queue.length ≤ s.cfg.queueDepth ∧ s.intStatus &&& 0x60#8 = 0#8 ∧ s.intEnable &&& 0x60#8 = 0#8

/-- The cursor exists exactly when something is left to send (R54); a recorded fault ends every claim (R262). -/
def CursorSound (s : State) : Prop :=
  s.faults = [] → (s.cursorValid = 1#1 ↔ (0#16 < s.cursorRemaining ∨ s.zlpPending = 1#1))

/-- The three pins with an idle level (R130). -/
structure Levels where
  dclk : Bit
  bkpt : Bit
  rst : Bit
  deriving DecidableEq, Repr

/-- The pins as they are. -/
def levels (s : State) : Levels := { dclk := s.dclk, bkpt := s.bkpt, rst := s.rst }

/-- The idle levels for BTE_CFG (spec/00_scope.md R14; spec/30_encoding.md R105: bit 0 BKPT_ACTIVE, bit 1
RST_ACTIVE). -/
def idleLevels (s : State) : Levels :=
  { dclk := 1#1, bkpt := ~~~(s.bteCfg.extractLsb' 0 1), rst := ~~~(s.bteCfg.extractLsb' 1 1) }

/-- The pins after a straight run of positions. -/
def levelsAfter (s : State) : List Micro → Levels → Levels
  | [], l => l
  | .clk b :: ms, l => levelsAfter s ms { l with dclk := b }
  | .bkpt a :: ms, l => levelsAfter s ms { l with bkpt := bkptLevel s a }
  | .rst a :: ms, l => levelsAfter s ms { l with rst := rstLevel s a }
  | _ :: ms, l => levelsAfter s ms l

/-- The idle condition between operations (R130), and inside one: what is left of it up to its next test or its return
leads back to the idle levels. -/
def PinsSound (s : State) : Prop :=
  match s.bteSeq with
  | .idle => levels s = idleLevels s
  | .running _ rest _ => levelsAfter s rest (levels s) = idleLevels s

/-- The parity the next Submit on endpoint 0 must use by the trace alone: EVEN at the start and after a bus-reset
rebuild (the only writer of 0x01 to EP0_CTL, R233), the other one after each Submit (spec/10_state.md R52). -/
def nextTransmitParity : List UsbEvent → Bit
  | [] => 0#1
  | .submit e p _ _ _ :: l => if e = 0 then p ^^^ 1#1 else nextTransmitParity l
  | .write r v :: l => if r = .ep0Ctl ∧ v = 0x01#8 then 0#1 else nextTransmitParity l
  | .rearm _ _ :: l | .logTransferError :: l | .logUnexpectedToken _ :: l | .logUnexpectedEndpoint _ _ _ :: l
  | .vendorRequest _ :: l => nextTransmitParity l

/-- The slots named by successive Submits on endpoint 0 alternate. -/
def alternates : List UsbEvent → Prop
  | [] => True
  | .submit e p _ _ _ :: l => (e = 0 → p = nextTransmitParity l) ∧ alternates l
  | .write _ _ :: l | .rearm _ _ :: l | .logTransferError :: l | .logUnexpectedToken _ :: l
  | .logUnexpectedEndpoint _ _ _ :: l | .vendorRequest _ :: l => alternates l

/-- Ping-pong alternation on (0, TX) (R52): the Submits so far alternate, and the tracker names the slot that is next. -/
def PingPong (s : State) : Prop :=
  alternates s.usbTrace ∧ s.parity.get 0 .tx = nextTransmitParity s.usbTrace

/-- The parity the next Rearm on endpoint 0 must use by the trace alone, as `nextTransmitParity` for Submits. -/
def nextReceiveParity : List UsbEvent → Bit
  | [] => 0#1
  | .rearm e p :: l => if e = 0 then p ^^^ 1#1 else nextReceiveParity l
  | .write r v :: l => if r = .ep0Ctl ∧ v = 0x01#8 then 0#1 else nextReceiveParity l
  | .submit _ _ _ _ _ :: l | .logTransferError :: l | .logUnexpectedToken _ :: l | .logUnexpectedEndpoint _ _ _ :: l
  | .vendorRequest _ :: l => nextReceiveParity l

/-- The slots named by successive Rearms on endpoint 0 alternate. -/
def rearmsAlternate : List UsbEvent → Prop
  | [] => True
  | .rearm e p :: l => (e = 0 → p = nextReceiveParity l) ∧ rearmsAlternate l
  | .write _ _ :: l | .submit _ _ _ _ _ :: l | .logTransferError :: l | .logUnexpectedToken _ :: l
  | .logUnexpectedEndpoint _ _ _ :: l | .vendorRequest _ :: l => rearmsAlternate l

/-- How many transmit slots of an endpoint are submitted and not yet completed. -/
def outstanding (s : State) (e : Endpoint) : Nat := [0#1, 1#1].countP fun p => !slotFree s e .tx p

/-- The transmit tracker is the SIE's parity plus the outstanding slots, modulo 2 (R52), and a single outstanding slot is
the one the SIE takes next. -/
def TransmitTracked (s : State) (e : Endpoint) : Prop :=
  s.parity.get e .tx = s.sieParity.get e .tx + BitVec.ofNat 1 (outstanding s e)
    ∧ (slotFree s e .tx (s.sieParity.get e .tx) = true → slotFree s e .tx (s.sieParity.get e .tx ^^^ 1#1) = true)

/-- The record is a receive completion of endpoint 0. -/
def isControlReceive (r : Completion) : Bool := r.endpoint = 0 && r.dir = .rx

/-- The records whose receive slot the CTS has not armed again: all of the queue, but for the one at its head while its
SETUP event is being classified (spec/43_ep0_control.md R191; log 7). -/
def unhandled (s : State) : List Completion :=
  match s.ctsSeq with
  | .inInvocation _ _ .request => s.queue.tail
  | .inInvocation _ _ .select | .inInvocation _ _ .token | .idle => s.queue

/-- From parity `b` on, the receive completions of endpoint 0 name alternate slots, and the one after them is `k`. -/
def receivesFrom (b : Bit) : List Completion → Bit → Prop
  | [], k => b = k
  | r :: q, k =>
    if isControlReceive r then r.parity = b ∧ receivesFrom (b ^^^ 1#1) q k else receivesFrom b q k

/-- The receive tracker of endpoint 0 names the oldest slot not armed again, and the SIE's parity the one after the
newest; so both agree when the queue holds no receive record of endpoint 0 (R52). Each of those slots, at most two, is
the CTS's and holds a SETUP or OUT token (spec/42_bdt_handoff.md R164). -/
def ReceiveTracked (s : State) : Prop :=
  receivesFrom (s.parity.get 0 .rx) (unhandled s) (s.sieParity.get 0 .rx)
    ∧ ((unhandled s).filter isControlReceive).length ≤ 2
    ∧ ∀ r ∈ unhandled s, isControlReceive r = true → slotFree s 0 .rx r.parity = true
        ∧ (ctlToken (slotCtl s 0 .rx r.parity) = 0x1#4 ∨ ctlToken (slotCtl s 0 .rx r.parity) = 0xD#4)

/-- An endpoint no rebuild arms is as reset left it: all four slots the CTS's, all four parities EVEN
(spec/44_usb_dispatcher.md R233, R241). -/
def Untouched (s : State) (e : Endpoint) : Prop :=
  ∀ d : Dir, (∀ p : Bit, slotFree s e d p = true) ∧ s.parity.get e d = 0#1 ∧ s.sieParity.get e d = 0#1

/-- A receive slot the SIE owns is one of an active endpoint's, with its own buffer and 64 bytes (R163;
spec/92_eei_decisions.md D24). -/
def ArmedWithOwnBuffer (s : State) : Prop :=
  ∀ e : Endpoint, e.val < s.cfg.numEndpoints → ∀ p : Bit, slotFree s e .rx p = false →
    e ∈ s.cfg.activeEndpoints ∧ slotBuf s e .rx p = rxBuf s.cfg e p ∧ ctlCount (slotCtl s e .rx p) = 64#10

/-- The receive buffers of the active endpoints stand outside the BDT. For endpoint 0 the parameters' constraints say so
(spec/20_memory.md R69); for another active endpoint the address is a free value (log 11) and this is a condition. -/
def BuffersApart (c : Params) : Prop :=
  ∀ e ∈ c.activeEndpoints, ∀ p : Bit,
    disjoint (rxBuf c e p) 64 c.bdtBase (32 * c.numEndpoints) = true

/-- Inside an invocation, what is left of the snapshot is part of it, TOKDNE is left only while a record is queued, and
the later phases belong to TOKDNE (spec/44_usb_dispatcher.md R231, R236; log 7). -/
def InvocationSound (s : State) : Prop :=
  match s.ctsSeq with
  | .idle => True
  | .inInvocation st rest ph =>
    rest &&& ~~~st = 0#8 ∧ (rest.getLsbD 3 = true → s.queue ≠ []) ∧ (ph ≠ .select → rest.getLsbD 3 = true)

/-- The trackers of the CTS and the parities of the SIE agree as R52 says: for the transmit slots of every endpoint with
slots, for the receive slots of endpoint 0, whose Rearms alternate, and for every endpoint that is not active. -/
def Tracked (s : State) : Prop :=
  MemoryCanonical s ∧ QueueSound s ∧ InvocationSound s ∧ BuffersApart s.cfg ∧ ArmedWithOwnBuffer s ∧ ReceiveTracked s
    ∧ rearmsAlternate s.usbTrace ∧ s.parity.get 0 .rx = nextReceiveParity s.usbTrace
    ∧ ∀ e : Endpoint, e.val < s.cfg.numEndpoints →
        TransmitTracked s e ∧ (e ∉ s.cfg.activeEndpoints → Untouched s e)

/-- The data toggles of the Submits on endpoint 0, oldest first. -/
def submitToggles : List UsbEvent → List Bit
  | [] => []
  | .submit e _ _ _ tog :: l => if e = 0 then submitToggles l ++ [tog] else submitToggles l
  | .rearm _ _ :: l | .write _ _ :: l | .logTransferError :: l | .logUnexpectedToken _ :: l
  | .logUnexpectedEndpoint _ _ _ :: l | .vendorRequest _ :: l => submitToggles l

/-- The bits alternate and the first is `b`. -/
def alternatesFrom (b : Bit) : List Bit → Prop
  | [] => True
  | x :: xs => x = b ∧ alternatesFrom (b ^^^ 1#1) xs

/-- The row the CTS finds is this one. -/
def ctsFinds (s : State) (i : Instr) : Prop := ∃ c, ctsFetch s = some c ∧ decode c = .ok i

/-- From `s` to `t` the toggles of the Submits on endpoint 0 go on alternating from the one `s` holds, and `t` holds the
next one; only a SETUP event (to 1) and the bus-reset rebuild (to 0) set it otherwise, and they submit nothing
(spec/10_state.md R53, R48). -/
def TogglesGoOn (s t : State) : Prop :=
  ∃ added, t.usbTrace = added ++ s.usbTrace ∧ alternatesFrom (s.toggle.get 0 .tx) (submitToggles added)
    ∧ (t.toggle.get 0 .tx = s.toggle.get 0 .tx + BitVec.ofNat 1 (submitToggles added).length
      ∨ (submitToggles added = []
        ∧ ((∃ p, ctsFinds s (.ep0Setup p) ∧ t.toggle.get 0 .tx = 1#1)
          ∨ (ctsFinds s .usbrst ∧ t.toggle.get 0 .tx = 0#1))))

end Sys2Proof.Safety
end

