-- ==== Sys2Proof/Certificates/Slice0/Obligations.lean ====
section
/-!
DEFINITION. The statements for the provers. Each docstring names the rule of spec/ a statement formalises, and the log
entry where a clause rests on the model's own choice.
-/

open Sys2Proof Sys2Proof.Machine Sys2Proof.Safety

/-! ## Encodings (spec/30_encoding.md) -/

/-- R93, R96, R98, R104, R106: no bit of an encoding is dropped. The encoder is written from the same tables. -/
def Obligations.DecodeOfEncodeIsTheInstruction : Prop :=
  ∀ i : Instr, i.wf = true → decode (encode i) = .ok i

/-- R93, R98, R104, R106: what a decoder reads is a term that the tables allow, so no row claims another row's codes;
and a setup packet or an event code is recovered whole from the operation it selects. -/
def Obligations.DecodedInstructionIsWellFormed : Prop :=
  (∀ (c : Code) (i : Instr), decode c = .ok i → i.wf = true)
    ∧ (∀ (bs : List Byte) (i : Instr), decode (.setup bs) = .ok i → encode i = .setup bs)
    ∧ (∀ (t : BitVec 12) (i : Instr), t.extractLsb' 4 2 = 0#2 → decode (.token t) = .ok i → encode i = .token t)

/-- R93, R95: each selector with at least its minimum length, words big-endian, bytes beyond the minimum ignored; and
what selects nothing. -/
def Obligations.RequestSelectsByFirstByte : Prop :=
  (∀ (a b : Byte) (rest : List Byte), rest.length ≤ 252 →
    decode (.req (0x01#8 :: a :: b :: rest)) = .ok (.tx (a ++ b))
      ∧ decode (.req (0x02#8 :: a :: b :: rest)) = .ok (.txrx (a ++ b))
      ∧ decode (.req (0x04#8 :: a :: b :: rest)) = .ok .rxr)
  ∧ (∀ rest : List Byte, rest.length ≤ 254 →
    decode (.req (0x03#8 :: rest)) = .ok .txc ∧ decode (.req (0x05#8 :: rest)) = .ok .resync
      ∧ decode (.req (0x06#8 :: rest)) = .ok .halt)
  ∧ (∀ (b : Byte) (rest : List Byte), rest.length ≤ 253 →
    decode (.req (0x07#8 :: b :: rest)) =
      .ok (if b = 0x00#8 then .reset 0#1 else if b = 0x01#8 then .reset 1#1 else .bteIllegal (0x07#8 :: b :: rest)))
  ∧ (∀ bs : List Byte, bs.length ≤ 255 →
    (bs = [] ∨ bs.head? = some 0x00#8 ∨ (∃ op, bs.head? = some op ∧ 0x08#8 ≤ op)
        ∨ (bs.length < 3 ∧ (bs.head? = some 0x01#8 ∨ bs.head? = some 0x02#8 ∨ bs.head? = some 0x04#8))
        ∨ bs = [0x07#8]) →
    decode (.req bs) = .ok (.bteIllegal bs))

/-- R96, R98: the packet `P` with byte 0 in bits 7:0 selects by the table's masks, in its priority order, and the
fields stand where R96 puts them. (Field order and request codes: the spec's own supply, G2.) -/
def Obligations.SetupPacketSelectsByPriority : Prop :=
  ∀ P : BitVec 64,
    let rt := P.extractLsb' 0 8
    let code := P.extractLsb' 8 8
    let value := P.extractLsb' 16 16
    let index := P.extractLsb' 32 16
    let length := P.extractLsb' 48 16
    decode (.setup ((List.range 8).map fun k => P.extractLsb' (8 * k) 8)) = .ok (
      if P &&& 0x0000000000000060#64 = 0x0000000000000040#64 then .vendor rt code value index length
      else if P &&& 0x000000000000FF00#64 = 0x0000000000000600#64 then .getDescriptor rt value index length
      else if P &&& 0x000000000000FF00#64 = 0x0000000000000500#64 then .setAddress rt value index length
      else if P &&& 0x000000000000FF00#64 = 0x0000000000000900#64 then .setConfiguration rt value index length
      else .unrecognised rt code value index length)

/-- R106: the event code is TOK_STATUS beside the token field of the slot it names, its fields stand where R106 puts them,
and it selects by the table's masks; parity is part of none. -/
def Obligations.TokenEventSelectsByEndpointAndKind : Prop :=
  (∀ s : State, tokenCode s = s.tokStatus ++ ctlToken (slotCtl s (tokEndpoint s) (tokDir s) (tokParity s)))
  ∧ (∀ (r : Completion) (s : State), s.tokStatus = tokStatusOf r →
      (tokenCode s).extractLsb' 8 4 = BitVec.ofNat 4 r.endpoint.val
        ∧ (tokenCode s).extractLsb' 7 1 = (match r.dir with | .rx => 0#1 | .tx => 1#1)
        ∧ (tokenCode s).extractLsb' 6 1 = r.parity ∧ (tokenCode s).extractLsb' 4 2 = 0#2
        ∧ tokEndpoint s = r.endpoint ∧ tokDir s = r.dir ∧ tokParity s = r.parity)
  ∧ ∀ t : BitVec 12, decode (.token t) = .ok (
      if t &&& 0xF8F#12 = 0x00D#12 then .ep0Setup (t.extractLsb' 6 1)
      else if t &&& 0xF8F#12 = 0x001#12 then .ep0Out (t.extractLsb' 6 1)
      else if t &&& 0xF8F#12 = 0x089#12 then .ep0In (t.extractLsb' 6 1)
      else if t &&& 0xF00#12 = 0x000#12 then .ep0Unexpected t
      else .epnDefault t)

/-- R104, R231: of the asserted conditions the one with the lowest priority number is performed next; the reserved bits
are refused (R108). (Bit positions: the spec's own supply, G4.) -/
def Obligations.ConditionSelectsByPriority : Prop :=
  ∀ st : Byte, decode (.cond st) =
    if st &&& 0x60#8 ≠ 0#8 then .error .reservedCondition
    else if st &&& 0x01#8 = 0x01#8 then .ok .usbrst
    else if st &&& 0x02#8 = 0x02#8 then .ok .error
    else if st &&& 0x04#8 = 0x04#8 then .ok .softok
    else if st &&& 0x08#8 = 0x08#8 then .ok .tokdne
    else if st &&& 0x10#8 = 0x10#8 then .ok .sleep
    else if st &&& 0x80#8 = 0x80#8 then .ok .stall
    else .error .noCondition

/-- Words written out from the tables of R93, R98, R104 and R106. -/
def Obligations.WordsOfTheTablesDecode : Prop :=
  decode (.req [0x02, 0xA5, 0xC3]) = .ok (.txrx 0xA5C3)
  ∧ decode (.req [0x07, 0x01]) = .ok (.reset 1)
  ∧ decode (.setup [0x80, 0x06, 0x01, 0x03, 0x09, 0x04, 0xC8, 0x00]) = .ok (.getDescriptor 0x80 0x0301 0x0409 0x00C8)
  ∧ decode (.setup [0x00, 0x05, 0x05, 0x00, 0x00, 0x00, 0x00, 0x00]) = .ok (.setAddress 0x00 0x0005 0x0000 0x0000)
  ∧ decode (.token 0x089) = .ok (.ep0In 0)
  ∧ decode (.token 0x109) = .ok (.epnDefault 0x109)
  ∧ decode (.cond 0x0C) = .ok .softok

/-! ## A step runs the decoded operation -/

/-- R21, R140, R230, R231, R266: what a step performs is the operation the decoder reads from where each sequencer looks
(the request port; the conditions, the token-done event or the setup packet of the invocation), once the invocation is
entered; a BTE in the middle of an operation finishes it; an event of the environment is applied to the state with the
event taken from the script and, where it is one that boot comes before, boot's time over (log 32; `endsBoot` says which
events those are, and ParametersNeverChange what each event leaves). Where each sequencer looks: the idle BTE at the bytes
of the request at its port (R140); the CTS, without a fault and inside an invocation, at the rest of its snapshot (R231),
at the event code (R236, R106), or at the snapshot in `setup` in buffer order (R192, R96); at entry:
InvocationStartsOnAnEnabledCondition. A request longer than REQ_LEN can say is refused (R28; log 19). The model's choices:
one row of the CTS is one step (log 7), one request of the BTE is one step and a position of it may be one too (log 6),
the script and the CTS before the BTE where it is empty (log 5, 26), and that a request event stays in the script while an
earlier request is running or not yet accepted, the BTE taking the step (log 18). -/
def Obligations.StepRunsTheDecodedOperation : Prop :=
  (∀ s : State,
    (s.bteSeq = .idle → bteFetch s = if s.reqValid then some (.req s.reqBuf) else none)
    ∧ (∀ st rest : Byte, s.faults = [] →
      (s.ctsSeq = .inInvocation st rest .select → ctsFetch s = some (.cond rest) ∧ ctsEnter s = s)
      ∧ (s.ctsSeq = .inInvocation st rest .token → ctsFetch s = some (.token (tokenCode s)) ∧ ctsEnter s = s)
      ∧ (s.ctsSeq = .inInvocation st rest .request →
        ctsFetch s = some (.setup [s.setup.requestType, s.setup.requestCode,
          s.setup.value.extractLsb' 0 8, s.setup.value.extractLsb' 8 8,
          s.setup.index.extractLsb' 0 8, s.setup.index.extractLsb' 8 8,
          s.setup.length.extractLsb' 0 8, s.setup.length.extractLsb' 8 8]) ∧ ctsEnter s = s)))
  ∧ ∀ s : State, configOk s.cfg = true → s.intStatus &&& 0x60#8 = 0#8 →
    (∀ (c : Code) (i : Instr), s.script = [] → ctsFetch s = some c → decode c = .ok i →
      step s = exec i (ctsEnter s))
    ∧ (∀ (c : Code) (i : Instr), s.script = [] → ctsFetch s = none → bteFetch s = some c → decode c = .ok i →
      step s = exec i s)
    ∧ (∀ (op : ReqOp) (left : List Micro) (tail : Tail), s.script = [] → ctsFetch s = none →
      s.bteSeq = .running op left tail → step s = .next (resume s))
    ∧ (s.script = [] → ctsFetch s = none → s.bteSeq = .idle → s.reqValid = false → step s = .next s)
    ∧ (∀ (c : Code) (i : Instr) (rest : List Event), s.script = .cts :: rest → ctsFetch s = some c →
      decode c = .ok i → step s = exec i (ctsEnter { s with script := rest }))
    ∧ (∀ (c : Code) (i : Instr) (rest : List Event), s.script = .bte :: rest → bteFetch s = some c →
      decode c = .ok i → step s = exec i { s with script := rest })
    ∧ (∀ (c : Code) (i : Instr) (bytes : List Byte) (rest : List Event), s.script = .request bytes :: rest →
      bteFetch s = some c → decode c = .ok i → step s = exec i s)
    ∧ (∀ (op : ReqOp) (left : List Micro) (tail : Tail) (bytes : List Byte) (rest : List Event),
      s.script = .request bytes :: rest → s.bteSeq = .running op left tail → step s = .next (resume s))
    ∧ (∀ (op : ReqOp) (left : List Micro) (tail : Tail) (rest : List Event), s.bteSeq = .running op left tail →
      (s.script = .bte :: rest → step s = .next (resume { s with script := rest }))
      ∧ (s.script = .bteMicro :: rest → step s = .next (advance { s with script := rest })))
    ∧ (∀ (bytes : List Byte) (rest : List Event), s.script = .request bytes :: rest → s.bteSeq = .idle →
      s.reqValid = false →
      step s = if bytes.length ≤ 255 then .next { s with
          script := rest, reqBuf := bytes, reqValid := true, bootBteDone := true, bootIntDone := true }
        else .refused .requestTooLong)
    ∧ (∀ (ev : Event) (rest : List Event), s.script = ev :: rest → (∀ bytes, ev ≠ .request bytes) →
      step s = applyEvent ev { s with
        script := rest
        bootBteDone := s.bootBteDone || endsBoot ev
        bootIntDone := s.bootIntDone || endsBoot ev })

/-! ## The bit-transport engine (spec/40_timing_primitive.md, spec/41_bit_transport.md) -/

/-- R121, R122, R123: a delay of `t` microseconds reads COUNTDOWN, polls until at least `t * CD_TICKS_PER_US` ticks have
elapsed since that read, and changes no pin and nothing but the delay's own registers and the trace; a time that does
not fit the counter is waited for in as many delays of 1000 microseconds as cover it (the rounding: log 10). Taken
position by position, the first turn reads COUNTDOWN and the loop is left only once the ticks have elapsed. Every delay
of every operation is of this form. How much longer a delay lasts is free (log 9). -/
def Obligations.DelayIsNeverShort : Prop :=
  (∀ (s : State) (t : Nat), t * s.cfg.cdTicksPerUs ≤ s.cfg.cdReload →
    ∃ cd fc, runMicros (delay s.cfg t) s = { s with
        countdown := cd, freeCount := fc, waitStart := s.countdown, pinTrace := .w t :: s.pinTrace }
      ∧ t * s.cfg.cdTicksPerUs ≤ elapsed s.cfg s.countdown cd
      ∧ (s.countdown ≤ s.cfg.cdReload → cd ≤ s.cfg.cdReload))
  ∧ (∀ (c : Params) (t : Nat), c.cdReload < t * c.cdTicksPerUs →
    ∃ n, delay c t = (List.replicate n [.waitStart, .waitPoll (1000 * c.cdTicksPerUs) 1000]).flatten
      ∧ t ≤ 1000 * n ∧ 1000 * n < t + 1000)
  ∧ (∀ (s : State) (t : Nat) (op : ReqOp) (rest : List Micro) (tail : Tail),
    t * s.cfg.cdTicksPerUs ≤ s.cfg.cdReload → s.bteSeq = .running op (delay s.cfg t ++ rest) tail →
    advance s = { s with
      waitStart := s.countdown, bteSeq := .running op (.waitPoll (t * s.cfg.cdTicksPerUs) t :: rest) tail })
  ∧ (∀ (s : State) (n us : Nat) (op : ReqOp) (rest : List Micro) (tail : Tail),
    s.bteSeq = .running op (.waitPoll n us :: rest) tail →
    advance s = if n ≤ elapsed s.cfg s.waitStart s.countdown
      then { s with bteSeq := .running op rest tail, pinTrace := .w us :: s.pinTrace } else s)
  ∧ (∀ (c : Params) (op : ReqOp), delaysTimed c (program c op).1)
  ∧ (∀ (s : State) (test : Tail), delaysTimed s.cfg (decideTail test s).1)

/-- R141, R142, R133: TX and TXRX send one message of 17 cells and answer OK whatever the target answers. TX leaves the
buffer unchanged; TXRX reports the frame's status bit and word in its first three bytes and judges nothing. The delays
of the trace: log 10. Answers beyond those State holds: log 8. -/
def Obligations.TxAndTxrxSendOneMessage : Prop :=
  ∀ (w : Half) (s : State), s.bteSeq = .idle →
    (∃ t, AfterMessages w 1 s t ∧ exec (.tx w) s = .next { t with reqValid := false, result := 0x00#8 })
    ∧ (∀ (a b c : Byte) (more : List Byte), s.reqBuf = a :: b :: c :: more →
      ∃ t, AfterMessages w 1 s t ∧ exec (.txrx w) s = .next { t with
        reqValid := false
        result := 0x00#8
        reqBuf := (heardStatus s 0).setWidth 8 :: (heardWord s 0).extractLsb' 8 8 :: (heardWord s 0).extractLsb' 0 8
          :: more })

/-- R143, R135: TXC exchanges the filler until a status bit is 0, at most RETRY_BUDGET times: OK if one was, ERR_BUSY
after exactly RETRY_BUDGET exchanges otherwise. Log 8, 10. -/
def Obligations.TxcConfirmsOrIsBusy : Prop :=
  ∀ s : State, s.bteSeq = .idle → BudgetOk s.cfg →
    let n := attempts (confirmed s) s.cfg.retryBudget
    ∃ t, AfterMessages s.cfg.fillerWord n s t ∧ exec .txc s = .next { t with
      reqValid := false
      retry := BitVec.ofNat 8 (s.cfg.retryBudget - n)
      result := if heardStatus s (17 * (n - 1)) = 0#1 then 0x00#8 else 0x01#8 }

/-- R144, R136: RXR repeats the exchange while status is 1 with the not-ready word, at most RETRY_BUDGET times, and
reports the last frame in the buffer; the outcome is the table of R136. Log 8, 10. -/
def Obligations.RxrReportsTheLastFrame : Prop :=
  ∀ (s : State) (a b c : Byte) (more : List Byte), s.bteSeq = .idle → BudgetOk s.cfg →
    s.reqBuf = a :: b :: c :: more →
    let n := rxExchanges s
    ∃ t, AfterMessages s.cfg.fillerWord n s t ∧ exec .rxr s = .next { t with
      reqValid := false
      retry := BitVec.ofNat 8 (s.cfg.retryBudget - n)
      result := rxStatus s n
      reqBuf := (heardStatus s (17 * (n - 1))).setWidth 8 :: (heardWord s (17 * (n - 1))).extractLsb' 8 8
        :: (heardWord s (17 * (n - 1))).extractLsb' 0 8 :: more }

/-- R145: three filler messages; dead if the third word's two low bits are 0; else at most RESYNC_PROBE_MAX pulses
until one samples 0; no start bit fails; a start bit is followed by the 16 completing cells and OK. The frame registers
keep the third message. Log 8, 10. -/
def Obligations.ResyncProbesForAStartBit : Prop :=
  ∀ s : State, s.bteSeq = .idle → ProbesOk s.cfg →
    let k := attempts (fun j => answer s (51 + j) = 0#1) s.cfg.resyncProbeMax
    ∃ t, AfterMessages s.cfg.fillerWord 3 s t ∧
      if (heardWord s 34).extractLsb' 0 2 = 0#2 then
        exec .resync s = .next { t with reqValid := false, result := 0x03#8 }
      else if answer s (51 + (k - 1)) = 0#1 then
        ∃ cd fc ws, exec .resync s = .next { t with
          reqValid := false
          result := 0x00#8
          probe := BitVec.ofNat 8 (s.cfg.resyncProbeMax - k)
          dout := BitVec.ofBool (s.cfg.fillerWord.getLsbD 0)
          din := answer s (51 + k + 15)
          bIn := answer s (51 + k + 15)
          target := s.target.drop (51 + k + 16)
          pinTrace := (completionTrace s k).reverse ++ (probesTrace s k).reverse ++ t.pinTrace
          countdown := cd, freeCount := fc, waitStart := ws }
      else
        ∃ cd fc ws, exec .resync s = .next { t with
          reqValid := false
          result := 0x04#8
          probe := 0#8
          dout := 0#1
          din := answer s (51 + k - 1)
          bIn := answer s (51 + k - 1)
          target := s.target.drop (51 + k)
          pinTrace := (probesTrace s k).reverse ++ t.pinTrace
          countdown := cd, freeCount := fc, waitStart := ws }

/-- R146, R14, R24: HALT asserts the breakpoint pin for T_BKPT_HOLD, releases it, and flushes by receive-with-retry, whose
status is the result; the buffer is unchanged. The level: the position that asserts the pin drives BKPT to bit 0 of
BTE_CFG, the one that releases it to the other level, and between the two stands the delay alone, which changes no pin
(DelayIsNeverShort). Log 8, 10. -/
def Obligations.HaltHoldsBreakpointThenFlushes : Prop :=
  (∀ s : State, s.bteSeq = .idle → BudgetOk s.cfg →
    let u := { s with
      bkpt := ~~~(s.bteCfg.extractLsb' 0 1)
      pinTrace := [.b false] ++ (delayTrace s.cfg s.cfg.tBkptHold).reverse ++ [.b true] ++ s.pinTrace }
    let n := rxExchanges s
    ∃ t, AfterMessages s.cfg.fillerWord n u t ∧ exec .halt s = .next { t with
      reqValid := false
      retry := BitVec.ofNat 8 (s.cfg.retryBudget - n)
      result := rxStatus s n })
  ∧ (∀ s : State, ∃ left tail, (accept .halt s).bteSeq =
      .running .halt (.bkpt true :: (delay s.cfg s.cfg.tBkptHold ++ .bkpt false :: left)) tail)
  ∧ (∀ (asserted : Bool) (s : State) (op : ReqOp) (left : List Micro) (tail : Tail),
    s.bteSeq = .running op (.bkpt asserted :: left) tail →
    advance s = { s with
      bteSeq := .running op left tail
      bkpt := if asserted then s.bteCfg.extractLsb' 0 1 else ~~~(s.bteCfg.extractLsb' 0 1)
      pinTrace := .b asserted :: s.pinTrace })

/-- R147, R14, R24: RESET drives the reset pin for T_RST_PULSE, with `hold_bkpt` inside an asserted breakpoint pin, waits
T_RST_SETTLE, clears RESET_DETECTED and flushes as HALT does; with `hold_bkpt` 0 the breakpoint pin is not touched. The
level: the position that asserts the reset pin drives RST to bit 1 of BTE_CFG, the one that releases it to the other
level (the breakpoint pin's positions: HaltHoldsBreakpointThenFlushes); between the pins' positions stand the two delays
alone, which change no pin (DelayIsNeverShort), and the clear comes after both. Log 8, 10. -/
def Obligations.ResetPulsesThenFlushes : Prop :=
  (∀ (h : Bit) (s : State), s.bteSeq = .idle → BudgetOk s.cfg →
    let u := { s with
      bkpt := if h = 1#1 then ~~~(s.bteCfg.extractLsb' 0 1) else s.bkpt
      rst := ~~~(s.bteCfg.extractLsb' 1 1)
      resetDetected := 0#1
      pinTrace := (if h = 1#1 then [PinEvent.b false] else []) ++ (delayTrace s.cfg s.cfg.tRstSettle).reverse
        ++ [.r false] ++ (delayTrace s.cfg s.cfg.tRstPulse).reverse ++ [.r true]
        ++ (if h = 1#1 then [PinEvent.b true] else []) ++ s.pinTrace }
    let n := rxExchanges s
    ∃ t, AfterMessages s.cfg.fillerWord n u t ∧ exec (.reset h) s = .next { t with
      reqValid := false
      retry := BitVec.ofNat 8 (s.cfg.retryBudget - n)
      result := rxStatus s n })
  ∧ (∀ (h : Bit) (s : State), ∃ left tail, (accept (.reset h) s).bteSeq = .running (.reset h)
      ((if h = 1#1 then [.bkpt true] else []) ++ .rst true :: (delay s.cfg s.cfg.tRstPulse ++ .rst false
        :: (delay s.cfg s.cfg.tRstSettle ++ (if h = 1#1 then [.bkpt false] else []) ++ .clearResetDetected :: left))) tail)
  ∧ (∀ (asserted : Bool) (s : State) (op : ReqOp) (left : List Micro) (tail : Tail),
    s.bteSeq = .running op (.rst asserted :: left) tail →
    advance s = { s with
      bteSeq := .running op left tail
      rst := if asserted then s.bteCfg.extractLsb' 1 1 else ~~~(s.bteCfg.extractLsb' 1 1)
      pinTrace := .r asserted :: s.pinTrace })
  ∧ (∀ (s : State) (op : ReqOp) (left : List Micro) (tail : Tail),
    s.bteSeq = .running op (.clearResetDetected :: left) tail →
    advance s = { s with bteSeq := .running op left tail, resetDetected := 0#1 })

/-- R148, R140: an illegal request answers ERR_ILLEGAL_OP with no pin event, sample or delay and the buffer unchanged; BUSY
is set at its acceptance and cleared at its return, as for any request. It has two positions, RESULT and then BUSY, in
R140's order (the form in which a position is held: log 6). -/
def Obligations.IllegalRequestOnlyReports : Prop :=
  ∀ (req : List Byte) (s : State), s.bteSeq = .idle →
    exec (.bteIllegal req) s = .next { s with reqValid := false, result := 0x05#8 }
      ∧ busy (accept .illegal s) = 1#1
      ∧ advance (accept .illegal s) = { s with
          reqValid := false, result := 0x05#8, bteSeq := .running .illegal [] .leave }
      ∧ advance (advance (accept .illegal s)) = { s with reqValid := false, result := 0x05#8 }

/-- R140: a request is accepted only while BUSY is 0, acceptance sets BUSY and starts the operation at its first
position and changes nothing else; while BUSY is 1 a second request has no effect. -/
def Obligations.BusyPortAcceptsNothing : Prop :=
  (∀ (s : State) (i : Instr) (op : ReqOp), reqOpOf i = some op → busy s = 1#1 → exec i s = .next s)
  ∧ (∀ (s : State) (i : Instr) (op : ReqOp), s.bteSeq = .idle → s.reqValid = true → s.reqBuf.length ≤ 255 →
      decodeReq s.reqBuf = i → reqOpOf i = some op →
      let t := { s with reqValid := false, bteSeq := .running op (program s.cfg op).1 (program s.cfg op).2 }
      bteMicroTurn s = .next t ∧ busy t = 1#1)
  ∧ (∀ (bytes : List Byte) (s : State), busy s = 1#1 → writeRequest bytes s = .refused .commandWhileBusy)

/-- R150, which the spec derives from R133 to R147: every operation ends, from any position a run or no run reaches, and
from its acceptance with at most the cells R150 counts. -/
def Obligations.EveryOperationEndsWithinItsCells : Prop :=
  (∀ s : State, (resume s).bteSeq = .idle)
  ∧ ∀ (s : State) (i : Instr) (op : ReqOp), reqOpOf i = some op → s.bteSeq = .idle → BudgetOk s.cfg →
      ProbesOk s.cfg →
      ∃ t added, exec i s = .next t ∧ t.bteSeq = .idle ∧ t.pinTrace = added ++ s.pinTrace
        ∧ samples added ≤ cellBound s.cfg op

/-- R21, R7, R140: taking an operation position by position and letting it run to completion come to the same state, but for
the registers of the delay loop (how long a delay lasts is free, log 9). The writes of a return are positions of their own
in R140's order: each buffer-out byte of R93, then RESULT, then BUSY with `bte_seq`; BUSY is cleared at no other position,
and every operation and every test that ends it comes to its end through these writes and makes none before them. (The
form in which a position is held: log 6.) -/
def Obligations.PositionByPositionIsTheSameRun : Prop :=
  (∀ s : State, eraseTime (resume (advance s)) = eraseTime (resume s))
  ∧ (∀ (s : State) (i : Instr) (op : ReqOp), reqOpOf i = some op → s.bteSeq = .idle →
      exec i s = .next (resume (accept op s)))
  ∧ (∀ (s : State) (op : ReqOp) (left : List Micro) (tail : Tail),
    (∀ k : Fin 3, s.bteSeq = .running op (.putByte k :: left) tail →
      advance s = { s with
        bteSeq := .running op left tail
        reqBuf := s.reqBuf.set k (match k with
          | 0 => (s.shiftIn.extractLsb' 16 1).setWidth 8
          | 1 => s.shiftIn.extractLsb' 8 8
          | 2 => s.shiftIn.extractLsb' 0 8) })
    ∧ (∀ code : Byte, s.bteSeq = .running op (.setResult code :: left) tail →
      advance s = { s with bteSeq := .running op left tail, result := code })
    ∧ (s.bteSeq = .running op [] .leave → advance s = { s with bteSeq := .idle }))
  ∧ (∀ s : State, busy s = 1#1 → busy (advance s) = 0#1 → ∃ op, s.bteSeq = .running op [] .leave)
  ∧ (∀ (c : Params) (op : ReqOp), ReturnsLast (program c op).1 (program c op).2)
  ∧ (∀ (test : Tail) (s : State), test ≠ .leave → ReturnsLast (decideTail test s).1 (decideTail test s).2)

/-! ## The two engines share no state (spec/00_scope.md R8) -/

/-- R8, which the spec derives from its state lists: no operation of the CTS reads or writes BTE state or pins. -/
def Obligations.CtsOperationsLeaveTheBteAlone : Prop :=
  ∀ (i : Instr) (u s : State), isRequest i = false →
    exec i (withBte u s) = mapNext (withBte u) (exec i s)
      ∧ ∀ t, exec i s = .next t → withBte s t = t

/-- R8, as above: no operation of the BTE reads or writes CTS state or the BDT. -/
def Obligations.BteOperationsLeaveTheCtsAlone : Prop :=
  ∀ (i : Instr) (u s : State), isRequest i = true →
    exec i (withCts u s) = mapNext (withCts u) (exec i s)
      ∧ ∀ t, exec i s = .next t → withCts s t = t

/-! ## The hand-off (spec/42_bdt_handoff.md) -/

/-- R161: Submit raises SlotBusy, and changes nothing else, if the slot the tracker names is the SIE's; else it hands the
packet over with the tracker's toggle and flips toggle and parity. -/
def Obligations.SubmitHandsOverTheTrackedSlot : Prop :=
  ∀ (e : Endpoint) (ptr : Word) (n : BitVec 10) (s : State),
    let p := s.parity.get e .tx
    let tog := s.toggle.get e .tx
    (slotFree s e .tx p = false →
      submit e ptr n s = .halted { s with faults := s.faults ++ [.slotBusy e .tx p] })
    ∧ (MemoryCanonical s → slotFree s e .tx p = true →
      ∃ m, StoredSlot s m e .tx p ptr n 1#1 tog 0#4 ∧ submit e ptr n s = .go { s with
        mem := m
        toggle := s.toggle.set e .tx (tog ^^^ 1#1)
        parity := s.parity.set e .tx (p ^^^ 1#1)
        usbTrace := .submit e p ptr n tog :: s.usbTrace })

/-- R162: Consume raises OwnershipViolation for a slot the SIE owns; else it hands on the slot's byte count and changes
nothing. -/
def Obligations.ConsumeReadsTheCountOfACompletedSlot : Prop :=
  ∀ (e : Endpoint) (d : Dir) (p : Bit) (s : State) (k : BitVec 10 → State → Flow),
    (slotFree s e d p = false →
      consume e d p s k = .halted { s with faults := s.faults ++ [.ownershipViolation e d p] })
    ∧ (slotFree s e d p = true → consume e d p s k = k ((slotCtl s e d p).extractLsb' 16 10) s)

/-- R163: Rearm gives a receive slot its own buffer of 64 bytes, toggle 1, and the SIE's ownership, and flips the receive
parity, on every endpoint. Endpoint 0's buffers are EP0_RXBUF; where another endpoint's stands is a free value (log 11). -/
def Obligations.RearmGivesTheSlotItsOwnBuffer : Prop :=
  (∀ (e : Endpoint) (p : Bit) (s : State), MemoryCanonical s →
    ∃ m, StoredSlot s m e .rx p (rxBuf s.cfg e p) 64#10 1#1 1#1 0#4 ∧ rearm e p s = { s with
      mem := m
      parity := s.parity.set e .rx (s.parity.get e .rx ^^^ 1#1)
      usbTrace := .rearm e p :: s.usbTrace })
  ∧ (∀ c : Params, rxBuf c 0 0#1 = c.ep0RxBufEven ∧ rxBuf c 0 1#1 = c.ep0RxBufOdd)

/-! ## Endpoint 0 (spec/43_ep0_control.md) -/

/-- R198: the next chunk of at most 64 bytes, or the terminating zero-length packet, or nothing; SlotBusy with nothing
changed where a packet is due and the slot is the SIE's. -/
def Obligations.ServiceChunkSendsTheNextPacket : Prop :=
  ∀ s : State,
    (MemoryCanonical s → (slotFree s 0 .tx (s.parity.get 0 .tx) = true ∨ (s.cursorRemaining = 0#16 ∧ s.zlpPending = 0#1)) →
      ∃ t, serviceChunk s = .go t ∧ ChunkServed s t)
    ∧ (slotFree s 0 .tx (s.parity.get 0 .tx) = false → (s.cursorRemaining ≠ 0#16 ∨ s.zlpPending = 1#1) →
      serviceChunk s = .halted { s with faults := s.faults ++ [.slotBusy 0 .tx (s.parity.get 0 .tx)] })

/-- R197: the response is truncated to what the host asked for, its first two packets are submitted at once, and the
cursor and the zero-length flag hold what is left; a packet that finds its slot the SIE's raises SlotBusy, the first
before anything is submitted. -/
def Obligations.StartResponseSendsTwoPackets : Prop :=
  ∀ (ptr : Word) (len limit : Half) (s : State),
    let p := s.parity.get 0 .tx
    let n := min len.toNat limit.toNat
    (MemoryCanonical s → RoomFor ptr len limit s →
      ∃ t, startResponse ptr len limit s = .go t ∧ Responded ptr len limit s t)
    ∧ (slotFree s 0 .tx p = false →
      startResponse ptr len limit s = .halted { s with
        cursorPtr := ptr
        cursorRemaining := BitVec.ofNat 16 n
        zlpPending := if zlpOwed len.toNat limit.toNat then 1#1 else 0#1
        faults := s.faults ++ [.slotBusy 0 .tx p] })
    ∧ (MemoryCanonical s → slotFree s 0 .tx p = true → slotFree s 0 .tx (p ^^^ 1#1) = false →
      2 ≤ (answerPackets ptr len.toNat limit.toNat).length →
      ∃ q u t, (answerPackets ptr len.toNat limit.toNat).head? = some q ∧ Submitted q.1 q.2 s u
        ∧ startResponse ptr len limit s = .halted t ∧ t = { u with
          cursorPtr := t.cursorPtr, cursorRemaining := t.cursorRemaining, zlpPending := t.zlpPending
          cursorValid := t.cursorValid, faults := s.faults ++ [.slotBusy 0 .tx (p ^^^ 1#1)] })

/-- R251, which the spec derives from R197 and R198: the packets of an answer are consecutive from the response pointer,
of 64 bytes except the last, and hold exactly the first `min(len, limit)` bytes; a zero-length packet follows exactly
when the host asked for more, there is something, and it ends on a packet boundary; no byte at all is one zero-length
packet. What StartResponse and any number of later chunks have submitted is that list from its start, two packets and
one for each chunk, and the cursor holds what is left of it. -/
def Obligations.AnswerIsTruncatedAndTerminated : Prop :=
  (∀ (ptr : Word) (len limit : Nat), 0 < min len limit →
    let n := min len limit
    let full := (List.range (n / 64)).map fun k => (ptr + BitVec.ofNat 32 (64 * k), 64#10)
    let last := if n % 64 = 0 then [] else [(ptr + BitVec.ofNat 32 (64 * (n / 64)), BitVec.ofNat 10 (n % 64))]
    let zlp := if len < limit ∧ 0 < len ∧ len % 64 = 0 then [(0#32, 0#10)] else []
    answerPackets ptr len limit = full ++ last ++ zlp)
  ∧ (∀ (ptr : Word) (len limit : Nat), min len limit = 0 → answerPackets ptr len limit = [(0#32, 0#10)])
  ∧ (∀ (ptr : Word) (len limit : Half) (s t : State), startResponse ptr len limit s = .go t →
    submitted t.usbTrace = submitted s.usbTrace ++ (answerPackets ptr len.toNat limit.toNat).take 2
      ∧ owedPackets t = (answerPackets ptr len.toNat limit.toNat).drop 2)
  ∧ (∀ s t : State, serviceChunk s = .go t →
    submitted t.usbTrace = submitted s.usbTrace ++ (owedPackets s).take 1 ∧ owedPackets t = (owedPackets s).drop 1)
  ∧ (∀ (ptr : Word) (len limit : Half) (k : Nat) (s t u : State), startResponse ptr len limit s = .go t →
    serveChunks k t = .go u →
    submitted u.usbTrace = submitted s.usbTrace ++ (answerPackets ptr len.toNat limit.toNat).take (2 + k)
      ∧ owedPackets u = (answerPackets ptr len.toNat limit.toNat).drop (2 + k))

/-- R193: the first entry of DESC_TABLE with the request's key is the response, whatever the transmit slots' parity; no
entry stalls. That the stall shows one write of 0x03 to EP0_CTL in the trace is the model's choice (DESIGN CHOICE, log 23).
The end of the row (acknowledgement and the invocation's next condition): log 7, 31. -/
def Obligations.GetDescriptorAnswersFromTheTable : Prop :=
  ∀ (rt : Byte) (value index length : Half) (s : State),
    (∀ (before after : List DescEntry) (d : DescEntry), s.cfg.descTable = before ++ d :: after →
      (∀ d' ∈ before, ¬ (d'.value = value ∧ d'.index = index)) → d.value = value → d.index = index →
      MemoryCanonical s → RoomFor d.pointer d.length length s →
      ∃ t, Responded d.pointer d.length length s t ∧
        exec (.getDescriptor rt value index length) s = .next (tokenDone t))
    ∧ ((∀ d ∈ s.cfg.descTable, ¬ (d.value = value ∧ d.index = index)) →
      exec (.getDescriptor rt value index length) s = .next (tokenDone (stalled s)))

/-- R304, R262: a response or an acknowledgement whose first slot is still the SIE's raises SlotBusy, the vendor handler's
(R204; its answers: log 12) as the block's own: the invocation ends without return, the token is not acknowledged, no slot
is written. A response stopped at its second packet ends the row where StartResponse stops
(StartResponseSendsTwoPackets). -/
def Obligations.ResponseToABusySlotIsAFault : Prop :=
  ∀ (rt : Byte) (value index length : Half) (s : State),
    let busySlot := Fault.slotBusy 0 .tx (s.parity.get 0 .tx)
    let action := s.vendorAnswers.head?.getD s.cfg.vendorDefault
    let shown := fun code : Byte => { s with
      usbTrace := .vendorRequest (Setup.mk rt code value index length) :: s.usbTrace
      vendorAnswers := s.vendorAnswers.tail }
    (slotFree s 0 .tx (s.parity.get 0 .tx) = false →
      (∃ t, exec (.setAddress rt value index length) s = .next t ∧ t.faults = s.faults ++ [busySlot]
        ∧ t.mem = s.mem ∧ t.usbTrace = s.usbTrace ∧ t.queue = s.queue ∧ t.ctsSeq = s.ctsSeq ∧ t.devAddr = s.devAddr)
      ∧ exec (.setConfiguration rt value index length) s = .next { s with faults := s.faults ++ [busySlot] }
      ∧ (∀ d, findDescriptor s.cfg value index = some d →
        ∃ t, exec (.getDescriptor rt value index length) s = .next t ∧ t.faults = s.faults ++ [busySlot]
          ∧ t.mem = s.mem ∧ t.usbTrace = s.usbTrace ∧ t.queue = s.queue ∧ t.ctsSeq = s.ctsSeq)
      ∧ (∀ code : Byte, action = .acknowledge →
        exec (.vendor rt code value index length) s = .next { shown code with faults := s.faults ++ [busySlot] })
      ∧ (∀ (code : Byte) (ptr : Word) (len : Half), action = .respond ptr len →
        exec (.vendor rt code value index length) s = .next { shown code with
          cursorPtr := ptr
          cursorRemaining := BitVec.ofNat 16 (min len.toNat length.toNat)
          zlpPending := if zlpOwed len.toNat length.toNat then 1#1 else 0#1
          faults := s.faults ++ [busySlot] }))
    ∧ (∀ (d : DescEntry) (t : State), findDescriptor s.cfg value index = some d →
      startResponse d.pointer d.length length s = .halted t →
      exec (.getDescriptor rt value index length) s = .next t)
    ∧ (∀ (code : Byte) (ptr : Word) (len : Half) (t : State), action = .respond ptr len →
      startResponse ptr len length (shown code) = .halted t →
      exec (.vendor rt code value index length) s = .next t)

/-- R194, R196: the low 7 bits of `value` are recorded, DEV_ADDR is not written, and a zero-length packet acknowledges
the request (the spec's own supply, G6). The end of the row: log 7, 31. -/
def Obligations.SetAddressIsDeferred : Prop :=
  ∀ (rt : Byte) (value index length : Half) (s : State), MemoryCanonical s →
    slotFree s 0 .tx (s.parity.get 0 .tx) = true →
    ∃ t, Submitted 0#32 0#10 s t ∧ exec (.setAddress rt value index length) s = .next (tokenDone { t with
      addrValue := value.extractLsb' 0 7
      addrPending := 1#1
      devAddr := s.devAddr
      ctlState := .statusPending })

/-- R195, R196: acknowledged by a zero-length packet (the spec's own supply, G6) and nothing else. The end of the row:
log 7, 31. -/
def Obligations.SetConfigurationIsAcknowledged : Prop :=
  ∀ (rt : Byte) (value index length : Half) (s : State), MemoryCanonical s →
    slotFree s 0 .tx (s.parity.get 0 .tx) = true →
    ∃ t, Submitted 0#32 0#10 s t ∧ exec (.setConfiguration rt value index length) s =
      .next (tokenDone { t with ctlState := .statusPending })

/-- R203, R202: the stall path: both control bits set, AwaitingSetup, nothing submitted, no byte of memory written. That
the trace shows the stall as one write of 0x03 to EP0_CTL is the model's choice (DESIGN CHOICE, log 23). The end of the
row: log 7, 31. -/
def Obligations.UnrecognisedRequestStalls : Prop :=
  ∀ (rt code : Byte) (value index length : Half) (s : State),
    exec (.unrecognised rt code value index length) s = .next (tokenDone { s with
      epCtl := s.epCtl.set 0 0x03#8
      ctlState := .awaitingSetup
      usbTrace := .write .ep0Ctl 0x03#8 :: s.usbTrace })

/-- R204: the request is shown to the vendor handler, which picks one of four actions; Nothing changes no state. Where
the handler's answers come from: log 12. That Reject's stall shows one write of 0x03 to EP0_CTL in the trace is the
model's choice (DESIGN CHOICE, log 23). Respond and Acknowledge with a busy slot: ResponseToABusySlotIsAFault. The end of
the row: log 7, 31. -/
def Obligations.VendorHandlerPicksOneOfFourActions : Prop :=
  ∀ (rt code : Byte) (value index length : Half) (s : State),
    let shown := { s with
      usbTrace := .vendorRequest (Setup.mk rt code value index length) :: s.usbTrace
      vendorAnswers := s.vendorAnswers.tail }
    let run := exec (.vendor rt code value index length) s
    match s.vendorAnswers.head?.getD s.cfg.vendorDefault with
    | .respond ptr len => MemoryCanonical s → RoomFor ptr len length s →
        ∃ t, Responded ptr len length shown t ∧ run = .next (tokenDone t)
    | .acknowledge => MemoryCanonical s → slotFree s 0 .tx (s.parity.get 0 .tx) = true →
        ∃ t, Submitted 0#32 0#10 shown t ∧ run = .next (tokenDone { t with ctlState := .statusPending })
    | .reject => run = .next (tokenDone (stalled shown))
    | .nothing => run = .next (tokenDone shown)

/-- R191, R190: the packet is snapshot from the completed slot's buffer, the slot is armed again, the toggle becomes 1,
and every pending thing of an abandoned transfer is cleared; then the request is classified (the next row of the
invocation, log 7). -/
def Obligations.SetupEventSnapshotsAndRearms : Prop :=
  ∀ (p : Bit) (s : State), MemoryCanonical s → slotFree s 0 .rx p = true → ctlCount (slotCtl s 0 .rx p) = 8#10 →
    let b := fun k : Nat => readByte s (slotBuf s 0 .rx p + BitVec.ofNat 32 k)
    ∃ t, Rearmed p s t ∧ exec (.ep0Setup p) s = .next { t with
      setup := Setup.mk (b 0) (b 1) (b 3 ++ b 2) (b 5 ++ b 4) (b 7 ++ b 6)
      toggle := s.toggle.set 0 .tx 1#1
      cursorValid := 0#1
      cursorRemaining := 0#16
      zlpPending := 0#1
      addrPending := 0#1
      ctsSeq := seqAt .request s.ctsSeq }

/-- R190, R191, R262: an endpoint-0 event that names a slot the SIE owns is an OwnershipViolation, a SETUP whose slot
does not hold 8 bytes is BadSetupLength; the record is all that changes. -/
def Obligations.BrokenCompletionIsAFault : Prop :=
  ∀ (p : Bit) (s : State),
    (slotFree s 0 .rx p = false →
      exec (.ep0Setup p) s = .next { s with faults := s.faults ++ [.ownershipViolation 0 .rx p] }
        ∧ exec (.ep0Out p) s = .next { s with faults := s.faults ++ [.ownershipViolation 0 .rx p] })
    ∧ (slotFree s 0 .tx p = false →
      exec (.ep0In p) s = .next { s with faults := s.faults ++ [.ownershipViolation 0 .tx p] })
    ∧ (slotFree s 0 .rx p = true → ctlCount (slotCtl s 0 .rx p) ≠ 8#10 →
      exec (.ep0Setup p) s =
        .next { s with faults := s.faults ++ [.badSetupLength (ctlCount (slotCtl s 0 .rx p))] })

/-- R201: the slot is armed again at once, the bytes are not looked at, and a data stage ends. The end of the row:
log 7, 31. -/
def Obligations.OutEventRearmsTheSlot : Prop :=
  ∀ (p : Bit) (s : State), MemoryCanonical s → slotFree s 0 .rx p = true →
    ∃ t, Rearmed p s t ∧ exec (.ep0Out p) s = .next (tokenDone { t with
      ctlState := if s.ctlState = .dataStage then .awaitingSetup else s.ctlState })

/-- R200: one chunk if the cursor exists, then the deferred address, then the state register. The end of the row:
log 7, 31. -/
def Obligations.InEventServesTheCursorThenTheAddress : Prop :=
  ∀ (p : Bit) (s : State), slotFree s 0 .tx p = true →
    (s.cursorValid = 0#1 → exec (.ep0In p) s = .next (tokenDone (inStatusStage s)))
    ∧ (s.cursorValid = 1#1 → MemoryCanonical s → slotFree s 0 .tx (s.parity.get 0 .tx) = true →
      ∃ t, ChunkServed s t ∧ exec (.ep0In p) s = .next (tokenDone (inStatusStage t)))
    ∧ (s.cursorValid = 1#1 → (s.cursorRemaining ≠ 0#16 ∨ s.zlpPending = 1#1) →
      slotFree s 0 .tx (s.parity.get 0 .tx) = false →
      exec (.ep0In p) s = .next { s with faults := s.faults ++ [.slotBusy 0 .tx (s.parity.get 0 .tx)] })

/-- R205, R190, R241: an unexpected event is logged, its slot left as it is; on endpoint 0 only if the CTS owns the slot
(Consume), on another endpoint the slot is not even consumed. The end of the row: log 7, 31. -/
def Obligations.UnexpectedEventIsOnlyLogged : Prop :=
  ∀ (t : BitVec 12) (s : State),
    let d : Dir := if t.extractLsb' 7 1 = 1#1 then .tx else .rx
    let p : Bit := t.extractLsb' 6 1
    (slotFree s 0 d p = true → exec (.ep0Unexpected t) s =
      .next (tokenDone { s with usbTrace := .logUnexpectedToken t :: s.usbTrace }))
    ∧ (slotFree s 0 d p = false → exec (.ep0Unexpected t) s =
      .next { s with faults := s.faults ++ [.ownershipViolation 0 d p] })
    ∧ exec (.epnDefault t) s = .next (tokenDone { s with
        usbTrace := .logUnexpectedEndpoint (t.extractLsb' 8 4) (t.extractLsb' 7 1) p :: s.usbTrace })

/-! ## The dispatcher (spec/44_usb_dispatcher.md) -/

/-- R233: after the rebuild every active endpoint has both receive slots armed with their own buffers of 64 bytes (where
an endpoint's other than 0 stand is a free value, log 11) and both transmit slots all zero; every byte outside its slots,
and every tracker of another endpoint, is as before; cursor, pending address, state register, DEV_ADDR, EP0_CTL and
INT_ENABLE have their values. -/
def Obligations.BusResetRebuildsTransferState : Prop :=
  ∀ s : State, MemoryCanonical s →
    ∃ m par tog, busResetRebuild s = { s with
        mem := m, parity := par, toggle := tog
        cursorValid := 0#1, cursorPtr := 0#32, cursorRemaining := 0#16, zlpPending := 0#1
        addrPending := 0#1, addrValue := 0#7, ctlState := .awaitingSetup
        devAddr := 0#7, epCtl := s.epCtl.set 0 0x01#8, intEnable := 0x9F#8
        usbTrace := .write .intEnable 0x9F#8 :: .write .ep0Ctl 0x01#8 :: .write .devAddr 0x00#8 :: s.usbTrace }
      ∧ (∀ e ∈ s.cfg.activeEndpoints, ∀ p : Bit,
          SlotHolds { s with mem := m } e .rx p (rxBuf s.cfg e p) 64#10 1#1 1#1 0#4
            ∧ SlotHolds { s with mem := m } e .tx p 0#32 0#10 0#1 0#1 0#4)
      ∧ (∀ a : Word, (∀ e ∈ s.cfg.activeEndpoints, ∀ d p, ¬ InSlot s.cfg e d p a) → SameByte s { s with mem := m } a)
      ∧ (∀ (e : Endpoint) (d : Dir),
          par.get e d = (if e ∈ s.cfg.activeEndpoints then 0#1 else s.parity.get e d)
            ∧ tog.get e d = (if e ∈ s.cfg.activeEndpoints then 0#1 else s.toggle.get e d))

/-- R232, R231, R169: a bus reset is rebuilt, every bit of the snapshot is acknowledged, no other handler runs and the
invocation returns; the acknowledgement empties the queue, clears TOKDNE, sets the SIE's parities to EVEN and unfreezes
it. Which record TOK_STATUS is left showing is the model's choice (log 31). -/
def Obligations.BusResetEndsTheInvocation : Prop :=
  ∀ s : State, (snapshot s).getLsbD 0 = true →
    ∃ ts, exec .usbrst s = .next { busResetRebuild s with
      intStatus := s.intStatus &&& ~~~(snapshot s &&& 0x9F#8) &&& ~~~0x08#8
      tokStatus := ts
      usbTrace := .write .intStatus (snapshot s) :: (busResetRebuild s).usbTrace
      ctsSeq := .idle
      queue := []
      sieParity := EpBits.zero
      sieFrozen := 0#1 }

/-- R234, R235, R237, R238: the error is logged; start of frame, sleep and stall do nothing; each is acknowledged by
its own bit and nothing else changes but the invocation's place in its snapshot (R231; the division into rows: log 7). -/
def Obligations.QuietConditionsAreAcknowledged : Prop :=
  ∀ s : State,
    exec .error s = .next { s with
        intStatus := s.intStatus &&& ~~~0x02#8
        usbTrace := .write .intStatus 0x02#8 :: .logTransferError :: s.usbTrace
        ctsSeq := seqAfter 0x02#8 s.ctsSeq }
    ∧ exec .softok s = .next { s with
        intStatus := s.intStatus &&& ~~~0x04#8
        usbTrace := .write .intStatus 0x04#8 :: s.usbTrace
        ctsSeq := seqAfter 0x04#8 s.ctsSeq }
    ∧ exec .sleep s = .next { s with
        intStatus := s.intStatus &&& ~~~0x10#8
        usbTrace := .write .intStatus 0x10#8 :: s.usbTrace
        ctsSeq := seqAfter 0x10#8 s.ctsSeq }
    ∧ exec .stall s = .next { s with
        intStatus := s.intStatus &&& ~~~0x80#8
        usbTrace := .write .intStatus 0x80#8 :: s.usbTrace
        ctsSeq := seqAfter 0x80#8 s.ctsSeq }

/-- R236, R307: token-done passes control to the handler of the endpoint TOK_STATUS names, before any acknowledgement:
the record, TOK_STATUS and TOKDNE still stand, and what the invocation decodes next is the event code. That the handler
is a row of its own is the model's division (log 7). -/
def Obligations.TokenDoneCallsTheHandler : Prop :=
  ∀ s : State,
    exec .tokdne s = .next { s with ctsSeq := seqAt .token s.ctsSeq }
    ∧ (s.faults = [] → s.ctsSeq ≠ .idle →
        ctsFetch { s with ctsSeq := seqAt .token s.ctsSeq } = some (.token (tokenCode s)))

/-- R239, R170, R169, R68: a 1 clears its condition, a 0 leaves it; TOKDNE follows the queue, whose head an
acknowledgement removes and whose new head TOK_STATUS shows; acknowledging USBRST empties the queue, clears TOKDNE, sets
the SIE's parities to EVEN and unfreezes it. The reserved bits are ignored (R104). -/
def Obligations.AcknowledgementClearsWhatItNames : Prop :=
  ∀ (v : Byte) (s : State),
    (∀ k : Nat, k < 8 → k ≠ 3 → (ackStatus v s).intStatus.getLsbD k
      = (s.intStatus.getLsbD k && !(v.getLsbD k && (0x9F#8).getLsbD k)))
    ∧ (v.getLsbD 0 = false → v.getLsbD 3 = false → ackStatus v s = { s with
        intStatus := s.intStatus &&& ~~~(v &&& 0x9F#8), usbTrace := .write .intStatus v :: s.usbTrace })
    ∧ (v.getLsbD 0 = false → v.getLsbD 3 = true →
        (ackStatus v s).queue = s.queue.tail
          ∧ (ackStatus v s).intStatus.getLsbD 3 = !s.queue.tail.isEmpty
          ∧ (∀ r rest, s.queue.tail = r :: rest → (ackStatus v s).tokStatus = tokStatusOf r)
          ∧ (ackStatus v s).sieParity = s.sieParity ∧ (ackStatus v s).sieFrozen = s.sieFrozen)
    ∧ (v.getLsbD 0 = true →
        (ackStatus v s).queue = [] ∧ (ackStatus v s).intStatus.getLsbD 3 = false
          ∧ (∀ e d, (ackStatus v s).sieParity.get e d = 0#1) ∧ (ackStatus v s).sieFrozen = 0#1)
    ∧ (let t := ackStatus v s
      t = { s with
        intStatus := t.intStatus, tokStatus := t.tokStatus, queue := t.queue, sieParity := t.sieParity
        sieFrozen := t.sieFrozen, usbTrace := .write .intStatus v :: s.usbTrace })

/-- R230, R231, R266: with no invocation in progress and no fault, the CTS performs a row exactly while a condition is
asserted and enabled; entry changes nothing but `cts_seq`, which takes the one snapshot of INT_STATUS. -/
def Obligations.InvocationStartsOnAnEnabledCondition : Prop :=
  ∀ s : State, s.faults = [] → s.ctsSeq = .idle →
    (s.intStatus &&& s.intEnable ≠ 0#8 → ctsFetch s = some (.cond s.intStatus)
      ∧ ctsEnter s = { s with ctsSeq := .inInvocation s.intStatus s.intStatus .select })
    ∧ (s.intStatus &&& s.intEnable = 0#8 → ctsFetch s = none ∧ ctsTurn s = .next s)

/-- R262, R43: a recorded fault stops the CTS for good and no step removes a record. -/
def Obligations.FaultStopsTheCtsForGood : Prop :=
  (∀ s : State, s.faults ≠ [] → ctsFetch s = none ∧ ctsTurn s = .next s)
  ∧ (∀ s t : State, step s = .next t → ∃ more, t.faults = s.faults ++ more)

/-! ## The SIE's side of the contract (spec/42_bdt_handoff.md R164 to R172) -/

/-- R164, R166, R167: a SETUP token to the device's address is accepted whatever the slot's toggle if the slot is armed
with room for 8 bytes: bytes, then the completed slot with ownership 0, the SIE's parity, the record; on endpoint 0 the
stall ends (the spec's own supply, G7). With no slot armed, a frozen SIE, a full queue or another address nothing
changes. Endpoints without slots and a slot too small: log 13, 14; the answer on the bus: log 29. -/
def Obligations.SetupTokenCompletesAnArmedSlot : Prop :=
  ∀ (addr : BitVec 7) (e : Endpoint) (q : Setup) (s : State),
    let p := s.sieParity.get e .rx
    let ctl := slotCtl s e .rx p
    let buf := slotBuf s e .rx p
    let accepted := s.sieFrozen = 0#1 ∧ addr = s.devAddr ∧ e.val < s.cfg.numEndpoints ∧ ctlOwn ctl = 1#1
      ∧ 8 ≤ (ctlCount ctl).toNat ∧ s.queue.length < s.cfg.queueDepth
    (¬ accepted → hostSetup addr e q s = .next { s with
      busTrace := { token := 0xD#4, endpoint := e, reply := .silent } :: s.busTrace })
    ∧ (accepted → touchesDescriptor s.cfg buf 8 = false → MemoryCanonical s → disjoint buf 8 (slotAddr s.cfg e .rx p) 8 →
      ∃ m, hostSetup addr e q s = .next { s with
          mem := m
          sieParity := s.sieParity.set e .rx (p ^^^ 1#1)
          queue := s.queue ++ [{ endpoint := e, dir := .rx, parity := p }]
          tokStatus := if s.queue = [] then tokStatusOf { endpoint := e, dir := .rx, parity := p } else s.tokStatus
          intStatus := s.intStatus ||| 0x08#8
          epCtl := if e = 0 then s.epCtl.set 0 (s.epCtl[0] &&& 0xFD#8) else s.epCtl
          busTrace := { token := 0xD#4, endpoint := e, reply := .ack } :: s.busTrace }
        ∧ SlotHolds { s with mem := m } e .rx p buf 8#10 0#1 0#1 0xD#4
        ∧ readBytes { s with mem := m } buf 8 = q.toBytes
        ∧ (∀ a : Word, 8 ≤ (a - buf).toNat → ¬ InSlot s.cfg e .rx p a → SameByte s { s with mem := m } a))

/-- R164, R166, R167, R168: an OUT token: STALL while endpoint 0 is stalled, not ready while no slot is armed or the
queue is full, an over-long packet sets ERROR, a packet with the wrong toggle is dropped, and only a packet with the
slot's toggle that fits completes. Log 13, 15, 16, 29. -/
def Obligations.OutTokenNeedsAnArmedSlotAndItsToggle : Prop :=
  ∀ (addr : BitVec 7) (e : Endpoint) (tog : Bit) (bytes : List Byte) (s : State),
    s.sieFrozen = 0#1 → addr = s.devAddr → e.val < s.cfg.numEndpoints →
    let p := s.sieParity.get e .rx
    let ctl := slotCtl s e .rx p
    let buf := slotBuf s e .rx p
    let answers := fun (r : Reply) (u : State) => hostOut addr e tog bytes s =
      .next { u with busTrace := { token := 0x1#4, endpoint := e, reply := r } :: s.busTrace }
    if e = 0 ∧ (s.epCtl[0]).getLsbD 1 = true then answers .stall { s with intStatus := s.intStatus ||| 0x80#8 }
    else if ctlOwn ctl = 0#1 ∨ s.cfg.queueDepth ≤ s.queue.length then answers .nak s
    else if (ctlCount ctl).toNat < bytes.length then answers .silent { s with intStatus := s.intStatus ||| 0x02#8 }
    else if tog ≠ ctlToggle ctl then answers .silent s
    else touchesDescriptor s.cfg buf bytes.length = false → MemoryCanonical s →
      disjoint buf bytes.length (slotAddr s.cfg e .rx p) 8 →
      ∃ m, answers .ack { s with
          mem := m
          sieParity := s.sieParity.set e .rx (p ^^^ 1#1)
          queue := s.queue ++ [{ endpoint := e, dir := .rx, parity := p }]
          tokStatus := if s.queue = [] then tokStatusOf { endpoint := e, dir := .rx, parity := p } else s.tokStatus
          intStatus := s.intStatus ||| 0x08#8 }
        ∧ SlotHolds { s with mem := m } e .rx p buf (BitVec.ofNat 10 bytes.length) 0#1 tog 0x1#4
        ∧ readBytes { s with mem := m } buf bytes.length = bytes
        ∧ (∀ a : Word, bytes.length ≤ (a - buf).toNat → ¬ InSlot s.cfg e .rx p a → SameByte s { s with mem := m } a)

/-- R165, R166, R168: an IN token: STALL while the endpoint is stalled, not ready while no slot is submitted or the queue
is full; else the slot's bytes with the slot's toggle, and only the host's acknowledgement completes it, with token IN,
count and toggle left. STALL of another endpoint than 0: log 15; the answer on the bus: log 29. -/
def Obligations.InTokenSendsTheSubmittedSlot : Prop :=
  ∀ (addr : BitVec 7) (e : Endpoint) (acked : Bool) (s : State),
    s.sieFrozen = 0#1 → addr = s.devAddr → e.val < s.cfg.numEndpoints →
    let p := s.sieParity.get e .tx
    let ctl := slotCtl s e .tx p
    let buf := slotBuf s e .tx p
    let packet := Reply.data (ctlToggle ctl) ((List.range (ctlCount ctl).toNat).map fun k => readByte s (buf + BitVec.ofNat 32 k))
    let answers := fun (r : Reply) (u : State) => hostIn addr e acked s =
      .next { u with busTrace := { token := 0x9#4, endpoint := e, reply := r } :: s.busTrace }
    if (s.epCtl[e]).getLsbD 1 = true then
      answers .stall { s with intStatus := if e = 0 then s.intStatus ||| 0x80#8 else s.intStatus }
    else if ctlOwn ctl = 0#1 ∨ s.cfg.queueDepth ≤ s.queue.length then answers .nak s
    else if acked = false then answers packet s
    else MemoryCanonical s →
      ∃ m, answers packet { s with
          mem := m
          sieParity := s.sieParity.set e .tx (p ^^^ 1#1)
          queue := s.queue ++ [{ endpoint := e, dir := .tx, parity := p }]
          tokStatus := if s.queue = [] then tokStatusOf { endpoint := e, dir := .tx, parity := p } else s.tokStatus
          intStatus := s.intStatus ||| 0x08#8 }
        ∧ StoredSlot s m e .tx p buf (ctlCount ctl) 0#1 (ctlToggle ctl) 0x9#4

/-- R169, R171, R172: a bus reset freezes the SIE and asserts USBRST; while it is frozen, and for another address, no
token changes anything; the other conditions only set their bits. That the bus trace records such a token as unanswered
is the model's choice (log 29). The environment's other moves: the target's reset sense sets RESET_DETECTED, which no
other step sets (R25); a tick takes COUNTDOWN down by one, after 0 to CD_RELOAD, and more ticks are one after the other
(R29); the SIE may write a byte of the buffer of a receive slot it owns and no other (R72, R275, U8; log 30); the command
layer writes the port while BUSY is 0, at most 255 bytes (R275, R28; log 19), and that such a write between a request's
issue and its acceptance replaces the pending request's bytes is the model's choice (DESIGN CHOICE, log 33). -/
def Obligations.FrozenOrForeignTokensChangeNothing : Prop :=
  (∀ s : State, applyEvent .busReset s = .next { s with sieFrozen := 1#1, intStatus := s.intStatus ||| 0x01#8 }
    ∧ applyEvent .sof s = .next { s with intStatus := s.intStatus ||| 0x04#8 }
    ∧ applyEvent .sleep s = .next { s with intStatus := s.intStatus ||| 0x10#8 }
    ∧ applyEvent .busError s = .next { s with intStatus := s.intStatus ||| 0x02#8 })
  ∧ (∀ (addr : BitVec 7) (e : Endpoint) (q : Setup) (tog : Bit) (bytes : List Byte) (acked : Bool) (s : State),
      (s.sieFrozen = 1#1 ∨ addr ≠ s.devAddr) →
      let ignored := fun (kind : BitVec 4) => Host.Outcome.next (φ := Fault) (ρ := Refusal)
        { s with busTrace := { token := kind, endpoint := e, reply := .silent } :: s.busTrace }
      applyEvent (.hostSetup addr e q) s = ignored 0xD#4 ∧ applyEvent (.hostOut addr e tog bytes) s = ignored 0x1#4
        ∧ applyEvent (.hostIn addr e acked) s = ignored 0x9#4)
  ∧ (∀ s : State, applyEvent .resetSense s = .next { s with resetDetected := 1#1 })
  ∧ (∀ s t : State, step s = .next t → t.resetDetected = 1#1 → s.script.head? ≠ some .resetSense → s.resetDetected = 1#1)
  ∧ (∀ s : State, applyEvent (.tick 0) s = .next s
    ∧ applyEvent (.tick 1) s = .next { s with
        countdown := if s.countdown = 0 then s.cfg.cdReload else s.countdown - 1 }
    ∧ ∀ (k : Nat) (t : State), applyEvent (.tick k) s = .next t →
        applyEvent (.tick (k + 1)) s = applyEvent (.tick 1) t)
  ∧ (∀ (e : Endpoint) (p : Bit) (off : Nat) (b : Byte) (s : State),
    let a := slotBuf s e .rx p + BitVec.ofNat 32 off
    let owned := e.val < s.cfg.numEndpoints ∧ slotFree s e .rx p = false ∧ off < (ctlCount (slotCtl s e .rx p)).toNat
    let run := applyEvent (.sieBuffer e p off b) s
    (¬ owned → run = .refused .notOwnedBySie)
    ∧ (owned → InDescriptor s.cfg a → run = .refused .immutableWrite)
    ∧ (owned → ¬ InDescriptor s.cfg a → MemoryCanonical s →
      ∃ m, run = .next { s with mem := m } ∧ readByte { s with mem := m } a = b
        ∧ ∀ x : Word, x ≠ a → SameByte s { s with mem := m } x))
  ∧ (∀ (bytes : List Byte) (s : State), applyEvent (.writeReq bytes) s =
    if busy s = 1#1 then .refused .commandWhileBusy
    else if bytes.length ≤ 255 then .next { s with reqBuf := bytes }
    else .refused .requestTooLong)

/-! ## Invariants every step keeps, from every state -/

/-- R20, R75, U8: no step writes the parameters. R275, R292, R293, R24: boot's two duties are done once, before
anything else (log 32): once a duty is done or its time is over it stays so and the duty is refused, BTE_CFG is never
written again, and INT_ENABLE only to the full mask (R32, R233). What ends boot's time is the first request taken, raw
write of the port, bus reset, start of frame, sleep, bus error, token or SIE buffer write; a duty marks itself done; turns,
ticks, the reset sense, a request that waits and a step without an event leave both marks (log 32). Boot's write of BTE_CFG
is refused while BUSY is 1 (R275); that any value may be written and that the same event drives the pins to their idle
levels is the model's reading of R292 (DEDUCED, log 17). -/
def Obligations.ParametersNeverChange : Prop :=
  (∀ s t : State, step s = .next t →
    t.cfg = s.cfg
      ∧ (s.bootBteDone = true → t.bootBteDone = true ∧ t.bteCfg = s.bteCfg)
      ∧ (s.bootIntDone = true → t.bootIntDone = true ∧ (t.intEnable = s.intEnable ∨ t.intEnable = 0x9F#8)))
  ∧ (∀ s t : State, step s = .next t →
    (t.bootBteDone, t.bootIntDone) = match s.script.head? with
      | none => (s.bootBteDone, s.bootIntDone)
      | some (.request _) =>
        if busy s = 0#1 ∧ s.reqValid = false then (true, true) else (s.bootBteDone, s.bootIntDone)
      | some (.writeReq _) | some .busReset | some .sof | some .sleep | some .busError | some (.hostSetup _ _ _)
      | some (.hostOut _ _ _ _) | some (.hostIn _ _ _) | some (.sieBuffer _ _ _ _) => (true, true)
      | some (.bootBte _) => (true, s.bootIntDone)
      | some (.bootIntEnable _) => (s.bootBteDone, true)
      | some .bte | some .bteMicro | some .cts | some .resetSense | some (.tick _) => (s.bootBteDone, s.bootIntDone))
  ∧ (∀ (v : BitVec 2) (s : State), busy s = 1#1 → applyEvent (.bootBte v) s = .refused .commandWhileBusy)
  ∧ (∀ (v : BitVec 2) (s : State), busy s = 0#1 →
    applyEvent (.bootBte v) s = if s.bootBteDone then .refused .bootOver else .next { s with
      bteCfg := v, bootBteDone := true, dclk := 1#1, dout := 0#1
      bkpt := ~~~(v.extractLsb' 0 1), rst := ~~~(v.extractLsb' 1 1) })
  ∧ (∀ (v : Byte) (s : State),
    applyEvent (.bootIntEnable v) s = if s.bootIntDone then .refused .bootOver
      else if v.getLsbD 0 = false then .refused .bootMaskTooSmall
      else .next { s with
        intEnable := v &&& 0x9F#8, bootIntDone := true, usbTrace := .write .intEnable v :: s.usbTrace })

/-- R75, R303: no step changes a byte of a descriptor, whichever agent moves. -/
def Obligations.DescriptorBytesNeverChange : Prop :=
  ∀ s t : State, MemoryCanonical s → step s = .next t →
    ∀ d ∈ s.cfg.descTable, ∀ k : Nat, k < d.length.toNat →
      SameByte s t (d.pointer + BitVec.ofNat 32 k)

/-- R253, R51: an operation writes memory in the BDT only: no packet buffer, no descriptor. (Configurations that a step
accepts: R10.) -/
def Obligations.OperationsWriteOnlyTheBdt : Prop :=
  ∀ (i : Instr) (s t : State), configOk s.cfg = true → MemoryCanonical s → exec i s = .next t →
    ∀ a : Word, ¬ InBdt s.cfg a → SameByte s t a

/-- R253, R51, R296: beside the BDT an operation of the CTS reads no byte of memory but, in EP0.SETUP, the 8 bytes of the
packet in the slot the event names (which Consume has found to be the CTS's): two memories that agree there give the same
outcome, and the same BDT after it. -/
def Obligations.OperationsReadOnlyTheBdtAndThePacket : Prop :=
  ∀ (i : Instr) (s : State) (m : Memory), isRequest i = false → configOk s.cfg = true →
    MemoryCanonical s → MemoryCanonical { s with mem := m } →
    (∀ a : Word, InBdt s.cfg a → SameByte s { s with mem := m } a) →
    (∀ p : Bit, i = .ep0Setup p → ∀ k : Nat, k < 8 →
      SameByte s { s with mem := m } (slotBuf s 0 .rx p + BitVec.ofNat 32 k)) →
    mapNext eraseMemory (exec i { s with mem := m }) = mapNext eraseMemory (exec i s)
      ∧ ∀ t u, exec i s = .next t → exec i { s with mem := m } = .next u →
          ∀ a : Word, InBdt s.cfg a → SameByte t u a

/-- The memory list keeps its canonical form (the model's representation, log 3). -/
def Obligations.StepKeepsMemoryCanonical : Prop :=
  ∀ s t : State, MemoryCanonical s → step s = .next t → MemoryCanonical t

/-- R45, R170, R104: TOKDNE is 1 exactly when the completion queue holds a record, TOK_STATUS shows its head, it never
holds more than its depth, and the reserved bits of INT_STATUS and INT_ENABLE stay 0. What TOK_STATUS shows of an empty
queue is left out of it (log 31). -/
def Obligations.StepKeepsTheQueueSound : Prop :=
  ∀ s t : State, QueueSound s → step s = .next t → QueueSound t

/-- R54, which the spec derives from R191, R197 and R198: the cursor exists exactly when something is left to send. -/
def Obligations.StepKeepsTheCursorSound : Prop :=
  ∀ s t : State, CursorSound s → step s = .next t → CursorSound t

/-- R52 and R53 (their readings are the spec's own, derived from R161 to R169 and R233), whichever agents move. The
transmit slots and the rearmed receive slots of endpoint 0 are used alternately, EVEN first after a bus reset. The
transmit tracker of every endpoint is the SIE's parity plus the slots submitted and not yet completed, modulo 2; the
receive tracker of endpoint 0 names the oldest completed slot not yet armed again and the SIE's parity the one after the
newest, so they agree when no receive record is queued; an endpoint that is not active stays untouched. (The
receive slots of another active endpoint have no such tie: DefaultHandler arms none again, R241.) The toggles of
successive Submits alternate, from 1 after a SETUP event. (That the row of the SETUP event has armed its slot while its
record is still queued: log 7. Addresses of other active endpoints' buffers: log 11.) -/
def Obligations.StepKeepsPingPongAlternation : Prop :=
  ∀ s t : State, step s = .next t →
    (PingPong s → PingPong t) ∧ (Tracked s → Tracked t) ∧ TogglesGoOn s t

/-- R130: between operations the clock is high and the breakpoint and reset pins are deasserted, however the operation
was taken. That boot's write of BTE_CFG keeps it is the model's choice (R292; log 17): the event drives the pins to the
idle levels of the value it writes. -/
def Obligations.StepKeepsThePinsIdle : Prop :=
  ∀ s t : State, PinsSound s → step s = .next t → PinsSound t

/-- R49: every invariant holds after power-on reset. The model's choices it rests on: the example parameters (log 1), the
zero of cursor_remaining, which R49 leaves unspecified (log 2), and the empty memory list (log 3). -/
def Obligations.ResetIsSound : Prop :=
  configOk State.reset.cfg = true ∧ MemoryCanonical State.reset ∧ QueueSound State.reset ∧ CursorSound State.reset
    ∧ PinsSound State.reset ∧ PingPong State.reset ∧ Tracked State.reset

/-- R49: the value of every piece of state for which the table of R49 gives one, the boot duties not yet done (R291). -/
def Obligations.PowerOnResetValues : Prop :=
  State.reset.bteSeq = .idle ∧ State.reset.ctsSeq = .idle
  ∧ State.reset.dclk = 1#1 ∧ State.reset.dout = 0#1
  ∧ State.reset.bkpt = ~~~State.reset.cfg.bkptActive ∧ State.reset.rst = ~~~State.reset.cfg.rstActive
  ∧ State.reset.bteCfg.extractLsb' 0 1 = State.reset.cfg.bkptActive
  ∧ State.reset.bteCfg.extractLsb' 1 1 = State.reset.cfg.rstActive
  ∧ bteStat State.reset = 0b00#2
  ∧ (∀ (e : Endpoint) (d : Dir) (p : Bit), slotCtl State.reset e d p = 0#32 ∧ slotBuf State.reset e d p = 0#32)
  ∧ State.reset.intStatus = 0x00#8 ∧ State.reset.intEnable = 0x00#8
  ∧ State.reset.devAddr = 0#7 ∧ (∀ e : Endpoint, State.reset.epCtl[e] = 0x00#8)
  ∧ State.reset.ctlState = .awaitingSetup
  ∧ (∀ (e : Endpoint) (d : Dir), State.reset.toggle.get e d = 0#1 ∧ State.reset.parity.get e d = 0#1
      ∧ State.reset.sieParity.get e d = 0#1)
  ∧ State.reset.cursorValid = 0#1 ∧ State.reset.zlpPending = 0#1 ∧ State.reset.addrPending = 0#1
  ∧ State.reset.queue = [] ∧ State.reset.sieFrozen = 0#1 ∧ State.reset.faults = []
  ∧ State.reset.bootBteDone = false ∧ State.reset.bootIntDone = false
end

