-- ==== Sys2Proof/Laws/State.lean ====
section
/-!
SUPPORT. One lemma per field of State for each named update: the fields an update leaves alone, tagged simp, so that
no proof unfolds a record update.
-/

namespace Sys2Proof.Machine

open Sys2Proof

/-! ## writeByte -/

@[simp] theorem writeByte_cfg (a : Word) (b : Byte) (s : State) : (writeByte a b s).cfg = s.cfg := rfl
@[simp] theorem writeByte_script (a : Word) (b : Byte) (s : State) : (writeByte a b s).script = s.script := rfl
@[simp] theorem writeByte_bootBteDone (a : Word) (b : Byte) (s : State) :
    (writeByte a b s).bootBteDone = s.bootBteDone := rfl
@[simp] theorem writeByte_bootIntDone (a : Word) (b : Byte) (s : State) :
    (writeByte a b s).bootIntDone = s.bootIntDone := rfl
@[simp] theorem writeByte_bteSeq (a : Word) (b : Byte) (s : State) : (writeByte a b s).bteSeq = s.bteSeq := rfl
@[simp] theorem writeByte_dclk (a : Word) (b : Byte) (s : State) : (writeByte a b s).dclk = s.dclk := rfl
@[simp] theorem writeByte_dout (a : Word) (b : Byte) (s : State) : (writeByte a b s).dout = s.dout := rfl
@[simp] theorem writeByte_din (a : Word) (b : Byte) (s : State) : (writeByte a b s).din = s.din := rfl
@[simp] theorem writeByte_bkpt (a : Word) (b : Byte) (s : State) : (writeByte a b s).bkpt = s.bkpt := rfl
@[simp] theorem writeByte_rst (a : Word) (b : Byte) (s : State) : (writeByte a b s).rst = s.rst := rfl
@[simp] theorem writeByte_bteCfg (a : Word) (b : Byte) (s : State) : (writeByte a b s).bteCfg = s.bteCfg := rfl
@[simp] theorem writeByte_resetDetected (a : Word) (b : Byte) (s : State) :
    (writeByte a b s).resetDetected = s.resetDetected := rfl
@[simp] theorem writeByte_shiftOut (a : Word) (b : Byte) (s : State) : (writeByte a b s).shiftOut = s.shiftOut := rfl
@[simp] theorem writeByte_shiftIn (a : Word) (b : Byte) (s : State) : (writeByte a b s).shiftIn = s.shiftIn := rfl
@[simp] theorem writeByte_bitCnt (a : Word) (b : Byte) (s : State) : (writeByte a b s).bitCnt = s.bitCnt := rfl
@[simp] theorem writeByte_retry (a : Word) (b : Byte) (s : State) : (writeByte a b s).retry = s.retry := rfl
@[simp] theorem writeByte_probe (a : Word) (b : Byte) (s : State) : (writeByte a b s).probe = s.probe := rfl
@[simp] theorem writeByte_bIn (a : Word) (b : Byte) (s : State) : (writeByte a b s).bIn = s.bIn := rfl
@[simp] theorem writeByte_waitStart (a : Word) (b : Byte) (s : State) :
    (writeByte a b s).waitStart = s.waitStart := rfl
@[simp] theorem writeByte_reqBuf (a : Word) (b : Byte) (s : State) : (writeByte a b s).reqBuf = s.reqBuf := rfl
@[simp] theorem writeByte_reqValid (a : Word) (b : Byte) (s : State) : (writeByte a b s).reqValid = s.reqValid := rfl
@[simp] theorem writeByte_result (a : Word) (b : Byte) (s : State) : (writeByte a b s).result = s.result := rfl
@[simp] theorem writeByte_countdown (a : Word) (b : Byte) (s : State) :
    (writeByte a b s).countdown = s.countdown := rfl
@[simp] theorem writeByte_freeCount (a : Word) (b : Byte) (s : State) :
    (writeByte a b s).freeCount = s.freeCount := rfl
@[simp] theorem writeByte_target (a : Word) (b : Byte) (s : State) : (writeByte a b s).target = s.target := rfl
@[simp] theorem writeByte_pinTrace (a : Word) (b : Byte) (s : State) : (writeByte a b s).pinTrace = s.pinTrace := rfl
@[simp] theorem writeByte_intStatus (a : Word) (b : Byte) (s : State) :
    (writeByte a b s).intStatus = s.intStatus := rfl
@[simp] theorem writeByte_intEnable (a : Word) (b : Byte) (s : State) :
    (writeByte a b s).intEnable = s.intEnable := rfl
@[simp] theorem writeByte_tokStatus (a : Word) (b : Byte) (s : State) :
    (writeByte a b s).tokStatus = s.tokStatus := rfl
@[simp] theorem writeByte_devAddr (a : Word) (b : Byte) (s : State) : (writeByte a b s).devAddr = s.devAddr := rfl
@[simp] theorem writeByte_epCtl (a : Word) (b : Byte) (s : State) : (writeByte a b s).epCtl = s.epCtl := rfl
@[simp] theorem writeByte_ctsSeq (a : Word) (b : Byte) (s : State) : (writeByte a b s).ctsSeq = s.ctsSeq := rfl
@[simp] theorem writeByte_setup (a : Word) (b : Byte) (s : State) : (writeByte a b s).setup = s.setup := rfl
@[simp] theorem writeByte_ctlState (a : Word) (b : Byte) (s : State) : (writeByte a b s).ctlState = s.ctlState := rfl
@[simp] theorem writeByte_toggle (a : Word) (b : Byte) (s : State) : (writeByte a b s).toggle = s.toggle := rfl
@[simp] theorem writeByte_parity (a : Word) (b : Byte) (s : State) : (writeByte a b s).parity = s.parity := rfl
@[simp] theorem writeByte_cursorValid (a : Word) (b : Byte) (s : State) :
    (writeByte a b s).cursorValid = s.cursorValid := rfl
@[simp] theorem writeByte_cursorPtr (a : Word) (b : Byte) (s : State) :
    (writeByte a b s).cursorPtr = s.cursorPtr := rfl
@[simp] theorem writeByte_cursorRemaining (a : Word) (b : Byte) (s : State) :
    (writeByte a b s).cursorRemaining = s.cursorRemaining := rfl
@[simp] theorem writeByte_zlpPending (a : Word) (b : Byte) (s : State) :
    (writeByte a b s).zlpPending = s.zlpPending := rfl
@[simp] theorem writeByte_addrPending (a : Word) (b : Byte) (s : State) :
    (writeByte a b s).addrPending = s.addrPending := rfl
@[simp] theorem writeByte_addrValue (a : Word) (b : Byte) (s : State) :
    (writeByte a b s).addrValue = s.addrValue := rfl
@[simp] theorem writeByte_faults (a : Word) (b : Byte) (s : State) : (writeByte a b s).faults = s.faults := rfl
@[simp] theorem writeByte_vendorAnswers (a : Word) (b : Byte) (s : State) :
    (writeByte a b s).vendorAnswers = s.vendorAnswers := rfl
@[simp] theorem writeByte_usbTrace (a : Word) (b : Byte) (s : State) : (writeByte a b s).usbTrace = s.usbTrace := rfl
@[simp] theorem writeByte_sieParity (a : Word) (b : Byte) (s : State) :
    (writeByte a b s).sieParity = s.sieParity := rfl
@[simp] theorem writeByte_queue (a : Word) (b : Byte) (s : State) : (writeByte a b s).queue = s.queue := rfl
@[simp] theorem writeByte_sieFrozen (a : Word) (b : Byte) (s : State) :
    (writeByte a b s).sieFrozen = s.sieFrozen := rfl
@[simp] theorem writeByte_busTrace (a : Word) (b : Byte) (s : State) : (writeByte a b s).busTrace = s.busTrace := rfl

/-! ## writeBytes -/

@[simp] theorem writeBytes_cfg (a : Word) (bs : List Byte) (s : State) : (writeBytes a bs s).cfg = s.cfg := by
  induction bs generalizing a s with
  | nil => rfl
  | cons x xs ih => exact ih _ _
/-- Writing bytes changes the memory and nothing else. -/
theorem writeBytes_eq (a : Word) (bs : List Byte) (s : State) :
    writeBytes a bs s = { s with mem := (writeBytes a bs s).mem } := by
  induction bs generalizing a s with
  | nil => rfl
  | cons x xs ih => rw [writeBytes, ih]; rfl

@[simp] theorem writeBytes_script (a : Word) (bs : List Byte) (s : State) :
    (writeBytes a bs s).script = s.script := by rw [writeBytes_eq]
@[simp] theorem writeBytes_bootBteDone (a : Word) (bs : List Byte) (s : State) :
    (writeBytes a bs s).bootBteDone = s.bootBteDone := by rw [writeBytes_eq]
@[simp] theorem writeBytes_bootIntDone (a : Word) (bs : List Byte) (s : State) :
    (writeBytes a bs s).bootIntDone = s.bootIntDone := by rw [writeBytes_eq]
@[simp] theorem writeBytes_bteSeq (a : Word) (bs : List Byte) (s : State) :
    (writeBytes a bs s).bteSeq = s.bteSeq := by rw [writeBytes_eq]
@[simp] theorem writeBytes_dclk (a : Word) (bs : List Byte) (s : State) :
    (writeBytes a bs s).dclk = s.dclk := by rw [writeBytes_eq]
@[simp] theorem writeBytes_dout (a : Word) (bs : List Byte) (s : State) :
    (writeBytes a bs s).dout = s.dout := by rw [writeBytes_eq]
@[simp] theorem writeBytes_din (a : Word) (bs : List Byte) (s : State) :
    (writeBytes a bs s).din = s.din := by rw [writeBytes_eq]
@[simp] theorem writeBytes_bkpt (a : Word) (bs : List Byte) (s : State) :
    (writeBytes a bs s).bkpt = s.bkpt := by rw [writeBytes_eq]
@[simp] theorem writeBytes_rst (a : Word) (bs : List Byte) (s : State) :
    (writeBytes a bs s).rst = s.rst := by rw [writeBytes_eq]
@[simp] theorem writeBytes_bteCfg (a : Word) (bs : List Byte) (s : State) :
    (writeBytes a bs s).bteCfg = s.bteCfg := by rw [writeBytes_eq]
@[simp] theorem writeBytes_resetDetected (a : Word) (bs : List Byte) (s : State) :
    (writeBytes a bs s).resetDetected = s.resetDetected := by rw [writeBytes_eq]
@[simp] theorem writeBytes_shiftOut (a : Word) (bs : List Byte) (s : State) :
    (writeBytes a bs s).shiftOut = s.shiftOut := by rw [writeBytes_eq]
@[simp] theorem writeBytes_shiftIn (a : Word) (bs : List Byte) (s : State) :
    (writeBytes a bs s).shiftIn = s.shiftIn := by rw [writeBytes_eq]
@[simp] theorem writeBytes_bitCnt (a : Word) (bs : List Byte) (s : State) :
    (writeBytes a bs s).bitCnt = s.bitCnt := by rw [writeBytes_eq]
@[simp] theorem writeBytes_retry (a : Word) (bs : List Byte) (s : State) :
    (writeBytes a bs s).retry = s.retry := by rw [writeBytes_eq]
@[simp] theorem writeBytes_probe (a : Word) (bs : List Byte) (s : State) :
    (writeBytes a bs s).probe = s.probe := by rw [writeBytes_eq]
@[simp] theorem writeBytes_bIn (a : Word) (bs : List Byte) (s : State) :
    (writeBytes a bs s).bIn = s.bIn := by rw [writeBytes_eq]
@[simp] theorem writeBytes_waitStart (a : Word) (bs : List Byte) (s : State) :
    (writeBytes a bs s).waitStart = s.waitStart := by rw [writeBytes_eq]
@[simp] theorem writeBytes_reqBuf (a : Word) (bs : List Byte) (s : State) :
    (writeBytes a bs s).reqBuf = s.reqBuf := by rw [writeBytes_eq]
@[simp] theorem writeBytes_reqValid (a : Word) (bs : List Byte) (s : State) :
    (writeBytes a bs s).reqValid = s.reqValid := by rw [writeBytes_eq]
@[simp] theorem writeBytes_result (a : Word) (bs : List Byte) (s : State) :
    (writeBytes a bs s).result = s.result := by rw [writeBytes_eq]
@[simp] theorem writeBytes_countdown (a : Word) (bs : List Byte) (s : State) :
    (writeBytes a bs s).countdown = s.countdown := by rw [writeBytes_eq]
@[simp] theorem writeBytes_freeCount (a : Word) (bs : List Byte) (s : State) :
    (writeBytes a bs s).freeCount = s.freeCount := by rw [writeBytes_eq]
@[simp] theorem writeBytes_target (a : Word) (bs : List Byte) (s : State) :
    (writeBytes a bs s).target = s.target := by rw [writeBytes_eq]
@[simp] theorem writeBytes_pinTrace (a : Word) (bs : List Byte) (s : State) :
    (writeBytes a bs s).pinTrace = s.pinTrace := by rw [writeBytes_eq]
@[simp] theorem writeBytes_intStatus (a : Word) (bs : List Byte) (s : State) :
    (writeBytes a bs s).intStatus = s.intStatus := by rw [writeBytes_eq]
@[simp] theorem writeBytes_intEnable (a : Word) (bs : List Byte) (s : State) :
    (writeBytes a bs s).intEnable = s.intEnable := by rw [writeBytes_eq]
@[simp] theorem writeBytes_tokStatus (a : Word) (bs : List Byte) (s : State) :
    (writeBytes a bs s).tokStatus = s.tokStatus := by rw [writeBytes_eq]
@[simp] theorem writeBytes_devAddr (a : Word) (bs : List Byte) (s : State) :
    (writeBytes a bs s).devAddr = s.devAddr := by rw [writeBytes_eq]
@[simp] theorem writeBytes_epCtl (a : Word) (bs : List Byte) (s : State) :
    (writeBytes a bs s).epCtl = s.epCtl := by rw [writeBytes_eq]
@[simp] theorem writeBytes_ctsSeq (a : Word) (bs : List Byte) (s : State) :
    (writeBytes a bs s).ctsSeq = s.ctsSeq := by rw [writeBytes_eq]
@[simp] theorem writeBytes_setup (a : Word) (bs : List Byte) (s : State) :
    (writeBytes a bs s).setup = s.setup := by rw [writeBytes_eq]
@[simp] theorem writeBytes_ctlState (a : Word) (bs : List Byte) (s : State) :
    (writeBytes a bs s).ctlState = s.ctlState := by rw [writeBytes_eq]
@[simp] theorem writeBytes_toggle (a : Word) (bs : List Byte) (s : State) :
    (writeBytes a bs s).toggle = s.toggle := by rw [writeBytes_eq]
@[simp] theorem writeBytes_parity (a : Word) (bs : List Byte) (s : State) :
    (writeBytes a bs s).parity = s.parity := by rw [writeBytes_eq]
@[simp] theorem writeBytes_cursorValid (a : Word) (bs : List Byte) (s : State) :
    (writeBytes a bs s).cursorValid = s.cursorValid := by rw [writeBytes_eq]
@[simp] theorem writeBytes_cursorPtr (a : Word) (bs : List Byte) (s : State) :
    (writeBytes a bs s).cursorPtr = s.cursorPtr := by rw [writeBytes_eq]
@[simp] theorem writeBytes_cursorRemaining (a : Word) (bs : List Byte) (s : State) :
    (writeBytes a bs s).cursorRemaining = s.cursorRemaining := by rw [writeBytes_eq]
@[simp] theorem writeBytes_zlpPending (a : Word) (bs : List Byte) (s : State) :
    (writeBytes a bs s).zlpPending = s.zlpPending := by rw [writeBytes_eq]
@[simp] theorem writeBytes_addrPending (a : Word) (bs : List Byte) (s : State) :
    (writeBytes a bs s).addrPending = s.addrPending := by rw [writeBytes_eq]
@[simp] theorem writeBytes_addrValue (a : Word) (bs : List Byte) (s : State) :
    (writeBytes a bs s).addrValue = s.addrValue := by rw [writeBytes_eq]
@[simp] theorem writeBytes_faults (a : Word) (bs : List Byte) (s : State) :
    (writeBytes a bs s).faults = s.faults := by rw [writeBytes_eq]
@[simp] theorem writeBytes_vendorAnswers (a : Word) (bs : List Byte) (s : State) :
    (writeBytes a bs s).vendorAnswers = s.vendorAnswers := by rw [writeBytes_eq]
@[simp] theorem writeBytes_usbTrace (a : Word) (bs : List Byte) (s : State) :
    (writeBytes a bs s).usbTrace = s.usbTrace := by rw [writeBytes_eq]
@[simp] theorem writeBytes_sieParity (a : Word) (bs : List Byte) (s : State) :
    (writeBytes a bs s).sieParity = s.sieParity := by rw [writeBytes_eq]
@[simp] theorem writeBytes_queue (a : Word) (bs : List Byte) (s : State) :
    (writeBytes a bs s).queue = s.queue := by rw [writeBytes_eq]
@[simp] theorem writeBytes_sieFrozen (a : Word) (bs : List Byte) (s : State) :
    (writeBytes a bs s).sieFrozen = s.sieFrozen := by rw [writeBytes_eq]
@[simp] theorem writeBytes_busTrace (a : Word) (bs : List Byte) (s : State) :
    (writeBytes a bs s).busTrace = s.busTrace := by rw [writeBytes_eq]

/-! ## writeWord -/

@[simp] theorem writeWord_cfg (a v : Word) (s : State) : (writeWord a v s).cfg = s.cfg := writeBytes_cfg ..
@[simp] theorem writeWord_script (a v : Word) (s : State) :
    (writeWord a v s).script = s.script := writeBytes_script ..
@[simp] theorem writeWord_bootBteDone (a v : Word) (s : State) :
    (writeWord a v s).bootBteDone = s.bootBteDone := writeBytes_bootBteDone ..
@[simp] theorem writeWord_bootIntDone (a v : Word) (s : State) :
    (writeWord a v s).bootIntDone = s.bootIntDone := writeBytes_bootIntDone ..
@[simp] theorem writeWord_bteSeq (a v : Word) (s : State) :
    (writeWord a v s).bteSeq = s.bteSeq := writeBytes_bteSeq ..
@[simp] theorem writeWord_dclk (a v : Word) (s : State) : (writeWord a v s).dclk = s.dclk := writeBytes_dclk ..
@[simp] theorem writeWord_dout (a v : Word) (s : State) : (writeWord a v s).dout = s.dout := writeBytes_dout ..
@[simp] theorem writeWord_din (a v : Word) (s : State) : (writeWord a v s).din = s.din := writeBytes_din ..
@[simp] theorem writeWord_bkpt (a v : Word) (s : State) : (writeWord a v s).bkpt = s.bkpt := writeBytes_bkpt ..
@[simp] theorem writeWord_rst (a v : Word) (s : State) : (writeWord a v s).rst = s.rst := writeBytes_rst ..
@[simp] theorem writeWord_bteCfg (a v : Word) (s : State) :
    (writeWord a v s).bteCfg = s.bteCfg := writeBytes_bteCfg ..
@[simp] theorem writeWord_resetDetected (a v : Word) (s : State) :
    (writeWord a v s).resetDetected = s.resetDetected := writeBytes_resetDetected ..
@[simp] theorem writeWord_shiftOut (a v : Word) (s : State) :
    (writeWord a v s).shiftOut = s.shiftOut := writeBytes_shiftOut ..
@[simp] theorem writeWord_shiftIn (a v : Word) (s : State) :
    (writeWord a v s).shiftIn = s.shiftIn := writeBytes_shiftIn ..
@[simp] theorem writeWord_bitCnt (a v : Word) (s : State) :
    (writeWord a v s).bitCnt = s.bitCnt := writeBytes_bitCnt ..
@[simp] theorem writeWord_retry (a v : Word) (s : State) : (writeWord a v s).retry = s.retry := writeBytes_retry ..
@[simp] theorem writeWord_probe (a v : Word) (s : State) : (writeWord a v s).probe = s.probe := writeBytes_probe ..
@[simp] theorem writeWord_bIn (a v : Word) (s : State) : (writeWord a v s).bIn = s.bIn := writeBytes_bIn ..
@[simp] theorem writeWord_waitStart (a v : Word) (s : State) :
    (writeWord a v s).waitStart = s.waitStart := writeBytes_waitStart ..
@[simp] theorem writeWord_reqBuf (a v : Word) (s : State) :
    (writeWord a v s).reqBuf = s.reqBuf := writeBytes_reqBuf ..
@[simp] theorem writeWord_reqValid (a v : Word) (s : State) :
    (writeWord a v s).reqValid = s.reqValid := writeBytes_reqValid ..
@[simp] theorem writeWord_result (a v : Word) (s : State) :
    (writeWord a v s).result = s.result := writeBytes_result ..
@[simp] theorem writeWord_countdown (a v : Word) (s : State) :
    (writeWord a v s).countdown = s.countdown := writeBytes_countdown ..
@[simp] theorem writeWord_freeCount (a v : Word) (s : State) :
    (writeWord a v s).freeCount = s.freeCount := writeBytes_freeCount ..
@[simp] theorem writeWord_target (a v : Word) (s : State) :
    (writeWord a v s).target = s.target := writeBytes_target ..
@[simp] theorem writeWord_pinTrace (a v : Word) (s : State) :
    (writeWord a v s).pinTrace = s.pinTrace := writeBytes_pinTrace ..
@[simp] theorem writeWord_intStatus (a v : Word) (s : State) :
    (writeWord a v s).intStatus = s.intStatus := writeBytes_intStatus ..
@[simp] theorem writeWord_intEnable (a v : Word) (s : State) :
    (writeWord a v s).intEnable = s.intEnable := writeBytes_intEnable ..
@[simp] theorem writeWord_tokStatus (a v : Word) (s : State) :
    (writeWord a v s).tokStatus = s.tokStatus := writeBytes_tokStatus ..
@[simp] theorem writeWord_devAddr (a v : Word) (s : State) :
    (writeWord a v s).devAddr = s.devAddr := writeBytes_devAddr ..
@[simp] theorem writeWord_epCtl (a v : Word) (s : State) : (writeWord a v s).epCtl = s.epCtl := writeBytes_epCtl ..
@[simp] theorem writeWord_ctsSeq (a v : Word) (s : State) :
    (writeWord a v s).ctsSeq = s.ctsSeq := writeBytes_ctsSeq ..
@[simp] theorem writeWord_setup (a v : Word) (s : State) : (writeWord a v s).setup = s.setup := writeBytes_setup ..
@[simp] theorem writeWord_ctlState (a v : Word) (s : State) :
    (writeWord a v s).ctlState = s.ctlState := writeBytes_ctlState ..
@[simp] theorem writeWord_toggle (a v : Word) (s : State) :
    (writeWord a v s).toggle = s.toggle := writeBytes_toggle ..
@[simp] theorem writeWord_parity (a v : Word) (s : State) :
    (writeWord a v s).parity = s.parity := writeBytes_parity ..
@[simp] theorem writeWord_cursorValid (a v : Word) (s : State) :
    (writeWord a v s).cursorValid = s.cursorValid := writeBytes_cursorValid ..
@[simp] theorem writeWord_cursorPtr (a v : Word) (s : State) :
    (writeWord a v s).cursorPtr = s.cursorPtr := writeBytes_cursorPtr ..
@[simp] theorem writeWord_cursorRemaining (a v : Word) (s : State) :
    (writeWord a v s).cursorRemaining = s.cursorRemaining := writeBytes_cursorRemaining ..
@[simp] theorem writeWord_zlpPending (a v : Word) (s : State) :
    (writeWord a v s).zlpPending = s.zlpPending := writeBytes_zlpPending ..
@[simp] theorem writeWord_addrPending (a v : Word) (s : State) :
    (writeWord a v s).addrPending = s.addrPending := writeBytes_addrPending ..
@[simp] theorem writeWord_addrValue (a v : Word) (s : State) :
    (writeWord a v s).addrValue = s.addrValue := writeBytes_addrValue ..
@[simp] theorem writeWord_faults (a v : Word) (s : State) :
    (writeWord a v s).faults = s.faults := writeBytes_faults ..
@[simp] theorem writeWord_vendorAnswers (a v : Word) (s : State) :
    (writeWord a v s).vendorAnswers = s.vendorAnswers := writeBytes_vendorAnswers ..
@[simp] theorem writeWord_usbTrace (a v : Word) (s : State) :
    (writeWord a v s).usbTrace = s.usbTrace := writeBytes_usbTrace ..
@[simp] theorem writeWord_sieParity (a v : Word) (s : State) :
    (writeWord a v s).sieParity = s.sieParity := writeBytes_sieParity ..
@[simp] theorem writeWord_queue (a v : Word) (s : State) : (writeWord a v s).queue = s.queue := writeBytes_queue ..
@[simp] theorem writeWord_sieFrozen (a v : Word) (s : State) :
    (writeWord a v s).sieFrozen = s.sieFrozen := writeBytes_sieFrozen ..
@[simp] theorem writeWord_busTrace (a v : Word) (s : State) :
    (writeWord a v s).busTrace = s.busTrace := writeBytes_busTrace ..

/-! ## writeSlot -/

@[simp] theorem writeSlot_cfg (e : Endpoint) (d : Dir) (p : Bit) (u v : Word) (s : State) :
    (writeSlot e d p u v s).cfg = s.cfg := by
  simp only [writeSlot, writeWord_cfg]
@[simp] theorem writeSlot_script (e : Endpoint) (d : Dir) (p : Bit) (u v : Word) (s : State) :
    (writeSlot e d p u v s).script = s.script := by
  simp only [writeSlot, writeWord_script]
@[simp] theorem writeSlot_bootBteDone (e : Endpoint) (d : Dir) (p : Bit) (u v : Word) (s : State) :
    (writeSlot e d p u v s).bootBteDone = s.bootBteDone := by
  simp only [writeSlot, writeWord_bootBteDone]
@[simp] theorem writeSlot_bootIntDone (e : Endpoint) (d : Dir) (p : Bit) (u v : Word) (s : State) :
    (writeSlot e d p u v s).bootIntDone = s.bootIntDone := by
  simp only [writeSlot, writeWord_bootIntDone]
@[simp] theorem writeSlot_bteSeq (e : Endpoint) (d : Dir) (p : Bit) (u v : Word) (s : State) :
    (writeSlot e d p u v s).bteSeq = s.bteSeq := by
  simp only [writeSlot, writeWord_bteSeq]
@[simp] theorem writeSlot_dclk (e : Endpoint) (d : Dir) (p : Bit) (u v : Word) (s : State) :
    (writeSlot e d p u v s).dclk = s.dclk := by
  simp only [writeSlot, writeWord_dclk]
@[simp] theorem writeSlot_dout (e : Endpoint) (d : Dir) (p : Bit) (u v : Word) (s : State) :
    (writeSlot e d p u v s).dout = s.dout := by
  simp only [writeSlot, writeWord_dout]
@[simp] theorem writeSlot_din (e : Endpoint) (d : Dir) (p : Bit) (u v : Word) (s : State) :
    (writeSlot e d p u v s).din = s.din := by
  simp only [writeSlot, writeWord_din]
@[simp] theorem writeSlot_bkpt (e : Endpoint) (d : Dir) (p : Bit) (u v : Word) (s : State) :
    (writeSlot e d p u v s).bkpt = s.bkpt := by
  simp only [writeSlot, writeWord_bkpt]
@[simp] theorem writeSlot_rst (e : Endpoint) (d : Dir) (p : Bit) (u v : Word) (s : State) :
    (writeSlot e d p u v s).rst = s.rst := by
  simp only [writeSlot, writeWord_rst]
@[simp] theorem writeSlot_bteCfg (e : Endpoint) (d : Dir) (p : Bit) (u v : Word) (s : State) :
    (writeSlot e d p u v s).bteCfg = s.bteCfg := by
  simp only [writeSlot, writeWord_bteCfg]
@[simp] theorem writeSlot_resetDetected (e : Endpoint) (d : Dir) (p : Bit) (u v : Word) (s : State) :
    (writeSlot e d p u v s).resetDetected = s.resetDetected := by
  simp only [writeSlot, writeWord_resetDetected]
@[simp] theorem writeSlot_shiftOut (e : Endpoint) (d : Dir) (p : Bit) (u v : Word) (s : State) :
    (writeSlot e d p u v s).shiftOut = s.shiftOut := by
  simp only [writeSlot, writeWord_shiftOut]
@[simp] theorem writeSlot_shiftIn (e : Endpoint) (d : Dir) (p : Bit) (u v : Word) (s : State) :
    (writeSlot e d p u v s).shiftIn = s.shiftIn := by
  simp only [writeSlot, writeWord_shiftIn]
@[simp] theorem writeSlot_bitCnt (e : Endpoint) (d : Dir) (p : Bit) (u v : Word) (s : State) :
    (writeSlot e d p u v s).bitCnt = s.bitCnt := by
  simp only [writeSlot, writeWord_bitCnt]
@[simp] theorem writeSlot_retry (e : Endpoint) (d : Dir) (p : Bit) (u v : Word) (s : State) :
    (writeSlot e d p u v s).retry = s.retry := by
  simp only [writeSlot, writeWord_retry]
@[simp] theorem writeSlot_probe (e : Endpoint) (d : Dir) (p : Bit) (u v : Word) (s : State) :
    (writeSlot e d p u v s).probe = s.probe := by
  simp only [writeSlot, writeWord_probe]
@[simp] theorem writeSlot_bIn (e : Endpoint) (d : Dir) (p : Bit) (u v : Word) (s : State) :
    (writeSlot e d p u v s).bIn = s.bIn := by
  simp only [writeSlot, writeWord_bIn]
@[simp] theorem writeSlot_waitStart (e : Endpoint) (d : Dir) (p : Bit) (u v : Word) (s : State) :
    (writeSlot e d p u v s).waitStart = s.waitStart := by
  simp only [writeSlot, writeWord_waitStart]
@[simp] theorem writeSlot_reqBuf (e : Endpoint) (d : Dir) (p : Bit) (u v : Word) (s : State) :
    (writeSlot e d p u v s).reqBuf = s.reqBuf := by
  simp only [writeSlot, writeWord_reqBuf]
@[simp] theorem writeSlot_reqValid (e : Endpoint) (d : Dir) (p : Bit) (u v : Word) (s : State) :
    (writeSlot e d p u v s).reqValid = s.reqValid := by
  simp only [writeSlot, writeWord_reqValid]
@[simp] theorem writeSlot_result (e : Endpoint) (d : Dir) (p : Bit) (u v : Word) (s : State) :
    (writeSlot e d p u v s).result = s.result := by
  simp only [writeSlot, writeWord_result]
@[simp] theorem writeSlot_countdown (e : Endpoint) (d : Dir) (p : Bit) (u v : Word) (s : State) :
    (writeSlot e d p u v s).countdown = s.countdown := by
  simp only [writeSlot, writeWord_countdown]
@[simp] theorem writeSlot_freeCount (e : Endpoint) (d : Dir) (p : Bit) (u v : Word) (s : State) :
    (writeSlot e d p u v s).freeCount = s.freeCount := by
  simp only [writeSlot, writeWord_freeCount]
@[simp] theorem writeSlot_target (e : Endpoint) (d : Dir) (p : Bit) (u v : Word) (s : State) :
    (writeSlot e d p u v s).target = s.target := by
  simp only [writeSlot, writeWord_target]
@[simp] theorem writeSlot_pinTrace (e : Endpoint) (d : Dir) (p : Bit) (u v : Word) (s : State) :
    (writeSlot e d p u v s).pinTrace = s.pinTrace := by
  simp only [writeSlot, writeWord_pinTrace]
@[simp] theorem writeSlot_intStatus (e : Endpoint) (d : Dir) (p : Bit) (u v : Word) (s : State) :
    (writeSlot e d p u v s).intStatus = s.intStatus := by
  simp only [writeSlot, writeWord_intStatus]
@[simp] theorem writeSlot_intEnable (e : Endpoint) (d : Dir) (p : Bit) (u v : Word) (s : State) :
    (writeSlot e d p u v s).intEnable = s.intEnable := by
  simp only [writeSlot, writeWord_intEnable]
@[simp] theorem writeSlot_tokStatus (e : Endpoint) (d : Dir) (p : Bit) (u v : Word) (s : State) :
    (writeSlot e d p u v s).tokStatus = s.tokStatus := by
  simp only [writeSlot, writeWord_tokStatus]
@[simp] theorem writeSlot_devAddr (e : Endpoint) (d : Dir) (p : Bit) (u v : Word) (s : State) :
    (writeSlot e d p u v s).devAddr = s.devAddr := by
  simp only [writeSlot, writeWord_devAddr]
@[simp] theorem writeSlot_epCtl (e : Endpoint) (d : Dir) (p : Bit) (u v : Word) (s : State) :
    (writeSlot e d p u v s).epCtl = s.epCtl := by
  simp only [writeSlot, writeWord_epCtl]
@[simp] theorem writeSlot_ctsSeq (e : Endpoint) (d : Dir) (p : Bit) (u v : Word) (s : State) :
    (writeSlot e d p u v s).ctsSeq = s.ctsSeq := by
  simp only [writeSlot, writeWord_ctsSeq]
@[simp] theorem writeSlot_setup (e : Endpoint) (d : Dir) (p : Bit) (u v : Word) (s : State) :
    (writeSlot e d p u v s).setup = s.setup := by
  simp only [writeSlot, writeWord_setup]
@[simp] theorem writeSlot_ctlState (e : Endpoint) (d : Dir) (p : Bit) (u v : Word) (s : State) :
    (writeSlot e d p u v s).ctlState = s.ctlState := by
  simp only [writeSlot, writeWord_ctlState]
@[simp] theorem writeSlot_toggle (e : Endpoint) (d : Dir) (p : Bit) (u v : Word) (s : State) :
    (writeSlot e d p u v s).toggle = s.toggle := by
  simp only [writeSlot, writeWord_toggle]
@[simp] theorem writeSlot_parity (e : Endpoint) (d : Dir) (p : Bit) (u v : Word) (s : State) :
    (writeSlot e d p u v s).parity = s.parity := by
  simp only [writeSlot, writeWord_parity]
@[simp] theorem writeSlot_cursorValid (e : Endpoint) (d : Dir) (p : Bit) (u v : Word) (s : State) :
    (writeSlot e d p u v s).cursorValid = s.cursorValid := by
  simp only [writeSlot, writeWord_cursorValid]
@[simp] theorem writeSlot_cursorPtr (e : Endpoint) (d : Dir) (p : Bit) (u v : Word) (s : State) :
    (writeSlot e d p u v s).cursorPtr = s.cursorPtr := by
  simp only [writeSlot, writeWord_cursorPtr]
@[simp] theorem writeSlot_cursorRemaining (e : Endpoint) (d : Dir) (p : Bit) (u v : Word) (s : State) :
    (writeSlot e d p u v s).cursorRemaining = s.cursorRemaining := by
  simp only [writeSlot, writeWord_cursorRemaining]
@[simp] theorem writeSlot_zlpPending (e : Endpoint) (d : Dir) (p : Bit) (u v : Word) (s : State) :
    (writeSlot e d p u v s).zlpPending = s.zlpPending := by
  simp only [writeSlot, writeWord_zlpPending]
@[simp] theorem writeSlot_addrPending (e : Endpoint) (d : Dir) (p : Bit) (u v : Word) (s : State) :
    (writeSlot e d p u v s).addrPending = s.addrPending := by
  simp only [writeSlot, writeWord_addrPending]
@[simp] theorem writeSlot_addrValue (e : Endpoint) (d : Dir) (p : Bit) (u v : Word) (s : State) :
    (writeSlot e d p u v s).addrValue = s.addrValue := by
  simp only [writeSlot, writeWord_addrValue]
@[simp] theorem writeSlot_faults (e : Endpoint) (d : Dir) (p : Bit) (u v : Word) (s : State) :
    (writeSlot e d p u v s).faults = s.faults := by
  simp only [writeSlot, writeWord_faults]
@[simp] theorem writeSlot_vendorAnswers (e : Endpoint) (d : Dir) (p : Bit) (u v : Word) (s : State) :
    (writeSlot e d p u v s).vendorAnswers = s.vendorAnswers := by
  simp only [writeSlot, writeWord_vendorAnswers]
@[simp] theorem writeSlot_usbTrace (e : Endpoint) (d : Dir) (p : Bit) (u v : Word) (s : State) :
    (writeSlot e d p u v s).usbTrace = s.usbTrace := by
  simp only [writeSlot, writeWord_usbTrace]
@[simp] theorem writeSlot_sieParity (e : Endpoint) (d : Dir) (p : Bit) (u v : Word) (s : State) :
    (writeSlot e d p u v s).sieParity = s.sieParity := by
  simp only [writeSlot, writeWord_sieParity]
@[simp] theorem writeSlot_queue (e : Endpoint) (d : Dir) (p : Bit) (u v : Word) (s : State) :
    (writeSlot e d p u v s).queue = s.queue := by
  simp only [writeSlot, writeWord_queue]
@[simp] theorem writeSlot_sieFrozen (e : Endpoint) (d : Dir) (p : Bit) (u v : Word) (s : State) :
    (writeSlot e d p u v s).sieFrozen = s.sieFrozen := by
  simp only [writeSlot, writeWord_sieFrozen]
@[simp] theorem writeSlot_busTrace (e : Endpoint) (d : Dir) (p : Bit) (u v : Word) (s : State) :
    (writeSlot e d p u v s).busTrace = s.busTrace := by
  simp only [writeSlot, writeWord_busTrace]

/-! ## raise -/

@[simp] theorem raise_cfg (f : Fault) (s : State) : (raise f s).cfg = s.cfg := rfl
@[simp] theorem raise_script (f : Fault) (s : State) : (raise f s).script = s.script := rfl
@[simp] theorem raise_bootBteDone (f : Fault) (s : State) : (raise f s).bootBteDone = s.bootBteDone := rfl
@[simp] theorem raise_bootIntDone (f : Fault) (s : State) : (raise f s).bootIntDone = s.bootIntDone := rfl
@[simp] theorem raise_bteSeq (f : Fault) (s : State) : (raise f s).bteSeq = s.bteSeq := rfl
@[simp] theorem raise_dclk (f : Fault) (s : State) : (raise f s).dclk = s.dclk := rfl
@[simp] theorem raise_dout (f : Fault) (s : State) : (raise f s).dout = s.dout := rfl
@[simp] theorem raise_din (f : Fault) (s : State) : (raise f s).din = s.din := rfl
@[simp] theorem raise_bkpt (f : Fault) (s : State) : (raise f s).bkpt = s.bkpt := rfl
@[simp] theorem raise_rst (f : Fault) (s : State) : (raise f s).rst = s.rst := rfl
@[simp] theorem raise_bteCfg (f : Fault) (s : State) : (raise f s).bteCfg = s.bteCfg := rfl
@[simp] theorem raise_resetDetected (f : Fault) (s : State) : (raise f s).resetDetected = s.resetDetected := rfl
@[simp] theorem raise_shiftOut (f : Fault) (s : State) : (raise f s).shiftOut = s.shiftOut := rfl
@[simp] theorem raise_shiftIn (f : Fault) (s : State) : (raise f s).shiftIn = s.shiftIn := rfl
@[simp] theorem raise_bitCnt (f : Fault) (s : State) : (raise f s).bitCnt = s.bitCnt := rfl
@[simp] theorem raise_retry (f : Fault) (s : State) : (raise f s).retry = s.retry := rfl
@[simp] theorem raise_probe (f : Fault) (s : State) : (raise f s).probe = s.probe := rfl
@[simp] theorem raise_bIn (f : Fault) (s : State) : (raise f s).bIn = s.bIn := rfl
@[simp] theorem raise_waitStart (f : Fault) (s : State) : (raise f s).waitStart = s.waitStart := rfl
@[simp] theorem raise_reqBuf (f : Fault) (s : State) : (raise f s).reqBuf = s.reqBuf := rfl
@[simp] theorem raise_reqValid (f : Fault) (s : State) : (raise f s).reqValid = s.reqValid := rfl
@[simp] theorem raise_result (f : Fault) (s : State) : (raise f s).result = s.result := rfl
@[simp] theorem raise_countdown (f : Fault) (s : State) : (raise f s).countdown = s.countdown := rfl
@[simp] theorem raise_freeCount (f : Fault) (s : State) : (raise f s).freeCount = s.freeCount := rfl
@[simp] theorem raise_target (f : Fault) (s : State) : (raise f s).target = s.target := rfl
@[simp] theorem raise_pinTrace (f : Fault) (s : State) : (raise f s).pinTrace = s.pinTrace := rfl
@[simp] theorem raise_mem (f : Fault) (s : State) : (raise f s).mem = s.mem := rfl
@[simp] theorem raise_intStatus (f : Fault) (s : State) : (raise f s).intStatus = s.intStatus := rfl
@[simp] theorem raise_intEnable (f : Fault) (s : State) : (raise f s).intEnable = s.intEnable := rfl
@[simp] theorem raise_tokStatus (f : Fault) (s : State) : (raise f s).tokStatus = s.tokStatus := rfl
@[simp] theorem raise_devAddr (f : Fault) (s : State) : (raise f s).devAddr = s.devAddr := rfl
@[simp] theorem raise_epCtl (f : Fault) (s : State) : (raise f s).epCtl = s.epCtl := rfl
@[simp] theorem raise_ctsSeq (f : Fault) (s : State) : (raise f s).ctsSeq = s.ctsSeq := rfl
@[simp] theorem raise_setup (f : Fault) (s : State) : (raise f s).setup = s.setup := rfl
@[simp] theorem raise_ctlState (f : Fault) (s : State) : (raise f s).ctlState = s.ctlState := rfl
@[simp] theorem raise_toggle (f : Fault) (s : State) : (raise f s).toggle = s.toggle := rfl
@[simp] theorem raise_parity (f : Fault) (s : State) : (raise f s).parity = s.parity := rfl
@[simp] theorem raise_cursorValid (f : Fault) (s : State) : (raise f s).cursorValid = s.cursorValid := rfl
@[simp] theorem raise_cursorPtr (f : Fault) (s : State) : (raise f s).cursorPtr = s.cursorPtr := rfl
@[simp] theorem raise_cursorRemaining (f : Fault) (s : State) : (raise f s).cursorRemaining = s.cursorRemaining := rfl
@[simp] theorem raise_zlpPending (f : Fault) (s : State) : (raise f s).zlpPending = s.zlpPending := rfl
@[simp] theorem raise_addrPending (f : Fault) (s : State) : (raise f s).addrPending = s.addrPending := rfl
@[simp] theorem raise_addrValue (f : Fault) (s : State) : (raise f s).addrValue = s.addrValue := rfl
@[simp] theorem raise_vendorAnswers (f : Fault) (s : State) : (raise f s).vendorAnswers = s.vendorAnswers := rfl
@[simp] theorem raise_usbTrace (f : Fault) (s : State) : (raise f s).usbTrace = s.usbTrace := rfl
@[simp] theorem raise_sieParity (f : Fault) (s : State) : (raise f s).sieParity = s.sieParity := rfl
@[simp] theorem raise_queue (f : Fault) (s : State) : (raise f s).queue = s.queue := rfl
@[simp] theorem raise_sieFrozen (f : Fault) (s : State) : (raise f s).sieFrozen = s.sieFrozen := rfl
@[simp] theorem raise_busTrace (f : Fault) (s : State) : (raise f s).busTrace = s.busTrace := rfl

/-! ## setCondition -/

@[simp] theorem setCondition_cfg (v : Byte) (s : State) : (setCondition v s).cfg = s.cfg := rfl
@[simp] theorem setCondition_script (v : Byte) (s : State) : (setCondition v s).script = s.script := rfl
@[simp] theorem setCondition_bootBteDone (v : Byte) (s : State) :
    (setCondition v s).bootBteDone = s.bootBteDone := rfl
@[simp] theorem setCondition_bootIntDone (v : Byte) (s : State) :
    (setCondition v s).bootIntDone = s.bootIntDone := rfl
@[simp] theorem setCondition_bteSeq (v : Byte) (s : State) : (setCondition v s).bteSeq = s.bteSeq := rfl
@[simp] theorem setCondition_dclk (v : Byte) (s : State) : (setCondition v s).dclk = s.dclk := rfl
@[simp] theorem setCondition_dout (v : Byte) (s : State) : (setCondition v s).dout = s.dout := rfl
@[simp] theorem setCondition_din (v : Byte) (s : State) : (setCondition v s).din = s.din := rfl
@[simp] theorem setCondition_bkpt (v : Byte) (s : State) : (setCondition v s).bkpt = s.bkpt := rfl
@[simp] theorem setCondition_rst (v : Byte) (s : State) : (setCondition v s).rst = s.rst := rfl
@[simp] theorem setCondition_bteCfg (v : Byte) (s : State) : (setCondition v s).bteCfg = s.bteCfg := rfl
@[simp] theorem setCondition_resetDetected (v : Byte) (s : State) :
    (setCondition v s).resetDetected = s.resetDetected := rfl
@[simp] theorem setCondition_shiftOut (v : Byte) (s : State) : (setCondition v s).shiftOut = s.shiftOut := rfl
@[simp] theorem setCondition_shiftIn (v : Byte) (s : State) : (setCondition v s).shiftIn = s.shiftIn := rfl
@[simp] theorem setCondition_bitCnt (v : Byte) (s : State) : (setCondition v s).bitCnt = s.bitCnt := rfl
@[simp] theorem setCondition_retry (v : Byte) (s : State) : (setCondition v s).retry = s.retry := rfl
@[simp] theorem setCondition_probe (v : Byte) (s : State) : (setCondition v s).probe = s.probe := rfl
@[simp] theorem setCondition_bIn (v : Byte) (s : State) : (setCondition v s).bIn = s.bIn := rfl
@[simp] theorem setCondition_waitStart (v : Byte) (s : State) : (setCondition v s).waitStart = s.waitStart := rfl
@[simp] theorem setCondition_reqBuf (v : Byte) (s : State) : (setCondition v s).reqBuf = s.reqBuf := rfl
@[simp] theorem setCondition_reqValid (v : Byte) (s : State) : (setCondition v s).reqValid = s.reqValid := rfl
@[simp] theorem setCondition_result (v : Byte) (s : State) : (setCondition v s).result = s.result := rfl
@[simp] theorem setCondition_countdown (v : Byte) (s : State) : (setCondition v s).countdown = s.countdown := rfl
@[simp] theorem setCondition_freeCount (v : Byte) (s : State) : (setCondition v s).freeCount = s.freeCount := rfl
@[simp] theorem setCondition_target (v : Byte) (s : State) : (setCondition v s).target = s.target := rfl
@[simp] theorem setCondition_pinTrace (v : Byte) (s : State) : (setCondition v s).pinTrace = s.pinTrace := rfl
@[simp] theorem setCondition_mem (v : Byte) (s : State) : (setCondition v s).mem = s.mem := rfl
@[simp] theorem setCondition_intEnable (v : Byte) (s : State) : (setCondition v s).intEnable = s.intEnable := rfl
@[simp] theorem setCondition_tokStatus (v : Byte) (s : State) : (setCondition v s).tokStatus = s.tokStatus := rfl
@[simp] theorem setCondition_devAddr (v : Byte) (s : State) : (setCondition v s).devAddr = s.devAddr := rfl
@[simp] theorem setCondition_epCtl (v : Byte) (s : State) : (setCondition v s).epCtl = s.epCtl := rfl
@[simp] theorem setCondition_ctsSeq (v : Byte) (s : State) : (setCondition v s).ctsSeq = s.ctsSeq := rfl
@[simp] theorem setCondition_setup (v : Byte) (s : State) : (setCondition v s).setup = s.setup := rfl
@[simp] theorem setCondition_ctlState (v : Byte) (s : State) : (setCondition v s).ctlState = s.ctlState := rfl
@[simp] theorem setCondition_toggle (v : Byte) (s : State) : (setCondition v s).toggle = s.toggle := rfl
@[simp] theorem setCondition_parity (v : Byte) (s : State) : (setCondition v s).parity = s.parity := rfl
@[simp] theorem setCondition_cursorValid (v : Byte) (s : State) :
    (setCondition v s).cursorValid = s.cursorValid := rfl
@[simp] theorem setCondition_cursorPtr (v : Byte) (s : State) : (setCondition v s).cursorPtr = s.cursorPtr := rfl
@[simp] theorem setCondition_cursorRemaining (v : Byte) (s : State) :
    (setCondition v s).cursorRemaining = s.cursorRemaining := rfl
@[simp] theorem setCondition_zlpPending (v : Byte) (s : State) : (setCondition v s).zlpPending = s.zlpPending := rfl
@[simp] theorem setCondition_addrPending (v : Byte) (s : State) :
    (setCondition v s).addrPending = s.addrPending := rfl
@[simp] theorem setCondition_addrValue (v : Byte) (s : State) : (setCondition v s).addrValue = s.addrValue := rfl
@[simp] theorem setCondition_faults (v : Byte) (s : State) : (setCondition v s).faults = s.faults := rfl
@[simp] theorem setCondition_vendorAnswers (v : Byte) (s : State) :
    (setCondition v s).vendorAnswers = s.vendorAnswers := rfl
@[simp] theorem setCondition_usbTrace (v : Byte) (s : State) : (setCondition v s).usbTrace = s.usbTrace := rfl
@[simp] theorem setCondition_sieParity (v : Byte) (s : State) : (setCondition v s).sieParity = s.sieParity := rfl
@[simp] theorem setCondition_queue (v : Byte) (s : State) : (setCondition v s).queue = s.queue := rfl
@[simp] theorem setCondition_sieFrozen (v : Byte) (s : State) : (setCondition v s).sieFrozen = s.sieFrozen := rfl
@[simp] theorem setCondition_busTrace (v : Byte) (s : State) : (setCondition v s).busTrace = s.busTrace := rfl

/-! ## pushCompletion -/

@[simp] theorem pushCompletion_cfg (r : Completion) (s : State) : (pushCompletion r s).cfg = s.cfg := rfl
@[simp] theorem pushCompletion_script (r : Completion) (s : State) : (pushCompletion r s).script = s.script := rfl
@[simp] theorem pushCompletion_bootBteDone (r : Completion) (s : State) :
    (pushCompletion r s).bootBteDone = s.bootBteDone := rfl
@[simp] theorem pushCompletion_bootIntDone (r : Completion) (s : State) :
    (pushCompletion r s).bootIntDone = s.bootIntDone := rfl
@[simp] theorem pushCompletion_bteSeq (r : Completion) (s : State) : (pushCompletion r s).bteSeq = s.bteSeq := rfl
@[simp] theorem pushCompletion_dclk (r : Completion) (s : State) : (pushCompletion r s).dclk = s.dclk := rfl
@[simp] theorem pushCompletion_dout (r : Completion) (s : State) : (pushCompletion r s).dout = s.dout := rfl
@[simp] theorem pushCompletion_din (r : Completion) (s : State) : (pushCompletion r s).din = s.din := rfl
@[simp] theorem pushCompletion_bkpt (r : Completion) (s : State) : (pushCompletion r s).bkpt = s.bkpt := rfl
@[simp] theorem pushCompletion_rst (r : Completion) (s : State) : (pushCompletion r s).rst = s.rst := rfl
@[simp] theorem pushCompletion_bteCfg (r : Completion) (s : State) : (pushCompletion r s).bteCfg = s.bteCfg := rfl
@[simp] theorem pushCompletion_resetDetected (r : Completion) (s : State) :
    (pushCompletion r s).resetDetected = s.resetDetected := rfl
@[simp] theorem pushCompletion_shiftOut (r : Completion) (s : State) :
    (pushCompletion r s).shiftOut = s.shiftOut := rfl
@[simp] theorem pushCompletion_shiftIn (r : Completion) (s : State) : (pushCompletion r s).shiftIn = s.shiftIn := rfl
@[simp] theorem pushCompletion_bitCnt (r : Completion) (s : State) : (pushCompletion r s).bitCnt = s.bitCnt := rfl
@[simp] theorem pushCompletion_retry (r : Completion) (s : State) : (pushCompletion r s).retry = s.retry := rfl
@[simp] theorem pushCompletion_probe (r : Completion) (s : State) : (pushCompletion r s).probe = s.probe := rfl
@[simp] theorem pushCompletion_bIn (r : Completion) (s : State) : (pushCompletion r s).bIn = s.bIn := rfl
@[simp] theorem pushCompletion_waitStart (r : Completion) (s : State) :
    (pushCompletion r s).waitStart = s.waitStart := rfl
@[simp] theorem pushCompletion_reqBuf (r : Completion) (s : State) : (pushCompletion r s).reqBuf = s.reqBuf := rfl
@[simp] theorem pushCompletion_reqValid (r : Completion) (s : State) :
    (pushCompletion r s).reqValid = s.reqValid := rfl
@[simp] theorem pushCompletion_result (r : Completion) (s : State) : (pushCompletion r s).result = s.result := rfl
@[simp] theorem pushCompletion_countdown (r : Completion) (s : State) :
    (pushCompletion r s).countdown = s.countdown := rfl
@[simp] theorem pushCompletion_freeCount (r : Completion) (s : State) :
    (pushCompletion r s).freeCount = s.freeCount := rfl
@[simp] theorem pushCompletion_target (r : Completion) (s : State) : (pushCompletion r s).target = s.target := rfl
@[simp] theorem pushCompletion_pinTrace (r : Completion) (s : State) :
    (pushCompletion r s).pinTrace = s.pinTrace := rfl
@[simp] theorem pushCompletion_mem (r : Completion) (s : State) : (pushCompletion r s).mem = s.mem := rfl
@[simp] theorem pushCompletion_intEnable (r : Completion) (s : State) :
    (pushCompletion r s).intEnable = s.intEnable := rfl
@[simp] theorem pushCompletion_devAddr (r : Completion) (s : State) : (pushCompletion r s).devAddr = s.devAddr := rfl
@[simp] theorem pushCompletion_epCtl (r : Completion) (s : State) : (pushCompletion r s).epCtl = s.epCtl := rfl
@[simp] theorem pushCompletion_ctsSeq (r : Completion) (s : State) : (pushCompletion r s).ctsSeq = s.ctsSeq := rfl
@[simp] theorem pushCompletion_setup (r : Completion) (s : State) : (pushCompletion r s).setup = s.setup := rfl
@[simp] theorem pushCompletion_ctlState (r : Completion) (s : State) :
    (pushCompletion r s).ctlState = s.ctlState := rfl
@[simp] theorem pushCompletion_toggle (r : Completion) (s : State) : (pushCompletion r s).toggle = s.toggle := rfl
@[simp] theorem pushCompletion_parity (r : Completion) (s : State) : (pushCompletion r s).parity = s.parity := rfl
@[simp] theorem pushCompletion_cursorValid (r : Completion) (s : State) :
    (pushCompletion r s).cursorValid = s.cursorValid := rfl
@[simp] theorem pushCompletion_cursorPtr (r : Completion) (s : State) :
    (pushCompletion r s).cursorPtr = s.cursorPtr := rfl
@[simp] theorem pushCompletion_cursorRemaining (r : Completion) (s : State) :
    (pushCompletion r s).cursorRemaining = s.cursorRemaining := rfl
@[simp] theorem pushCompletion_zlpPending (r : Completion) (s : State) :
    (pushCompletion r s).zlpPending = s.zlpPending := rfl
@[simp] theorem pushCompletion_addrPending (r : Completion) (s : State) :
    (pushCompletion r s).addrPending = s.addrPending := rfl
@[simp] theorem pushCompletion_addrValue (r : Completion) (s : State) :
    (pushCompletion r s).addrValue = s.addrValue := rfl
@[simp] theorem pushCompletion_faults (r : Completion) (s : State) : (pushCompletion r s).faults = s.faults := rfl
@[simp] theorem pushCompletion_vendorAnswers (r : Completion) (s : State) :
    (pushCompletion r s).vendorAnswers = s.vendorAnswers := rfl
@[simp] theorem pushCompletion_usbTrace (r : Completion) (s : State) :
    (pushCompletion r s).usbTrace = s.usbTrace := rfl
@[simp] theorem pushCompletion_sieParity (r : Completion) (s : State) :
    (pushCompletion r s).sieParity = s.sieParity := rfl
@[simp] theorem pushCompletion_sieFrozen (r : Completion) (s : State) :
    (pushCompletion r s).sieFrozen = s.sieFrozen := rfl
@[simp] theorem pushCompletion_busTrace (r : Completion) (s : State) :
    (pushCompletion r s).busTrace = s.busTrace := rfl

/-! ## popCompletion -/

@[simp] theorem popCompletion_cfg (s : State) :
    (popCompletion s).cfg = s.cfg := by unfold popCompletion; split <;> rfl
@[simp] theorem popCompletion_script (s : State) :
    (popCompletion s).script = s.script := by unfold popCompletion; split <;> rfl
@[simp] theorem popCompletion_bootBteDone (s : State) :
    (popCompletion s).bootBteDone = s.bootBteDone := by unfold popCompletion; split <;> rfl
@[simp] theorem popCompletion_bootIntDone (s : State) :
    (popCompletion s).bootIntDone = s.bootIntDone := by unfold popCompletion; split <;> rfl
@[simp] theorem popCompletion_bteSeq (s : State) :
    (popCompletion s).bteSeq = s.bteSeq := by unfold popCompletion; split <;> rfl
@[simp] theorem popCompletion_dclk (s : State) :
    (popCompletion s).dclk = s.dclk := by unfold popCompletion; split <;> rfl
@[simp] theorem popCompletion_dout (s : State) :
    (popCompletion s).dout = s.dout := by unfold popCompletion; split <;> rfl
@[simp] theorem popCompletion_din (s : State) :
    (popCompletion s).din = s.din := by unfold popCompletion; split <;> rfl
@[simp] theorem popCompletion_bkpt (s : State) :
    (popCompletion s).bkpt = s.bkpt := by unfold popCompletion; split <;> rfl
@[simp] theorem popCompletion_rst (s : State) :
    (popCompletion s).rst = s.rst := by unfold popCompletion; split <;> rfl
@[simp] theorem popCompletion_bteCfg (s : State) :
    (popCompletion s).bteCfg = s.bteCfg := by unfold popCompletion; split <;> rfl
@[simp] theorem popCompletion_resetDetected (s : State) :
    (popCompletion s).resetDetected = s.resetDetected := by unfold popCompletion; split <;> rfl
@[simp] theorem popCompletion_shiftOut (s : State) :
    (popCompletion s).shiftOut = s.shiftOut := by unfold popCompletion; split <;> rfl
@[simp] theorem popCompletion_shiftIn (s : State) :
    (popCompletion s).shiftIn = s.shiftIn := by unfold popCompletion; split <;> rfl
@[simp] theorem popCompletion_bitCnt (s : State) :
    (popCompletion s).bitCnt = s.bitCnt := by unfold popCompletion; split <;> rfl
@[simp] theorem popCompletion_retry (s : State) :
    (popCompletion s).retry = s.retry := by unfold popCompletion; split <;> rfl
@[simp] theorem popCompletion_probe (s : State) :
    (popCompletion s).probe = s.probe := by unfold popCompletion; split <;> rfl
@[simp] theorem popCompletion_bIn (s : State) :
    (popCompletion s).bIn = s.bIn := by unfold popCompletion; split <;> rfl
@[simp] theorem popCompletion_waitStart (s : State) :
    (popCompletion s).waitStart = s.waitStart := by unfold popCompletion; split <;> rfl
@[simp] theorem popCompletion_reqBuf (s : State) :
    (popCompletion s).reqBuf = s.reqBuf := by unfold popCompletion; split <;> rfl
@[simp] theorem popCompletion_reqValid (s : State) :
    (popCompletion s).reqValid = s.reqValid := by unfold popCompletion; split <;> rfl
@[simp] theorem popCompletion_result (s : State) :
    (popCompletion s).result = s.result := by unfold popCompletion; split <;> rfl
@[simp] theorem popCompletion_countdown (s : State) :
    (popCompletion s).countdown = s.countdown := by unfold popCompletion; split <;> rfl
@[simp] theorem popCompletion_freeCount (s : State) :
    (popCompletion s).freeCount = s.freeCount := by unfold popCompletion; split <;> rfl
@[simp] theorem popCompletion_target (s : State) :
    (popCompletion s).target = s.target := by unfold popCompletion; split <;> rfl
@[simp] theorem popCompletion_pinTrace (s : State) :
    (popCompletion s).pinTrace = s.pinTrace := by unfold popCompletion; split <;> rfl
@[simp] theorem popCompletion_mem (s : State) :
    (popCompletion s).mem = s.mem := by unfold popCompletion; split <;> rfl
@[simp] theorem popCompletion_intEnable (s : State) :
    (popCompletion s).intEnable = s.intEnable := by unfold popCompletion; split <;> rfl
@[simp] theorem popCompletion_devAddr (s : State) :
    (popCompletion s).devAddr = s.devAddr := by unfold popCompletion; split <;> rfl
@[simp] theorem popCompletion_epCtl (s : State) :
    (popCompletion s).epCtl = s.epCtl := by unfold popCompletion; split <;> rfl
@[simp] theorem popCompletion_ctsSeq (s : State) :
    (popCompletion s).ctsSeq = s.ctsSeq := by unfold popCompletion; split <;> rfl
@[simp] theorem popCompletion_setup (s : State) :
    (popCompletion s).setup = s.setup := by unfold popCompletion; split <;> rfl
@[simp] theorem popCompletion_ctlState (s : State) :
    (popCompletion s).ctlState = s.ctlState := by unfold popCompletion; split <;> rfl
@[simp] theorem popCompletion_toggle (s : State) :
    (popCompletion s).toggle = s.toggle := by unfold popCompletion; split <;> rfl
@[simp] theorem popCompletion_parity (s : State) :
    (popCompletion s).parity = s.parity := by unfold popCompletion; split <;> rfl
@[simp] theorem popCompletion_cursorValid (s : State) :
    (popCompletion s).cursorValid = s.cursorValid := by unfold popCompletion; split <;> rfl
@[simp] theorem popCompletion_cursorPtr (s : State) :
    (popCompletion s).cursorPtr = s.cursorPtr := by unfold popCompletion; split <;> rfl
@[simp] theorem popCompletion_cursorRemaining (s : State) :
    (popCompletion s).cursorRemaining = s.cursorRemaining := by unfold popCompletion; split <;> rfl
@[simp] theorem popCompletion_zlpPending (s : State) :
    (popCompletion s).zlpPending = s.zlpPending := by unfold popCompletion; split <;> rfl
@[simp] theorem popCompletion_addrPending (s : State) :
    (popCompletion s).addrPending = s.addrPending := by unfold popCompletion; split <;> rfl
@[simp] theorem popCompletion_addrValue (s : State) :
    (popCompletion s).addrValue = s.addrValue := by unfold popCompletion; split <;> rfl
@[simp] theorem popCompletion_faults (s : State) :
    (popCompletion s).faults = s.faults := by unfold popCompletion; split <;> rfl
@[simp] theorem popCompletion_vendorAnswers (s : State) :
    (popCompletion s).vendorAnswers = s.vendorAnswers := by unfold popCompletion; split <;> rfl
@[simp] theorem popCompletion_usbTrace (s : State) :
    (popCompletion s).usbTrace = s.usbTrace := by unfold popCompletion; split <;> rfl
@[simp] theorem popCompletion_sieParity (s : State) :
    (popCompletion s).sieParity = s.sieParity := by unfold popCompletion; split <;> rfl
@[simp] theorem popCompletion_sieFrozen (s : State) :
    (popCompletion s).sieFrozen = s.sieFrozen := by unfold popCompletion; split <;> rfl
@[simp] theorem popCompletion_busTrace (s : State) :
    (popCompletion s).busTrace = s.busTrace := by unfold popCompletion; split <;> rfl

/-! ## busResetAcknowledged -/

@[simp] theorem busResetAcknowledged_cfg (s : State) : (busResetAcknowledged s).cfg = s.cfg := rfl
@[simp] theorem busResetAcknowledged_script (s : State) : (busResetAcknowledged s).script = s.script := rfl
@[simp] theorem busResetAcknowledged_bootBteDone (s : State) :
    (busResetAcknowledged s).bootBteDone = s.bootBteDone := rfl
@[simp] theorem busResetAcknowledged_bootIntDone (s : State) :
    (busResetAcknowledged s).bootIntDone = s.bootIntDone := rfl
@[simp] theorem busResetAcknowledged_bteSeq (s : State) : (busResetAcknowledged s).bteSeq = s.bteSeq := rfl
@[simp] theorem busResetAcknowledged_dclk (s : State) : (busResetAcknowledged s).dclk = s.dclk := rfl
@[simp] theorem busResetAcknowledged_dout (s : State) : (busResetAcknowledged s).dout = s.dout := rfl
@[simp] theorem busResetAcknowledged_din (s : State) : (busResetAcknowledged s).din = s.din := rfl
@[simp] theorem busResetAcknowledged_bkpt (s : State) : (busResetAcknowledged s).bkpt = s.bkpt := rfl
@[simp] theorem busResetAcknowledged_rst (s : State) : (busResetAcknowledged s).rst = s.rst := rfl
@[simp] theorem busResetAcknowledged_bteCfg (s : State) : (busResetAcknowledged s).bteCfg = s.bteCfg := rfl
@[simp] theorem busResetAcknowledged_resetDetected (s : State) :
    (busResetAcknowledged s).resetDetected = s.resetDetected := rfl
@[simp] theorem busResetAcknowledged_shiftOut (s : State) : (busResetAcknowledged s).shiftOut = s.shiftOut := rfl
@[simp] theorem busResetAcknowledged_shiftIn (s : State) : (busResetAcknowledged s).shiftIn = s.shiftIn := rfl
@[simp] theorem busResetAcknowledged_bitCnt (s : State) : (busResetAcknowledged s).bitCnt = s.bitCnt := rfl
@[simp] theorem busResetAcknowledged_retry (s : State) : (busResetAcknowledged s).retry = s.retry := rfl
@[simp] theorem busResetAcknowledged_probe (s : State) : (busResetAcknowledged s).probe = s.probe := rfl
@[simp] theorem busResetAcknowledged_bIn (s : State) : (busResetAcknowledged s).bIn = s.bIn := rfl
@[simp] theorem busResetAcknowledged_waitStart (s : State) : (busResetAcknowledged s).waitStart = s.waitStart := rfl
@[simp] theorem busResetAcknowledged_reqBuf (s : State) : (busResetAcknowledged s).reqBuf = s.reqBuf := rfl
@[simp] theorem busResetAcknowledged_reqValid (s : State) : (busResetAcknowledged s).reqValid = s.reqValid := rfl
@[simp] theorem busResetAcknowledged_result (s : State) : (busResetAcknowledged s).result = s.result := rfl
@[simp] theorem busResetAcknowledged_countdown (s : State) : (busResetAcknowledged s).countdown = s.countdown := rfl
@[simp] theorem busResetAcknowledged_freeCount (s : State) : (busResetAcknowledged s).freeCount = s.freeCount := rfl
@[simp] theorem busResetAcknowledged_target (s : State) : (busResetAcknowledged s).target = s.target := rfl
@[simp] theorem busResetAcknowledged_pinTrace (s : State) : (busResetAcknowledged s).pinTrace = s.pinTrace := rfl
@[simp] theorem busResetAcknowledged_mem (s : State) : (busResetAcknowledged s).mem = s.mem := rfl
@[simp] theorem busResetAcknowledged_intEnable (s : State) : (busResetAcknowledged s).intEnable = s.intEnable := rfl
@[simp] theorem busResetAcknowledged_tokStatus (s : State) : (busResetAcknowledged s).tokStatus = s.tokStatus := rfl
@[simp] theorem busResetAcknowledged_devAddr (s : State) : (busResetAcknowledged s).devAddr = s.devAddr := rfl
@[simp] theorem busResetAcknowledged_epCtl (s : State) : (busResetAcknowledged s).epCtl = s.epCtl := rfl
@[simp] theorem busResetAcknowledged_ctsSeq (s : State) : (busResetAcknowledged s).ctsSeq = s.ctsSeq := rfl
@[simp] theorem busResetAcknowledged_setup (s : State) : (busResetAcknowledged s).setup = s.setup := rfl
@[simp] theorem busResetAcknowledged_ctlState (s : State) : (busResetAcknowledged s).ctlState = s.ctlState := rfl
@[simp] theorem busResetAcknowledged_toggle (s : State) : (busResetAcknowledged s).toggle = s.toggle := rfl
@[simp] theorem busResetAcknowledged_parity (s : State) : (busResetAcknowledged s).parity = s.parity := rfl
@[simp] theorem busResetAcknowledged_cursorValid (s : State) :
    (busResetAcknowledged s).cursorValid = s.cursorValid := rfl
@[simp] theorem busResetAcknowledged_cursorPtr (s : State) : (busResetAcknowledged s).cursorPtr = s.cursorPtr := rfl
@[simp] theorem busResetAcknowledged_cursorRemaining (s : State) :
    (busResetAcknowledged s).cursorRemaining = s.cursorRemaining := rfl
@[simp] theorem busResetAcknowledged_zlpPending (s : State) :
    (busResetAcknowledged s).zlpPending = s.zlpPending := rfl
@[simp] theorem busResetAcknowledged_addrPending (s : State) :
    (busResetAcknowledged s).addrPending = s.addrPending := rfl
@[simp] theorem busResetAcknowledged_addrValue (s : State) : (busResetAcknowledged s).addrValue = s.addrValue := rfl
@[simp] theorem busResetAcknowledged_faults (s : State) : (busResetAcknowledged s).faults = s.faults := rfl
@[simp] theorem busResetAcknowledged_vendorAnswers (s : State) :
    (busResetAcknowledged s).vendorAnswers = s.vendorAnswers := rfl
@[simp] theorem busResetAcknowledged_usbTrace (s : State) : (busResetAcknowledged s).usbTrace = s.usbTrace := rfl
@[simp] theorem busResetAcknowledged_busTrace (s : State) : (busResetAcknowledged s).busTrace = s.busTrace := rfl

/-! ## ackStatus -/

@[simp] theorem ackStatus_cfg (v : Byte) (s : State) :
    (ackStatus v s).cfg = s.cfg := by simp only [ackStatus]; split <;> split <;> simp
@[simp] theorem ackStatus_script (v : Byte) (s : State) :
    (ackStatus v s).script = s.script := by simp only [ackStatus]; split <;> split <;> simp
@[simp] theorem ackStatus_bootBteDone (v : Byte) (s : State) :
    (ackStatus v s).bootBteDone = s.bootBteDone := by simp only [ackStatus]; split <;> split <;> simp
@[simp] theorem ackStatus_bootIntDone (v : Byte) (s : State) :
    (ackStatus v s).bootIntDone = s.bootIntDone := by simp only [ackStatus]; split <;> split <;> simp
@[simp] theorem ackStatus_bteSeq (v : Byte) (s : State) :
    (ackStatus v s).bteSeq = s.bteSeq := by simp only [ackStatus]; split <;> split <;> simp
@[simp] theorem ackStatus_dclk (v : Byte) (s : State) :
    (ackStatus v s).dclk = s.dclk := by simp only [ackStatus]; split <;> split <;> simp
@[simp] theorem ackStatus_dout (v : Byte) (s : State) :
    (ackStatus v s).dout = s.dout := by simp only [ackStatus]; split <;> split <;> simp
@[simp] theorem ackStatus_din (v : Byte) (s : State) :
    (ackStatus v s).din = s.din := by simp only [ackStatus]; split <;> split <;> simp
@[simp] theorem ackStatus_bkpt (v : Byte) (s : State) :
    (ackStatus v s).bkpt = s.bkpt := by simp only [ackStatus]; split <;> split <;> simp
@[simp] theorem ackStatus_rst (v : Byte) (s : State) :
    (ackStatus v s).rst = s.rst := by simp only [ackStatus]; split <;> split <;> simp
@[simp] theorem ackStatus_bteCfg (v : Byte) (s : State) :
    (ackStatus v s).bteCfg = s.bteCfg := by simp only [ackStatus]; split <;> split <;> simp
@[simp] theorem ackStatus_resetDetected (v : Byte) (s : State) :
    (ackStatus v s).resetDetected = s.resetDetected := by simp only [ackStatus]; split <;> split <;> simp
@[simp] theorem ackStatus_shiftOut (v : Byte) (s : State) :
    (ackStatus v s).shiftOut = s.shiftOut := by simp only [ackStatus]; split <;> split <;> simp
@[simp] theorem ackStatus_shiftIn (v : Byte) (s : State) :
    (ackStatus v s).shiftIn = s.shiftIn := by simp only [ackStatus]; split <;> split <;> simp
@[simp] theorem ackStatus_bitCnt (v : Byte) (s : State) :
    (ackStatus v s).bitCnt = s.bitCnt := by simp only [ackStatus]; split <;> split <;> simp
@[simp] theorem ackStatus_retry (v : Byte) (s : State) :
    (ackStatus v s).retry = s.retry := by simp only [ackStatus]; split <;> split <;> simp
@[simp] theorem ackStatus_probe (v : Byte) (s : State) :
    (ackStatus v s).probe = s.probe := by simp only [ackStatus]; split <;> split <;> simp
@[simp] theorem ackStatus_bIn (v : Byte) (s : State) :
    (ackStatus v s).bIn = s.bIn := by simp only [ackStatus]; split <;> split <;> simp
@[simp] theorem ackStatus_waitStart (v : Byte) (s : State) :
    (ackStatus v s).waitStart = s.waitStart := by simp only [ackStatus]; split <;> split <;> simp
@[simp] theorem ackStatus_reqBuf (v : Byte) (s : State) :
    (ackStatus v s).reqBuf = s.reqBuf := by simp only [ackStatus]; split <;> split <;> simp
@[simp] theorem ackStatus_reqValid (v : Byte) (s : State) :
    (ackStatus v s).reqValid = s.reqValid := by simp only [ackStatus]; split <;> split <;> simp
@[simp] theorem ackStatus_result (v : Byte) (s : State) :
    (ackStatus v s).result = s.result := by simp only [ackStatus]; split <;> split <;> simp
@[simp] theorem ackStatus_countdown (v : Byte) (s : State) :
    (ackStatus v s).countdown = s.countdown := by simp only [ackStatus]; split <;> split <;> simp
@[simp] theorem ackStatus_freeCount (v : Byte) (s : State) :
    (ackStatus v s).freeCount = s.freeCount := by simp only [ackStatus]; split <;> split <;> simp
@[simp] theorem ackStatus_target (v : Byte) (s : State) :
    (ackStatus v s).target = s.target := by simp only [ackStatus]; split <;> split <;> simp
@[simp] theorem ackStatus_pinTrace (v : Byte) (s : State) :
    (ackStatus v s).pinTrace = s.pinTrace := by simp only [ackStatus]; split <;> split <;> simp
@[simp] theorem ackStatus_mem (v : Byte) (s : State) :
    (ackStatus v s).mem = s.mem := by simp only [ackStatus]; split <;> split <;> simp
@[simp] theorem ackStatus_intEnable (v : Byte) (s : State) :
    (ackStatus v s).intEnable = s.intEnable := by simp only [ackStatus]; split <;> split <;> simp
@[simp] theorem ackStatus_devAddr (v : Byte) (s : State) :
    (ackStatus v s).devAddr = s.devAddr := by simp only [ackStatus]; split <;> split <;> simp
@[simp] theorem ackStatus_epCtl (v : Byte) (s : State) :
    (ackStatus v s).epCtl = s.epCtl := by simp only [ackStatus]; split <;> split <;> simp
@[simp] theorem ackStatus_ctsSeq (v : Byte) (s : State) :
    (ackStatus v s).ctsSeq = s.ctsSeq := by simp only [ackStatus]; split <;> split <;> simp
@[simp] theorem ackStatus_setup (v : Byte) (s : State) :
    (ackStatus v s).setup = s.setup := by simp only [ackStatus]; split <;> split <;> simp
@[simp] theorem ackStatus_ctlState (v : Byte) (s : State) :
    (ackStatus v s).ctlState = s.ctlState := by simp only [ackStatus]; split <;> split <;> simp
@[simp] theorem ackStatus_toggle (v : Byte) (s : State) :
    (ackStatus v s).toggle = s.toggle := by simp only [ackStatus]; split <;> split <;> simp
@[simp] theorem ackStatus_parity (v : Byte) (s : State) :
    (ackStatus v s).parity = s.parity := by simp only [ackStatus]; split <;> split <;> simp
@[simp] theorem ackStatus_cursorValid (v : Byte) (s : State) :
    (ackStatus v s).cursorValid = s.cursorValid := by simp only [ackStatus]; split <;> split <;> simp
@[simp] theorem ackStatus_cursorPtr (v : Byte) (s : State) :
    (ackStatus v s).cursorPtr = s.cursorPtr := by simp only [ackStatus]; split <;> split <;> simp
@[simp] theorem ackStatus_cursorRemaining (v : Byte) (s : State) :
    (ackStatus v s).cursorRemaining = s.cursorRemaining := by simp only [ackStatus]; split <;> split <;> simp
@[simp] theorem ackStatus_zlpPending (v : Byte) (s : State) :
    (ackStatus v s).zlpPending = s.zlpPending := by simp only [ackStatus]; split <;> split <;> simp
@[simp] theorem ackStatus_addrPending (v : Byte) (s : State) :
    (ackStatus v s).addrPending = s.addrPending := by simp only [ackStatus]; split <;> split <;> simp
@[simp] theorem ackStatus_addrValue (v : Byte) (s : State) :
    (ackStatus v s).addrValue = s.addrValue := by simp only [ackStatus]; split <;> split <;> simp
@[simp] theorem ackStatus_faults (v : Byte) (s : State) :
    (ackStatus v s).faults = s.faults := by simp only [ackStatus]; split <;> split <;> simp
@[simp] theorem ackStatus_vendorAnswers (v : Byte) (s : State) :
    (ackStatus v s).vendorAnswers = s.vendorAnswers := by simp only [ackStatus]; split <;> split <;> simp
@[simp] theorem ackStatus_busTrace (v : Byte) (s : State) :
    (ackStatus v s).busTrace = s.busTrace := by simp only [ackStatus]; split <;> split <;> simp

/-! ## conditionDone -/

@[simp] theorem conditionDone_cfg (v : Byte) (s : State) :
    (conditionDone v s).cfg = s.cfg := by unfold conditionDone; repeat (split <;> try rfl)
@[simp] theorem conditionDone_script (v : Byte) (s : State) :
    (conditionDone v s).script = s.script := by unfold conditionDone; repeat (split <;> try rfl)
@[simp] theorem conditionDone_bootBteDone (v : Byte) (s : State) :
    (conditionDone v s).bootBteDone = s.bootBteDone := by unfold conditionDone; repeat (split <;> try rfl)
@[simp] theorem conditionDone_bootIntDone (v : Byte) (s : State) :
    (conditionDone v s).bootIntDone = s.bootIntDone := by unfold conditionDone; repeat (split <;> try rfl)
@[simp] theorem conditionDone_bteSeq (v : Byte) (s : State) :
    (conditionDone v s).bteSeq = s.bteSeq := by unfold conditionDone; repeat (split <;> try rfl)
@[simp] theorem conditionDone_dclk (v : Byte) (s : State) :
    (conditionDone v s).dclk = s.dclk := by unfold conditionDone; repeat (split <;> try rfl)
@[simp] theorem conditionDone_dout (v : Byte) (s : State) :
    (conditionDone v s).dout = s.dout := by unfold conditionDone; repeat (split <;> try rfl)
@[simp] theorem conditionDone_din (v : Byte) (s : State) :
    (conditionDone v s).din = s.din := by unfold conditionDone; repeat (split <;> try rfl)
@[simp] theorem conditionDone_bkpt (v : Byte) (s : State) :
    (conditionDone v s).bkpt = s.bkpt := by unfold conditionDone; repeat (split <;> try rfl)
@[simp] theorem conditionDone_rst (v : Byte) (s : State) :
    (conditionDone v s).rst = s.rst := by unfold conditionDone; repeat (split <;> try rfl)
@[simp] theorem conditionDone_bteCfg (v : Byte) (s : State) :
    (conditionDone v s).bteCfg = s.bteCfg := by unfold conditionDone; repeat (split <;> try rfl)
@[simp] theorem conditionDone_resetDetected (v : Byte) (s : State) :
    (conditionDone v s).resetDetected = s.resetDetected := by unfold conditionDone; repeat (split <;> try rfl)
@[simp] theorem conditionDone_shiftOut (v : Byte) (s : State) :
    (conditionDone v s).shiftOut = s.shiftOut := by unfold conditionDone; repeat (split <;> try rfl)
@[simp] theorem conditionDone_shiftIn (v : Byte) (s : State) :
    (conditionDone v s).shiftIn = s.shiftIn := by unfold conditionDone; repeat (split <;> try rfl)
@[simp] theorem conditionDone_bitCnt (v : Byte) (s : State) :
    (conditionDone v s).bitCnt = s.bitCnt := by unfold conditionDone; repeat (split <;> try rfl)
@[simp] theorem conditionDone_retry (v : Byte) (s : State) :
    (conditionDone v s).retry = s.retry := by unfold conditionDone; repeat (split <;> try rfl)
@[simp] theorem conditionDone_probe (v : Byte) (s : State) :
    (conditionDone v s).probe = s.probe := by unfold conditionDone; repeat (split <;> try rfl)
@[simp] theorem conditionDone_bIn (v : Byte) (s : State) :
    (conditionDone v s).bIn = s.bIn := by unfold conditionDone; repeat (split <;> try rfl)
@[simp] theorem conditionDone_waitStart (v : Byte) (s : State) :
    (conditionDone v s).waitStart = s.waitStart := by unfold conditionDone; repeat (split <;> try rfl)
@[simp] theorem conditionDone_reqBuf (v : Byte) (s : State) :
    (conditionDone v s).reqBuf = s.reqBuf := by unfold conditionDone; repeat (split <;> try rfl)
@[simp] theorem conditionDone_reqValid (v : Byte) (s : State) :
    (conditionDone v s).reqValid = s.reqValid := by unfold conditionDone; repeat (split <;> try rfl)
@[simp] theorem conditionDone_result (v : Byte) (s : State) :
    (conditionDone v s).result = s.result := by unfold conditionDone; repeat (split <;> try rfl)
@[simp] theorem conditionDone_countdown (v : Byte) (s : State) :
    (conditionDone v s).countdown = s.countdown := by unfold conditionDone; repeat (split <;> try rfl)
@[simp] theorem conditionDone_freeCount (v : Byte) (s : State) :
    (conditionDone v s).freeCount = s.freeCount := by unfold conditionDone; repeat (split <;> try rfl)
@[simp] theorem conditionDone_target (v : Byte) (s : State) :
    (conditionDone v s).target = s.target := by unfold conditionDone; repeat (split <;> try rfl)
@[simp] theorem conditionDone_pinTrace (v : Byte) (s : State) :
    (conditionDone v s).pinTrace = s.pinTrace := by unfold conditionDone; repeat (split <;> try rfl)
@[simp] theorem conditionDone_mem (v : Byte) (s : State) :
    (conditionDone v s).mem = s.mem := by unfold conditionDone; repeat (split <;> try rfl)
@[simp] theorem conditionDone_intStatus (v : Byte) (s : State) :
    (conditionDone v s).intStatus = s.intStatus := by unfold conditionDone; repeat (split <;> try rfl)
@[simp] theorem conditionDone_intEnable (v : Byte) (s : State) :
    (conditionDone v s).intEnable = s.intEnable := by unfold conditionDone; repeat (split <;> try rfl)
@[simp] theorem conditionDone_tokStatus (v : Byte) (s : State) :
    (conditionDone v s).tokStatus = s.tokStatus := by unfold conditionDone; repeat (split <;> try rfl)
@[simp] theorem conditionDone_devAddr (v : Byte) (s : State) :
    (conditionDone v s).devAddr = s.devAddr := by unfold conditionDone; repeat (split <;> try rfl)
@[simp] theorem conditionDone_epCtl (v : Byte) (s : State) :
    (conditionDone v s).epCtl = s.epCtl := by unfold conditionDone; repeat (split <;> try rfl)
@[simp] theorem conditionDone_setup (v : Byte) (s : State) :
    (conditionDone v s).setup = s.setup := by unfold conditionDone; repeat (split <;> try rfl)
@[simp] theorem conditionDone_ctlState (v : Byte) (s : State) :
    (conditionDone v s).ctlState = s.ctlState := by unfold conditionDone; repeat (split <;> try rfl)
@[simp] theorem conditionDone_toggle (v : Byte) (s : State) :
    (conditionDone v s).toggle = s.toggle := by unfold conditionDone; repeat (split <;> try rfl)
@[simp] theorem conditionDone_parity (v : Byte) (s : State) :
    (conditionDone v s).parity = s.parity := by unfold conditionDone; repeat (split <;> try rfl)
@[simp] theorem conditionDone_cursorValid (v : Byte) (s : State) :
    (conditionDone v s).cursorValid = s.cursorValid := by unfold conditionDone; repeat (split <;> try rfl)
@[simp] theorem conditionDone_cursorPtr (v : Byte) (s : State) :
    (conditionDone v s).cursorPtr = s.cursorPtr := by unfold conditionDone; repeat (split <;> try rfl)
@[simp] theorem conditionDone_cursorRemaining (v : Byte) (s : State) :
    (conditionDone v s).cursorRemaining = s.cursorRemaining := by unfold conditionDone; repeat (split <;> try rfl)
@[simp] theorem conditionDone_zlpPending (v : Byte) (s : State) :
    (conditionDone v s).zlpPending = s.zlpPending := by unfold conditionDone; repeat (split <;> try rfl)
@[simp] theorem conditionDone_addrPending (v : Byte) (s : State) :
    (conditionDone v s).addrPending = s.addrPending := by unfold conditionDone; repeat (split <;> try rfl)
@[simp] theorem conditionDone_addrValue (v : Byte) (s : State) :
    (conditionDone v s).addrValue = s.addrValue := by unfold conditionDone; repeat (split <;> try rfl)
@[simp] theorem conditionDone_faults (v : Byte) (s : State) :
    (conditionDone v s).faults = s.faults := by unfold conditionDone; repeat (split <;> try rfl)
@[simp] theorem conditionDone_vendorAnswers (v : Byte) (s : State) :
    (conditionDone v s).vendorAnswers = s.vendorAnswers := by unfold conditionDone; repeat (split <;> try rfl)
@[simp] theorem conditionDone_usbTrace (v : Byte) (s : State) :
    (conditionDone v s).usbTrace = s.usbTrace := by unfold conditionDone; repeat (split <;> try rfl)
@[simp] theorem conditionDone_sieParity (v : Byte) (s : State) :
    (conditionDone v s).sieParity = s.sieParity := by unfold conditionDone; repeat (split <;> try rfl)
@[simp] theorem conditionDone_queue (v : Byte) (s : State) :
    (conditionDone v s).queue = s.queue := by unfold conditionDone; repeat (split <;> try rfl)
@[simp] theorem conditionDone_sieFrozen (v : Byte) (s : State) :
    (conditionDone v s).sieFrozen = s.sieFrozen := by unfold conditionDone; repeat (split <;> try rfl)
@[simp] theorem conditionDone_busTrace (v : Byte) (s : State) :
    (conditionDone v s).busTrace = s.busTrace := by unfold conditionDone; repeat (split <;> try rfl)

/-! ## callPhase -/

@[simp] theorem callPhase_cfg (ph : CtsPhase) (s : State) :
    (callPhase ph s).cfg = s.cfg := by unfold callPhase; split <;> rfl
@[simp] theorem callPhase_script (ph : CtsPhase) (s : State) :
    (callPhase ph s).script = s.script := by unfold callPhase; split <;> rfl
@[simp] theorem callPhase_bootBteDone (ph : CtsPhase) (s : State) :
    (callPhase ph s).bootBteDone = s.bootBteDone := by unfold callPhase; split <;> rfl
@[simp] theorem callPhase_bootIntDone (ph : CtsPhase) (s : State) :
    (callPhase ph s).bootIntDone = s.bootIntDone := by unfold callPhase; split <;> rfl
@[simp] theorem callPhase_bteSeq (ph : CtsPhase) (s : State) :
    (callPhase ph s).bteSeq = s.bteSeq := by unfold callPhase; split <;> rfl
@[simp] theorem callPhase_dclk (ph : CtsPhase) (s : State) :
    (callPhase ph s).dclk = s.dclk := by unfold callPhase; split <;> rfl
@[simp] theorem callPhase_dout (ph : CtsPhase) (s : State) :
    (callPhase ph s).dout = s.dout := by unfold callPhase; split <;> rfl
@[simp] theorem callPhase_din (ph : CtsPhase) (s : State) :
    (callPhase ph s).din = s.din := by unfold callPhase; split <;> rfl
@[simp] theorem callPhase_bkpt (ph : CtsPhase) (s : State) :
    (callPhase ph s).bkpt = s.bkpt := by unfold callPhase; split <;> rfl
@[simp] theorem callPhase_rst (ph : CtsPhase) (s : State) :
    (callPhase ph s).rst = s.rst := by unfold callPhase; split <;> rfl
@[simp] theorem callPhase_bteCfg (ph : CtsPhase) (s : State) :
    (callPhase ph s).bteCfg = s.bteCfg := by unfold callPhase; split <;> rfl
@[simp] theorem callPhase_resetDetected (ph : CtsPhase) (s : State) :
    (callPhase ph s).resetDetected = s.resetDetected := by unfold callPhase; split <;> rfl
@[simp] theorem callPhase_shiftOut (ph : CtsPhase) (s : State) :
    (callPhase ph s).shiftOut = s.shiftOut := by unfold callPhase; split <;> rfl
@[simp] theorem callPhase_shiftIn (ph : CtsPhase) (s : State) :
    (callPhase ph s).shiftIn = s.shiftIn := by unfold callPhase; split <;> rfl
@[simp] theorem callPhase_bitCnt (ph : CtsPhase) (s : State) :
    (callPhase ph s).bitCnt = s.bitCnt := by unfold callPhase; split <;> rfl
@[simp] theorem callPhase_retry (ph : CtsPhase) (s : State) :
    (callPhase ph s).retry = s.retry := by unfold callPhase; split <;> rfl
@[simp] theorem callPhase_probe (ph : CtsPhase) (s : State) :
    (callPhase ph s).probe = s.probe := by unfold callPhase; split <;> rfl
@[simp] theorem callPhase_bIn (ph : CtsPhase) (s : State) :
    (callPhase ph s).bIn = s.bIn := by unfold callPhase; split <;> rfl
@[simp] theorem callPhase_waitStart (ph : CtsPhase) (s : State) :
    (callPhase ph s).waitStart = s.waitStart := by unfold callPhase; split <;> rfl
@[simp] theorem callPhase_reqBuf (ph : CtsPhase) (s : State) :
    (callPhase ph s).reqBuf = s.reqBuf := by unfold callPhase; split <;> rfl
@[simp] theorem callPhase_reqValid (ph : CtsPhase) (s : State) :
    (callPhase ph s).reqValid = s.reqValid := by unfold callPhase; split <;> rfl
@[simp] theorem callPhase_result (ph : CtsPhase) (s : State) :
    (callPhase ph s).result = s.result := by unfold callPhase; split <;> rfl
@[simp] theorem callPhase_countdown (ph : CtsPhase) (s : State) :
    (callPhase ph s).countdown = s.countdown := by unfold callPhase; split <;> rfl
@[simp] theorem callPhase_freeCount (ph : CtsPhase) (s : State) :
    (callPhase ph s).freeCount = s.freeCount := by unfold callPhase; split <;> rfl
@[simp] theorem callPhase_target (ph : CtsPhase) (s : State) :
    (callPhase ph s).target = s.target := by unfold callPhase; split <;> rfl
@[simp] theorem callPhase_pinTrace (ph : CtsPhase) (s : State) :
    (callPhase ph s).pinTrace = s.pinTrace := by unfold callPhase; split <;> rfl
@[simp] theorem callPhase_mem (ph : CtsPhase) (s : State) :
    (callPhase ph s).mem = s.mem := by unfold callPhase; split <;> rfl
@[simp] theorem callPhase_intStatus (ph : CtsPhase) (s : State) :
    (callPhase ph s).intStatus = s.intStatus := by unfold callPhase; split <;> rfl
@[simp] theorem callPhase_intEnable (ph : CtsPhase) (s : State) :
    (callPhase ph s).intEnable = s.intEnable := by unfold callPhase; split <;> rfl
@[simp] theorem callPhase_tokStatus (ph : CtsPhase) (s : State) :
    (callPhase ph s).tokStatus = s.tokStatus := by unfold callPhase; split <;> rfl
@[simp] theorem callPhase_devAddr (ph : CtsPhase) (s : State) :
    (callPhase ph s).devAddr = s.devAddr := by unfold callPhase; split <;> rfl
@[simp] theorem callPhase_epCtl (ph : CtsPhase) (s : State) :
    (callPhase ph s).epCtl = s.epCtl := by unfold callPhase; split <;> rfl
@[simp] theorem callPhase_setup (ph : CtsPhase) (s : State) :
    (callPhase ph s).setup = s.setup := by unfold callPhase; split <;> rfl
@[simp] theorem callPhase_ctlState (ph : CtsPhase) (s : State) :
    (callPhase ph s).ctlState = s.ctlState := by unfold callPhase; split <;> rfl
@[simp] theorem callPhase_toggle (ph : CtsPhase) (s : State) :
    (callPhase ph s).toggle = s.toggle := by unfold callPhase; split <;> rfl
@[simp] theorem callPhase_parity (ph : CtsPhase) (s : State) :
    (callPhase ph s).parity = s.parity := by unfold callPhase; split <;> rfl
@[simp] theorem callPhase_cursorValid (ph : CtsPhase) (s : State) :
    (callPhase ph s).cursorValid = s.cursorValid := by unfold callPhase; split <;> rfl
@[simp] theorem callPhase_cursorPtr (ph : CtsPhase) (s : State) :
    (callPhase ph s).cursorPtr = s.cursorPtr := by unfold callPhase; split <;> rfl
@[simp] theorem callPhase_cursorRemaining (ph : CtsPhase) (s : State) :
    (callPhase ph s).cursorRemaining = s.cursorRemaining := by unfold callPhase; split <;> rfl
@[simp] theorem callPhase_zlpPending (ph : CtsPhase) (s : State) :
    (callPhase ph s).zlpPending = s.zlpPending := by unfold callPhase; split <;> rfl
@[simp] theorem callPhase_addrPending (ph : CtsPhase) (s : State) :
    (callPhase ph s).addrPending = s.addrPending := by unfold callPhase; split <;> rfl
@[simp] theorem callPhase_addrValue (ph : CtsPhase) (s : State) :
    (callPhase ph s).addrValue = s.addrValue := by unfold callPhase; split <;> rfl
@[simp] theorem callPhase_faults (ph : CtsPhase) (s : State) :
    (callPhase ph s).faults = s.faults := by unfold callPhase; split <;> rfl
@[simp] theorem callPhase_vendorAnswers (ph : CtsPhase) (s : State) :
    (callPhase ph s).vendorAnswers = s.vendorAnswers := by unfold callPhase; split <;> rfl
@[simp] theorem callPhase_usbTrace (ph : CtsPhase) (s : State) :
    (callPhase ph s).usbTrace = s.usbTrace := by unfold callPhase; split <;> rfl
@[simp] theorem callPhase_sieParity (ph : CtsPhase) (s : State) :
    (callPhase ph s).sieParity = s.sieParity := by unfold callPhase; split <;> rfl
@[simp] theorem callPhase_queue (ph : CtsPhase) (s : State) :
    (callPhase ph s).queue = s.queue := by unfold callPhase; split <;> rfl
@[simp] theorem callPhase_sieFrozen (ph : CtsPhase) (s : State) :
    (callPhase ph s).sieFrozen = s.sieFrozen := by unfold callPhase; split <;> rfl
@[simp] theorem callPhase_busTrace (ph : CtsPhase) (s : State) :
    (callPhase ph s).busTrace = s.busTrace := by unfold callPhase; split <;> rfl

/-! ## writeEp0Ctl -/

@[simp] theorem writeEp0Ctl_cfg (v : Byte) (s : State) : (writeEp0Ctl v s).cfg = s.cfg := rfl
@[simp] theorem writeEp0Ctl_script (v : Byte) (s : State) : (writeEp0Ctl v s).script = s.script := rfl
@[simp] theorem writeEp0Ctl_bootBteDone (v : Byte) (s : State) : (writeEp0Ctl v s).bootBteDone = s.bootBteDone := rfl
@[simp] theorem writeEp0Ctl_bootIntDone (v : Byte) (s : State) : (writeEp0Ctl v s).bootIntDone = s.bootIntDone := rfl
@[simp] theorem writeEp0Ctl_bteSeq (v : Byte) (s : State) : (writeEp0Ctl v s).bteSeq = s.bteSeq := rfl
@[simp] theorem writeEp0Ctl_dclk (v : Byte) (s : State) : (writeEp0Ctl v s).dclk = s.dclk := rfl
@[simp] theorem writeEp0Ctl_dout (v : Byte) (s : State) : (writeEp0Ctl v s).dout = s.dout := rfl
@[simp] theorem writeEp0Ctl_din (v : Byte) (s : State) : (writeEp0Ctl v s).din = s.din := rfl
@[simp] theorem writeEp0Ctl_bkpt (v : Byte) (s : State) : (writeEp0Ctl v s).bkpt = s.bkpt := rfl
@[simp] theorem writeEp0Ctl_rst (v : Byte) (s : State) : (writeEp0Ctl v s).rst = s.rst := rfl
@[simp] theorem writeEp0Ctl_bteCfg (v : Byte) (s : State) : (writeEp0Ctl v s).bteCfg = s.bteCfg := rfl
@[simp] theorem writeEp0Ctl_resetDetected (v : Byte) (s : State) :
    (writeEp0Ctl v s).resetDetected = s.resetDetected := rfl
@[simp] theorem writeEp0Ctl_shiftOut (v : Byte) (s : State) : (writeEp0Ctl v s).shiftOut = s.shiftOut := rfl
@[simp] theorem writeEp0Ctl_shiftIn (v : Byte) (s : State) : (writeEp0Ctl v s).shiftIn = s.shiftIn := rfl
@[simp] theorem writeEp0Ctl_bitCnt (v : Byte) (s : State) : (writeEp0Ctl v s).bitCnt = s.bitCnt := rfl
@[simp] theorem writeEp0Ctl_retry (v : Byte) (s : State) : (writeEp0Ctl v s).retry = s.retry := rfl
@[simp] theorem writeEp0Ctl_probe (v : Byte) (s : State) : (writeEp0Ctl v s).probe = s.probe := rfl
@[simp] theorem writeEp0Ctl_bIn (v : Byte) (s : State) : (writeEp0Ctl v s).bIn = s.bIn := rfl
@[simp] theorem writeEp0Ctl_waitStart (v : Byte) (s : State) : (writeEp0Ctl v s).waitStart = s.waitStart := rfl
@[simp] theorem writeEp0Ctl_reqBuf (v : Byte) (s : State) : (writeEp0Ctl v s).reqBuf = s.reqBuf := rfl
@[simp] theorem writeEp0Ctl_reqValid (v : Byte) (s : State) : (writeEp0Ctl v s).reqValid = s.reqValid := rfl
@[simp] theorem writeEp0Ctl_result (v : Byte) (s : State) : (writeEp0Ctl v s).result = s.result := rfl
@[simp] theorem writeEp0Ctl_countdown (v : Byte) (s : State) : (writeEp0Ctl v s).countdown = s.countdown := rfl
@[simp] theorem writeEp0Ctl_freeCount (v : Byte) (s : State) : (writeEp0Ctl v s).freeCount = s.freeCount := rfl
@[simp] theorem writeEp0Ctl_target (v : Byte) (s : State) : (writeEp0Ctl v s).target = s.target := rfl
@[simp] theorem writeEp0Ctl_pinTrace (v : Byte) (s : State) : (writeEp0Ctl v s).pinTrace = s.pinTrace := rfl
@[simp] theorem writeEp0Ctl_mem (v : Byte) (s : State) : (writeEp0Ctl v s).mem = s.mem := rfl
@[simp] theorem writeEp0Ctl_intStatus (v : Byte) (s : State) : (writeEp0Ctl v s).intStatus = s.intStatus := rfl
@[simp] theorem writeEp0Ctl_intEnable (v : Byte) (s : State) : (writeEp0Ctl v s).intEnable = s.intEnable := rfl
@[simp] theorem writeEp0Ctl_tokStatus (v : Byte) (s : State) : (writeEp0Ctl v s).tokStatus = s.tokStatus := rfl
@[simp] theorem writeEp0Ctl_devAddr (v : Byte) (s : State) : (writeEp0Ctl v s).devAddr = s.devAddr := rfl
@[simp] theorem writeEp0Ctl_ctsSeq (v : Byte) (s : State) : (writeEp0Ctl v s).ctsSeq = s.ctsSeq := rfl
@[simp] theorem writeEp0Ctl_setup (v : Byte) (s : State) : (writeEp0Ctl v s).setup = s.setup := rfl
@[simp] theorem writeEp0Ctl_ctlState (v : Byte) (s : State) : (writeEp0Ctl v s).ctlState = s.ctlState := rfl
@[simp] theorem writeEp0Ctl_toggle (v : Byte) (s : State) : (writeEp0Ctl v s).toggle = s.toggle := rfl
@[simp] theorem writeEp0Ctl_parity (v : Byte) (s : State) : (writeEp0Ctl v s).parity = s.parity := rfl
@[simp] theorem writeEp0Ctl_cursorValid (v : Byte) (s : State) : (writeEp0Ctl v s).cursorValid = s.cursorValid := rfl
@[simp] theorem writeEp0Ctl_cursorPtr (v : Byte) (s : State) : (writeEp0Ctl v s).cursorPtr = s.cursorPtr := rfl
@[simp] theorem writeEp0Ctl_cursorRemaining (v : Byte) (s : State) :
    (writeEp0Ctl v s).cursorRemaining = s.cursorRemaining := rfl
@[simp] theorem writeEp0Ctl_zlpPending (v : Byte) (s : State) : (writeEp0Ctl v s).zlpPending = s.zlpPending := rfl
@[simp] theorem writeEp0Ctl_addrPending (v : Byte) (s : State) : (writeEp0Ctl v s).addrPending = s.addrPending := rfl
@[simp] theorem writeEp0Ctl_addrValue (v : Byte) (s : State) : (writeEp0Ctl v s).addrValue = s.addrValue := rfl
@[simp] theorem writeEp0Ctl_faults (v : Byte) (s : State) : (writeEp0Ctl v s).faults = s.faults := rfl
@[simp] theorem writeEp0Ctl_vendorAnswers (v : Byte) (s : State) :
    (writeEp0Ctl v s).vendorAnswers = s.vendorAnswers := rfl
@[simp] theorem writeEp0Ctl_sieParity (v : Byte) (s : State) : (writeEp0Ctl v s).sieParity = s.sieParity := rfl
@[simp] theorem writeEp0Ctl_queue (v : Byte) (s : State) : (writeEp0Ctl v s).queue = s.queue := rfl
@[simp] theorem writeEp0Ctl_sieFrozen (v : Byte) (s : State) : (writeEp0Ctl v s).sieFrozen = s.sieFrozen := rfl
@[simp] theorem writeEp0Ctl_busTrace (v : Byte) (s : State) : (writeEp0Ctl v s).busTrace = s.busTrace := rfl

/-! ## writeDevAddr -/

@[simp] theorem writeDevAddr_cfg (v : BitVec 7) (s : State) : (writeDevAddr v s).cfg = s.cfg := rfl
@[simp] theorem writeDevAddr_script (v : BitVec 7) (s : State) : (writeDevAddr v s).script = s.script := rfl
@[simp] theorem writeDevAddr_bootBteDone (v : BitVec 7) (s : State) :
    (writeDevAddr v s).bootBteDone = s.bootBteDone := rfl
@[simp] theorem writeDevAddr_bootIntDone (v : BitVec 7) (s : State) :
    (writeDevAddr v s).bootIntDone = s.bootIntDone := rfl
@[simp] theorem writeDevAddr_bteSeq (v : BitVec 7) (s : State) : (writeDevAddr v s).bteSeq = s.bteSeq := rfl
@[simp] theorem writeDevAddr_dclk (v : BitVec 7) (s : State) : (writeDevAddr v s).dclk = s.dclk := rfl
@[simp] theorem writeDevAddr_dout (v : BitVec 7) (s : State) : (writeDevAddr v s).dout = s.dout := rfl
@[simp] theorem writeDevAddr_din (v : BitVec 7) (s : State) : (writeDevAddr v s).din = s.din := rfl
@[simp] theorem writeDevAddr_bkpt (v : BitVec 7) (s : State) : (writeDevAddr v s).bkpt = s.bkpt := rfl
@[simp] theorem writeDevAddr_rst (v : BitVec 7) (s : State) : (writeDevAddr v s).rst = s.rst := rfl
@[simp] theorem writeDevAddr_bteCfg (v : BitVec 7) (s : State) : (writeDevAddr v s).bteCfg = s.bteCfg := rfl
@[simp] theorem writeDevAddr_resetDetected (v : BitVec 7) (s : State) :
    (writeDevAddr v s).resetDetected = s.resetDetected := rfl
@[simp] theorem writeDevAddr_shiftOut (v : BitVec 7) (s : State) : (writeDevAddr v s).shiftOut = s.shiftOut := rfl
@[simp] theorem writeDevAddr_shiftIn (v : BitVec 7) (s : State) : (writeDevAddr v s).shiftIn = s.shiftIn := rfl
@[simp] theorem writeDevAddr_bitCnt (v : BitVec 7) (s : State) : (writeDevAddr v s).bitCnt = s.bitCnt := rfl
@[simp] theorem writeDevAddr_retry (v : BitVec 7) (s : State) : (writeDevAddr v s).retry = s.retry := rfl
@[simp] theorem writeDevAddr_probe (v : BitVec 7) (s : State) : (writeDevAddr v s).probe = s.probe := rfl
@[simp] theorem writeDevAddr_bIn (v : BitVec 7) (s : State) : (writeDevAddr v s).bIn = s.bIn := rfl
@[simp] theorem writeDevAddr_waitStart (v : BitVec 7) (s : State) : (writeDevAddr v s).waitStart = s.waitStart := rfl
@[simp] theorem writeDevAddr_reqBuf (v : BitVec 7) (s : State) : (writeDevAddr v s).reqBuf = s.reqBuf := rfl
@[simp] theorem writeDevAddr_reqValid (v : BitVec 7) (s : State) : (writeDevAddr v s).reqValid = s.reqValid := rfl
@[simp] theorem writeDevAddr_result (v : BitVec 7) (s : State) : (writeDevAddr v s).result = s.result := rfl
@[simp] theorem writeDevAddr_countdown (v : BitVec 7) (s : State) : (writeDevAddr v s).countdown = s.countdown := rfl
@[simp] theorem writeDevAddr_freeCount (v : BitVec 7) (s : State) : (writeDevAddr v s).freeCount = s.freeCount := rfl
@[simp] theorem writeDevAddr_target (v : BitVec 7) (s : State) : (writeDevAddr v s).target = s.target := rfl
@[simp] theorem writeDevAddr_pinTrace (v : BitVec 7) (s : State) : (writeDevAddr v s).pinTrace = s.pinTrace := rfl
@[simp] theorem writeDevAddr_mem (v : BitVec 7) (s : State) : (writeDevAddr v s).mem = s.mem := rfl
@[simp] theorem writeDevAddr_intStatus (v : BitVec 7) (s : State) : (writeDevAddr v s).intStatus = s.intStatus := rfl
@[simp] theorem writeDevAddr_intEnable (v : BitVec 7) (s : State) : (writeDevAddr v s).intEnable = s.intEnable := rfl
@[simp] theorem writeDevAddr_tokStatus (v : BitVec 7) (s : State) : (writeDevAddr v s).tokStatus = s.tokStatus := rfl
@[simp] theorem writeDevAddr_epCtl (v : BitVec 7) (s : State) : (writeDevAddr v s).epCtl = s.epCtl := rfl
@[simp] theorem writeDevAddr_ctsSeq (v : BitVec 7) (s : State) : (writeDevAddr v s).ctsSeq = s.ctsSeq := rfl
@[simp] theorem writeDevAddr_setup (v : BitVec 7) (s : State) : (writeDevAddr v s).setup = s.setup := rfl
@[simp] theorem writeDevAddr_ctlState (v : BitVec 7) (s : State) : (writeDevAddr v s).ctlState = s.ctlState := rfl
@[simp] theorem writeDevAddr_toggle (v : BitVec 7) (s : State) : (writeDevAddr v s).toggle = s.toggle := rfl
@[simp] theorem writeDevAddr_parity (v : BitVec 7) (s : State) : (writeDevAddr v s).parity = s.parity := rfl
@[simp] theorem writeDevAddr_cursorValid (v : BitVec 7) (s : State) :
    (writeDevAddr v s).cursorValid = s.cursorValid := rfl
@[simp] theorem writeDevAddr_cursorPtr (v : BitVec 7) (s : State) : (writeDevAddr v s).cursorPtr = s.cursorPtr := rfl
@[simp] theorem writeDevAddr_cursorRemaining (v : BitVec 7) (s : State) :
    (writeDevAddr v s).cursorRemaining = s.cursorRemaining := rfl
@[simp] theorem writeDevAddr_zlpPending (v : BitVec 7) (s : State) :
    (writeDevAddr v s).zlpPending = s.zlpPending := rfl
@[simp] theorem writeDevAddr_addrPending (v : BitVec 7) (s : State) :
    (writeDevAddr v s).addrPending = s.addrPending := rfl
@[simp] theorem writeDevAddr_addrValue (v : BitVec 7) (s : State) : (writeDevAddr v s).addrValue = s.addrValue := rfl
@[simp] theorem writeDevAddr_faults (v : BitVec 7) (s : State) : (writeDevAddr v s).faults = s.faults := rfl
@[simp] theorem writeDevAddr_vendorAnswers (v : BitVec 7) (s : State) :
    (writeDevAddr v s).vendorAnswers = s.vendorAnswers := rfl
@[simp] theorem writeDevAddr_sieParity (v : BitVec 7) (s : State) : (writeDevAddr v s).sieParity = s.sieParity := rfl
@[simp] theorem writeDevAddr_queue (v : BitVec 7) (s : State) : (writeDevAddr v s).queue = s.queue := rfl
@[simp] theorem writeDevAddr_sieFrozen (v : BitVec 7) (s : State) : (writeDevAddr v s).sieFrozen = s.sieFrozen := rfl
@[simp] theorem writeDevAddr_busTrace (v : BitVec 7) (s : State) : (writeDevAddr v s).busTrace = s.busTrace := rfl

/-! ## writeIntEnable -/

@[simp] theorem writeIntEnable_cfg (v : Byte) (s : State) : (writeIntEnable v s).cfg = s.cfg := rfl
@[simp] theorem writeIntEnable_script (v : Byte) (s : State) : (writeIntEnable v s).script = s.script := rfl
@[simp] theorem writeIntEnable_bootBteDone (v : Byte) (s : State) :
    (writeIntEnable v s).bootBteDone = s.bootBteDone := rfl
@[simp] theorem writeIntEnable_bootIntDone (v : Byte) (s : State) :
    (writeIntEnable v s).bootIntDone = s.bootIntDone := rfl
@[simp] theorem writeIntEnable_bteSeq (v : Byte) (s : State) : (writeIntEnable v s).bteSeq = s.bteSeq := rfl
@[simp] theorem writeIntEnable_dclk (v : Byte) (s : State) : (writeIntEnable v s).dclk = s.dclk := rfl
@[simp] theorem writeIntEnable_dout (v : Byte) (s : State) : (writeIntEnable v s).dout = s.dout := rfl
@[simp] theorem writeIntEnable_din (v : Byte) (s : State) : (writeIntEnable v s).din = s.din := rfl
@[simp] theorem writeIntEnable_bkpt (v : Byte) (s : State) : (writeIntEnable v s).bkpt = s.bkpt := rfl
@[simp] theorem writeIntEnable_rst (v : Byte) (s : State) : (writeIntEnable v s).rst = s.rst := rfl
@[simp] theorem writeIntEnable_bteCfg (v : Byte) (s : State) : (writeIntEnable v s).bteCfg = s.bteCfg := rfl
@[simp] theorem writeIntEnable_resetDetected (v : Byte) (s : State) :
    (writeIntEnable v s).resetDetected = s.resetDetected := rfl
@[simp] theorem writeIntEnable_shiftOut (v : Byte) (s : State) : (writeIntEnable v s).shiftOut = s.shiftOut := rfl
@[simp] theorem writeIntEnable_shiftIn (v : Byte) (s : State) : (writeIntEnable v s).shiftIn = s.shiftIn := rfl
@[simp] theorem writeIntEnable_bitCnt (v : Byte) (s : State) : (writeIntEnable v s).bitCnt = s.bitCnt := rfl
@[simp] theorem writeIntEnable_retry (v : Byte) (s : State) : (writeIntEnable v s).retry = s.retry := rfl
@[simp] theorem writeIntEnable_probe (v : Byte) (s : State) : (writeIntEnable v s).probe = s.probe := rfl
@[simp] theorem writeIntEnable_bIn (v : Byte) (s : State) : (writeIntEnable v s).bIn = s.bIn := rfl
@[simp] theorem writeIntEnable_waitStart (v : Byte) (s : State) : (writeIntEnable v s).waitStart = s.waitStart := rfl
@[simp] theorem writeIntEnable_reqBuf (v : Byte) (s : State) : (writeIntEnable v s).reqBuf = s.reqBuf := rfl
@[simp] theorem writeIntEnable_reqValid (v : Byte) (s : State) : (writeIntEnable v s).reqValid = s.reqValid := rfl
@[simp] theorem writeIntEnable_result (v : Byte) (s : State) : (writeIntEnable v s).result = s.result := rfl
@[simp] theorem writeIntEnable_countdown (v : Byte) (s : State) : (writeIntEnable v s).countdown = s.countdown := rfl
@[simp] theorem writeIntEnable_freeCount (v : Byte) (s : State) : (writeIntEnable v s).freeCount = s.freeCount := rfl
@[simp] theorem writeIntEnable_target (v : Byte) (s : State) : (writeIntEnable v s).target = s.target := rfl
@[simp] theorem writeIntEnable_pinTrace (v : Byte) (s : State) : (writeIntEnable v s).pinTrace = s.pinTrace := rfl
@[simp] theorem writeIntEnable_mem (v : Byte) (s : State) : (writeIntEnable v s).mem = s.mem := rfl
@[simp] theorem writeIntEnable_intStatus (v : Byte) (s : State) : (writeIntEnable v s).intStatus = s.intStatus := rfl
@[simp] theorem writeIntEnable_tokStatus (v : Byte) (s : State) : (writeIntEnable v s).tokStatus = s.tokStatus := rfl
@[simp] theorem writeIntEnable_devAddr (v : Byte) (s : State) : (writeIntEnable v s).devAddr = s.devAddr := rfl
@[simp] theorem writeIntEnable_epCtl (v : Byte) (s : State) : (writeIntEnable v s).epCtl = s.epCtl := rfl
@[simp] theorem writeIntEnable_ctsSeq (v : Byte) (s : State) : (writeIntEnable v s).ctsSeq = s.ctsSeq := rfl
@[simp] theorem writeIntEnable_setup (v : Byte) (s : State) : (writeIntEnable v s).setup = s.setup := rfl
@[simp] theorem writeIntEnable_ctlState (v : Byte) (s : State) : (writeIntEnable v s).ctlState = s.ctlState := rfl
@[simp] theorem writeIntEnable_toggle (v : Byte) (s : State) : (writeIntEnable v s).toggle = s.toggle := rfl
@[simp] theorem writeIntEnable_parity (v : Byte) (s : State) : (writeIntEnable v s).parity = s.parity := rfl
@[simp] theorem writeIntEnable_cursorValid (v : Byte) (s : State) :
    (writeIntEnable v s).cursorValid = s.cursorValid := rfl
@[simp] theorem writeIntEnable_cursorPtr (v : Byte) (s : State) : (writeIntEnable v s).cursorPtr = s.cursorPtr := rfl
@[simp] theorem writeIntEnable_cursorRemaining (v : Byte) (s : State) :
    (writeIntEnable v s).cursorRemaining = s.cursorRemaining := rfl
@[simp] theorem writeIntEnable_zlpPending (v : Byte) (s : State) :
    (writeIntEnable v s).zlpPending = s.zlpPending := rfl
@[simp] theorem writeIntEnable_addrPending (v : Byte) (s : State) :
    (writeIntEnable v s).addrPending = s.addrPending := rfl
@[simp] theorem writeIntEnable_addrValue (v : Byte) (s : State) : (writeIntEnable v s).addrValue = s.addrValue := rfl
@[simp] theorem writeIntEnable_faults (v : Byte) (s : State) : (writeIntEnable v s).faults = s.faults := rfl
@[simp] theorem writeIntEnable_vendorAnswers (v : Byte) (s : State) :
    (writeIntEnable v s).vendorAnswers = s.vendorAnswers := rfl
@[simp] theorem writeIntEnable_sieParity (v : Byte) (s : State) : (writeIntEnable v s).sieParity = s.sieParity := rfl
@[simp] theorem writeIntEnable_queue (v : Byte) (s : State) : (writeIntEnable v s).queue = s.queue := rfl
@[simp] theorem writeIntEnable_sieFrozen (v : Byte) (s : State) : (writeIntEnable v s).sieFrozen = s.sieFrozen := rfl
@[simp] theorem writeIntEnable_busTrace (v : Byte) (s : State) : (writeIntEnable v s).busTrace = s.busTrace := rfl

/-! ## updateCursorValid -/

@[simp] theorem updateCursorValid_cfg (s : State) : (updateCursorValid s).cfg = s.cfg := rfl
@[simp] theorem updateCursorValid_script (s : State) : (updateCursorValid s).script = s.script := rfl
@[simp] theorem updateCursorValid_bootBteDone (s : State) : (updateCursorValid s).bootBteDone = s.bootBteDone := rfl
@[simp] theorem updateCursorValid_bootIntDone (s : State) : (updateCursorValid s).bootIntDone = s.bootIntDone := rfl
@[simp] theorem updateCursorValid_bteSeq (s : State) : (updateCursorValid s).bteSeq = s.bteSeq := rfl
@[simp] theorem updateCursorValid_dclk (s : State) : (updateCursorValid s).dclk = s.dclk := rfl
@[simp] theorem updateCursorValid_dout (s : State) : (updateCursorValid s).dout = s.dout := rfl
@[simp] theorem updateCursorValid_din (s : State) : (updateCursorValid s).din = s.din := rfl
@[simp] theorem updateCursorValid_bkpt (s : State) : (updateCursorValid s).bkpt = s.bkpt := rfl
@[simp] theorem updateCursorValid_rst (s : State) : (updateCursorValid s).rst = s.rst := rfl
@[simp] theorem updateCursorValid_bteCfg (s : State) : (updateCursorValid s).bteCfg = s.bteCfg := rfl
@[simp] theorem updateCursorValid_resetDetected (s : State) :
    (updateCursorValid s).resetDetected = s.resetDetected := rfl
@[simp] theorem updateCursorValid_shiftOut (s : State) : (updateCursorValid s).shiftOut = s.shiftOut := rfl
@[simp] theorem updateCursorValid_shiftIn (s : State) : (updateCursorValid s).shiftIn = s.shiftIn := rfl
@[simp] theorem updateCursorValid_bitCnt (s : State) : (updateCursorValid s).bitCnt = s.bitCnt := rfl
@[simp] theorem updateCursorValid_retry (s : State) : (updateCursorValid s).retry = s.retry := rfl
@[simp] theorem updateCursorValid_probe (s : State) : (updateCursorValid s).probe = s.probe := rfl
@[simp] theorem updateCursorValid_bIn (s : State) : (updateCursorValid s).bIn = s.bIn := rfl
@[simp] theorem updateCursorValid_waitStart (s : State) : (updateCursorValid s).waitStart = s.waitStart := rfl
@[simp] theorem updateCursorValid_reqBuf (s : State) : (updateCursorValid s).reqBuf = s.reqBuf := rfl
@[simp] theorem updateCursorValid_reqValid (s : State) : (updateCursorValid s).reqValid = s.reqValid := rfl
@[simp] theorem updateCursorValid_result (s : State) : (updateCursorValid s).result = s.result := rfl
@[simp] theorem updateCursorValid_countdown (s : State) : (updateCursorValid s).countdown = s.countdown := rfl
@[simp] theorem updateCursorValid_freeCount (s : State) : (updateCursorValid s).freeCount = s.freeCount := rfl
@[simp] theorem updateCursorValid_target (s : State) : (updateCursorValid s).target = s.target := rfl
@[simp] theorem updateCursorValid_pinTrace (s : State) : (updateCursorValid s).pinTrace = s.pinTrace := rfl
@[simp] theorem updateCursorValid_mem (s : State) : (updateCursorValid s).mem = s.mem := rfl
@[simp] theorem updateCursorValid_intStatus (s : State) : (updateCursorValid s).intStatus = s.intStatus := rfl
@[simp] theorem updateCursorValid_intEnable (s : State) : (updateCursorValid s).intEnable = s.intEnable := rfl
@[simp] theorem updateCursorValid_tokStatus (s : State) : (updateCursorValid s).tokStatus = s.tokStatus := rfl
@[simp] theorem updateCursorValid_devAddr (s : State) : (updateCursorValid s).devAddr = s.devAddr := rfl
@[simp] theorem updateCursorValid_epCtl (s : State) : (updateCursorValid s).epCtl = s.epCtl := rfl
@[simp] theorem updateCursorValid_ctsSeq (s : State) : (updateCursorValid s).ctsSeq = s.ctsSeq := rfl
@[simp] theorem updateCursorValid_setup (s : State) : (updateCursorValid s).setup = s.setup := rfl
@[simp] theorem updateCursorValid_ctlState (s : State) : (updateCursorValid s).ctlState = s.ctlState := rfl
@[simp] theorem updateCursorValid_toggle (s : State) : (updateCursorValid s).toggle = s.toggle := rfl
@[simp] theorem updateCursorValid_parity (s : State) : (updateCursorValid s).parity = s.parity := rfl
@[simp] theorem updateCursorValid_cursorPtr (s : State) : (updateCursorValid s).cursorPtr = s.cursorPtr := rfl
@[simp] theorem updateCursorValid_cursorRemaining (s : State) :
    (updateCursorValid s).cursorRemaining = s.cursorRemaining := rfl
@[simp] theorem updateCursorValid_zlpPending (s : State) : (updateCursorValid s).zlpPending = s.zlpPending := rfl
@[simp] theorem updateCursorValid_addrPending (s : State) : (updateCursorValid s).addrPending = s.addrPending := rfl
@[simp] theorem updateCursorValid_addrValue (s : State) : (updateCursorValid s).addrValue = s.addrValue := rfl
@[simp] theorem updateCursorValid_faults (s : State) : (updateCursorValid s).faults = s.faults := rfl
@[simp] theorem updateCursorValid_vendorAnswers (s : State) :
    (updateCursorValid s).vendorAnswers = s.vendorAnswers := rfl
@[simp] theorem updateCursorValid_usbTrace (s : State) : (updateCursorValid s).usbTrace = s.usbTrace := rfl
@[simp] theorem updateCursorValid_sieParity (s : State) : (updateCursorValid s).sieParity = s.sieParity := rfl
@[simp] theorem updateCursorValid_queue (s : State) : (updateCursorValid s).queue = s.queue := rfl
@[simp] theorem updateCursorValid_sieFrozen (s : State) : (updateCursorValid s).sieFrozen = s.sieFrozen := rfl
@[simp] theorem updateCursorValid_busTrace (s : State) : (updateCursorValid s).busTrace = s.busTrace := rfl

/-! ## timerRuns -/

@[simp] theorem timerRuns_cfg (n : Nat) (s : State) : (timerRuns n s).cfg = s.cfg := rfl
@[simp] theorem timerRuns_script (n : Nat) (s : State) : (timerRuns n s).script = s.script := rfl
@[simp] theorem timerRuns_bootBteDone (n : Nat) (s : State) : (timerRuns n s).bootBteDone = s.bootBteDone := rfl
@[simp] theorem timerRuns_bootIntDone (n : Nat) (s : State) : (timerRuns n s).bootIntDone = s.bootIntDone := rfl
@[simp] theorem timerRuns_bteSeq (n : Nat) (s : State) : (timerRuns n s).bteSeq = s.bteSeq := rfl
@[simp] theorem timerRuns_dclk (n : Nat) (s : State) : (timerRuns n s).dclk = s.dclk := rfl
@[simp] theorem timerRuns_dout (n : Nat) (s : State) : (timerRuns n s).dout = s.dout := rfl
@[simp] theorem timerRuns_din (n : Nat) (s : State) : (timerRuns n s).din = s.din := rfl
@[simp] theorem timerRuns_bkpt (n : Nat) (s : State) : (timerRuns n s).bkpt = s.bkpt := rfl
@[simp] theorem timerRuns_rst (n : Nat) (s : State) : (timerRuns n s).rst = s.rst := rfl
@[simp] theorem timerRuns_bteCfg (n : Nat) (s : State) : (timerRuns n s).bteCfg = s.bteCfg := rfl
@[simp] theorem timerRuns_resetDetected (n : Nat) (s : State) : (timerRuns n s).resetDetected = s.resetDetected := rfl
@[simp] theorem timerRuns_shiftOut (n : Nat) (s : State) : (timerRuns n s).shiftOut = s.shiftOut := rfl
@[simp] theorem timerRuns_shiftIn (n : Nat) (s : State) : (timerRuns n s).shiftIn = s.shiftIn := rfl
@[simp] theorem timerRuns_bitCnt (n : Nat) (s : State) : (timerRuns n s).bitCnt = s.bitCnt := rfl
@[simp] theorem timerRuns_retry (n : Nat) (s : State) : (timerRuns n s).retry = s.retry := rfl
@[simp] theorem timerRuns_probe (n : Nat) (s : State) : (timerRuns n s).probe = s.probe := rfl
@[simp] theorem timerRuns_bIn (n : Nat) (s : State) : (timerRuns n s).bIn = s.bIn := rfl
@[simp] theorem timerRuns_waitStart (n : Nat) (s : State) : (timerRuns n s).waitStart = s.waitStart := rfl
@[simp] theorem timerRuns_reqBuf (n : Nat) (s : State) : (timerRuns n s).reqBuf = s.reqBuf := rfl
@[simp] theorem timerRuns_reqValid (n : Nat) (s : State) : (timerRuns n s).reqValid = s.reqValid := rfl
@[simp] theorem timerRuns_result (n : Nat) (s : State) : (timerRuns n s).result = s.result := rfl
@[simp] theorem timerRuns_target (n : Nat) (s : State) : (timerRuns n s).target = s.target := rfl
@[simp] theorem timerRuns_pinTrace (n : Nat) (s : State) : (timerRuns n s).pinTrace = s.pinTrace := rfl
@[simp] theorem timerRuns_mem (n : Nat) (s : State) : (timerRuns n s).mem = s.mem := rfl
@[simp] theorem timerRuns_intStatus (n : Nat) (s : State) : (timerRuns n s).intStatus = s.intStatus := rfl
@[simp] theorem timerRuns_intEnable (n : Nat) (s : State) : (timerRuns n s).intEnable = s.intEnable := rfl
@[simp] theorem timerRuns_tokStatus (n : Nat) (s : State) : (timerRuns n s).tokStatus = s.tokStatus := rfl
@[simp] theorem timerRuns_devAddr (n : Nat) (s : State) : (timerRuns n s).devAddr = s.devAddr := rfl
@[simp] theorem timerRuns_epCtl (n : Nat) (s : State) : (timerRuns n s).epCtl = s.epCtl := rfl
@[simp] theorem timerRuns_ctsSeq (n : Nat) (s : State) : (timerRuns n s).ctsSeq = s.ctsSeq := rfl
@[simp] theorem timerRuns_setup (n : Nat) (s : State) : (timerRuns n s).setup = s.setup := rfl
@[simp] theorem timerRuns_ctlState (n : Nat) (s : State) : (timerRuns n s).ctlState = s.ctlState := rfl
@[simp] theorem timerRuns_toggle (n : Nat) (s : State) : (timerRuns n s).toggle = s.toggle := rfl
@[simp] theorem timerRuns_parity (n : Nat) (s : State) : (timerRuns n s).parity = s.parity := rfl
@[simp] theorem timerRuns_cursorValid (n : Nat) (s : State) : (timerRuns n s).cursorValid = s.cursorValid := rfl
@[simp] theorem timerRuns_cursorPtr (n : Nat) (s : State) : (timerRuns n s).cursorPtr = s.cursorPtr := rfl
@[simp] theorem timerRuns_cursorRemaining (n : Nat) (s : State) :
    (timerRuns n s).cursorRemaining = s.cursorRemaining := rfl
@[simp] theorem timerRuns_zlpPending (n : Nat) (s : State) : (timerRuns n s).zlpPending = s.zlpPending := rfl
@[simp] theorem timerRuns_addrPending (n : Nat) (s : State) : (timerRuns n s).addrPending = s.addrPending := rfl
@[simp] theorem timerRuns_addrValue (n : Nat) (s : State) : (timerRuns n s).addrValue = s.addrValue := rfl
@[simp] theorem timerRuns_faults (n : Nat) (s : State) : (timerRuns n s).faults = s.faults := rfl
@[simp] theorem timerRuns_vendorAnswers (n : Nat) (s : State) : (timerRuns n s).vendorAnswers = s.vendorAnswers := rfl
@[simp] theorem timerRuns_usbTrace (n : Nat) (s : State) : (timerRuns n s).usbTrace = s.usbTrace := rfl
@[simp] theorem timerRuns_sieParity (n : Nat) (s : State) : (timerRuns n s).sieParity = s.sieParity := rfl
@[simp] theorem timerRuns_queue (n : Nat) (s : State) : (timerRuns n s).queue = s.queue := rfl
@[simp] theorem timerRuns_sieFrozen (n : Nat) (s : State) : (timerRuns n s).sieFrozen = s.sieFrozen := rfl
@[simp] theorem timerRuns_busTrace (n : Nat) (s : State) : (timerRuns n s).busTrace = s.busTrace := rfl

/-! ## afterBoot -/

@[simp] theorem afterBoot_cfg (ev : Event) (s : State) : (afterBoot ev s).cfg = s.cfg := rfl
@[simp] theorem afterBoot_script (ev : Event) (s : State) : (afterBoot ev s).script = s.script := rfl
@[simp] theorem afterBoot_bteSeq (ev : Event) (s : State) : (afterBoot ev s).bteSeq = s.bteSeq := rfl
@[simp] theorem afterBoot_dclk (ev : Event) (s : State) : (afterBoot ev s).dclk = s.dclk := rfl
@[simp] theorem afterBoot_dout (ev : Event) (s : State) : (afterBoot ev s).dout = s.dout := rfl
@[simp] theorem afterBoot_din (ev : Event) (s : State) : (afterBoot ev s).din = s.din := rfl
@[simp] theorem afterBoot_bkpt (ev : Event) (s : State) : (afterBoot ev s).bkpt = s.bkpt := rfl
@[simp] theorem afterBoot_rst (ev : Event) (s : State) : (afterBoot ev s).rst = s.rst := rfl
@[simp] theorem afterBoot_bteCfg (ev : Event) (s : State) : (afterBoot ev s).bteCfg = s.bteCfg := rfl
@[simp] theorem afterBoot_resetDetected (ev : Event) (s : State) :
    (afterBoot ev s).resetDetected = s.resetDetected := rfl
@[simp] theorem afterBoot_shiftOut (ev : Event) (s : State) : (afterBoot ev s).shiftOut = s.shiftOut := rfl
@[simp] theorem afterBoot_shiftIn (ev : Event) (s : State) : (afterBoot ev s).shiftIn = s.shiftIn := rfl
@[simp] theorem afterBoot_bitCnt (ev : Event) (s : State) : (afterBoot ev s).bitCnt = s.bitCnt := rfl
@[simp] theorem afterBoot_retry (ev : Event) (s : State) : (afterBoot ev s).retry = s.retry := rfl
@[simp] theorem afterBoot_probe (ev : Event) (s : State) : (afterBoot ev s).probe = s.probe := rfl
@[simp] theorem afterBoot_bIn (ev : Event) (s : State) : (afterBoot ev s).bIn = s.bIn := rfl
@[simp] theorem afterBoot_waitStart (ev : Event) (s : State) : (afterBoot ev s).waitStart = s.waitStart := rfl
@[simp] theorem afterBoot_reqBuf (ev : Event) (s : State) : (afterBoot ev s).reqBuf = s.reqBuf := rfl
@[simp] theorem afterBoot_reqValid (ev : Event) (s : State) : (afterBoot ev s).reqValid = s.reqValid := rfl
@[simp] theorem afterBoot_result (ev : Event) (s : State) : (afterBoot ev s).result = s.result := rfl
@[simp] theorem afterBoot_countdown (ev : Event) (s : State) : (afterBoot ev s).countdown = s.countdown := rfl
@[simp] theorem afterBoot_freeCount (ev : Event) (s : State) : (afterBoot ev s).freeCount = s.freeCount := rfl
@[simp] theorem afterBoot_target (ev : Event) (s : State) : (afterBoot ev s).target = s.target := rfl
@[simp] theorem afterBoot_pinTrace (ev : Event) (s : State) : (afterBoot ev s).pinTrace = s.pinTrace := rfl
@[simp] theorem afterBoot_mem (ev : Event) (s : State) : (afterBoot ev s).mem = s.mem := rfl
@[simp] theorem afterBoot_intStatus (ev : Event) (s : State) : (afterBoot ev s).intStatus = s.intStatus := rfl
@[simp] theorem afterBoot_intEnable (ev : Event) (s : State) : (afterBoot ev s).intEnable = s.intEnable := rfl
@[simp] theorem afterBoot_tokStatus (ev : Event) (s : State) : (afterBoot ev s).tokStatus = s.tokStatus := rfl
@[simp] theorem afterBoot_devAddr (ev : Event) (s : State) : (afterBoot ev s).devAddr = s.devAddr := rfl
@[simp] theorem afterBoot_epCtl (ev : Event) (s : State) : (afterBoot ev s).epCtl = s.epCtl := rfl
@[simp] theorem afterBoot_ctsSeq (ev : Event) (s : State) : (afterBoot ev s).ctsSeq = s.ctsSeq := rfl
@[simp] theorem afterBoot_setup (ev : Event) (s : State) : (afterBoot ev s).setup = s.setup := rfl
@[simp] theorem afterBoot_ctlState (ev : Event) (s : State) : (afterBoot ev s).ctlState = s.ctlState := rfl
@[simp] theorem afterBoot_toggle (ev : Event) (s : State) : (afterBoot ev s).toggle = s.toggle := rfl
@[simp] theorem afterBoot_parity (ev : Event) (s : State) : (afterBoot ev s).parity = s.parity := rfl
@[simp] theorem afterBoot_cursorValid (ev : Event) (s : State) : (afterBoot ev s).cursorValid = s.cursorValid := rfl
@[simp] theorem afterBoot_cursorPtr (ev : Event) (s : State) : (afterBoot ev s).cursorPtr = s.cursorPtr := rfl
@[simp] theorem afterBoot_cursorRemaining (ev : Event) (s : State) :
    (afterBoot ev s).cursorRemaining = s.cursorRemaining := rfl
@[simp] theorem afterBoot_zlpPending (ev : Event) (s : State) : (afterBoot ev s).zlpPending = s.zlpPending := rfl
@[simp] theorem afterBoot_addrPending (ev : Event) (s : State) : (afterBoot ev s).addrPending = s.addrPending := rfl
@[simp] theorem afterBoot_addrValue (ev : Event) (s : State) : (afterBoot ev s).addrValue = s.addrValue := rfl
@[simp] theorem afterBoot_faults (ev : Event) (s : State) : (afterBoot ev s).faults = s.faults := rfl
@[simp] theorem afterBoot_vendorAnswers (ev : Event) (s : State) :
    (afterBoot ev s).vendorAnswers = s.vendorAnswers := rfl
@[simp] theorem afterBoot_usbTrace (ev : Event) (s : State) : (afterBoot ev s).usbTrace = s.usbTrace := rfl
@[simp] theorem afterBoot_sieParity (ev : Event) (s : State) : (afterBoot ev s).sieParity = s.sieParity := rfl
@[simp] theorem afterBoot_queue (ev : Event) (s : State) : (afterBoot ev s).queue = s.queue := rfl
@[simp] theorem afterBoot_sieFrozen (ev : Event) (s : State) : (afterBoot ev s).sieFrozen = s.sieFrozen := rfl
@[simp] theorem afterBoot_busTrace (ev : Event) (s : State) : (afterBoot ev s).busTrace = s.busTrace := rfl

/-! ## accept -/

@[simp] theorem accept_cfg (op : ReqOp) (s : State) : (accept op s).cfg = s.cfg := rfl
@[simp] theorem accept_script (op : ReqOp) (s : State) : (accept op s).script = s.script := rfl
@[simp] theorem accept_bootBteDone (op : ReqOp) (s : State) : (accept op s).bootBteDone = s.bootBteDone := rfl
@[simp] theorem accept_bootIntDone (op : ReqOp) (s : State) : (accept op s).bootIntDone = s.bootIntDone := rfl
@[simp] theorem accept_dclk (op : ReqOp) (s : State) : (accept op s).dclk = s.dclk := rfl
@[simp] theorem accept_dout (op : ReqOp) (s : State) : (accept op s).dout = s.dout := rfl
@[simp] theorem accept_din (op : ReqOp) (s : State) : (accept op s).din = s.din := rfl
@[simp] theorem accept_bkpt (op : ReqOp) (s : State) : (accept op s).bkpt = s.bkpt := rfl
@[simp] theorem accept_rst (op : ReqOp) (s : State) : (accept op s).rst = s.rst := rfl
@[simp] theorem accept_bteCfg (op : ReqOp) (s : State) : (accept op s).bteCfg = s.bteCfg := rfl
@[simp] theorem accept_resetDetected (op : ReqOp) (s : State) : (accept op s).resetDetected = s.resetDetected := rfl
@[simp] theorem accept_shiftOut (op : ReqOp) (s : State) : (accept op s).shiftOut = s.shiftOut := rfl
@[simp] theorem accept_shiftIn (op : ReqOp) (s : State) : (accept op s).shiftIn = s.shiftIn := rfl
@[simp] theorem accept_bitCnt (op : ReqOp) (s : State) : (accept op s).bitCnt = s.bitCnt := rfl
@[simp] theorem accept_retry (op : ReqOp) (s : State) : (accept op s).retry = s.retry := rfl
@[simp] theorem accept_probe (op : ReqOp) (s : State) : (accept op s).probe = s.probe := rfl
@[simp] theorem accept_bIn (op : ReqOp) (s : State) : (accept op s).bIn = s.bIn := rfl
@[simp] theorem accept_waitStart (op : ReqOp) (s : State) : (accept op s).waitStart = s.waitStart := rfl
@[simp] theorem accept_reqBuf (op : ReqOp) (s : State) : (accept op s).reqBuf = s.reqBuf := rfl
@[simp] theorem accept_result (op : ReqOp) (s : State) : (accept op s).result = s.result := rfl
@[simp] theorem accept_countdown (op : ReqOp) (s : State) : (accept op s).countdown = s.countdown := rfl
@[simp] theorem accept_freeCount (op : ReqOp) (s : State) : (accept op s).freeCount = s.freeCount := rfl
@[simp] theorem accept_target (op : ReqOp) (s : State) : (accept op s).target = s.target := rfl
@[simp] theorem accept_pinTrace (op : ReqOp) (s : State) : (accept op s).pinTrace = s.pinTrace := rfl
@[simp] theorem accept_mem (op : ReqOp) (s : State) : (accept op s).mem = s.mem := rfl
@[simp] theorem accept_intStatus (op : ReqOp) (s : State) : (accept op s).intStatus = s.intStatus := rfl
@[simp] theorem accept_intEnable (op : ReqOp) (s : State) : (accept op s).intEnable = s.intEnable := rfl
@[simp] theorem accept_tokStatus (op : ReqOp) (s : State) : (accept op s).tokStatus = s.tokStatus := rfl
@[simp] theorem accept_devAddr (op : ReqOp) (s : State) : (accept op s).devAddr = s.devAddr := rfl
@[simp] theorem accept_epCtl (op : ReqOp) (s : State) : (accept op s).epCtl = s.epCtl := rfl
@[simp] theorem accept_ctsSeq (op : ReqOp) (s : State) : (accept op s).ctsSeq = s.ctsSeq := rfl
@[simp] theorem accept_setup (op : ReqOp) (s : State) : (accept op s).setup = s.setup := rfl
@[simp] theorem accept_ctlState (op : ReqOp) (s : State) : (accept op s).ctlState = s.ctlState := rfl
@[simp] theorem accept_toggle (op : ReqOp) (s : State) : (accept op s).toggle = s.toggle := rfl
@[simp] theorem accept_parity (op : ReqOp) (s : State) : (accept op s).parity = s.parity := rfl
@[simp] theorem accept_cursorValid (op : ReqOp) (s : State) : (accept op s).cursorValid = s.cursorValid := rfl
@[simp] theorem accept_cursorPtr (op : ReqOp) (s : State) : (accept op s).cursorPtr = s.cursorPtr := rfl
@[simp] theorem accept_cursorRemaining (op : ReqOp) (s : State) :
    (accept op s).cursorRemaining = s.cursorRemaining := rfl
@[simp] theorem accept_zlpPending (op : ReqOp) (s : State) : (accept op s).zlpPending = s.zlpPending := rfl
@[simp] theorem accept_addrPending (op : ReqOp) (s : State) : (accept op s).addrPending = s.addrPending := rfl
@[simp] theorem accept_addrValue (op : ReqOp) (s : State) : (accept op s).addrValue = s.addrValue := rfl
@[simp] theorem accept_faults (op : ReqOp) (s : State) : (accept op s).faults = s.faults := rfl
@[simp] theorem accept_vendorAnswers (op : ReqOp) (s : State) : (accept op s).vendorAnswers = s.vendorAnswers := rfl
@[simp] theorem accept_usbTrace (op : ReqOp) (s : State) : (accept op s).usbTrace = s.usbTrace := rfl
@[simp] theorem accept_sieParity (op : ReqOp) (s : State) : (accept op s).sieParity = s.sieParity := rfl
@[simp] theorem accept_queue (op : ReqOp) (s : State) : (accept op s).queue = s.queue := rfl
@[simp] theorem accept_sieFrozen (op : ReqOp) (s : State) : (accept op s).sieFrozen = s.sieFrozen := rfl
@[simp] theorem accept_busTrace (op : ReqOp) (s : State) : (accept op s).busTrace = s.busTrace := rfl

/-! ## leaveOp -/

@[simp] theorem leaveOp_bteSeq (s : State) : (leaveOp s).bteSeq = .idle := rfl
@[simp] theorem leaveOp_cfg (s : State) : (leaveOp s).cfg = s.cfg := rfl
@[simp] theorem leaveOp_script (s : State) : (leaveOp s).script = s.script := rfl
@[simp] theorem leaveOp_bootBteDone (s : State) : (leaveOp s).bootBteDone = s.bootBteDone := rfl
@[simp] theorem leaveOp_bootIntDone (s : State) : (leaveOp s).bootIntDone = s.bootIntDone := rfl
@[simp] theorem leaveOp_dclk (s : State) : (leaveOp s).dclk = s.dclk := rfl
@[simp] theorem leaveOp_dout (s : State) : (leaveOp s).dout = s.dout := rfl
@[simp] theorem leaveOp_din (s : State) : (leaveOp s).din = s.din := rfl
@[simp] theorem leaveOp_bkpt (s : State) : (leaveOp s).bkpt = s.bkpt := rfl
@[simp] theorem leaveOp_rst (s : State) : (leaveOp s).rst = s.rst := rfl
@[simp] theorem leaveOp_bteCfg (s : State) : (leaveOp s).bteCfg = s.bteCfg := rfl
@[simp] theorem leaveOp_resetDetected (s : State) : (leaveOp s).resetDetected = s.resetDetected := rfl
@[simp] theorem leaveOp_shiftOut (s : State) : (leaveOp s).shiftOut = s.shiftOut := rfl
@[simp] theorem leaveOp_shiftIn (s : State) : (leaveOp s).shiftIn = s.shiftIn := rfl
@[simp] theorem leaveOp_bitCnt (s : State) : (leaveOp s).bitCnt = s.bitCnt := rfl
@[simp] theorem leaveOp_retry (s : State) : (leaveOp s).retry = s.retry := rfl
@[simp] theorem leaveOp_probe (s : State) : (leaveOp s).probe = s.probe := rfl
@[simp] theorem leaveOp_bIn (s : State) : (leaveOp s).bIn = s.bIn := rfl
@[simp] theorem leaveOp_waitStart (s : State) : (leaveOp s).waitStart = s.waitStart := rfl
@[simp] theorem leaveOp_reqBuf (s : State) : (leaveOp s).reqBuf = s.reqBuf := rfl
@[simp] theorem leaveOp_reqValid (s : State) : (leaveOp s).reqValid = s.reqValid := rfl
@[simp] theorem leaveOp_result (s : State) : (leaveOp s).result = s.result := rfl
@[simp] theorem leaveOp_countdown (s : State) : (leaveOp s).countdown = s.countdown := rfl
@[simp] theorem leaveOp_freeCount (s : State) : (leaveOp s).freeCount = s.freeCount := rfl
@[simp] theorem leaveOp_target (s : State) : (leaveOp s).target = s.target := rfl
@[simp] theorem leaveOp_pinTrace (s : State) : (leaveOp s).pinTrace = s.pinTrace := rfl
@[simp] theorem leaveOp_mem (s : State) : (leaveOp s).mem = s.mem := rfl
@[simp] theorem leaveOp_intStatus (s : State) : (leaveOp s).intStatus = s.intStatus := rfl
@[simp] theorem leaveOp_intEnable (s : State) : (leaveOp s).intEnable = s.intEnable := rfl
@[simp] theorem leaveOp_tokStatus (s : State) : (leaveOp s).tokStatus = s.tokStatus := rfl
@[simp] theorem leaveOp_devAddr (s : State) : (leaveOp s).devAddr = s.devAddr := rfl
@[simp] theorem leaveOp_epCtl (s : State) : (leaveOp s).epCtl = s.epCtl := rfl
@[simp] theorem leaveOp_ctsSeq (s : State) : (leaveOp s).ctsSeq = s.ctsSeq := rfl
@[simp] theorem leaveOp_setup (s : State) : (leaveOp s).setup = s.setup := rfl
@[simp] theorem leaveOp_ctlState (s : State) : (leaveOp s).ctlState = s.ctlState := rfl
@[simp] theorem leaveOp_toggle (s : State) : (leaveOp s).toggle = s.toggle := rfl
@[simp] theorem leaveOp_parity (s : State) : (leaveOp s).parity = s.parity := rfl
@[simp] theorem leaveOp_cursorValid (s : State) : (leaveOp s).cursorValid = s.cursorValid := rfl
@[simp] theorem leaveOp_cursorPtr (s : State) : (leaveOp s).cursorPtr = s.cursorPtr := rfl
@[simp] theorem leaveOp_cursorRemaining (s : State) : (leaveOp s).cursorRemaining = s.cursorRemaining := rfl
@[simp] theorem leaveOp_zlpPending (s : State) : (leaveOp s).zlpPending = s.zlpPending := rfl
@[simp] theorem leaveOp_addrPending (s : State) : (leaveOp s).addrPending = s.addrPending := rfl
@[simp] theorem leaveOp_addrValue (s : State) : (leaveOp s).addrValue = s.addrValue := rfl
@[simp] theorem leaveOp_faults (s : State) : (leaveOp s).faults = s.faults := rfl
@[simp] theorem leaveOp_vendorAnswers (s : State) : (leaveOp s).vendorAnswers = s.vendorAnswers := rfl
@[simp] theorem leaveOp_usbTrace (s : State) : (leaveOp s).usbTrace = s.usbTrace := rfl
@[simp] theorem leaveOp_sieParity (s : State) : (leaveOp s).sieParity = s.sieParity := rfl
@[simp] theorem leaveOp_queue (s : State) : (leaveOp s).queue = s.queue := rfl
@[simp] theorem leaveOp_sieFrozen (s : State) : (leaveOp s).sieFrozen = s.sieFrozen := rfl
@[simp] theorem leaveOp_busTrace (s : State) : (leaveOp s).busTrace = s.busTrace := rfl

end Sys2Proof.Machine
end

