-- ==== Sys2Proof/Laws/Memory.lean ====
section
/-!
SUPPORT. What the memory operations do: every one keeps the canonical form, a read after a write gives what was
written, and every other byte, word and slot reads as before.
-/

namespace Sys2Proof.Machine

open Sys2Proof Sys2Proof.Safety

/-! ## The list -/

theorem memLookup_of_lt {c : Params} {lo : Nat} {m : Memory} (h : memWfFrom c lo m = true) {x : Nat} (hx : x < lo) :
    memLookup m x = none := by
  induction m generalizing lo with
  | nil => rfl
  | cons p m ih =>
    obtain ⟨y, v⟩ := p
    simp only [memWfFrom, Bool.and_eq_true, decide_eq_true_eq] at h
    rw [memLookup, if_neg (by omega)]
    exact ih h.2 (by omega)

/-- Listing a byte changes what its own address looks up, and no other. -/
theorem memLookup_memSet {c : Params} {lo : Nat} {m : Memory} (h : memWfFrom c lo m = true) (a : Nat) (d b : Byte)
    (x : Nat) :
    memLookup (memSet m a d b) x = if x = a then (if b = d then none else some b) else memLookup m x := by
  induction m generalizing lo with
  | nil => by_cases hb : b = d <;> by_cases hx : a = x <;> simp [memSet, memLookup, hb, hx, eq_comm]
  | cons p m ih =>
    obtain ⟨y, v⟩ := p
    simp only [memWfFrom, Bool.and_eq_true, decide_eq_true_eq] at h
    have tail : ∀ {x : Nat}, x < y + 1 → memLookup m x = none := fun hx => memLookup_of_lt h.2 hx
    rw [memSet]
    split
    · by_cases hx : x = a
      · subst hx
        have := tail (x := x) (by omega)
        by_cases hb : b = d <;> simp [memLookup, hb, this, show y ≠ x by omega]
      · by_cases hb : b = d <;> simp [memLookup, hb, hx, Ne.symm hx]
    · split
      · by_cases hx : x = a
        · subst hx
          have := tail (x := x) (by omega)
          by_cases hb : b = d <;> simp [memLookup, hb, this]
        · have : y ≠ x := by omega
          by_cases hb : b = d <;> simp [memLookup, hb, hx, Ne.symm hx, this]
      · rw [memLookup, memLookup, ih h.2]
        by_cases hx : y = x
        · have : x ≠ a := by omega
          simp [hx, this]
        · simp [hx]

/-- The list keeps its canonical form. -/
theorem memWfFrom_memSet {c : Params} {lo : Nat} {m : Memory} (h : memWfFrom c lo m = true) {a : Nat} (hlo : lo ≤ a)
    (ha : a < 2 ^ 32) (b : Byte) : memWfFrom c lo (memSet m a (romByte c (BitVec.ofNat 32 a)) b) = true := by
  induction m generalizing lo with
  | nil => by_cases hb : b = romByte c (BitVec.ofNat 32 a) <;> simp [-Nat.reducePow, memSet, memWfFrom, hb, hlo, ha]
  | cons p m ih =>
    obtain ⟨y, v⟩ := p
    simp only [memWfFrom, Bool.and_eq_true, decide_eq_true_eq] at h
    obtain ⟨⟨⟨h1, h2⟩, h3⟩, h4⟩ := h
    have weaken : memWfFrom c lo m = true := by
      cases m with
      | nil => rfl
      | cons q m =>
        obtain ⟨z, w⟩ := q
        simp only [memWfFrom, Bool.and_eq_true, decide_eq_true_eq] at h4 ⊢
        exact ⟨⟨⟨by omega, h4.1.1.2⟩, h4.1.2⟩, h4.2⟩
    rw [memSet]
    split
    · split
      · simp [-Nat.reducePow, memWfFrom, h1, h2, h3, h4]
      · rename_i hb
        simp [-Nat.reducePow, memWfFrom, hlo, ha, hb, h2, h3, h4]; omega
    · split
      · subst_vars
        split
        · exact weaken
        · rename_i hb
          simp [-Nat.reducePow, memWfFrom, hlo, ha, hb, h4]
      · have := ih h4 (by omega)
        simp [-Nat.reducePow, memWfFrom, h1, h2, h3, this]

/-! ## Bytes -/

/-- A read after a write (any two addresses). -/
theorem readByte_writeByte {s : State} (h : MemoryCanonical s) (a x : Word) (b : Byte) :
    readByte (writeByte a b s) x = if x = a then b else readByte s x := by
  unfold readByte writeByte
  rw [memLookup_memSet h]
  by_cases hx : x = a
  · subst hx
    by_cases hb : b = romByte s.cfg x <;> simp [hb]
  · have : x.toNat ≠ a.toNat := fun e => hx (BitVec.eq_of_toNat_eq e)
    simp [hx, this]

/-- A single byte touches a descriptor exactly when it is one of its bytes. -/
theorem touchesDescriptor_byte (c : Params) (a : Word) : touchesDescriptor c a 1 = true ↔ InDescriptor c a := by
  simp only [touchesDescriptor, InDescriptor, List.any_eq_true]
  refine exists_congr fun d => and_congr_right fun _ => ?_
  have h0 : (d.pointer - a).toNat = 0 → (a - d.pointer).toNat = 0 := by bv_omega
  simp only [disjoint, Bool.not_eq_true', Bool.or_eq_false_iff, Bool.and_eq_false_iff, decide_eq_false_iff_not]
  omega

theorem memoryCanonical_writeByte {s : State} (h : MemoryCanonical s) (a : Word) (b : Byte) :
    MemoryCanonical (writeByte a b s) := by
  have := memWfFrom_memSet h (Nat.zero_le a.toNat) a.isLt b
  simpa [MemoryCanonical, memWf, writeByte] using this

theorem memoryCanonical_writeBytes {s : State} (h : MemoryCanonical s) (a : Word) (bs : List Byte) :
    MemoryCanonical (writeBytes a bs s) := by
  induction bs generalizing a s with
  | nil => exact h
  | cons b bs ih => exact ih (memoryCanonical_writeByte h a b) _

theorem memoryCanonical_writeWord {s : State} (h : MemoryCanonical s) (a v : Word) :
    MemoryCanonical (writeWord a v s) := memoryCanonical_writeBytes h _ _

theorem memoryCanonical_writeSlot {s : State} (h : MemoryCanonical s) (e : Endpoint) (d : Dir) (p : Bit) (u v : Word) :
    MemoryCanonical (writeSlot e d p u v s) := memoryCanonical_writeWord (memoryCanonical_writeWord h _ _) _ _

/-- Memory that lists nothing is canonical. -/
theorem memoryCanonical_of_nil {s : State} (h : s.mem = []) : MemoryCanonical s := by
  simp [MemoryCanonical, memWf, h, memWfFrom]

/-- The memory after reset is canonical. -/
theorem memoryCanonical_reset : MemoryCanonical State.reset := memoryCanonical_of_nil rfl

/-- A read depends on the memory and the parameters alone. -/
theorem readByte_congr {s t : State} (hm : t.mem = s.mem) (hc : t.cfg = s.cfg) (a : Word) :
    readByte t a = readByte s a := by simp [readByte, hm, hc]

/-- A byte outside the written ones reads as before. -/
theorem readByte_writeBytes_of_outside {s : State} (h : MemoryCanonical s) (a x : Word) (bs : List Byte)
    (hx : bs.length ≤ (x - a).toNat) : readByte (writeBytes a bs s) x = readByte s x := by
  induction bs generalizing a s with
  | nil => rfl
  | cons b bs ih =>
    have hlen : bs.length + 1 ≤ (x - a).toNat := hx
    have hne : x ≠ a := by rintro rfl; simp at hlen
    rw [writeBytes, ih (memoryCanonical_writeByte h a b) _ (by bv_omega), readByte_writeByte h, if_neg hne]

/-- Byte `k` of the written ones reads as written. -/
theorem readByte_writeBytes_of_inside {s : State} (h : MemoryCanonical s) (a : Word) (bs : List Byte) (k : Nat)
    (hk : k < bs.length) (hn : bs.length ≤ 2 ^ 32) :
    readByte (writeBytes a bs s) (a + BitVec.ofNat 32 k) = bs[k] := by
  induction bs generalizing a s k with
  | nil => simp at hk
  | cons b bs ih =>
    simp only [List.length_cons] at hk hn
    rw [writeBytes]
    cases k with
    | zero =>
      rw [readByte_writeBytes_of_outside (memoryCanonical_writeByte h a b) _ _ _ (by bv_omega),
        readByte_writeByte h]
      simp
    | succ k =>
      have : a + BitVec.ofNat 32 (k + 1) = a + 1#32 + BitVec.ofNat 32 k := by
        apply BitVec.eq_of_toNat_eq; simp [BitVec.toNat_add]; omega
      rw [this, ih (memoryCanonical_writeByte h a b) _ _ (by omega) (by omega)]
      rfl

/-! ## Words -/

theorem readByte_writeWord_of_outside {s : State} (h : MemoryCanonical s) (a v x : Word) (hx : 4 ≤ (x - a).toNat) :
    readByte (writeWord a v s) x = readByte s x := readByte_writeBytes_of_outside h _ _ _ hx

/-- A word reads as written. -/
theorem readWord_writeWord {s : State} (h : MemoryCanonical s) (a v : Word) : readWord (writeWord a v s) a = v := by
  have byte (k : Nat) (hk : k < 4) : readByte (writeWord a v s) (a + BitVec.ofNat 32 k) = wordByte v k := by
    have := readByte_writeBytes_of_inside h a [wordByte v 0, wordByte v 1, wordByte v 2, wordByte v 3] k hk (by simp)
    rw [writeWord, this]
    rcases k with _ | _ | _ | _ | k <;> first | rfl | omega
  have h0 := byte 0 (by omega)
  rw [show a + BitVec.ofNat 32 0 = a by simp] at h0
  rw [readWord, byte 3 (by omega), byte 2 (by omega), byte 1 (by omega), h0]
  apply BitVec.eq_of_getLsbD_eq
  intro i hi
  simp only [wordByte, BitVec.getLsbD_append, BitVec.getLsbD_extractLsb']
  by_cases h1 : i < 8
  · simp [h1]
  by_cases h2 : i < 16
  · simp [h1, show i - 8 < 8 by omega, show 8 + (i - 8) = i by omega]
  by_cases h3 : i < 24
  · simp [h1, show ¬ i - 8 < 8 by omega, show i - 8 - 8 < 8 by omega, show 16 + (i - 8 - 8) = i by omega]
  · simp [h1, show ¬ i - 8 < 8 by omega, show ¬ i - 8 - 8 < 8 by omega, show i - 8 - 8 - 8 < 8 by omega,
      show 24 + (i - 8 - 8 - 8) = i by omega]

/-- A word none of whose bytes was written reads as before. -/
theorem readWord_congr {s t : State} (x : Word)
    (h : ∀ k : Nat, k < 4 → readByte t (x + BitVec.ofNat 32 k) = readByte s (x + BitVec.ofNat 32 k)) :
    readWord t x = readWord s x := by
  have h0 := h 0 (by omega)
  rw [show x + BitVec.ofNat 32 0 = x by simp] at h0
  simp only [readWord]
  rw [h0, show x + 3#32 = x + BitVec.ofNat 32 3 from rfl, show x + 2#32 = x + BitVec.ofNat 32 2 from rfl,
    show x + 1#32 = x + BitVec.ofNat 32 1 from rfl, h 1 (by omega), h 2 (by omega), h 3 (by omega)]

theorem readWord_writeWord_of_apart {s : State} (h : MemoryCanonical s) (a v x : Word) (h1 : 4 ≤ (x - a).toNat)
    (h2 : 4 ≤ (a - x).toNat) : readWord (writeWord a v s) x = readWord s x := by
  apply readWord_congr
  intro k hk
  apply readByte_writeWord_of_outside h
  have : (BitVec.ofNat 32 k).toNat = k := by simp; omega
  bv_omega

/-! ## Slots -/

theorem slotIndex_lt (e : Endpoint) (d : Dir) (p : Bit) : slotIndex e d p < 64 := by
  have := e.isLt
  have := p.isLt
  cases d <;> simp only [slotIndex, dirNum] <;> omega

/-- Different slots have different numbers (spec/30_encoding.md R100). -/
theorem slotIndex_injective {e e' : Endpoint} {d d' : Dir} {p p' : Bit} (h : slotIndex e d p = slotIndex e' d' p') :
    e = e' ∧ d = d' ∧ p = p' := by
  have := p.isLt
  have := p'.isLt
  refine ⟨Fin.ext ?_, ?_, BitVec.eq_of_toNat_eq ?_⟩ <;> cases d <;> cases d' <;> simp only [slotIndex, dirNum] at h <;>
    first | rfl | omega

@[simp] theorem toNat_slotOffset (e : Endpoint) (d : Dir) (p : Bit) :
    (BitVec.ofNat 32 (8 * slotIndex e d p)).toNat = 8 * slotIndex e d p := by
  have := slotIndex_lt e d p
  simp; omega

/-- A byte outside a slot reads as before the slot was stored. -/
theorem readByte_writeSlot_of_outside {s : State} (h : MemoryCanonical s) (e : Endpoint) (d : Dir) (p : Bit)
    (u v x : Word) (hx : ¬ InSlot s.cfg e d p x) : readByte (writeSlot e d p u v s) x = readByte s x := by
  simp only [InSlot, not_lt] at hx
  rw [writeSlot, readByte_writeWord_of_outside (memoryCanonical_writeWord h _ _) _ _ _ (by omega),
    readByte_writeWord_of_outside h _ _ _ (by bv_omega)]

theorem slotCtl_writeSlot {s : State} (h : MemoryCanonical s) (e : Endpoint) (d : Dir) (p : Bit) (u v : Word) :
    slotCtl (writeSlot e d p u v s) e d p = v := by
  rw [slotCtl, writeSlot_cfg, writeSlot, readWord_writeWord (memoryCanonical_writeWord h _ _)]

theorem slotBuf_writeSlot {s : State} (h : MemoryCanonical s) (e : Endpoint) (d : Dir) (p : Bit) (u v : Word) :
    slotBuf (writeSlot e d p u v s) e d p = u := by
  rw [slotBuf, writeSlot_cfg, writeSlot, readWord_writeWord_of_apart (memoryCanonical_writeWord h _ _) _ _ _
    (by bv_omega) (by bv_omega), readWord_writeWord h]

/-- The bytes of one slot lie outside every other slot. -/
theorem not_inSlot_of_ne (c : Params) {e e' : Endpoint} {d d' : Dir} {p p' : Bit}
    (hne : slotIndex e' d' p' ≠ slotIndex e d p) (k : Nat) (hk : k < 8) :
    ¬ InSlot c e d p (slotAddr c e' d' p' + BitVec.ofNat 32 k) := by
  have h1 := slotIndex_lt e d p
  have h2 := slotIndex_lt e' d' p'
  have hk' : (BitVec.ofNat 32 k).toNat = k := by simp; omega
  have o1 := toNat_slotOffset e d p
  have o2 := toNat_slotOffset e' d' p'
  simp only [InSlot, slotAddr]
  generalize BitVec.ofNat 32 (8 * slotIndex e d p) = x at *
  generalize BitVec.ofNat 32 (8 * slotIndex e' d' p') = y at *
  generalize BitVec.ofNat 32 k = z at *
  bv_omega

theorem slotCtl_writeSlot_of_ne {s : State} (h : MemoryCanonical s) {e e' : Endpoint} {d d' : Dir} {p p' : Bit}
    (u v : Word) (hne : slotIndex e' d' p' ≠ slotIndex e d p) :
    slotCtl (writeSlot e d p u v s) e' d' p' = slotCtl s e' d' p' := by
  simp only [slotCtl, writeSlot_cfg]
  apply readWord_congr
  intro k hk
  exact readByte_writeSlot_of_outside h _ _ _ _ _ _ (not_inSlot_of_ne s.cfg hne k (by omega))

theorem slotBuf_writeSlot_of_ne {s : State} (h : MemoryCanonical s) {e e' : Endpoint} {d d' : Dir} {p p' : Bit}
    (u v : Word) (hne : slotIndex e' d' p' ≠ slotIndex e d p) :
    slotBuf (writeSlot e d p u v s) e' d' p' = slotBuf s e' d' p' := by
  simp only [slotBuf, writeSlot_cfg]
  apply readWord_congr
  intro k hk
  have hk' : slotAddr s.cfg e' d' p' + 4#32 + BitVec.ofNat 32 k
      = slotAddr s.cfg e' d' p' + BitVec.ofNat 32 (4 + k) := by
    rw [show BitVec.ofNat 32 (4 + k) = 4#32 + BitVec.ofNat 32 k by
      apply BitVec.eq_of_toNat_eq; simp [BitVec.toNat_add], BitVec.add_assoc]
  rw [hk']
  exact readByte_writeSlot_of_outside h _ _ _ _ _ _ (not_inSlot_of_ne s.cfg hne (4 + k) (by omega))

/-- A slot's words depend on the memory and the parameters alone. -/
theorem slotCtl_congr {s t : State} (hm : t.mem = s.mem) (hc : t.cfg = s.cfg) (e : Endpoint) (d : Dir) (p : Bit) :
    slotCtl t e d p = slotCtl s e d p := by
  simp [slotCtl, readWord, readByte, hm, hc]

theorem slotBuf_congr {s t : State} (hm : t.mem = s.mem) (hc : t.cfg = s.cfg) (e : Endpoint) (d : Dir) (p : Bit) :
    slotBuf t e d p = slotBuf s e d p := by
  simp [slotBuf, readWord, readByte, hm, hc]

/-! ## Memory as a value of its own -/

theorem readByte_with_mem {s t : State} (hc : t.cfg = s.cfg) (a : Word) :
    readByte { s with mem := t.mem } a = readByte t a := by simp [readByte, hc]

theorem slotCtl_with_mem {s t : State} (hc : t.cfg = s.cfg) (e : Endpoint) (d : Dir) (p : Bit) :
    slotCtl { s with mem := t.mem } e d p = slotCtl t e d p := by simp [slotCtl, readWord, readByte, hc]

theorem slotBuf_with_mem {s t : State} (hc : t.cfg = s.cfg) (e : Endpoint) (d : Dir) (p : Bit) :
    slotBuf { s with mem := t.mem } e d p = slotBuf t e d p := by simp [slotBuf, readWord, readByte, hc]

theorem writeWord_eq (a v : Word) (s : State) : writeWord a v s = { s with mem := (writeWord a v s).mem } :=
  writeBytes_eq _ _ _

theorem writeSlot_eq (e : Endpoint) (d : Dir) (p : Bit) (u v : Word) (s : State) :
    writeSlot e d p u v s = { s with mem := (writeSlot e d p u v s).mem } := by
  generalize h : writeSlot e d p u v s = t
  rw [writeSlot, writeWord_eq, writeWord_eq (s := s)] at h
  rw [← h]

theorem writeBytes_mem_congr {s t : State} (hm : t.mem = s.mem) (hc : t.cfg = s.cfg) (a : Word) (bs : List Byte) :
    (writeBytes a bs t).mem = (writeBytes a bs s).mem := by
  induction bs generalizing a s t with
  | nil => exact hm
  | cons b bs ih =>
    have one : (writeByte a b t).mem = (writeByte a b s).mem := by simp [writeByte, hm, hc]
    exact ih one (by simp [hc]) _

theorem writeWord_mem_congr {s t : State} (hm : t.mem = s.mem) (hc : t.cfg = s.cfg) (a v : Word) :
    (writeWord a v t).mem = (writeWord a v s).mem := writeBytes_mem_congr hm hc _ _

/-- What storing a slot makes of the memory depends on the memory and the parameters alone. -/
theorem writeSlot_mem_congr {s t : State} (hm : t.mem = s.mem) (hc : t.cfg = s.cfg) (e : Endpoint) (d : Dir) (p : Bit)
    (u v : Word) : (writeSlot e d p u v t).mem = (writeSlot e d p u v s).mem := by
  rw [writeSlot, writeSlot, hc]
  exact writeWord_mem_congr (writeWord_mem_congr hm hc _ _) (by simp [hc]) _ _

/-- Storing a slot stores exactly that slot. -/
theorem storedSlot_writeSlot {s : State} (h : MemoryCanonical s) (e : Endpoint) (d : Dir) (p : Bit) (u : Word)
    (n : BitVec 10) (own tog : Bit) (tok : BitVec 4) :
    StoredSlot s (writeSlot e d p u (ctlWord n own tog tok) s).mem e d p u n own tog tok := by
  have hb := slotBuf_writeSlot h e d p u (ctlWord n own tog tok)
  have hw := slotCtl_writeSlot h e d p u (ctlWord n own tog tok)
  have ho := fun a ha => readByte_writeSlot_of_outside h e d p u (ctlWord n own tog tok) a ha
  have hc := writeSlot_cfg e d p u (ctlWord n own tog tok) s
  generalize writeSlot e d p u (ctlWord n own tog tok) s = t at *
  exact ⟨⟨(slotBuf_with_mem hc e d p).trans hb, (slotCtl_with_mem hc e d p).trans hw⟩,
    fun a ha => (readByte_with_mem hc a).trans (ho a ha)⟩

/-- A stored slot leaves every other slot as it was. -/
theorem storedSlot_other {s : State} {m : Memory} {e : Endpoint} {d : Dir} {p : Bit} {u : Word} {n : BitVec 10}
    {own tog : Bit} {tok : BitVec 4} (h : StoredSlot s m e d p u n own tog tok) {e' : Endpoint} {d' : Dir} {p' : Bit}
    (hne : slotIndex e' d' p' ≠ slotIndex e d p) :
    slotCtl { s with mem := m } e' d' p' = slotCtl s e' d' p' ∧ slotBuf { s with mem := m } e' d' p' = slotBuf s e' d' p' := by
  have same (k : Nat) (hk : k < 8) := h.2 _ (not_inSlot_of_ne s.cfg hne k hk)
  constructor
  · exact readWord_congr _ fun k hk => same k (by omega)
  · refine readWord_congr _ fun k hk => ?_
    have := same (4 + k) (by omega)
    rw [show BitVec.ofNat 32 (4 + k) = 4#32 + BitVec.ofNat 32 k by
      apply BitVec.eq_of_toNat_eq; simp [BitVec.toNat_add], ← BitVec.add_assoc] at this
    exact this

/-! ## Fields of a control word (spec/30_encoding.md R99) -/

@[simp] theorem rxBufSize_eq (e : Endpoint) : rxBufSize e = 64#10 := rfl

@[simp] theorem ctlCount_ctlWord (n : BitVec 10) (own tog : Bit) (tok : BitVec 4) :
    ctlCount (ctlWord n own tog tok) = n := by
  apply BitVec.eq_of_getLsbD_eq
  intro i hi
  simp only [ctlCount, ctlWord, BitVec.getLsbD_extractLsb', BitVec.getLsbD_append]
  simp [hi, show ¬ 16 + i < 2 by omega, show ¬ 16 + i - 2 < 4 by omega, show ¬ 16 + i - 2 - 4 < 1 by omega,
    show ¬ 16 + i - 2 - 4 - 1 < 1 by omega, show ¬ 16 + i - 2 - 4 - 1 - 1 < 8 by omega,
    show 16 + i - 2 - 4 - 1 - 1 - 8 = i by omega]

@[simp] theorem ctlOwn_ctlWord (n : BitVec 10) (own tog : Bit) (tok : BitVec 4) :
    ctlOwn (ctlWord n own tog tok) = own := by
  apply BitVec.eq_of_getLsbD_eq
  intro i hi
  obtain rfl : i = 0 := by omega
  simp only [ctlOwn, ctlWord, BitVec.getLsbD_extractLsb', BitVec.getLsbD_append]
  simp

@[simp] theorem ctlToggle_ctlWord (n : BitVec 10) (own tog : Bit) (tok : BitVec 4) :
    ctlToggle (ctlWord n own tog tok) = tog := by
  apply BitVec.eq_of_getLsbD_eq
  intro i hi
  obtain rfl : i = 0 := by omega
  simp only [ctlToggle, ctlWord, BitVec.getLsbD_extractLsb', BitVec.getLsbD_append]
  simp

@[simp] theorem ctlToken_ctlWord (n : BitVec 10) (own tog : Bit) (tok : BitVec 4) :
    ctlToken (ctlWord n own tog tok) = tok := by
  apply BitVec.eq_of_getLsbD_eq
  intro i hi
  simp only [ctlToken, ctlWord, BitVec.getLsbD_extractLsb', BitVec.getLsbD_append]
  simp [hi, show ¬ 2 + i < 2 by omega, show 2 + i - 2 = i by omega]

end Sys2Proof.Machine
end

