-- ==== Sys2Proof/Laws/Handoff.lean ====
section
/-!
SUPPORT. What each shared operation of the CTS can do, said once: Submit, Consume, Rearm, the completion queue, the
acknowledgement that ends a token-done handler, and the vendor handler's answer.
-/

namespace Sys2Proof.Machine

open Sys2Proof Sys2Proof.Safety

/-- A slot is either the CTS's or the SIE's. -/
theorem slotFree_or (s : State) (e : Endpoint) (d : Dir) (p : Bit) :
    (slotFree s e d p = true ∧ ctlOwn (slotCtl s e d p) = 0#1)
      ∨ (slotFree s e d p = false ∧ ctlOwn (slotCtl s e d p) = 1#1) := by
  have bit : ∀ b : Bit, b = 0#1 ∨ b = 1#1 := by decide
  rcases bit (ctlOwn (slotCtl s e d p)) with h | h <;> simp [slotFree, h]

/-- Submit either finds the slot taken, or stores it and moves the trackers. -/
theorem submit_eq (e : Endpoint) (ptr : Word) (n : BitVec 10) (s : State) :
    submit e ptr n s =
      if slotFree s e .tx (s.parity.get e .tx) then
        .go { s with
          mem := (writeSlot e .tx (s.parity.get e .tx) ptr (ctlWord n 1#1 (s.toggle.get e .tx) 0#4) s).mem
          toggle := s.toggle.flip e .tx
          parity := s.parity.flip e .tx
          usbTrace := .submit e (s.parity.get e .tx) ptr n (s.toggle.get e .tx) :: s.usbTrace }
      else .halted (raise (.slotBusy e .tx (s.parity.get e .tx)) s) := by
  rcases slotFree_or s e .tx (s.parity.get e .tx) with h | h
  · rw [submit, if_neg (by simp [h.2]), if_pos h.1, writeSlot_eq]
  · rw [submit, if_pos h.2, if_neg (by simp [h.1])]

/-- Consume either finds the slot taken, or hands its count on. -/
theorem consume_eq (e : Endpoint) (d : Dir) (p : Bit) (s : State) (k : BitVec 10 → State → Flow) :
    consume e d p s k =
      if slotFree s e d p then k (ctlCount (slotCtl s e d p)) s
      else .halted (raise (.ownershipViolation e d p) s) := by
  rcases slotFree_or s e d p with h | h
  · rw [consume, if_neg (by simp [h.2]), if_pos h.1]
  · rw [consume, if_pos h.2, if_neg (by simp [h.1])]

theorem rearm_eq (e : Endpoint) (p : Bit) (s : State) :
    rearm e p s = { s with
      mem := (writeSlot e .rx p (rxBuf s.cfg e p) (armedCtl e) s).mem
      parity := s.parity.flip e .rx
      usbTrace := .rearm e p :: s.usbTrace } := by
  rw [rearm, writeSlot_eq]

/-! ## The completion queue -/

theorem popCompletion_eq (s : State) :
    popCompletion s = { s with
      queue := s.queue.tail
      tokStatus := shownHead s.tokStatus s.queue.tail
      intStatus := if s.queue.tail = [] then s.intStatus else s.intStatus ||| 0x08#8 } := by
  unfold popCompletion
  cases s.queue.tail <;> simp [shownHead]

theorem ackStatus_tokdne (s : State) :
    ackStatus 0x08#8 s = { s with
      intStatus := withTokdne s.intStatus s.queue.tail
      tokStatus := shownHead s.tokStatus s.queue.tail
      queue := s.queue.tail
      usbTrace := .write .intStatus 0x08#8 :: s.usbTrace } := by
  have set8 : ∀ v : Byte, v &&& 0xF7#8 ||| 0x08#8 = v ||| 0x08#8 := by decide
  simp only [ackStatus]
  rw [if_neg (by decide), if_pos (by decide), popCompletion_eq]
  cases s.queue.tail <;> simp [withTokdne, set8]

/-- An acknowledgement, field by field. -/
theorem ackStatus_eq (v : Byte) (s : State) :
    ackStatus v s = { s with
      intStatus :=
        let kept := s.intStatus &&& ~~~(v &&& 0x9F#8)
        let shown := if v.getLsbD 3 ∧ s.queue.tail ≠ [] then kept ||| 0x08#8 else kept
        if v.getLsbD 0 then shown &&& ~~~0x08#8 else shown
      tokStatus := if v.getLsbD 3 then shownHead s.tokStatus s.queue.tail else s.tokStatus
      queue := if v.getLsbD 0 then [] else if v.getLsbD 3 then s.queue.tail else s.queue
      sieParity := if v.getLsbD 0 then EpBits.zero else s.sieParity
      sieFrozen := if v.getLsbD 0 then 0#1 else s.sieFrozen
      usbTrace := .write .intStatus v :: s.usbTrace } := by
  simp only [ackStatus]
  cases h0 : v.getLsbD 0 <;> cases h3 : v.getLsbD 3 <;> simp only [popCompletion_eq, busResetAcknowledged] <;>
    by_cases hq : s.queue.tail = [] <;> simp [hq]

theorem conditionDone_eq (v : Byte) (s : State) :
    conditionDone v s = { s with ctsSeq := seqAfter v s.ctsSeq } := by
  unfold conditionDone seqAfter
  cases h : s.ctsSeq with
  | idle => simp only; rw [← h]
  | inInvocation st rest ph => simp only; split <;> rfl

theorem callPhase_eq (ph : CtsPhase) (s : State) : callPhase ph s = { s with ctsSeq := seqAt ph s.ctsSeq } := by
  unfold callPhase seqAt
  cases h : s.ctsSeq with
  | idle => simp only; rw [← h]
  | inInvocation st rest ph => rfl

/-- The end of a token-done handler. -/
theorem handlerReturn_eq (s : State) : handlerReturn s = .go (tokenDone s) := by
  rw [handlerReturn, ackStatus_tokdne, conditionDone_eq]
  rfl

/-! ## The rest of endpoint 0 -/

theorem stallPath_eq (s : State) : stallPath s = .go (stalled s) := rfl

theorem applyAddress_eq (s : State) :
    applyAddress s = { s with
      devAddr := if s.addrPending = 1#1 then s.addrValue else s.devAddr
      addrPending := 0#1
      usbTrace :=
        if s.addrPending = 1#1 then .write .devAddr (s.addrValue.setWidth 8) :: s.usbTrace else s.usbTrace } := by
  have wide : ∀ v : BitVec 7, (0#1 ++ v : BitVec 8) = v.setWidth 8 := by decide
  have bit : ∀ b : Bit, b = 0#1 ∨ b = 1#1 := by decide
  unfold applyAddress writeDevAddr
  rcases bit s.addrPending with h | h
  · simp [h]; rw [← h]
  · simp [h, wide]

theorem vendorAnswer_eq (s : State) :
    vendorAnswer s = (s.vendorAnswers.head?.getD s.cfg.vendorDefault, { s with vendorAnswers := s.vendorAnswers.tail }) := by
  unfold vendorAnswer
  cases h : s.vendorAnswers with
  | nil => simp; rw [← h]
  | cons a l => simp

/-- A step's outcome from a flow that went on. -/
@[simp] theorem Flow.outcome_go (s : State) : (Flow.go s).outcome = .next s := rfl

@[simp] theorem Flow.outcome_halted (s : State) : (Flow.halted s).outcome = .next s := rfl

@[simp] theorem Flow.andThen_go (s : State) (k : State → Flow) : (Flow.go s).andThen k = k s := rfl

@[simp] theorem Flow.andThen_halted (s : State) (k : State → Flow) : (Flow.halted s).andThen k = .halted s := rfl

/-! ## Bits by endpoint and direction -/

@[simp] theorem EpBits.get_set_self (x : EpBits) (e : Endpoint) (d : Dir) (b : Bit) : (x.set e d b).get e d = b := by
  cases d <;> simp [EpBits.get, EpBits.set]

theorem EpBits.get_set_of_ne (x : EpBits) {e e' : Endpoint} {d d' : Dir} (b : Bit) (h : ¬ (e = e' ∧ d = d')) :
    (x.set e d b).get e' d' = x.get e' d' := by
  cases d <;> cases d' <;> simp_all [EpBits.get, EpBits.set, Fin.ext_iff]

end Sys2Proof.Machine
end

