-- ==== Sys2Proof/Laws/Step.lean ====
section
/-!
SUPPORT. Everything a step that answers a next state can have done, said once.
-/

namespace Sys2Proof.Machine

open Sys2Proof

/-- A turn of the CTS performs the row its code decodes to, in the invocation. -/
theorem ctsTurn_of_fetch {s : State} {c : Code} {i : Instr} (hf : ctsFetch s = some c) (hd : decode c = .ok i) :
    ctsTurn s = exec i (ctsEnter s) := by simp [ctsTurn, hf, runCode, hd]

/-- A turn of the idle BTE performs the request at its port. -/
theorem bteTurn_of_fetch {s : State} {c : Code} {i : Instr} (hf : bteFetch s = some c) (hd : decode c = .ok i) :
    bteTurn s = exec i s := by
  unfold bteTurn
  split
  · simp [bteFetch, *] at hf
  · simp [hf, runCode, hd]

/-- A turn of the CTS changes nothing or performs the row it finds. -/
theorem ctsTurn_next {s t : State} (h : ctsTurn s = .next t) :
    t = s ∨ ∃ c i, ctsFetch s = some c ∧ decode c = .ok i ∧ exec i (ctsEnter s) = .next t := by
  unfold ctsTurn at h
  split at h
  · rename_i c hc
    unfold runCode at h
    split at h
    · exact .inr ⟨c, _, hc, ‹_›, h⟩
    · cases h
  · exact .inl (by cases h; rfl)

/-- A turn of the BTE changes nothing, finishes the running operation, or performs the request it finds. -/
theorem bteTurn_next {s t : State} (h : bteTurn s = .next t) :
    t = s ∨ t = resume s ∨ ∃ c i, bteFetch s = some c ∧ decode c = .ok i ∧ exec i s = .next t := by
  unfold bteTurn at h
  split at h
  · exact .inr (.inl (by cases h; rfl))
  · split at h
    · rename_i c hc
      unfold runCode at h
      split at h
      · exact .inr (.inr ⟨c, _, hc, ‹_›, h⟩)
      · cases h
    · exact .inl (by cases h; rfl)

/-- One position of the BTE: nothing to do, the next position of the running operation, or the acceptance of a
request. -/
theorem bteMicroTurn_next {s t : State} (h : bteMicroTurn s = .next t) :
    t = s ∨ t = advance s ∨ ∃ op, t = accept op s := by
  unfold bteMicroTurn at h
  split at h
  · exact .inr (.inl (by cases h; rfl))
  · split at h
    · split at h
      · split at h
        · exact .inr (.inr ⟨_, by cases h; rfl⟩)
        · exact .inl (by cases h; rfl)
      · cases h
    · exact .inl (by cases h; rfl)

/-- An event that is no turn of a sequencer. -/
def isMove : Event → Bool
  | .bte | .bteMicro | .cts => false
  | .request _ | .writeReq _ | .bootBte _ | .bootIntEnable _ | .resetSense | .tick _ | .busReset | .sof | .sleep
  | .busError | .hostSetup _ _ _ | .hostOut _ _ _ _ | .hostIn _ _ _ | .sieBuffer _ _ _ _ => true

/-- Beside what a step notes of the script and of boot's time it changes nothing, performs one row of the CTS, gives the
BTE a turn or a position, or applies one move of the environment. -/
def StepDid (s t : State) : Prop :=
  ∃ script a b,
    let u := { s with script := script, bootBteDone := a, bootIntDone := b }
    t = u ∨ (∃ c i, ctsFetch u = some c ∧ decode c = .ok i ∧ exec i (ctsEnter u) = .next t)
      ∨ bteTurn u = .next t ∨ bteMicroTurn u = .next t ∨ ∃ ev, isMove ev = true ∧ applyEvent ev u = .next t

/-- A guarded move that answers a next state was made with legal parameters and no reserved condition bit. -/
theorem guarded_next {s t : State} {m : Host.Outcome State Fault Refusal} (h : guarded s m = .next t) :
    configOk s.cfg = true ∧ s.intStatus &&& 0x60#8 = 0#8 ∧ m = .next t := by
  unfold guarded at h
  split at h
  · cases h
  · split at h
    · cases h
    · exact ⟨by simpa using ‹¬ configOk s.cfg = false›, by simpa using ‹¬ s.intStatus &&& 0x60#8 ≠ 0#8›, h⟩

/-- The event at the head of the script is applied, or it is a turn. -/
theorem event_next {s t : State} {ev : Event} {rest : List Event}
    (h : applyEvent ev (afterBoot ev { s with script := rest }) = .next t) : StepDid s t := by
  refine ⟨rest, s.bootBteDone || endsBoot ev, s.bootIntDone || endsBoot ev, ?_⟩
  cases hv : isMove ev
  · cases ev <;> simp only [isMove, reduceCtorEq] at hv
    · exact .inr (.inr (.inl h))
    · exact .inr (.inr (.inr (.inl h)))
    · exact (ctsTurn_next h).imp_right .inl
  · exact .inr (.inr (.inr (.inr ⟨ev, hv, h⟩)))

/-- Everything a step that answers a next state can have done. -/
theorem step_next {s t : State} (h : step s = .next t) :
    configOk s.cfg = true ∧ s.intStatus &&& 0x60#8 = 0#8 ∧ StepDid s t := by
  have bte : bteTurn s = .next t → StepDid s t := fun h =>
    ⟨s.script, s.bootBteDone, s.bootIntDone, .inr (.inr (.inl h))⟩
  unfold step stepMachine at h
  split at h <;> obtain ⟨hc, hi, hm⟩ := guarded_next h <;> refine ⟨hc, hi, ?_⟩
  · unfold blockTurn at hm
    split at hm
    · exact ⟨s.script, s.bootBteDone, s.bootIntDone, (ctsTurn_next hm).imp_right .inl⟩
    · exact bte hm
  · unfold eventMove at hm
    split at hm
    · split at hm
      · exact bte hm
      · exact event_next (ev := .request _) hm
    · exact event_next hm

end Sys2Proof.Machine
end

