-- ==== Sys2Proof/Laws/Transport.lean ====
section
/-!
SUPPORT. What the positions of the bit-transport engine do: a delay, a cell, the cells of a frame and a message, up to
how long the delays lasted; the bounded loops; and how the target's answers are used up.
-/

namespace Sys2Proof.Machine

open Sys2Proof Sys2Proof.Safety

/-! ## States that differ in the delay registers only -/

/-- Equal up to time: the same state with other values in the three registers of the delay loop. -/
theorem eraseTime_eq_iff {t u : State} :
    eraseTime t = eraseTime u ↔ ∃ cd fc ws, t = { u with countdown := cd, freeCount := fc, waitStart := ws } := by
  constructor
  · intro h
    refine ⟨t.countdown, t.freeCount, t.waitStart, ?_⟩
    have : { eraseTime t with countdown := t.countdown, freeCount := t.freeCount, waitStart := t.waitStart }
        = { eraseTime u with countdown := t.countdown, freeCount := t.freeCount, waitStart := t.waitStart } := by
      rw [h]
    exact this
  · rintro ⟨cd, fc, ws, rfl⟩; rfl

/-- What a position does, up to time, does not depend on time. -/
theorem eraseTime_runMicro {s u : State} (h : eraseTime s = eraseTime u) (m : Micro) :
    eraseTime (runMicro m s) = eraseTime (runMicro m u) := by
  obtain ⟨cd, fc, ws, rfl⟩ := eraseTime_eq_iff.1 h
  cases m <;> first | rfl | skip
  simp only [runMicro, doMicro, sampleDin]
  cases u.target <;> rfl

theorem eraseTime_runMicros {s u : State} (h : eraseTime s = eraseTime u) (ms : List Micro) :
    eraseTime (runMicros ms s) = eraseTime (runMicros ms u) := by
  induction ms generalizing s u with
  | nil => exact h
  | cons m ms ih => exact ih (eraseTime_runMicro h m)

theorem runMicros_append (a b : List Micro) (s : State) : runMicros (a ++ b) s = runMicros b (runMicros a s) := by
  induction a generalizing s with
  | nil => rfl
  | cons m a ih => exact ih _

@[simp] theorem runMicro_cfg (m : Micro) (s : State) : (runMicro m s).cfg = s.cfg := by
  cases m <;> first | rfl | skip
  simp only [runMicro, doMicro, sampleDin]
  cases s.target <;> rfl

@[simp] theorem runMicros_cfg (ms : List Micro) (s : State) : (runMicros ms s).cfg = s.cfg := by
  induction ms generalizing s with
  | nil => rfl
  | cons m ms ih => rw [runMicros, ih, runMicro_cfg]

/-- A position writes BTE state only (spec/00_scope.md R8). -/
theorem runMicro_eq_withBte (m : Micro) (s : State) : runMicro m s = withBte (runMicro m s) s := by
  cases m <;> first | rfl | skip
  simp only [runMicro, doMicro, sampleDin]
  cases s.target <;> rfl

theorem runMicros_eq_withBte (ms : List Micro) (s : State) : runMicros ms s = withBte (runMicros ms s) s := by
  induction ms generalizing s with
  | nil => rfl
  | cons m ms ih =>
    rw [runMicros, ih, runMicro_eq_withBte m s]; rfl

/-! ## The target's answers -/

/-- Once `n` answers are used up and the pin shows the last of them, the coming answers start at `n`. -/
theorem answer_of_used {s t : State} (n : Nat) (hn : 1 ≤ n) (ht : t.target = s.target.drop n)
    (hd : t.din = answer s (n - 1)) (k : Nat) : answer t k = answer s (n + k) := by
  have key (l : List Bit) (d : Bit) : (l.drop n).getD k ((l.drop n).getLast?.getD (l.getD (n - 1) (l.getLast?.getD d)))
      = l.getD (n + k) (l.getLast?.getD d) := by
    by_cases h : n < l.length
    · have hlast : (l.drop n).getLast? = l.getLast? := by
        rw [List.getLast?_drop]; simp [show ¬ l.length ≤ n by omega]
      have : l ≠ [] := by rintro rfl; simp at h
      obtain ⟨x, hx⟩ : ∃ x, l.getLast? = some x := ⟨_, List.getLast?_eq_some_getLast this⟩
      rw [hlast, hx]
      simp [List.getD_eq_getElem?_getD, List.getElem?_drop]
    · rw [List.drop_eq_nil_of_le (by omega)]
      simp only [List.getD_eq_getElem?_getD, List.getElem?_nil, List.getLast?_nil, Option.getD_none]
      rw [List.getElem?_eq_none (i := n + k) (by omega), Option.getD_none]
      by_cases he : n - 1 < l.length
      · have hne : l ≠ [] := by rintro rfl; simp at he
        rw [List.getLast?_eq_getElem?, show l.length - 1 = n - 1 by omega, List.getElem?_eq_getElem he]
        simp
      · rw [List.getElem?_eq_none (by omega), Option.getD_none]
  simp only [answer, ht, hd]
  exact key _ _

/-- A sample takes the next answer (spec/41_bit_transport.md R131). -/
theorem sampleDin_eq (s : State) :
    sampleDin s = { s with
      din := answer s 0, bIn := answer s 0, target := s.target.drop 1, pinTrace := .i (answer s 0) :: s.pinTrace } := by
  unfold sampleDin answer
  cases h : s.target with
  | nil => simp
  | cons b l => simp

/-! ## The countdown register (spec/10_state.md R29; spec/40_timing_primitive.md R121) -/

@[simp] theorem countDown_zero (c : Params) (now : Nat) : countDown c now 0 = now := by simp [countDown]

/-- One more tick: down by one, and CD_RELOAD after 0. -/
theorem countDown_succ (c : Params) (now k : Nat) :
    countDown c now (k + 1) = if countDown c now k = 0 then c.cdReload else countDown c now k - 1 := by
  unfold countDown
  have hm := Nat.mod_lt (k - now - 1) (show 0 < c.cdReload + 1 by omega)
  have step : (k - now - 1 + 1) % (c.cdReload + 1)
      = if (k - now - 1) % (c.cdReload + 1) = c.cdReload then 0 else (k - now - 1) % (c.cdReload + 1) + 1 := by
    rw [← Nat.mod_add_mod]
    split
    · rename_i h; rw [h, Nat.mod_self]
    · exact Nat.mod_eq_of_lt (by omega)
  rcases Nat.lt_trichotomy k now with h | rfl | h
  · simp only [if_pos (show k + 1 ≤ now by omega), if_pos (show k ≤ now by omega)]
    rw [if_neg (by omega)]; omega
  · simp
  · simp only [if_neg (show ¬ k + 1 ≤ now by omega), if_neg (show ¬ k ≤ now by omega)]
    rw [show k + 1 - now - 1 = k - now - 1 + 1 by omega, step]
    split <;> split <;> omega

theorem countDown_le (c : Params) {now : Nat} (h : now ≤ c.cdReload) (k : Nat) : countDown c now k ≤ c.cdReload := by
  unfold countDown; split <;> omega

/-- A delay's loop sees the ticks since its start, less than one whole period of the counter. -/
theorem elapsed_countDown (c : Params) (now : Nat) {k : Nat} (h : k ≤ c.cdReload) :
    elapsed c now (countDown c now k) = k := by
  have hk : k % (c.cdReload + 1) = k := Nat.mod_eq_of_lt (by omega)
  unfold elapsed countDown
  split
  · have hm := Nat.mod_lt (now - k) (Nat.succ_pos c.cdReload)
    have hd := Nat.div_add_mod (now - k) (c.cdReload + 1)
    rw [show now + (c.cdReload + 1) - (now - k) % (c.cdReload + 1)
        = k + (c.cdReload + 1) * ((now - k) / (c.cdReload + 1) + 1) by rw [Nat.mul_add]; omega,
      Nat.add_mul_mod_self_left, hk]
  · have hm : (k - now - 1) % (c.cdReload + 1) = k - now - 1 := Nat.mod_eq_of_lt (by omega)
    rw [hm, Nat.mod_eq_of_lt (show c.cdReload - (k - now - 1) < c.cdReload + 1 by omega),
      show now + (c.cdReload + 1) - (c.cdReload - (k - now - 1)) = k by omega, hk]

/-! ## A delay, a cell -/

theorem eraseTime_wait (n us : Nat) (s : State) :
    eraseTime (runMicros [.waitStart, .waitPoll n us] s) = eraseTime { s with pinTrace := .w us :: s.pinTrace } := rfl

/-- A delay shows `delayTrace` and changes nothing else but time (spec/40_timing_primitive.md R122). -/
theorem eraseTime_delay (c : Params) (t : Nat) (s : State) :
    eraseTime (runMicros (delay c t) s) = eraseTime { s with pinTrace := (delayTrace c t).reverse ++ s.pinTrace } := by
  unfold delay delayTrace
  split
  · exact eraseTime_wait _ _ _
  · generalize (t + 999) / 1000 = n
    induction n generalizing s with
    | zero => rfl
    | succ n ih =>
      rw [List.replicate_succ, List.flatten_cons, runMicros_append, eraseTime_runMicros (eraseTime_wait _ _ _), ih,
        List.replicate_succ, List.reverse_cons, List.append_assoc]
      rfl

/-- A cell (R132): `d` is the drive position and `b` the bit it drives. -/
theorem eraseTime_cell (c : Params) (d : Micro) (b : Bit) (s : State)
    (hd : ∀ u : State, u.shiftOut = s.shiftOut → u.bitCnt = s.bitCnt →
      runMicro d u = { u with dout := b, pinTrace := .o b :: u.pinTrace }) :
    eraseTime (runMicros (cell c d) s) = eraseTime { s with
      dclk := 1#1, dout := b, din := answer s 0, bIn := answer s 0, target := s.target.drop 1
      pinTrace := (cellTrace c b (answer s 0)).reverse ++ s.pinTrace } := by
  rw [cell, runMicros_append, eraseTime_delay, runMicros_append]
  have step1 : eraseTime (runMicros ([.clk 0#1] ++ delay c c.tFallHold ++ [d, .sample]) s) = eraseTime { s with
      dclk := 0#1, dout := b, din := answer s 0, bIn := answer s 0, target := s.target.drop 1
      pinTrace := .i (answer s 0) :: .o b :: ((delayTrace c c.tFallHold).reverse ++ .c 0#1 :: s.pinTrace) } := by
    rw [runMicros_append, runMicros_append,
      eraseTime_runMicros (eraseTime_delay c c.tFallHold (runMicros [.clk 0#1] s)) [d, .sample]]
    have two (u : State) : runMicros [d, .sample] u = sampleDin (runMicro d u) := rfl
    rw [two, hd, sampleDin_eq] <;> rfl
  have step2 : eraseTime (runMicros ([.clk 0#1] ++ delay c c.tFallHold ++ [d, .sample] ++ delay c c.tDataHold) s)
      = eraseTime { s with
      dclk := 0#1, dout := b, din := answer s 0, bIn := answer s 0, target := s.target.drop 1
      pinTrace := (delayTrace c c.tDataHold).reverse ++
        .i (answer s 0) :: .o b :: ((delayTrace c c.tFallHold).reverse ++ .c 0#1 :: s.pinTrace) } := by
    rw [runMicros_append, eraseTime_runMicros step1, eraseTime_delay]
  obtain ⟨cd, fc, ws, h⟩ := eraseTime_eq_iff.1 step2
  rw [h]
  simp [runMicros, runMicro, doMicro, eraseTime, cellTrace]

/-! ## The cells of a frame -/

/-- `v` with its `n` low bits replaced by the next `n` answers, the first of them highest. -/
def heardInto (s : State) (n : Nat) (v : BitVec 17) : BitVec 17 :=
  BitVec.ofFnLE fun i : Fin 17 => if i.val < n then decide (answer s (n - 1 - i.val) = 1#1) else v.getLsbD i.val

theorem getLsbD_heardInto (s : State) (n : Nat) (v : BitVec 17) (i : Nat) (hi : i < 17) :
    (heardInto s n v).getLsbD i = if i < n then decide (answer s (n - 1 - i) = 1#1) else v.getLsbD i := by
  simp [heardInto, hi]

theorem getLsbD_setFrameBit (v : BitVec 17) (n : Nat) (b : Bit) (i : Nat) (hi : i < 17) (hn : n < 17) :
    (setFrameBit v n b).getLsbD i = if i = n then decide (b = 1#1) else v.getLsbD i := by
  have hb : b = 0#1 ∨ b = 1#1 := by
    rcases Nat.lt_or_ge b.toNat 1 with h | h
    · left; apply BitVec.eq_of_toNat_eq; simp; omega
    · right; apply BitVec.eq_of_toNat_eq; have := b.isLt; simp; omega
  have hone (k : Nat) : (1#17 : BitVec 17).getLsbD k = decide (k = 0) := by
    rcases k with _ | k
    · decide
    · simp
  rw [setFrameBit]
  simp only [BitVec.getLsbD_or, BitVec.getLsbD_and, BitVec.getLsbD_not, BitVec.getLsbD_shiftLeft, hi, hone]
  by_cases h : i = n
  · subst h
    rcases hb with rfl | rfl <;> simp [hi]
  · by_cases hlt : i < n
    · simp [h, hlt]
    · rcases hb with rfl | rfl <;> simp [h, hlt, show i - n ≠ 0 by omega]

/-- The trace of the cells of BITCNT `n-1` down to 0, driving the low bits of `v`. -/
def cellsTrace (s : State) (v : BitVec 17) (n : Nat) : List PinEvent :=
  (List.range n).flatMap fun i => cellTrace s.cfg (BitVec.ofBool (v.getLsbD (n - 1 - i))) (answer s i)

theorem eraseTime_frameCell (s : State) (n : Nat) (hn : n < 17) :
    eraseTime (runMicros (frameCell s.cfg n) s) = eraseTime { s with
      dclk := 1#1, dout := BitVec.ofBool (s.shiftOut.getLsbD n), din := answer s 0, bIn := answer s 0
      target := s.target.drop 1, bitCnt := BitVec.ofNat 5 n, shiftIn := setFrameBit s.shiftIn n (answer s 0)
      pinTrace := (cellTrace s.cfg (BitVec.ofBool (s.shiftOut.getLsbD n)) (answer s 0)).reverse ++ s.pinTrace } := by
  have hcnt : (BitVec.ofNat 5 n).toNat = n := by simp; omega
  rw [frameCell, runMicros, runMicros_append]
  have hcell := eraseTime_cell s.cfg .driveShift (BitVec.ofBool (s.shiftOut.getLsbD n))
    (runMicro (.count (BitVec.ofNat 5 n)) s) (by
      intro u hu hc
      simp only [runMicro, doMicro] at hu hc ⊢
      rw [hu, hc, hcnt])
  obtain ⟨cd, fc, ws, h⟩ := eraseTime_eq_iff.1 hcell
  rw [h]
  simp [runMicros, runMicro, doMicro, eraseTime, hcnt, answer]

theorem eraseTime_frameCells (n : Nat) (hn : n < 17) (s : State) :
    eraseTime (runMicros (frameCells s.cfg (n + 1)) s) = eraseTime { s with
      dclk := 1#1, dout := BitVec.ofBool (s.shiftOut.getLsbD 0), din := answer s n, bIn := answer s n
      target := s.target.drop (n + 1), bitCnt := 0#5, shiftIn := heardInto s (n + 1) s.shiftIn
      pinTrace := (cellsTrace s s.shiftOut (n + 1)).reverse ++ s.pinTrace } := by
  induction n generalizing s with
  | zero =>
    rw [frameCells, frameCells, List.append_nil, eraseTime_frameCell s 0 (by omega)]
    have : setFrameBit s.shiftIn 0 (answer s 0) = heardInto s 1 s.shiftIn := by
      apply BitVec.eq_of_getLsbD_eq
      intro i hi
      rw [getLsbD_setFrameBit _ _ _ _ hi (by omega), getLsbD_heardInto _ _ _ _ hi]
      rcases i with _ | i <;> simp
    rw [this]
    simp [cellsTrace, List.range_succ]
  | succ n ih =>
    rw [frameCells, runMicros_append, eraseTime_runMicros (eraseTime_frameCell s (n + 1) hn)]
    set u : State := { s with
      dclk := 1#1, dout := BitVec.ofBool (s.shiftOut.getLsbD (n + 1)), din := answer s 0, bIn := answer s 0
      target := s.target.drop 1, bitCnt := BitVec.ofNat 5 (n + 1), shiftIn := setFrameBit s.shiftIn (n + 1) (answer s 0)
      pinTrace := (cellTrace s.cfg (BitVec.ofBool (s.shiftOut.getLsbD (n + 1))) (answer s 0)).reverse ++ s.pinTrace }
      with hu
    have hans (k : Nat) : answer u k = answer s (1 + k) := answer_of_used 1 (by omega) rfl rfl k
    have := ih (by omega) u
    rw [show u.cfg = s.cfg from rfl] at this
    rw [this]
    have hin : heardInto u (n + 1) u.shiftIn = heardInto s (n + 2) s.shiftIn := by
      apply BitVec.eq_of_getLsbD_eq
      intro i hi
      rw [getLsbD_heardInto _ _ _ _ hi, getLsbD_heardInto _ _ _ _ hi, hans,
        show u.shiftIn = setFrameBit s.shiftIn (n + 1) (answer s 0) from rfl, getLsbD_setFrameBit _ _ _ _ hi hn]
      by_cases h1 : i < n + 1
      · simp [h1, show i < n + 2 by omega, show 1 + (n - i) = n + 1 - i by omega]
      · by_cases h2 : i = n + 1
        · simp [h2]
        · simp [h1, h2, show ¬ i < n + 2 by omega]
    have htr : (cellsTrace u u.shiftOut (n + 1)).reverse ++ u.pinTrace
        = (cellsTrace s s.shiftOut (n + 2)).reverse ++ s.pinTrace := by
      have : cellsTrace s s.shiftOut (n + 2)
          = cellTrace s.cfg (BitVec.ofBool (s.shiftOut.getLsbD (n + 1))) (answer s 0) ++ cellsTrace u u.shiftOut (n + 1) := by
        simp only [cellsTrace, List.range_succ_eq_map (n := n + 1), List.flatMap_cons, List.flatMap_map]
        congr 1
        apply List.flatMap_congr
        intro i _
        rw [hans, show u.cfg = s.cfg from rfl, show u.shiftOut = s.shiftOut from rfl, Nat.add_comm 1 i,
          show n + 2 - 1 - Nat.succ i = n + 1 - 1 - i by omega]
      rw [this]
      simp [hu, List.append_assoc]
    rw [hin, htr, hans]
    simp [hu, eraseTime, Nat.add_comm 1 n]

/-! ## A message -/

theorem heardInto_seventeen (s : State) (v : BitVec 17) : heardInto s 17 v = heard s 0 := by
  apply BitVec.eq_of_getLsbD_eq
  intro i hi
  rw [getLsbD_heardInto _ _ _ _ hi]
  simp [heard, hi]

/-- `MsgTxRx(w)` (R133): one message. -/
theorem eraseTime_message (w : Half) (s : State) :
    eraseTime (runMicros (message s.cfg w) s) = eraseTime { s with
      dclk := 1#1, dout := BitVec.ofBool (w.getLsbD 0), din := answer s 16, bIn := answer s 16
      shiftOut := 0#1 ++ w, shiftIn := heard s 0, bitCnt := 0#5, target := s.target.drop 17
      pinTrace := (messageTrace s w 0).reverse ++ s.pinTrace } := by
  have h := eraseTime_frameCells 16 (by omega) (runMicros [.loadOut w, .clearIn] s)
  rw [message, runMicros_append]
  rw [show (runMicros [.loadOut w, .clearIn] s).cfg = s.cfg by simp] at h
  rw [h, heardInto_seventeen]
  have h0 : (0#1 ++ w : BitVec 17).getLsbD 0 = w.getLsbD 0 := by
    simp only [BitVec.getLsbD_append]; simp
  simp only [runMicros, runMicro, doMicro, eraseTime, h0]
  simp only [cellsTrace, messageTrace, outBit, answer, heard, Nat.zero_add]

theorem afterMessages_iff {w : Half} {n : Nat} {s t : State} :
    AfterMessages w n s t ↔ eraseTime t = eraseTime { s with
      dclk := 1#1, dout := BitVec.ofBool (w.getLsbD 0), din := answer s (17 * n - 1), bIn := answer s (17 * n - 1)
      shiftOut := 0#1 ++ w, shiftIn := heard s (17 * (n - 1)), bitCnt := 0#5, target := s.target.drop (17 * n)
      pinTrace := (messagesTrace s w n).reverse ++ s.pinTrace } := by
  rw [eraseTime_eq_iff]; rfl

/-- The first message. -/
theorem afterMessages_one (w : Half) (s : State) : AfterMessages w 1 s (runMicros (message s.cfg w) s) := by
  rw [afterMessages_iff, eraseTime_message]
  simp [messagesTrace, List.range_succ]

/-- One more message. -/
theorem afterMessages_succ {w : Half} {n : Nat} {s t : State} (hn : 1 ≤ n) (h : AfterMessages w n s t) :
    AfterMessages w (n + 1) s (runMicros (message s.cfg w) t) := by
  have hcfg : t.cfg = s.cfg := by obtain ⟨_, _, _, rfl⟩ := h; rfl
  have hans (k : Nat) : answer t k = answer s (17 * n + k) := by
    obtain ⟨_, _, _, rfl⟩ := h
    exact answer_of_used (17 * n) (by omega) rfl rfl k
  have hmsg := eraseTime_message w t
  rw [hcfg] at hmsg
  have hheard : heard t 0 = heard s (17 * n) := by simp only [heard, hans, Nat.zero_add]
  have htrace : messageTrace t w 0 = messageTrace s w (17 * n) := by
    simp only [messageTrace, hans, hcfg, Nat.zero_add]
  rw [afterMessages_iff, hmsg, hheard, htrace, hans]
  obtain ⟨cd, fc, ws, rfl⟩ := h
  simp only [eraseTime, messagesTrace, List.range_succ, List.flatMap_append, List.reverse_append, List.flatMap_singleton,
    List.append_assoc, List.drop_drop]
  simp [Nat.mul_succ]

/-- The frame registers after `n` messages hold the last frame. -/
theorem afterMessages_frame {w : Half} {n : Nat} {s t : State} (h : AfterMessages w n s t) :
    t.shiftIn = heard s (17 * (n - 1)) := by obtain ⟨_, _, _, rfl⟩ := h; rfl

/-- The status bit of a heard frame is its first sample. -/
theorem heard_status (s : State) (o : Nat) : (heard s o).extractLsb' 16 1 = heardStatus s o := by
  apply BitVec.eq_of_getLsbD_eq
  intro i hi
  obtain rfl : i = 0 := by omega
  have hb : ∀ b : Bit, b.getLsbD 0 = decide (b = 1#1) := by decide
  rw [heardStatus, hb (answer s o)]
  simp [heard]

/-! ## Bounded loops -/

theorem attempts_le (stop : Nat → Bool) (n : Nat) : attempts stop n ≤ n := by
  induction n generalizing stop with
  | zero => exact Nat.le_refl 0
  | succ n ih => rw [attempts]; have := ih (fun k => stop (k + 1)); split <;> omega

theorem attempts_pos (stop : Nat → Bool) {n : Nat} (h : 1 ≤ n) : 1 ≤ attempts stop n := by
  cases n with
  | zero => omega
  | succ n => rw [attempts]; split <;> omega

/-- No attempt before the last one ended the loop. -/
theorem attempts_before (stop : Nat → Bool) (n k : Nat) (h : k + 1 < attempts stop n) : stop k = false := by
  induction n generalizing stop k with
  | zero => simp [attempts] at h
  | succ n ih =>
    rw [attempts] at h
    split at h
    · omega
    · rename_i h0
      cases k with
      | zero => simpa using h0
      | succ k => exact ih (fun j => stop (j + 1)) k (by omega)

/-- The last attempt ended the loop, or the bound did. -/
theorem attempts_last (stop : Nat → Bool) (n : Nat) (h : 1 ≤ n) :
    stop (attempts stop n - 1) = true ∨ attempts stop n = n := by
  induction n generalizing stop with
  | zero => omega
  | succ n ih =>
    rw [attempts]
    split
    · left; simpa
    · rcases Nat.eq_zero_or_pos n with rfl | hn
      · right; simp [attempts]
      · have hp := attempts_pos (fun k => stop (k + 1)) hn
        rcases ih (fun k => stop (k + 1)) hn with h' | h'
        · left
          rw [show 1 + attempts (fun k => stop (k + 1)) n - 1 = (attempts (fun k => stop (k + 1)) n - 1) + 1 by omega]
          exact h'
        · right; omega

end Sys2Proof.Machine
end

