-- ==== Sys2Proof/Laws/Kept.lean ====
section
/-!
SUPPORT. What no row, no turn and no completion writes: the parameters, the script and boot's two marks; and that none of
them sets RESET_DETECTED, which the RESET operation alone clears.
-/

namespace Sys2Proof.Machine

open Sys2Proof Sys2Proof.Safety

/-- `t` has the parameters, the script and boot's marks of `s`, and RESET_DETECTED at most cleared (spec/10_state.md R20,
R25; log 32). -/
def Kept (s t : State) : Prop :=
  t.cfg = s.cfg ∧ t.script = s.script ∧ t.bootBteDone = s.bootBteDone ∧ t.bootIntDone = s.bootIntDone
    ∧ (t.resetDetected = 1#1 → s.resetDetected = 1#1)

theorem Kept.refl (s : State) : Kept s s := ⟨rfl, rfl, rfl, rfl, id⟩

theorem Kept.trans {s t u : State} (h : Kept s t) (g : Kept t u) : Kept s u :=
  ⟨g.1.trans h.1, g.2.1.trans h.2.1, g.2.2.1.trans h.2.2.1, g.2.2.2.1.trans h.2.2.2.1,
    h.2.2.2.2 ∘ g.2.2.2.2⟩

/-! ## The bit-transport engine -/

theorem kept_doMicro (m : Micro) (s : State) : Kept s (doMicro m s) := by
  cases m <;> first | exact ⟨rfl, rfl, rfl, rfl, id⟩ | skip
  · simp only [doMicro, sampleDin_eq]; exact ⟨rfl, rfl, rfl, rfl, id⟩
  · exact ⟨rfl, rfl, rfl, rfl, fun h => absurd h (by simp [doMicro])⟩

theorem kept_runMicros (ms : List Micro) (s : State) : Kept s (runMicros ms s) := by
  induction ms generalizing s with
  | nil => exact Kept.refl s
  | cons m ms ih =>
    refine Kept.trans ?_ (ih _)
    unfold runMicro; split
    · exact Kept.trans (t := timerRuns _ s) ⟨rfl, rfl, rfl, rfl, id⟩ (kept_doMicro _ _)
    · exact kept_doMicro m s

theorem kept_finish (op : ReqOp) (n : Nat) (rest : List Micro) (tail : Tail) (s : State) :
    Kept s (finish op n rest tail s) := by
  induction n generalizing rest tail s with
  | zero => exact (kept_runMicros rest s).trans ⟨rfl, rfl, rfl, rfl, id⟩
  | succ n ih =>
    have h := kept_runMicros rest s
    simp only [finish]
    split
    · exact h.trans ⟨rfl, rfl, rfl, rfl, id⟩
    · exact h.trans (ih _ _ _)

theorem kept_resume (s : State) : Kept s (resume s) := by
  unfold resume; split
  · exact Kept.refl s
  · exact kept_finish ..

theorem kept_advance (s : State) : Kept s (advance s) := by
  unfold advance
  split
  · exact Kept.refl s
  · split
    · exact ⟨rfl, rfl, rfl, rfl, id⟩
    · have hm (op : ReqOp) (m : Micro) (rest : List Micro) (tail : Tail) :
          Kept s { doMicro m s with bteSeq := .running op rest tail } :=
        (kept_doMicro m s).trans ⟨rfl, rfl, rfl, rfl, id⟩
      simp only; split
      · split
        · exact hm ..
        · exact Kept.refl s
      · exact hm ..

/-! ## The operations of the CTS -/

theorem kept_submit (e : Endpoint) (ptr : Word) (n : BitVec 10) (s : State) : Kept s (submit e ptr n s).state := by
  rw [submit_eq]; split <;> simp [Kept, Flow.state]

/-- Two operations in sequence, a fault or not. -/
theorem kept_andThen {s : State} {f : Flow} {k : State → Flow} (hf : Kept s f.state)
    (hk : ∀ u, Kept u (k u).state) : Kept s (f.andThen k).state := by
  cases f with
  | go u => exact hf.trans (hk u)
  | halted u => exact hf

theorem kept_consume {e : Endpoint} {d : Dir} {p : Bit} {s : State} {k : BitVec 10 → State → Flow}
    (hk : ∀ n u, Kept u (k n u).state) : Kept s (consume e d p s k).state := by
  rw [consume_eq]; split
  · exact hk _ _
  · exact ⟨rfl, rfl, rfl, rfl, id⟩

theorem kept_ackRequest (s : State) : Kept s (ackRequest s).state :=
  kept_andThen (kept_submit ..) fun _ => ⟨rfl, rfl, rfl, rfl, id⟩

theorem kept_handlerReturn (s : State) : Kept s (handlerReturn s).state := by
  rw [handlerReturn_eq]; exact ⟨rfl, rfl, rfl, rfl, id⟩

theorem kept_serviceChunk (s : State) : Kept s (serviceChunk s).state := by
  unfold serviceChunk
  split
  · exact kept_andThen (kept_submit ..) fun _ => ⟨rfl, rfl, rfl, rfl, id⟩
  · split
    · exact kept_andThen (kept_submit ..) fun _ => ⟨rfl, rfl, rfl, rfl, id⟩
    · exact ⟨rfl, rfl, rfl, rfl, id⟩

theorem kept_startResponse (ptr : Word) (len limit : Half) (s : State) :
    Kept s (startResponse ptr len limit s).state := by
  unfold startResponse
  simp only
  generalize hu : ({ s with
    zlpPending := if owesZlp len limit then 1#1 else 0#1
    cursorPtr := ptr
    cursorRemaining := responseSize len limit } : State) = u
  have h0 : Kept s u := by subst hu; exact ⟨rfl, rfl, rfl, rfl, id⟩
  refine h0.trans ?_
  split
  · exact kept_andThen (kept_submit ..) fun _ => ⟨rfl, rfl, rfl, rfl, id⟩
  · refine kept_andThen (kept_serviceChunk u) fun v => kept_andThen ?_ fun _ => ⟨rfl, rfl, rfl, rfl, id⟩
    split
    · exact kept_serviceChunk v
    · exact Kept.refl v

theorem kept_rebuildEndpoints (es : List Endpoint) (s : State) : Kept s (rebuildEndpoints es s) := by
  induction es generalizing s with
  | nil => exact Kept.refl s
  | cons e es ih => exact Kept.trans (by simp [Kept, rebuildEndpoint]) (ih _)

theorem kept_ctsEnter (s : State) : Kept s (ctsEnter s) := by
  unfold ctsEnter; split <;> exact ⟨rfl, rfl, rfl, rfl, id⟩

theorem kept_condition (v : Byte) (s : State) : Kept s (conditionDone v (ackStatus v s)) := by
  simp [Kept]

theorem kept_busResetRebuild (s : State) : Kept s (busResetRebuild s) := by
  have h := kept_rebuildEndpoints s.cfg.activeEndpoints s
  simpa [Kept, busResetRebuild] using h

theorem kept_ackStatus (v : Byte) (s : State) : Kept s (ackStatus v s) := by simp [Kept]

/-! ## Rows, turns, completions -/

/-- Every row. -/
theorem exec_kept {i : Instr} {s t : State} (h : exec i s = .next t) : Kept s t := by
  have flow {f : Flow} (hf : Kept s f.state) (h : f.outcome = .next t) : Kept s t := by
    cases h; exact hf
  have request {op : ReqOp} (h : runRequest op s = .next t) : Kept s t := by
    unfold runRequest at h
    split at h <;> cases h
    · exact Kept.trans ⟨rfl, rfl, rfl, rfl, id⟩ (kept_resume _)
    · exact Kept.refl s
  have done {f : Flow} (hf : Kept s f.state) : Kept s (f.andThen handlerReturn).state :=
    kept_andThen hf kept_handlerReturn
  cases i with
  | tx w => exact request h
  | txrx w => exact request h
  | txc => exact request h
  | rxr => exact request h
  | resync => exact request h
  | halt => exact request h
  | reset b => exact request h
  | bteIllegal req => exact request h
  | vendor rt code value index length =>
    simp only [exec, execVendor, vendorAnswer_eq] at h
    generalize hu : ({ s with
      usbTrace := .vendorRequest { requestType := rt, requestCode := code, value := value, index := index, length := length }
        :: s.usbTrace
      vendorAnswers := s.vendorAnswers.tail } : State) = u at h
    have h0 : Kept s u := by subst hu; exact ⟨rfl, rfl, rfl, rfl, id⟩
    refine flow (done (h0.trans ?_)) h
    split
    · exact kept_startResponse ..
    · exact kept_ackRequest u
    · exact ⟨rfl, rfl, rfl, rfl, id⟩
    · exact Kept.refl u
  | getDescriptor rt value index length =>
    refine flow (done ?_) h
    split
    · exact kept_startResponse ..
    · exact ⟨rfl, rfl, rfl, rfl, id⟩
  | setAddress rt value index length =>
    have h0 : Kept s { s with addrValue := value.extractLsb' 0 7, addrPending := 1#1 } := ⟨rfl, rfl, rfl, rfl, id⟩
    exact flow (done (h0.trans (kept_ackRequest _))) h
  | setConfiguration rt value index length => exact flow (done (kept_ackRequest s)) h
  | unrecognised rt code value index length => exact flow (done (f := stallPath s) ⟨rfl, rfl, rfl, rfl, id⟩) h
  | ep0Setup p =>
    refine flow (kept_consume fun n u => ?_) h
    split
    · exact ⟨rfl, rfl, rfl, rfl, id⟩
    · simp [Kept, Flow.state, rearm_eq]
  | ep0Out p =>
    refine flow (done (kept_consume fun n u => ?_)) h
    simp [Kept, Flow.state, rearm_eq]
  | ep0In p =>
    refine flow (done (kept_consume fun n u => kept_andThen ?_ fun v => ?_)) h
    · split
      · exact kept_serviceChunk u
      · exact Kept.refl u
    · simp only [applyAddress_eq]; exact ⟨rfl, rfl, rfl, rfl, id⟩
  | ep0Unexpected e => exact flow (done (kept_consume fun n u => ⟨rfl, rfl, rfl, rfl, id⟩)) h
  | epnDefault e =>
    simp only [exec, execEpnDefault] at h
    refine flow (done ?_) h
    exact ⟨rfl, rfl, rfl, rfl, id⟩
  | usbrst =>
    simp only [exec, execUsbrst] at h
    cases h
    exact ((kept_busResetRebuild s).trans (kept_ackStatus _ _)).trans ⟨rfl, rfl, rfl, rfl, id⟩
  | error => cases h; exact Kept.trans ⟨rfl, rfl, rfl, rfl, id⟩ (kept_condition 0x02#8 _)
  | softok => cases h; exact kept_condition 0x04#8 s
  | tokdne => cases h; rw [callPhase_eq]; exact ⟨rfl, rfl, rfl, rfl, id⟩
  | sleep => cases h; exact kept_condition 0x10#8 s
  | stall => cases h; exact kept_condition 0x80#8 s

theorem bteTurn_kept {s t : State} (h : bteTurn s = .next t) : Kept s t := by
  rcases bteTurn_next h with rfl | rfl | ⟨c, i, _, _, h⟩
  · exact Kept.refl _
  · exact kept_resume s
  · exact exec_kept h

theorem ctsTurn_kept {s t : State} (h : ctsTurn s = .next t) : Kept s t := by
  rcases ctsTurn_next h with rfl | ⟨c, i, _, _, h⟩
  · exact Kept.refl _
  · exact (kept_ctsEnter s).trans (exec_kept h)

theorem bteMicroTurn_kept {s t : State} (h : bteMicroTurn s = .next t) : Kept s t := by
  rcases bteMicroTurn_next h with rfl | rfl | ⟨op, rfl⟩
  · exact Kept.refl _
  · exact kept_advance s
  · exact ⟨rfl, rfl, rfl, rfl, id⟩

theorem kept_receive {k : BitVec 4} {e : Endpoint} {tog : Bit} {bytes : List Byte} {s t : State}
    (h : receive k e tog bytes s = .next t) : Kept s t := by
  unfold receive at h
  simp only at h
  split at h
  · cases h
  · simp only [Host.Outcome.next.injEq] at h
    subst h
    split <;> simp [Kept, reply, clearEp0Stall]

end Sys2Proof.Machine
end

