-- ==== Sys2Proof/Laws/PerInstr.lean ====
section
/-!
SUPPORT. Per-instruction facts: the code of every well-formed operation has the size its format has (spec/30_encoding.md
R90, R108, R109), so every row can be presented to the block.
-/

namespace Sys2Proof.Laws.EncodedSize

open Sys2Proof

/-- A code has the size of its format: a request fits REQ_LEN, a setup packet is 8 bytes, any 12 bits are an
event code, and the encoder's condition is one bit that is not reserved. -/
def Sized : Code → Prop
  | .req bytes => bytes.length ≤ 255
  | .setup bytes => bytes.length = 8
  | .token _ => True
  | .cond st => st &&& 0x60#8 = 0#8 ∧ st ≠ 0#8 ∧ st &&& (st - 1#8) = 0#8

/-- The code of a well-formed operation has its format's size. -/
def Statement (i : Instr) : Prop := i.wf = true → Sized (encode i)

theorem tx (w : Half) : Statement (.tx w) := fun _ => by simp [encode, Sized]

theorem txrx (w : Half) : Statement (.txrx w) := fun _ => by simp [encode, Sized]

theorem txc : Statement .txc := fun _ => by simp [encode, Sized]

theorem rxr : Statement .rxr := fun _ => by simp [encode, Sized]

theorem resync : Statement .resync := fun _ => by simp [encode, Sized]

theorem halt : Statement .halt := fun _ => by simp [encode, Sized]

theorem reset (h : Bit) : Statement (.reset h) := fun _ => by simp [encode, Sized]

theorem bteIllegal (req : List Byte) : Statement (.bteIllegal req) := by
  intro h
  simp only [Instr.wf, Bool.and_eq_true, decide_eq_true_eq] at h
  exact h.1

theorem vendor (rt code : Byte) (value index length : Half) :
    Statement (.vendor rt code value index length) := fun _ => rfl

theorem getDescriptor (rt : Byte) (value index length : Half) :
    Statement (.getDescriptor rt value index length) := fun _ => rfl

theorem setAddress (rt : Byte) (value index length : Half) :
    Statement (.setAddress rt value index length) := fun _ => rfl

theorem setConfiguration (rt : Byte) (value index length : Half) :
    Statement (.setConfiguration rt value index length) := fun _ => rfl

theorem unrecognised (rt code : Byte) (value index length : Half) :
    Statement (.unrecognised rt code value index length) := fun _ => rfl

theorem ep0Setup (p : Bit) : Statement (.ep0Setup p) := fun _ => trivial

theorem ep0Out (p : Bit) : Statement (.ep0Out p) := fun _ => trivial

theorem ep0In (p : Bit) : Statement (.ep0In p) := fun _ => trivial

theorem ep0Unexpected (t : BitVec 12) : Statement (.ep0Unexpected t) := fun _ => trivial

theorem epnDefault (t : BitVec 12) : Statement (.epnDefault t) := fun _ => trivial

theorem usbrst : Statement .usbrst := fun _ => ⟨by decide, by decide, by decide⟩

theorem error : Statement .error := fun _ => ⟨by decide, by decide, by decide⟩

theorem softok : Statement .softok := fun _ => ⟨by decide, by decide, by decide⟩

theorem tokdne : Statement .tokdne := fun _ => ⟨by decide, by decide, by decide⟩

theorem sleep : Statement .sleep := fun _ => ⟨by decide, by decide, by decide⟩

theorem stall : Statement .stall := fun _ => ⟨by decide, by decide, by decide⟩

end Sys2Proof.Laws.EncodedSize
end

