-- ==== Sys2Proof/Tests/Slice0.lean ====
section
/-!
SUPPORT. The model's own tests: ill-formed terms, the decoding of words written out from the encoding tables, one-step
tests whose expected values are the derived vectors of spec/95_test_vectors.md (their names cite them), and, for every
statement with hypotheses, a concrete state that meets them.
-/

namespace Sys2Proof.Tests

-- One theorem after the other: many kernel evaluations at once would need a thread each.
set_option Elab.async false

open Sys2Proof Sys2Proof.Machine Sys2Proof.Safety

/-! ## Well-formedness: one ill-formed term for each check -/

theorem test_wf_vendor_needs_the_vendor_class : (Instr.vendor 0x80 0x01 0 0 0).wf = false := by decide

theorem test_wf_vendor_class_claims_every_code :
    (Instr.getDescriptor 0xC0 0 0 0).wf = false ∧ (Instr.setAddress 0x40 0 0 0).wf = false
      ∧ (Instr.setConfiguration 0x40 0 0 0).wf = false ∧ (Instr.unrecognised 0xC0 0x01 0 0 0).wf = false := by
  decide

theorem test_wf_unrecognised_has_no_known_code :
    (Instr.unrecognised 0x00 0x05 0 0 0).wf = false ∧ (Instr.unrecognised 0x80 0x06 0 0 0).wf = false
      ∧ (Instr.unrecognised 0x00 0x09 0 0 0).wf = false := by decide

theorem test_wf_illegal_request_selects_nothing :
    (Instr.bteIllegal [0x03]).wf = false ∧ (Instr.bteIllegal [0x01, 0x12, 0x34]).wf = false
      ∧ (Instr.bteIllegal [0x07, 0x01]).wf = false ∧ (Instr.bteIllegal [0x07, 0x02]).wf = true := by decide

theorem test_wf_illegal_request_fits_the_length_register :
    (Instr.bteIllegal (List.replicate 256 0x00)).wf = false := by decide +kernel

theorem test_wf_unexpected_event_is_unexpected_on_endpoint_zero :
    (Instr.ep0Unexpected 0x00D).wf = false ∧ (Instr.ep0Unexpected 0x109).wf = false := by decide

theorem test_wf_default_handler_is_not_endpoint_zero : (Instr.epnDefault 0x009).wf = false := by decide

/-! ## Decoding: words written out from the encoding tables -/

/-- V30.1: 01 12 34. -/
theorem test_decode_tx : decode (.req [0b00000001, 0b00010010, 0b00110100]) = .ok (.tx 0x1234) := by decide

theorem test_decode_txrx : decode (.req [0b00000010, 0b10100101, 0b11000011]) = .ok (.txrx 0xA5C3) := by decide

theorem test_decode_txc : decode (.req [0b00000011]) = .ok .txc := by decide

/-- R93: RXR needs three bytes, of which two are ignored. -/
theorem test_decode_rxr : decode (.req [0b00000100, 0b11111111, 0b10000001]) = .ok .rxr := by decide

theorem test_decode_resync : decode (.req [0b00000101]) = .ok .resync := by decide

theorem test_decode_halt : decode (.req [0b00000110]) = .ok .halt := by decide

/-- V30.2: 07 01. -/
theorem test_decode_reset : decode (.req [0b00000111, 0b00000001]) = .ok (.reset 1) := by decide

/-- V30.3, V41.11: a reserved bit, an unknown selector, a short TX, an empty request. -/
theorem test_decode_illegal :
    decode (.req [0b00000111, 0b00000010]) = .ok (.bteIllegal [0x07, 0x02])
      ∧ decode (.req [0b00001000]) = .ok (.bteIllegal [0x08])
      ∧ decode (.req [0b00000001, 0b00010010]) = .ok (.bteIllegal [0x01, 0x12])
      ∧ decode (.req []) = .ok (.bteIllegal []) := by decide

/-- V30.7: C0 01 00 00 00 00 02 00. -/
theorem test_decode_vendor :
    decode (.setup [0b11000000, 0b00000001, 0, 0, 0, 0, 0b00000010, 0]) = .ok (.vendor 0xC0 0x01 0 0 2) := by decide

/-- V30.5, V30.8: 80 06 00 01 00 00 40 00; the class type does not matter. -/
theorem test_decode_getDescriptor :
    decode (.setup [0b10000000, 0b00000110, 0, 0b00000001, 0, 0, 0b01000000, 0])
        = .ok (.getDescriptor 0x80 0x0100 0x0000 0x0040)
      ∧ decode (.setup [0b10100001, 0b00000110, 0, 0b00000001, 0, 0, 0b00010010, 0])
        = .ok (.getDescriptor 0xA1 0x0100 0x0000 0x0012) := by decide

/-- V30.6, V30.9. -/
theorem test_decode_setAddress :
    decode (.setup [0, 0b00000101, 0b00000101, 0, 0, 0, 0, 0]) = .ok (.setAddress 0x00 0x0005 0 0)
      ∧ decode (.setup [0b11100000, 0b00000101, 0b00000111, 0, 0, 0, 0, 0]) = .ok (.setAddress 0xE0 0x0007 0 0) := by
  decide

theorem test_decode_setConfiguration :
    decode (.setup [0, 0b00001001, 0b00000001, 0, 0, 0, 0, 0]) = .ok (.setConfiguration 0x00 0x0001 0 0) := by decide

/-- The request of V43.15. -/
theorem test_decode_unrecognised :
    decode (.setup [0b10000000, 0b00001000, 0, 0, 0, 0, 0b00000001, 0]) = .ok (.unrecognised 0x80 0x08 0 0 1) := by
  decide

/-- V30.15: endpoint 0000, RX 0, ODD 1, 00, SETUP 1101. -/
theorem test_decode_ep0Setup : decode (.token 0b000001001101) = .ok (.ep0Setup 1) := by decide

theorem test_decode_ep0Out : decode (.token 0b000001000001) = .ok (.ep0Out 1) := by decide

/-- V30.16. -/
theorem test_decode_ep0In : decode (.token 0b000011001001) = .ok (.ep0In 1) := by decide

/-- V30.17: kind IN on a receive slot. -/
theorem test_decode_ep0Unexpected : decode (.token 0b000000001001) = .ok (.ep0Unexpected 0x009) := by decide

/-- V30.18: endpoint 0001, TX 1, EVEN 0, 00, IN 1001. -/
theorem test_decode_epnDefault : decode (.token 0b000110001001) = .ok (.epnDefault 0x189) := by decide

/-- R104: bus reset before everything. -/
theorem test_decode_usbrst : decode (.cond 0b00001001) = .ok .usbrst := by decide

theorem test_decode_error : decode (.cond 0b10011110) = .ok .error := by decide

theorem test_decode_softok : decode (.cond 0b00001100) = .ok .softok := by decide

theorem test_decode_tokdne : decode (.cond 0b10011000) = .ok .tokdne := by decide

theorem test_decode_sleep : decode (.cond 0b10010000) = .ok .sleep := by decide

theorem test_decode_stall : decode (.cond 0b10000000) = .ok .stall := by decide

/-- R108: a reserved bit is refused; no bit selects nothing. -/
theorem test_decode_condition_rejects :
    decode (.cond 0b01000001) = .error .reservedCondition ∧ decode (.cond 0) = .error .noCondition := by
  constructor <;> rfl

/-- V30.10 to V30.13: control words from their fields. -/
theorem test_control_words :
    ctlWord 18 1 1 0 = 0x001200C0 ∧ ctlWord 18 0 1 0x9 = 0x00120064 ∧ ctlWord 8 0 0 0xD = 0x00080034
      ∧ ctlWord 0 0 1 0x1 = 0x00000044 := by decide

/-- V30.4: slot 3 of endpoint 0, slot 13 at its address. -/
theorem test_slot_addresses :
    slotIndex 0 .tx 1 = 3 ∧ slotIndex 3 .rx 1 = 13 ∧ slotAddr Config.exampleParams 3 .rx 1 = 0x1FFF8068 := by decide

/-! ## Helpers -/

/-- The next state, if there is one. -/
def nextOf : Host.Outcome State Fault Refusal → Option State
  | .next t => some t
  | .fault _ => none
  | .refused _ => none

/-- A fact about the next state. -/
def afterwards (o : Host.Outcome State Fault Refusal) (p : State → Bool) : Bool := (nextOf o).any p

/-- The bits of a response frame, status first. -/
def frameBits (st : Bit) (d : Half) : List Bit := st :: (List.range 16).map fun k => BitVec.ofBool (d.getMsbD k)

/-- A BTE at power-on with these answers of the target to come and this request in its buffer. -/
def bench (answers : List Bit) (req : List Byte) : State := { State.reset with target := answers, reqBuf := req }

/-- The levels a trace drives on DOUT, oldest first. -/
def driven : List PinEvent → List Bit
  | [] => []
  | .o b :: l => driven l ++ [b]
  | _ :: l => driven l

/-- The BKPT, RST and delay events of a trace outside the cells' hold times, oldest first. -/
def control : List PinEvent → List PinEvent
  | [] => []
  | .b a :: l => control l ++ [.b a]
  | .r a :: l => control l ++ [.r a]
  | .w us :: l => if us = 1 then control l else control l ++ [.w us]
  | _ :: l => control l

/-- The state with these events of the environment to come. -/
def scripted (script : List Event) (s : State) : State := { s with script := script }

/-- State B of spec/95_test_vectors.md section 2.2. -/
def stateB : State := busResetRebuild State.reset

/-- An invocation in progress that has only TOKDNE to do, with one record queued. -/
def handling (s : State) : State :=
  { s with
    intStatus := 0x08
    queue := [{ endpoint := 0, dir := .rx, parity := 0 }]
    ctsSeq := .inInvocation 0x08 0x08 .token }

/-- A transmit or receive slot of endpoint 0 as its two words. -/
def slotWords (s : State) (d : Dir) (p : Bit) : Word × Word := (slotBuf s 0 d p, slotCtl s 0 d p)

/-! ## One step of the bit-transport engine (V41) -/

/-- V41.4. -/
theorem test_tx_drives_a_zero_then_the_word :
    afterwards (exec (.tx 0x1234) (bench [] [0x01, 0x12, 0x34])) (fun t =>
      driven t.pinTrace = [0, 0, 0, 0, 1, 0, 0, 1, 0, 0, 0, 1, 1, 0, 1, 0, 0] && t.result = 0x00
        && t.reqBuf = [0x01, 0x12, 0x34] && t.bteSeq = .idle) = true := by decide +kernel

/-- V41.5. -/
theorem test_txrx_reports_and_does_not_judge :
    afterwards (exec (.txrx 0xA5C3) (bench (frameBits 1 0x0001) [0x02, 0xA5, 0xC3])) (fun t =>
      t.result = 0x00 && t.reqBuf = [0x01, 0x00, 0x01] && t.dout = 1 && t.dclk = 1) = true := by decide +kernel

/-- R140, R142: TXRX returns in five positions, REQ_BUF[0], [1], [2], RESULT and BUSY, here with the frame 1 A5C3; another
agent's event between the last two finds RESULT written and BUSY still 1. -/
theorem test_return_writes_one_register_at_a_time :
    let s := { State.reset with
      shiftIn := 0x1A5C3, reqBuf := [0x02, 0x10, 0x20], result := 0xEE
      bteSeq := .running (.txrx 0) (returnWrites 0x00 true) .leave
      script := [.bteMicro, .bteMicro, .bteMicro, .bteMicro, .sof, .bteMicro] }
    afterwards (step s) (fun t => t.reqBuf = [0x01, 0x10, 0x20] && t.result = 0xEE && busy t = 1 &&
      afterwards (step t) (fun t => t.reqBuf = [0x01, 0xA5, 0x20] &&
        afterwards (step t) (fun t => t.reqBuf = [0x01, 0xA5, 0xC3] && t.result = 0xEE &&
          afterwards (step t) (fun t => t.result = 0x00 && busy t = 1 &&
            afterwards (step t) (fun t => t.intStatus = 0x04 && busy t = 1 &&
              afterwards (step t) (fun t => t.result = 0x00 && busy t = 0)))))) = true := by decide +kernel

/-- V41.6 c. -/
theorem test_txc_gives_up_after_the_budget :
    afterwards (exec .txc (bench (frameBits 1 0 ++ frameBits 1 0 ++ frameBits 1 0) [0x03])) (fun t =>
      t.result = 0x01 && samples t.pinTrace = 51) = true := by decide +kernel

/-- V41.6 d. -/
theorem test_txc_does_not_look_at_the_word :
    afterwards (exec .txc (bench (frameBits 1 0xFFFF ++ frameBits 0 0) [0x03])) (fun t =>
      t.result = 0x00 && samples t.pinTrace = 34) = true := by decide +kernel

/-- V41.7 f. -/
theorem test_rxr_tests_the_exit_before_the_budget :
    afterwards (exec .rxr (bench (frameBits 1 0 ++ frameBits 1 0 ++ frameBits 1 0xFFFF) [0x04, 0, 0])) (fun t =>
      t.result = 0x02 && t.reqBuf = [0x01, 0xFF, 0xFF] && samples t.pinTrace = 51) = true := by decide +kernel

/-- V41.7 e. -/
theorem test_rxr_takes_the_sentinel_beside_status_zero_as_data :
    afterwards (exec .rxr (bench (frameBits 0 0) [0x04, 0, 0])) (fun t =>
      t.result = 0x00 && t.reqBuf = [0x00, 0x00, 0x00] && samples t.pinTrace = 17) = true := by decide +kernel

/-- V41.8 a. -/
theorem test_resync_finds_a_dead_channel :
    afterwards (exec .resync (bench (List.replicate 34 0 ++ frameBits 1 0xFFFC) [0x05])) (fun t =>
      t.result = 0x03 && samples t.pinTrace = 51) = true := by decide +kernel

/-- V41.8 b. -/
theorem test_resync_completes_after_the_start_bit :
    afterwards (exec .resync (bench (List.replicate 34 0 ++ frameBits 1 0xFFFF ++ [1, 1, 0]) [0x05])) (fun t =>
      t.result = 0x00 && samples t.pinTrace = 70 && t.probe = 17) = true := by decide +kernel

/-- V41.9. -/
theorem test_halt_holds_the_breakpoint_pin :
    afterwards (exec .halt (bench (frameBits 1 0x0001) [0x06])) (fun t =>
      t.result = 0x02 && control t.pinTrace = [.b true, .w 100, .b false] && t.bkpt = 1 && t.reqBuf = [0x06]
        && samples t.pinTrace = 17) = true := by decide +kernel

/-- R14, R24, R146: the asserted level is bit 0 of BTE_CFG, here each of its two values. -/
theorem test_halt_drives_the_active_level :
    (advance (accept .halt { State.reset with bteCfg := 0b01, bkpt := 0 })).bkpt = 1
      ∧ (advance (accept .halt { State.reset with bteCfg := 0b10 })).bkpt = 0 := by decide +kernel

/-- V41.10 with `hold_bkpt`. -/
theorem test_reset_orders_its_pins :
    afterwards (exec (.reset 1) { bench (frameBits 0 0xFFFF) [0x07, 0x01] with resetDetected := 1 }) (fun t =>
      control t.pinTrace = [.b true, .r true, .w 50000, .r false, .w 10000, .b false] && t.resetDetected = 0
        && t.result = 0x00) = true := by decide +kernel

/-- R147: the second position of RESET with `hold_bkpt` drives RST to bit 1 of BTE_CFG. -/
theorem test_reset_drives_the_active_level :
    (advance (advance (accept (.reset 1) { State.reset with bteCfg := 0b10, rst := 0 }))).rst = 1
      ∧ (advance (advance (accept (.reset 1) { State.reset with bteCfg := 0b01 }))).rst = 0 := by decide +kernel

/-- V41.10 without. -/
theorem test_reset_leaves_the_breakpoint_pin :
    afterwards (exec (.reset 0) (bench (frameBits 0 0xFFFF) [0x07, 0x00])) (fun t =>
      control t.pinTrace = [.r true, .w 50000, .r false, .w 10000]) = true := by decide +kernel

/-- V41.11. -/
theorem test_illegal_request_does_nothing_but_report :
    afterwards (exec (.bteIllegal [0x07, 0x02]) (bench [1] [0x07, 0x02])) (fun t =>
      t.result = 0x05 && t.pinTrace = [] && t.reqBuf = [0x07, 0x02] && t.target = [1]) = true := by decide +kernel

/-! ## Hand-off (V42) -/

/-- State B as section 2.2 lists it. -/
theorem test_state_b :
    slotWords stateB .rx 0 = (0x1FFF8200, 0x004000C0) ∧ slotWords stateB .rx 1 = (0x1FFF8240, 0x004000C0)
      ∧ slotWords stateB .tx 0 = (0, 0) ∧ slotWords stateB .tx 1 = (0, 0) ∧ stateB.epCtl[0] = 0x01
      ∧ stateB.intEnable = 0x9F := by decide +kernel

/-- V42.1. -/
theorem test_submit :
    let t := (submit 0 0x00002000 18 { stateB with toggle := stateB.toggle.set 0 .tx 1 }).state
    slotWords t .tx 0 = (0x00002000, 0x001200C0) ∧ t.toggle.get 0 .tx = 0 ∧ t.parity.get 0 .tx = 1
      ∧ t.faults = [] := by decide +kernel

/-- V42.6. -/
theorem test_rearm :
    slotWords (rearm 0 0 stateB) .rx 0 = (0x1FFF8200, 0x004000C0) ∧ (rearm 0 0 stateB).parity.get 0 .rx = 1 := by
  decide +kernel

/-- R163's control word, and D24: the same for every endpoint. -/
theorem test_every_receive_slot_is_armed_with_64_bytes : ∀ e : Endpoint, armedCtl e = 0x004000C0 := by decide

/-- V42.7 to V42.10: the tokens the SIE does not complete. -/
theorem test_tokens_that_complete_nothing :
    afterwards (applyEvent (.hostOut 0 0 0 []) stateB) (fun t => t = { stateB with busTrace := t.busTrace }) = true
      ∧ afterwards (applyEvent (.hostIn 0 0 true) stateB) (fun t => t.mem = stateB.mem && t.queue = []) = true
      ∧ afterwards (applyEvent (.hostIn 0 0 true) (writeEp0Ctl 0x03 stateB)) (fun t =>
          t.intStatus = 0x80 && t.queue = []) = true
      ∧ afterwards (applyEvent (.hostIn 0 0 true) { stateB with devAddr := 5 }) (fun t => t.queue = []) = true := by
  decide +kernel

/-! ## Endpoint 0 (V43, P1, P2) -/

/-- State B while a SETUP event is handled: the toggle is 1 and Classify is next. -/
def requested : State :=
  { handling stateB with
    toggle := stateB.toggle.set 0 .tx 1
    ctsSeq := .inInvocation 0x08 0x08 .request }

/-- V43.8. -/
theorem test_getDescriptor_sends_two_chunks_and_keeps_the_rest :
    afterwards (exec (.getDescriptor 0x80 0x0301 0x0409 0x00C8) requested) (fun t =>
      slotWords t .tx 0 = (0x3000, 0x004000C0) && slotWords t .tx 1 = (0x3040, 0x00400080) && t.cursorValid = 1
        && t.cursorPtr = 0x3080 && t.cursorRemaining = 2 && t.ctlState = .dataStage && t.ctsSeq = .idle) = true := by
  decide +kernel

/-- V43.13: the index is part of the key. -/
theorem test_getDescriptor_without_an_entry_stalls :
    afterwards (exec (.getDescriptor 0x80 0x0100 0x0001 0x0012) requested) (fun t =>
      t.epCtl[0] = 0x03 && t.ctlState = .awaitingSetup && t.mem = requested.mem) = true := by decide +kernel

/-- V43.20. -/
theorem test_setAddress_records_seven_bits :
    afterwards (exec (.setAddress 0x00 0x0085 0 0) requested) (fun t =>
      t.addrValue = 0x05 && t.addrPending = 1 && t.devAddr = 0 && slotWords t .tx 0 = (0, 0x000000C0)
        && t.ctlState = .statusPending) = true := by decide +kernel

/-- V43.14. -/
theorem test_setConfiguration_acknowledges :
    afterwards (exec (.setConfiguration 0x00 0x0001 0 0) requested) (fun t =>
      slotWords t .tx 0 = (0, 0x000000C0) && t.ctlState = .statusPending && t.addrPending = 0) = true := by
  decide +kernel

/-- V43.15. -/
theorem test_unrecognised_stalls :
    afterwards (exec (.unrecognised 0x80 0x08 0 0 1) requested) (fun t =>
      t.epCtl[0] = 0x03 && slotWords t .tx 0 = (0, 0)) = true := by decide +kernel

/-- V43.16. -/
theorem test_vendor_response_is_truncated :
    afterwards (exec (.vendor 0xC0 0x01 0 0 2) { requested with vendorAnswers := [.respond 0x4000 3] }) (fun t =>
      slotWords t .tx 0 = (0x4000, 0x000200C0) && slotWords t .tx 1 = (0, 0)) = true := by decide +kernel

/-- V43.17. -/
theorem test_vendor_may_answer_nothing :
    afterwards (exec (.vendor 0xC0 0x01 0 0 2) requested) (fun t =>
      t.mem = requested.mem && t.ctlState = requested.ctlState && t.epCtl = requested.epCtl && t.queue = []) = true := by
  decide +kernel

/-- State B after the SETUP token of P1 step 3. -/
def setupArrived : State :=
  (nextOf (applyEvent (.hostSetup 0 0 (Setup.mk 0x80 0x06 0x0100 0 0x0040)) stateB)).getD stateB

/-- P1 step 3. -/
theorem test_setup_token_completes_slot_zero :
    slotWords setupArrived .rx 0 = (0x1FFF8200, 0x00080034) ∧ setupArrived.sieParity.get 0 .rx = 1
      ∧ setupArrived.tokStatus = 0x00 ∧ setupArrived.intStatus = 0x08
      ∧ readBytes setupArrived 0x1FFF8200 8 = [0x80, 0x06, 0x00, 0x01, 0x00, 0x00, 0x40, 0x00] := by decide +kernel

/-- P1 step 4, first part. -/
theorem test_ep0Setup_snapshots_and_rearms :
    afterwards (exec (.ep0Setup 0) { setupArrived with addrPending := 1, cursorValid := 1 }) (fun t =>
      t.setup = Setup.mk 0x80 0x06 0x0100 0 0x0040 && slotWords t .rx 0 = (0x1FFF8200, 0x004000C0)
        && t.parity.get 0 .rx = 1 && t.toggle.get 0 .tx = 1 && t.addrPending = 0 && t.cursorValid = 0) = true := by
  decide +kernel

/-- V43.21. -/
theorem test_ep0Setup_of_seven_bytes_is_a_fault :
    afterwards (exec (.ep0Setup 0) (writeSlot 0 .rx 0 0x1FFF8200 0x00070034 stateB)) (fun t =>
      t.faults = [.badSetupLength 7] && ctsFetch t = none) = true := by decide +kernel

/-- P1 step 8. -/
theorem test_ep0Out_rearms_and_ends_the_data_stage :
    afterwards (exec (.ep0Out 1) (writeSlot 0 .rx 1 0x1FFF8240 0x00000044
        { handling stateB with ctlState := .dataStage, parity := stateB.parity.set 0 .rx 1 })) (fun t =>
      slotWords t .rx 1 = (0x1FFF8240, 0x004000C0) && t.parity.get 0 .rx = 0 && t.ctlState = .awaitingSetup) = true := by
  decide +kernel

/-- P1 step 12. -/
theorem test_ep0In_applies_the_address :
    afterwards (exec (.ep0In 1) { handling stateB with addrPending := 1, addrValue := 5, ctlState := .statusPending })
      (fun t => t.devAddr = 5 && t.addrPending = 0 && t.ctlState = .awaitingSetup && t.mem = stateB.mem) = true := by
  decide +kernel

/-- P2 step 4. -/
theorem test_ep0In_serves_the_cursor :
    afterwards (exec (.ep0In 0) { handling stateB with
        cursorValid := 1, cursorPtr := 0x3080, cursorRemaining := 2, toggle := stateB.toggle.set 0 .tx 1 }) (fun t =>
      slotWords t .tx 0 = (0x3080, 0x000200C0) && t.cursorPtr = 0x3082 && t.cursorRemaining = 0 && t.cursorValid = 0
        && t.toggle.get 0 .tx = 0 && t.parity.get 0 .tx = 1) = true := by decide +kernel

/-- R205 with the event of V30.17. -/
theorem test_ep0Unexpected_logs :
    afterwards (exec (.ep0Unexpected 0x009) (writeSlot 0 .rx 0 0x1FFF8200 0x00000024 (handling stateB))) (fun t =>
      t.usbTrace.take 2 = [.write .intStatus 0x08, .logUnexpectedToken 0x009]
        && slotWords t .rx 0 = (0x1FFF8200, 0x00000024) && t.queue = []) = true := by decide +kernel

/-- V44.6. -/
theorem test_epnDefault_logs :
    afterwards (exec (.epnDefault 0x189) (handling stateB)) (fun t =>
      t.usbTrace.take 2 = [.write .intStatus 0x08, .logUnexpectedEndpoint 1 1 0] && t.mem = stateB.mem) = true := by
  decide +kernel

/-! ## Dispatcher (V44) -/

/-- An invocation whose snapshot is `st`, nothing of it done. -/
def dispatching (st : Byte) : State := { stateB with intStatus := st, ctsSeq := .inInvocation st st .select }

/-- V44.4. -/
theorem test_usbrst_acknowledges_the_snapshot_unlogged :
    afterwards (exec .usbrst { dispatching 0x07 with intEnable := 0x01, devAddr := 9, sieFrozen := 1 }) (fun t =>
      t.usbTrace.head? = some (.write .intStatus 0x07) && t.intStatus = 0 && t.intEnable = 0x9F && t.devAddr = 0
        && t.sieFrozen = 0 && t.ctsSeq = .idle && !t.usbTrace.contains .logTransferError) = true := by decide +kernel

/-- V44.2, one condition after the other. -/
theorem test_error_is_logged :
    afterwards (exec .error (dispatching 0x9E)) (fun t =>
      t.usbTrace.take 2 = [.write .intStatus 0x02, .logTransferError] && t.intStatus = 0x9C
        && ctsFetch t = some (.cond 0x9C)) = true := by decide +kernel

/-- V44.1. -/
theorem test_softok_then_the_token :
    afterwards (exec .softok (dispatching 0x0C)) (fun t =>
      t.usbTrace.head? = some (.write .intStatus 0x04) && ctsFetch t = some (.cond 0x08)) = true := by decide +kernel

/-- V44.5: TOKDNE stays while a record remains, and is not acknowledged before the handler. -/
theorem test_tokdne_calls_the_handler :
    afterwards (exec .tokdne (dispatching 0x08)) (fun t =>
      t.intStatus = 0x08 && t.usbTrace = stateB.usbTrace && t.ctsSeq = .inInvocation 0x08 0x08 .token) = true := by
  decide +kernel

/-- V44.5. -/
theorem test_acknowledging_shows_the_next_record :
    let s := { stateB with
      intStatus := 0x08, tokStatus := 0x08
      queue := [{ endpoint := 0, dir := .tx, parity := 0 }, { endpoint := 0, dir := .tx, parity := 1 }] }
    (ackStatus 0x08 s).intStatus = 0x08 ∧ (ackStatus 0x08 s).tokStatus = 0x0C ∧ (ackStatus 0x08 s).queue.length = 1 := by
  decide +kernel

/-- R237. -/
theorem test_sleep_is_acknowledged :
    afterwards (exec .sleep (dispatching 0x90)) (fun t =>
      t.intStatus = 0x80 && ctsFetch t = some (.cond 0x80)) = true := by decide +kernel

/-- P6 step 4. -/
theorem test_stall_leaves_the_endpoint_stalled :
    afterwards (exec .stall { dispatching 0x80 with epCtl := stateB.epCtl.set 0 0x03 }) (fun t =>
      t.intStatus = 0 && t.epCtl[0] = 0x03 && t.ctsSeq = .idle) = true := by decide +kernel

/-! ## Steps -/

/-- V44.3: masked conditions do not invoke the CTS; a step without anything to do changes nothing. -/
theorem test_masked_condition_waits :
    nextOf (step { State.reset with intStatus := 0x08, intEnable := 0x01 })
      = some { State.reset with intStatus := 0x08, intEnable := 0x01 } := by decide +kernel

/-- P1 steps 1 and 2: the bus reset freezes the SIE and the invocation rebuilds. -/
theorem test_step_bus_reset_then_rebuild :
    let s := { State.reset with intEnable := 0x01, script := [.busReset] }
    afterwards (step s) (fun t => t.sieFrozen = 1 && t.intStatus = 0x01 && afterwards (step t) (fun u =>
      slotWords u .rx 1 = (0x1FFF8240, 0x004000C0) && u.epCtl[0] = 0x01 && u.sieFrozen = 0)) = true := by decide +kernel

/-- R292, R293: boot's duties, INT_ENABLE without its reserved bits (R104); nothing of boot after a bus reset (R275). -/
theorem test_step_boot_comes_once_and_first :
    afterwards (step (scripted [.bootIntEnable 0xFF] State.reset)) (fun t =>
        t.intEnable = 0x9F && afterwards (step (scripted [.bootIntEnable 0xFF] t)) (fun _ => true) = false) = true
      ∧ afterwards (step (scripted [.busReset] State.reset)) (fun t =>
        afterwards (step (scripted [.bootBte 3] t)) (fun _ => true) = false) = true := by decide +kernel

/-- R72: a frozen SIE may still change a byte of an armed buffer, here the last of EP0_RXBUF EVEN. -/
theorem test_sieBuffer_while_frozen :
    afterwards (applyEvent (.sieBuffer 0 0 63 0x5A) { stateB with sieFrozen := 1 }) (fun t =>
      readByte t 0x1FFF823F = 0x5A) = true := by decide +kernel

/-- The example of R121: from 0x10, 0x30 ticks take COUNTDOWN through its reload to 0xFFFFE0. -/
theorem test_ticks_pass_the_reload :
    afterwards (applyEvent (.tick 0x30) { State.reset with countdown := 0x10 }) (fun t => t.countdown = 0xFFFFE0) = true := by
  decide +kernel

/-- A request to come waits while an earlier one is running (R140, U6): the event stays. -/
theorem test_step_request_waits_for_the_running_one :
    let s := { accept (.txrx 0x1234) (bench (frameBits 1 0xFFFF) [0x02, 0x12, 0x34]) with script := [.request [0x03]] }
    afterwards (step s) (fun t => t.script = [.request [0x03]] && t.reqBuf = [0x01, 0xFF, 0xFF] && busy t = 0) = true := by
  decide +kernel

/-- The host's placement (log 20): one row of each format. -/
theorem test_fetch_word_placement :
    afterwards (step (State.reset.withFetchWord 16 0x0107)) (fun t => t.pinTrace.contains (.r true)) = true
      ∧ afterwards (step (State.reset.withFetchWord 64 0x0000000000050500)) (fun t => t.addrValue = 5) = true
      ∧ afterwards (step (State.reset.withFetchWord 12 0x04D)) (fun t =>
          slotWords t .rx 1 = (0x1FFF8240, 0x004000C0)) = true
      ∧ afterwards (step (State.reset.withFetchWord 8 0x02)) (fun t =>
          t.usbTrace.contains .logTransferError) = true := by decide +kernel

/-! ## Witnesses: concrete states and operands that meet the hypotheses of each statement

One theorem for each statement that has hypotheses, named after it; each conjunct is the hypotheses of one clause at a
boundary of its range. A statement without hypotheses (its clauses at most choose among operands) has none here. -/

/-- State B with every transmit slot of endpoint 0 still the SIE's. -/
def allBusy : State := writeSlot 0 .tx 0 0 0x000000C0 (writeSlot 0 .tx 1 0 0x00000080 stateB)

/-- State B with the other transmit slot of endpoint 0 still the SIE's. -/
def otherBusy : State := writeSlot 0 .tx 1 0 0x00000080 stateB

/-- A BTE in the middle of TXC. -/
def running : State := accept .txc State.reset

/-- The smallest and the largest retry budget and probe bound. -/
def withBounds (n : Nat) (s : State) : State := { s with cfg := { s.cfg with retryBudget := n, resyncProbeMax := n } }

theorem canonical_of_memWf {s : State} (h : memWf s.cfg s.mem = true) : MemoryCanonical s := h

theorem stateB_canonical : MemoryCanonical stateB := canonical_of_memWf (by decide +kernel)

theorem handling_canonical : MemoryCanonical (handling stateB) := stateB_canonical

theorem test_hypotheses_DecodeOfEncodeIsTheInstruction :
    (Instr.tx 0xFFFF).wf = true ∧ (Instr.bteIllegal (List.replicate 255 0x08)).wf = true ∧ (Instr.bteIllegal []).wf = true
      ∧ (Instr.vendor 0xC0 0x06 0 0 0).wf = true ∧ (Instr.getDescriptor 0x80 0xFFFF 0xFFFF 0xFFFF).wf = true
      ∧ (Instr.setAddress 0xE0 0 0 0).wf = true ∧ (Instr.setConfiguration 0x20 0 0 0).wf = true
      ∧ (Instr.unrecognised 0x9F 0x08 0 0 0).wf = true ∧ (Instr.ep0Unexpected 0x0FF).wf = true
      ∧ (Instr.epnDefault 0x100).wf = true ∧ (Instr.epnDefault 0xFFF).wf = true := by decide +kernel

theorem test_hypotheses_DecodedInstructionIsWellFormed :
    decode (.req [0x07, 0x00]) = .ok (.reset 0)
      ∧ decode (.setup [0x40, 0xFF, 1, 2, 3, 4, 5, 6]) = .ok (.vendor 0x40 0xFF 0x0201 0x0403 0x0605)
      ∧ (0x0CF : BitVec 12).extractLsb' 4 2 = 0#2 ∧ decode (.token 0x0CF) = .ok (.ep0Unexpected 0x0CF) := by decide

theorem test_hypotheses_RequestSelectsByFirstByte :
    (List.replicate 252 (0xFF : Byte)).length ≤ 252 ∧ (List.replicate 254 (0xFF : Byte)).length ≤ 254
      ∧ (List.replicate 253 (0xFF : Byte)).length ≤ 253 ∧ (List.replicate 255 (0x00 : Byte)).length ≤ 255
      ∧ (List.replicate 255 (0x00 : Byte)).head? = some 0x00#8
      ∧ ([0x08#8].head? = some 0x08#8 ∧ 0x08#8 ≤ 0x08#8) ∧ ([0xFF#8].head? = some 0xFF#8 ∧ 0x08#8 ≤ 0xFF#8)
      ∧ ([0x04#8, 0x00#8].length < 3 ∧ [0x04#8, 0x00#8].head? = some 0x04#8)
      ∧ ([0x01#8].length < 3 ∧ [0x01#8].head? = some 0x01#8) ∧ [0x07#8].length ≤ 255 := by decide +kernel

theorem test_hypotheses_StepRunsTheDecodedOperation :
    let tokenToDo := { stateB with intStatus := 0x08 }
    let requestToDo := { stateB with reqBuf := [0x03], reqValid := true }
    let busyBte := accept .txc stateB
    configOk stateB.cfg = true ∧ stateB.intStatus &&& 0x60#8 = 0#8
      ∧ (tokenToDo.intStatus &&& 0x60#8 = 0#8 ∧ tokenToDo.script = [] ∧ ctsFetch tokenToDo = some (.cond 0x08)
        ∧ decode (.cond 0x08) = .ok .tokdne)
      ∧ (requestToDo.script = [] ∧ ctsFetch requestToDo = none ∧ bteFetch requestToDo = some (.req [0x03])
        ∧ decode (.req [0x03]) = .ok .txc)
      ∧ (busyBte.script = [] ∧ ctsFetch busyBte = none
        ∧ busyBte.bteSeq = .running .txc (program stateB.cfg .txc).1 (program stateB.cfg .txc).2)
      ∧ (stateB.script = [] ∧ ctsFetch stateB = none ∧ stateB.bteSeq = .idle ∧ stateB.reqValid = false)
      ∧ ctsFetch (scripted [.cts] tokenToDo) = some (.cond 0x08)
      ∧ bteFetch (scripted [.bte] requestToDo) = some (.req [0x03])
      ∧ bteFetch (scripted [.request [0x05]] requestToDo) = some (.req [0x03])
      ∧ (scripted [.request [0x05]] busyBte).bteSeq = busyBte.bteSeq
      ∧ ((scripted [.request (List.replicate 255 0xFF)] stateB).bteSeq = .idle
        ∧ (scripted [.request (List.replicate 255 0xFF)] stateB).reqValid = false
        ∧ (List.replicate 255 (0xFF : Byte)).length ≤ 255)
      ∧ (scripted [.bte] busyBte).bteSeq = busyBte.bteSeq ∧ (scripted [.bteMicro] busyBte).script = .bteMicro :: []
      ∧ (scripted [.tick 0] stateB).script = .tick 0 :: [] := by decide +kernel

/-- Where the CTS looks in each phase of an invocation, and the BTE while it is idle. -/
theorem test_hypotheses_StepRunsTheDecodedOperation_fetch :
    let at_ (ph : CtsPhase) : State := { stateB with ctsSeq := .inInvocation 0x9F 0x88 ph }
    stateB.bteSeq = .idle ∧ stateB.faults = [] ∧ (at_ .select).faults = []
      ∧ (at_ .select).ctsSeq = .inInvocation 0x9F 0x88 .select ∧ (at_ .token).ctsSeq = .inInvocation 0x9F 0x88 .token
      ∧ (at_ .request).ctsSeq = .inInvocation 0x9F 0x88 .request := by decide +kernel

theorem test_hypotheses_StepRunsTheDecodedOperation_event : ∀ bytes, Event.tick 0 ≠ .request bytes := nofun

theorem test_hypotheses_TokenEventSelectsByEndpointAndKind :
    State.reset.tokStatus = tokStatusOf { endpoint := 0, dir := .rx, parity := 0 }
      ∧ (let s := { State.reset with tokStatus := 0xFC };
        s.tokStatus = tokStatusOf { endpoint := 15, dir := .tx, parity := 1 }) := by decide +kernel

theorem test_hypotheses_DelayIsNeverShort :
    let small := { State.reset.cfg with cdReload := 48 }
    let top := { State.reset with cfg := small, countdown := 48 }
    (0 * top.cfg.cdTicksPerUs ≤ top.cfg.cdReload ∧ 1 * top.cfg.cdTicksPerUs ≤ top.cfg.cdReload
        ∧ top.countdown ≤ top.cfg.cdReload ∧ State.reset.countdown ≤ State.reset.cfg.cdReload)
      ∧ small.cdReload < 2 * small.cdTicksPerUs
      ∧ (let s := { top with bteSeq := .running .txc (delay top.cfg 1 ++ []) .confirmTest }
        1 * s.cfg.cdTicksPerUs ≤ s.cfg.cdReload ∧ s.bteSeq = .running .txc (delay s.cfg 1 ++ []) .confirmTest)
      ∧ (let s := { top with bteSeq := .running .txc [.waitPoll 48 1] .confirmTest }
        s.bteSeq = .running .txc (.waitPoll 48 1 :: []) .confirmTest) := by
  decide +kernel

theorem test_hypotheses_TxAndTxrxSendOneMessage :
    (bench [] [0x02, 0xA5, 0xC3]).bteSeq = .idle ∧ (bench [] [0x02, 0xA5, 0xC3]).reqBuf = 0x02 :: 0xA5 :: 0xC3 :: [] := by
  decide +kernel

theorem budgets_ok :
    BudgetOk (withBounds 1 State.reset).cfg ∧ BudgetOk (withBounds 255 State.reset).cfg
      ∧ ProbesOk (withBounds 1 State.reset).cfg ∧ ProbesOk (withBounds 255 State.reset).cfg := by
  unfold BudgetOk ProbesOk; decide

theorem test_hypotheses_TxcConfirmsOrIsBusy :
    (withBounds 1 State.reset).bteSeq = .idle ∧ BudgetOk (withBounds 1 State.reset).cfg
      ∧ (withBounds 255 State.reset).bteSeq = .idle ∧ BudgetOk (withBounds 255 State.reset).cfg :=
  ⟨rfl, budgets_ok.1, rfl, budgets_ok.2.1⟩

theorem test_hypotheses_RxrReportsTheLastFrame :
    (withBounds 255 (bench [] [0x04, 0, 0])).bteSeq = .idle ∧ BudgetOk (withBounds 255 (bench [] [0x04, 0, 0])).cfg
      ∧ (withBounds 255 (bench [] [0x04, 0, 0])).reqBuf = 0x04 :: 0 :: 0 :: [] := ⟨rfl, budgets_ok.2.1, rfl⟩

theorem test_hypotheses_ResyncProbesForAStartBit :
    (withBounds 1 State.reset).bteSeq = .idle ∧ ProbesOk (withBounds 1 State.reset).cfg
      ∧ (withBounds 255 State.reset).bteSeq = .idle ∧ ProbesOk (withBounds 255 State.reset).cfg :=
  ⟨rfl, budgets_ok.2.2.1, rfl, budgets_ok.2.2.2⟩

theorem test_hypotheses_HaltHoldsBreakpointThenFlushes :
    ((withBounds 1 State.reset).bteSeq = .idle ∧ BudgetOk (withBounds 1 State.reset).cfg)
      ∧ (let at_ (a : Bool) : State := { State.reset with bteSeq := .running .halt [.bkpt a] (.rxTest false) }
        (at_ true).bteSeq = .running .halt (.bkpt true :: []) (.rxTest false)
          ∧ (at_ false).bteSeq = .running .halt (.bkpt false :: []) (.rxTest false)) :=
  ⟨⟨rfl, budgets_ok.1⟩, rfl, rfl⟩

theorem test_hypotheses_ResetPulsesThenFlushes :
    ((withBounds 255 State.reset).bteSeq = .idle ∧ BudgetOk (withBounds 255 State.reset).cfg)
      ∧ (let at_ (m : Micro) : State := { State.reset with bteSeq := .running (.reset 1) [m] (.rxTest false) }
        (at_ (.rst true)).bteSeq = .running (.reset 1) (.rst true :: []) (.rxTest false)
          ∧ (at_ (.rst false)).bteSeq = .running (.reset 1) (.rst false :: []) (.rxTest false)
          ∧ (at_ .clearResetDetected).bteSeq = .running (.reset 1) (.clearResetDetected :: []) (.rxTest false)) :=
  ⟨⟨rfl, budgets_ok.2.1⟩, rfl, rfl, rfl⟩

theorem test_hypotheses_IllegalRequestOnlyReports : (bench [] [0x08]).bteSeq = .idle := rfl

theorem test_hypotheses_BusyPortAcceptsNothing :
    let asked := { State.reset with reqBuf := [0x05], reqValid := true }
    (reqOpOf .resync = some .resync ∧ busy running = 1#1)
      ∧ (asked.bteSeq = .idle ∧ asked.reqValid = true ∧ asked.reqBuf.length ≤ 255 ∧ decodeReq asked.reqBuf = .resync) := by
  decide +kernel

theorem test_hypotheses_EveryOperationEndsWithinItsCells :
    reqOpOf (.bteIllegal [0xFF]) = some .illegal ∧ (withBounds 255 State.reset).bteSeq = .idle
      ∧ BudgetOk (withBounds 255 State.reset).cfg ∧ ProbesOk (withBounds 255 State.reset).cfg :=
  ⟨rfl, rfl, budgets_ok.2.1, budgets_ok.2.2.2⟩

theorem test_hypotheses_PositionByPositionIsTheSameRun :
    let at_ (left : List Micro) : State := { State.reset with bteSeq := .running .rxr left .leave }
    reqOpOf (.reset 1) = some (.reset 1) ∧ State.reset.bteSeq = .idle
      ∧ (at_ [.putByte 0]).bteSeq = .running .rxr (.putByte 0 :: []) .leave
      ∧ (at_ [.putByte 2]).bteSeq = .running .rxr (.putByte 2 :: []) .leave
      ∧ (at_ [.setResult 5]).bteSeq = .running .rxr (.setResult 5 :: []) .leave
      ∧ (at_ []).bteSeq = .running .rxr [] .leave ∧ busy (at_ []) = 1#1 ∧ busy (advance (at_ [])) = 0#1
      ∧ Tail.probeTest ≠ .leave := by decide

theorem test_hypotheses_CtsOperationsLeaveTheBteAlone :
    isRequest .tokdne = false ∧ ∃ t, exec .tokdne stateB = .next t := ⟨rfl, _, rfl⟩

theorem test_hypotheses_BteOperationsLeaveTheCtsAlone :
    isRequest (.bteIllegal []) = true ∧ ∃ t, exec (.bteIllegal []) running = .next t := ⟨rfl, _, rfl⟩

theorem test_hypotheses_SubmitHandsOverTheTrackedSlot :
    slotFree allBusy 0 .tx (allBusy.parity.get 0 .tx) = false
      ∧ (MemoryCanonical stateB ∧ slotFree stateB 0 .tx (stateB.parity.get 0 .tx) = true)
      ∧ slotFree stateB 15 .tx (stateB.parity.get 15 .tx) = true :=
  ⟨by decide +kernel, ⟨stateB_canonical, by decide +kernel⟩, by decide +kernel⟩

theorem test_hypotheses_ConsumeReadsTheCountOfACompletedSlot :
    slotFree stateB 0 .rx 0 = false ∧ slotFree setupArrived 0 .rx 0 = true ∧ slotFree stateB 15 .tx 1 = true := by
  decide +kernel

theorem test_hypotheses_RearmGivesTheSlotItsOwnBuffer : MemoryCanonical State.reset := memoryCanonical_reset

theorem test_hypotheses_ServiceChunkSendsTheNextPacket :
    (MemoryCanonical stateB ∧ slotFree stateB 0 .tx (stateB.parity.get 0 .tx) = true)
      ∧ (MemoryCanonical allBusy ∧ allBusy.cursorRemaining = 0#16 ∧ allBusy.zlpPending = 0#1)
      ∧ (let s := { allBusy with cursorRemaining := 1 }
        slotFree s 0 .tx (s.parity.get 0 .tx) = false ∧ s.cursorRemaining ≠ 0#16)
      ∧ (let s := { allBusy with zlpPending := 1 }
        slotFree s 0 .tx (s.parity.get 0 .tx) = false ∧ s.zlpPending = 1#1) :=
  ⟨⟨stateB_canonical, by decide +kernel⟩, ⟨canonical_of_memWf (by decide +kernel), by decide +kernel, by decide +kernel⟩,
    by decide +kernel, by decide +kernel⟩

/-- Room for one packet where both slots are not free, and for two where they are. -/
theorem rooms : RoomFor 0x2000 18 0x40 otherBusy ∧ RoomFor 0x3000 130 0xC8 stateB ∧ RoomFor 0x3200 64 0x41 stateB := by
  unfold RoomFor; decide +kernel

theorem test_hypotheses_StartResponseSendsTwoPackets :
    (MemoryCanonical stateB ∧ RoomFor 0x3000 130 0xC8 stateB)
      ∧ slotFree allBusy 0 .tx (allBusy.parity.get 0 .tx) = false
      ∧ (MemoryCanonical otherBusy ∧ slotFree otherBusy 0 .tx (otherBusy.parity.get 0 .tx) = true
        ∧ slotFree otherBusy 0 .tx (otherBusy.parity.get 0 .tx ^^^ 1#1) = false
        ∧ 2 ≤ (answerPackets 0x3000 65 65).length) :=
  ⟨⟨stateB_canonical, rooms.2.1⟩, by decide +kernel,
    canonical_of_memWf (by decide +kernel), by decide +kernel, by decide +kernel, by decide +kernel⟩

/-- The state an operation goes on with, if it goes on. -/
def goOf : Flow → Option State
  | .go t => some t
  | .halted _ => none

theorem test_hypotheses_AnswerIsTruncatedAndTerminated :
    0 < min 1 1 ∧ 0 < min 65535 65535 ∧ min 18 0 = 0 ∧ min 0 5 = 0
      ∧ (goOf (startResponse 0x2000 18 0 stateB)).isSome = true ∧ (goOf (startResponse 0x3000 130 0xC8 stateB)).isSome = true
      ∧ (goOf (serviceChunk stateB)).isSome = true
      ∧ (goOf (serviceChunk { stateB with cursorPtr := 0x3080, cursorRemaining := 2 })).isSome = true
      ∧ ((goOf (startResponse 0x2000 18 18 stateB)).any fun t => (goOf (serveChunks 1 t)).isSome) = true
      ∧ ((goOf (startResponse 0x3000 130 0xC8 stateB)).any fun t => (goOf (serveChunks 0 t)).isSome) = true := by
  decide +kernel

theorem test_hypotheses_GetDescriptorAnswersFromTheTable :
    let first := Config.exampleDescTable.head (by decide)
    (stateB.cfg.descTable = [] ++ first :: Config.exampleDescTable.tail ∧ first.value = 0x0100 ∧ first.index = 0
      ∧ MemoryCanonical stateB ∧ RoomFor 0x3000 130 0xC8 stateB)
    ∧ (let third := Config.exampleDescTable[2]
      stateB.cfg.descTable = Config.exampleDescTable.take 2 ++ third :: Config.exampleDescTable.drop 3
        ∧ (∀ d' ∈ Config.exampleDescTable.take 2, ¬ (d'.value = 0x0300#16 ∧ d'.index = 0x0000#16))
        ∧ third.value = 0x0300#16 ∧ third.index = 0x0000#16)
    ∧ (∀ d ∈ stateB.cfg.descTable, ¬ (d.value = 0x0600#16 ∧ d.index = 0x0000#16)) :=
  ⟨⟨by decide +kernel, rfl, rfl, stateB_canonical, rooms.2.1⟩, by decide +kernel, by decide +kernel⟩

theorem test_hypotheses_ResponseToABusySlotIsAFault :
    (slotFree allBusy 0 .tx (allBusy.parity.get 0 .tx) = false
      ∧ (findDescriptor allBusy.cfg 0x0100 0x0000).isSome = true)
    ∧ (let s := { allBusy with vendorAnswers := [.acknowledge] }
      slotFree s 0 .tx (s.parity.get 0 .tx) = false ∧ s.vendorAnswers.head?.getD s.cfg.vendorDefault = .acknowledge)
    ∧ (let s := { allBusy with vendorAnswers := [.respond 0x2000 0] }
      slotFree s 0 .tx (s.parity.get 0 .tx) = false
        ∧ s.vendorAnswers.head?.getD s.cfg.vendorDefault = .respond 0x2000 0)
    ∧ (let s := { otherBusy with vendorAnswers := [.respond 0x3000 65] }
      ((findDescriptor s.cfg 0x0301 0x0409).map fun d => goOf (startResponse d.pointer d.length 65 s)) = some none
        ∧ s.vendorAnswers.head?.getD s.cfg.vendorDefault = .respond 0x3000 65
        ∧ goOf (startResponse 0x3000 65 65 { s with
          usbTrace := .vendorRequest (Setup.mk 0xC0 0x01 0 0 65) :: s.usbTrace
          vendorAnswers := [] }) = none) := by decide +kernel

theorem test_hypotheses_SetAddressIsDeferred :
    MemoryCanonical stateB ∧ slotFree stateB 0 .tx (stateB.parity.get 0 .tx) = true := ⟨stateB_canonical, by decide +kernel⟩

theorem test_hypotheses_SetConfigurationIsAcknowledged :
    MemoryCanonical otherBusy ∧ slotFree otherBusy 0 .tx (otherBusy.parity.get 0 .tx) = true :=
  ⟨canonical_of_memWf (by decide +kernel), by decide +kernel⟩

theorem test_hypotheses_VendorHandlerPicksOneOfFourActions :
    let answers (a : List VendorAction) (s : State) : State := { s with vendorAnswers := a }
    ((answers [.respond 0x2000 18] otherBusy).vendorAnswers.head?.getD .nothing = .respond 0x2000 18
        ∧ MemoryCanonical (answers [.respond 0x2000 18] otherBusy)
        ∧ RoomFor 0x2000 18 0x40 (answers [.respond 0x2000 18] otherBusy))
      ∧ ((answers [.acknowledge] stateB).vendorAnswers.head?.getD .nothing = .acknowledge
        ∧ MemoryCanonical (answers [.acknowledge] stateB)
        ∧ slotFree (answers [.acknowledge] stateB) 0 .tx ((answers [.acknowledge] stateB).parity.get 0 .tx) = true)
      ∧ (answers [.reject] stateB).vendorAnswers.head?.getD .nothing = .reject
      ∧ (answers [] stateB).vendorAnswers.head?.getD stateB.cfg.vendorDefault = .nothing :=
  ⟨⟨rfl, canonical_of_memWf (by decide +kernel), by unfold RoomFor; decide +kernel⟩,
    ⟨rfl, stateB_canonical, by decide +kernel⟩, rfl, by decide +kernel⟩

theorem setupArrived_canonical : MemoryCanonical setupArrived := canonical_of_memWf (by decide +kernel)

theorem test_hypotheses_SetupEventSnapshotsAndRearms :
    MemoryCanonical setupArrived ∧ slotFree setupArrived 0 .rx 0 = true
      ∧ ctlCount (slotCtl setupArrived 0 .rx 0) = 8#10 :=
  ⟨setupArrived_canonical, by decide +kernel, by decide +kernel⟩

theorem test_hypotheses_BrokenCompletionIsAFault :
    slotFree stateB 0 .rx 1 = false ∧ slotFree allBusy 0 .tx 0 = false
      ∧ (let s := writeSlot 0 .rx 0 0 0x00070034 stateB
        slotFree s 0 .rx 0 = true ∧ ctlCount (slotCtl s 0 .rx 0) ≠ 8#10)
      ∧ (let s := writeSlot 0 .rx 0 0 0x00090034 stateB
        slotFree s 0 .rx 0 = true ∧ ctlCount (slotCtl s 0 .rx 0) ≠ 8#10) := by decide +kernel

theorem test_hypotheses_OutEventRearmsTheSlot : MemoryCanonical setupArrived ∧ slotFree setupArrived 0 .rx 0 = true :=
  ⟨setupArrived_canonical, by decide +kernel⟩

theorem test_hypotheses_InEventServesTheCursorThenTheAddress :
    (slotFree stateB 0 .tx 1 = true ∧ stateB.cursorValid = 0#1)
      ∧ (let s := { stateB with cursorValid := 1 }
        slotFree s 0 .tx 0 = true ∧ s.cursorValid = 1#1 ∧ MemoryCanonical s
          ∧ slotFree s 0 .tx (s.parity.get 0 .tx) = true)
      ∧ (let s := { otherBusy with cursorValid := 1, zlpPending := 1, parity := otherBusy.parity.set 0 .tx 1 }
        slotFree s 0 .tx 0 = true ∧ s.cursorValid = 1#1 ∧ (s.cursorRemaining ≠ 0#16 ∨ s.zlpPending = 1#1)
          ∧ slotFree s 0 .tx (s.parity.get 0 .tx) = false) :=
  ⟨by decide +kernel, ⟨by decide +kernel, rfl, stateB_canonical, by decide +kernel⟩, by decide +kernel⟩

theorem test_hypotheses_UnexpectedEventIsOnlyLogged :
    slotFree stateB 0 .tx ((0x0CD : BitVec 12).extractLsb' 6 1) = true
      ∧ slotFree stateB 0 .rx ((0x009 : BitVec 12).extractLsb' 6 1) = false := by decide +kernel

theorem test_hypotheses_BusResetRebuildsTransferState :
    MemoryCanonical allBusy ∧ (0 : Endpoint) ∈ allBusy.cfg.activeEndpoints
      ∧ (let two := { allBusy.cfg with activeEndpoints := [15, 0] }
        (15 : Endpoint) ∈ two.activeEndpoints ∧ ∀ e ∈ two.activeEndpoints, ∀ d p, ¬ InSlot two e d p 0x1FFF8020#32) :=
  ⟨canonical_of_memWf (by decide +kernel), by decide +kernel, by decide +kernel, by
    intro e he d p
    have h : e = 15 ∨ e = 0 := by simpa using he
    have b : ∀ b : Bit, b = 0 ∨ b = 1 := by decide
    rcases h with rfl | rfl <;> cases d <;> rcases b p with rfl | rfl <;> unfold InSlot <;> decide +kernel⟩

theorem test_hypotheses_BusResetEndsTheInvocation :
    (snapshot (dispatching 0x01)).getLsbD 0 = true ∧ (snapshot (dispatching 0x9F)).getLsbD 0 = true
      ∧ (snapshot { State.reset with intStatus := 0x01 }).getLsbD 0 = true := by decide +kernel

theorem test_hypotheses_TokenDoneCallsTheHandler :
    (dispatching 0x08).faults = [] ∧ (dispatching 0x08).ctsSeq ≠ .idle := by decide +kernel

theorem test_hypotheses_AcknowledgementClearsWhatItNames :
    ((0x82 : Byte).getLsbD 0 = false ∧ (0x82 : Byte).getLsbD 3 = false)
      ∧ ((0x08 : Byte).getLsbD 0 = false ∧ (0x08 : Byte).getLsbD 3 = true) ∧ (0xFF : Byte).getLsbD 0 = true
      ∧ (let s := { stateB with queue := List.replicate 2 { endpoint := 15, dir := .tx, parity := 1 } }
        s.queue.tail = { endpoint := 15, dir := .tx, parity := 1 } :: []) := by decide +kernel

theorem test_hypotheses_InvocationStartsOnAnEnabledCondition :
    (let s := { stateB with intStatus := 0x88 };
      s.faults = [] ∧ s.ctsSeq = .idle ∧ s.intStatus &&& s.intEnable ≠ 0#8)
      ∧ (let s := { stateB with intStatus := 0x9F, intEnable := 0x00 }
        s.faults = [] ∧ s.ctsSeq = .idle ∧ s.intStatus &&& s.intEnable = 0#8) := by decide +kernel

theorem test_hypotheses_FaultStopsTheCtsForGood :
    (let s := { stateB with faults := [Fault.slotBusy 0 .tx 0] };
      s.faults ≠ []) ∧ (nextOf (step State.reset)).isSome = true := by
  decide +kernel

theorem test_hypotheses_SetupTokenCompletesAnArmedSlot :
    (stateB.sieFrozen = 0#1 ∧ 0#7 = stateB.devAddr ∧ (0 : Endpoint).val < stateB.cfg.numEndpoints
        ∧ ctlOwn (slotCtl stateB 0 .rx (stateB.sieParity.get 0 .rx)) = 1#1
        ∧ 8 ≤ (ctlCount (slotCtl stateB 0 .rx (stateB.sieParity.get 0 .rx))).toNat
        ∧ stateB.queue.length < stateB.cfg.queueDepth
        ∧ touchesDescriptor stateB.cfg (slotBuf stateB 0 .rx (stateB.sieParity.get 0 .rx)) 8 = false
        ∧ disjoint (slotBuf stateB 0 .rx (stateB.sieParity.get 0 .rx)) 8
            (slotAddr stateB.cfg 0 .rx (stateB.sieParity.get 0 .rx)) 8 = true) ∧ MemoryCanonical stateB
      ∧ ¬ 1#7 = stateB.devAddr ∧ ¬ ctlOwn (slotCtl State.reset 0 .rx (State.reset.sieParity.get 0 .rx)) = 1#1 :=
  ⟨by decide +kernel, stateB_canonical, by decide +kernel, by decide +kernel⟩

theorem test_hypotheses_OutTokenNeedsAnArmedSlotAndItsToggle :
    (stateB.sieFrozen = 0#1 ∧ 0#7 = stateB.devAddr ∧ (0 : Endpoint).val < stateB.cfg.numEndpoints)
      ∧ ((writeEp0Ctl 0x03 stateB).epCtl[0]).getLsbD 1 = true
      ∧ ctlOwn (slotCtl stateB 1 .rx (stateB.sieParity.get 1 .rx)) = 0#1
      ∧ (ctlCount (slotCtl stateB 0 .rx (stateB.sieParity.get 0 .rx))).toNat < (List.replicate 65 (0 : Byte)).length
      ∧ 0#1 ≠ ctlToggle (slotCtl stateB 0 .rx (stateB.sieParity.get 0 .rx))
      ∧ (1#1 = ctlToggle (slotCtl stateB 0 .rx (stateB.sieParity.get 0 .rx))
        ∧ ¬ (ctlCount (slotCtl stateB 0 .rx (stateB.sieParity.get 0 .rx))).toNat < (List.replicate 64 (0 : Byte)).length
        ∧ touchesDescriptor stateB.cfg (slotBuf stateB 0 .rx (stateB.sieParity.get 0 .rx)) 64 = false
        ∧ disjoint (slotBuf stateB 0 .rx (stateB.sieParity.get 0 .rx)) 64
            (slotAddr stateB.cfg 0 .rx (stateB.sieParity.get 0 .rx)) 8 = true) ∧ MemoryCanonical stateB :=
  ⟨by decide +kernel, by decide +kernel, by decide +kernel, by decide +kernel, by decide +kernel, by decide +kernel,
    stateB_canonical⟩

theorem test_hypotheses_InTokenSendsTheSubmittedSlot :
    (allBusy.sieFrozen = 0#1 ∧ 0#7 = allBusy.devAddr ∧ (15 : Endpoint).val < allBusy.cfg.numEndpoints)
      ∧ ((writeEp0Ctl 0x03 stateB).epCtl[0]).getLsbD 1 = true
      ∧ ctlOwn (slotCtl stateB 15 .tx (stateB.sieParity.get 15 .tx)) = 0#1
      ∧ (¬ (allBusy.epCtl[0]).getLsbD 1 = true
        ∧ ¬ (ctlOwn (slotCtl allBusy 0 .tx (allBusy.sieParity.get 0 .tx)) = 0#1
          ∨ allBusy.cfg.queueDepth ≤ allBusy.queue.length)) ∧ MemoryCanonical allBusy :=
  ⟨by decide +kernel, by decide +kernel, by decide +kernel, by decide +kernel, canonical_of_memWf (by decide +kernel)⟩

theorem test_hypotheses_FrozenOrForeignTokensChangeNothing :
    (let s := { stateB with sieFrozen := 1#1 };
      s.sieFrozen = 1#1) ∧ 127#7 ≠ stateB.devAddr := by decide +kernel

/-- The reset sense kept by a step that is none; the buffer of an armed slot at its first and last byte, one byte beyond,
of an endpoint without slots, of a slot the CTS owns, and one laid over a descriptor's last byte. -/
theorem test_hypotheses_FrozenOrForeignTokensChangeNothing_moves :
    (let s := scripted [.tick 1] { stateB with resetDetected := 1 };
      afterwards (step s) (fun t => t.resetDetected = 1) = true ∧ s.script.head? ≠ some .resetSense)
    ∧ (let owned (e : Endpoint) (p : Bit) (off : Nat) (s : State) : Prop :=
        e.val < s.cfg.numEndpoints ∧ slotFree s e .rx p = false ∧ off < (ctlCount (slotCtl s e .rx p)).toNat
      owned 0 0 0 stateB ∧ owned 0 1 63 stateB ∧ ¬ owned 0 0 64 stateB ∧ ¬ owned 0 0 0 setupArrived
        ∧ ¬ owned 15 0 0 { stateB with cfg := { stateB.cfg with numEndpoints := 15 } }
        ∧ owned 0 0 17 (writeSlot 0 .rx 0 0x00002000 0x004000C0 stateB))
    ∧ InDescriptor stateB.cfg (slotBuf (writeSlot 0 .rx 0 0x00002000 0x004000C0 stateB) 0 .rx 0 + BitVec.ofNat 32 17)
    ∧ ¬ InDescriptor stateB.cfg (slotBuf stateB 0 .rx 0 + BitVec.ofNat 32 0)
    ∧ ¬ InDescriptor stateB.cfg (slotBuf stateB 0 .rx 1 + BitVec.ofNat 32 63) ∧ MemoryCanonical stateB :=
  ⟨by decide +kernel, by decide +kernel, by unfold InDescriptor; decide +kernel, by unfold InDescriptor; decide +kernel,
    by unfold InDescriptor; decide +kernel, stateB_canonical⟩

theorem test_hypotheses_ParametersNeverChange :
    (nextOf (step stateB)).isSome = true ∧ busy State.reset = 0#1
      ∧ (let s := { scripted [.bootBte 3] stateB with bootBteDone := true, bootIntDone := true };
        s.bootBteDone = true ∧ s.bootIntDone = true)
      ∧ (nextOf (step { stateB with bootBteDone := true, bootIntDone := true })).isSome = true
      ∧ busy running = 1#1
      ∧ ([.request [0x03], .writeReq [], .busReset, .sof, .sleep, .busError, .hostSetup 1 0 (Setup.mk 0 0 0 0 0),
          .hostOut 1 0 0 [], .hostIn 1 0 false, .sieBuffer 0 0 0 0, .bootBte 3, .bootIntEnable 1, .bte, .bteMicro, .cts,
          .resetSense, .tick 0].all fun ev => (nextOf (step (scripted [ev] stateB))).isSome) = true
      ∧ (nextOf (step (scripted [.request []] running))).isSome = true := by decide +kernel

theorem test_hypotheses_DescriptorBytesNeverChange :
    MemoryCanonical stateB ∧ (nextOf (step (scripted [.sieBuffer 0 1 63 0xFF] stateB))).isSome = true
      ∧ ∃ d ∈ stateB.cfg.descTable, 129 < d.length.toNat :=
  ⟨stateB_canonical, by decide +kernel, Config.exampleDescTable[3], by decide +kernel, by decide +kernel⟩

theorem test_hypotheses_OperationsWriteOnlyTheBdt :
    configOk stateB.cfg = true ∧ MemoryCanonical stateB ∧ (∃ t, exec .usbrst stateB = .next t)
      ∧ ¬ InBdt stateB.cfg 0x1FFF7FFF#32 ∧ ¬ InBdt stateB.cfg 0x1FFF8200#32 :=
  ⟨by decide +kernel, stateB_canonical, ⟨_, rfl⟩, by unfold InBdt; decide +kernel, by unfold InBdt; decide +kernel⟩

/-- Another memory with the same BDT and the same first packet. -/
def otherMemory : State := writeByte 0x1FFF8240#32 0x77#8 setupArrived

theorem test_hypotheses_OperationsReadOnlyTheBdtAndThePacket :
    isRequest (.ep0Setup 0) = false ∧ configOk setupArrived.cfg = true ∧ MemoryCanonical setupArrived
      ∧ otherMemory.mem ≠ setupArrived.mem ∧ MemoryCanonical { setupArrived with mem := otherMemory.mem }
      ∧ (∀ a : Word, a ≠ 0x1FFF8240#32 → SameByte setupArrived { setupArrived with mem := otherMemory.mem } a)
      ∧ ¬ InBdt setupArrived.cfg 0x1FFF8240#32
      ∧ (∀ k : Nat, k < 8 → slotBuf setupArrived 0 .rx 0 + BitVec.ofNat 32 k ≠ 0x1FFF8240#32) := by
  refine ⟨rfl, by decide +kernel, setupArrived_canonical, by decide +kernel,
    canonical_of_memWf (memoryCanonical_writeByte setupArrived_canonical 0x1FFF8240#32 0x77#8), fun a ha => ?_, by unfold InBdt; decide +kernel,
    by decide +kernel⟩
  have h := readByte_writeByte setupArrived_canonical 0x1FFF8240#32 a 0x77#8
  rw [if_neg ha] at h
  exact h

theorem test_hypotheses_StepKeepsMemoryCanonical : MemoryCanonical stateB ∧ (nextOf (step stateB)).isSome = true :=
  ⟨stateB_canonical, by decide +kernel⟩

theorem test_hypotheses_StepKeepsTheQueueSound :
    QueueSound setupArrived ∧ QueueSound State.reset ∧ (nextOf (step setupArrived)).isSome = true := by
  unfold QueueSound; decide +kernel

theorem test_hypotheses_StepKeepsTheCursorSound :
    CursorSound { stateB with cursorValid := 1, zlpPending := 1 } ∧ CursorSound stateB
      ∧ CursorSound { stateB with faults := [.badSetupLength 7], cursorValid := 1 }
      ∧ (nextOf (step stateB)).isSome = true := by
  unfold CursorSound; decide +kernel

/-- What holds of both directions holds of every one. -/
theorem both_dirs {P : Dir → Prop} : (∀ d, P d) ↔ P .rx ∧ P .tx :=
  ⟨fun h => ⟨h _, h _⟩, fun h d => by cases d; exacts [h.1, h.2]⟩

/-- The rebuild and the SIE add no Submit and no Rearm to the trace. -/
theorem setupArrived_trace :
    setupArrived.usbTrace = [.write .intEnable 0x9F, .write .ep0Ctl 0x01, .write .devAddr 0x00]
      ∧ stateB.usbTrace = [.write .intEnable 0x9F, .write .ep0Ctl 0x01, .write .devAddr 0x00] := by decide +kernel

/-- The trackers agree after power-on, in state B, and with a SETUP event queued that is not handled yet. -/
theorem test_hypotheses_StepKeepsPingPongAlternation :
    (PingPong stateB ∧ PingPong setupArrived) ∧ Tracked setupArrived
      ∧ (nextOf (step stateB)).isSome = true ∧ (nextOf (step setupArrived)).isSome = true := by
  refine ⟨⟨⟨?_, by decide +kernel⟩, ?_, by decide +kernel⟩, ⟨setupArrived_canonical, by unfold QueueSound; decide +kernel, ?_,
    by unfold BuffersApart; decide +kernel, by unfold ArmedWithOwnBuffer; decide +kernel, ?_, ?_, by decide +kernel,
    by simp only [TransmitTracked, Untouched, both_dirs]; decide +kernel⟩, by decide +kernel, by decide +kernel⟩
  · rw [setupArrived_trace.2]; trivial
  · rw [setupArrived_trace.1]; trivial
  · rw [InvocationSound, show setupArrived.ctsSeq = .idle by decide +kernel]; trivial
  · have h : unhandled setupArrived = [{ endpoint := 0, dir := .rx, parity := 0 }] := by decide +kernel
    have p : setupArrived.parity.get 0 .rx = 0 ∧ setupArrived.sieParity.get 0 .rx = 1 := by decide +kernel
    rw [ReceiveTracked, h, p.1, p.2]
    exact ⟨⟨rfl, rfl⟩, by decide +kernel, by decide +kernel⟩
  · rw [setupArrived_trace.1]; trivial

theorem test_hypotheses_StepKeepsThePinsIdle :
    PinsSound State.reset ∧ PinsSound running ∧ (nextOf (step running)).isSome = true :=
  ⟨by show levels State.reset = idleLevels State.reset; decide +kernel,
    by show levelsAfter running (program State.reset.cfg .txc).1 (levels running) = idleLevels running; decide +kernel,
    by decide +kernel⟩

end Sys2Proof.Tests
end

section
/-!
SUPPORT. The two engines share no state (spec/00_scope.md R8). An operation that neither reads nor writes a half of the
state commutes with replacing that half by another's: each shared operation of the CTS with `withBte u`, each position of
the BTE with `withCts u`. Replacing a half by its own value changes nothing, so commuting also says that it is not
written.
-/

namespace Sys2Proof.Machine

open Sys2Proof Sys2Proof.Safety

/-! ## Commuting with a change of state -/

/-- An operation that commutes with replacing part of the state reads nothing of that part and leaves it as it was. -/
theorem untouched_of_commutes {replace : State → State → State} (hself : ∀ s, replace s s = s)
    {step : State → Host.Outcome State Fault Refusal}
    (hcomm : ∀ u s, step (replace u s) = mapNext (replace u) (step s)) (u s : State) :
    step (replace u s) = mapNext (replace u) (step s) ∧ ∀ t, step s = .next t → replace s t = t := by
  refine ⟨hcomm u s, fun t ht => ?_⟩
  have h := hcomm s s
  rw [hself, ht] at h
  exact (Host.Outcome.next.inj h).symm

/-- Apply a change to the state a CTS operation leaves, fault or not. -/
def Flow.map (φ : State → State) : Flow → Flow
  | .go s => .go (φ s)
  | .halted s => .halted (φ s)

theorem Flow.outcome_map (φ : State → State) (f : Flow) : (f.map φ).outcome = mapNext φ f.outcome := by
  cases f <;> rfl

theorem Flow.andThen_map {φ : State → State} {f f' : Flow} {k k' : State → Flow} (hf : f' = f.map φ)
    (hk : ∀ s, k' (φ s) = (k s).map φ) : f'.andThen k' = (f.andThen k).map φ := by
  subst hf
  cases f with
  | go s => exact hk s
  | halted s => rfl

/-- A test of what `φ` leaves alone takes the same branch before and after `φ`. -/
theorem Flow.ite_map {φ : State → State} {p q : Prop} [Decidable p] [Decidable q] {f f' g g' : Flow} (hpq : p ↔ q)
    (hf : f' = f.map φ) (hg : g' = g.map φ) : (if p then f' else g') = (if q then f else g).map φ := by
  subst hf hg
  rw [apply_ite (Flow.map φ)]
  exact if_congr hpq rfl rfl

/-! ## The CTS's updates and the BTE's half -/

theorem withBte_self (s : State) : withBte s s = s := rfl

@[simp] theorem withBte_cfg (u s : State) : (withBte u s).cfg = s.cfg := rfl

@[simp] theorem withBte_vendorAnswers (u s : State) : (withBte u s).vendorAnswers = s.vendorAnswers := rfl

theorem writeBytes_withBte (a : Word) (bs : List Byte) (u s : State) :
    writeBytes a bs (withBte u s) = withBte u (writeBytes a bs s) := by
  induction bs generalizing a s with
  | nil => rfl
  | cons b bs ih => exact ih (a + 1#32) (writeByte a b s)

@[simp] theorem writeWord_withBte (a v : Word) (u s : State) :
    writeWord a v (withBte u s) = withBte u (writeWord a v s) := writeBytes_withBte ..

@[simp] theorem writeSlot_withBte (e : Endpoint) (d : Dir) (p : Bit) (buf ctl : Word) (u s : State) :
    writeSlot e d p buf ctl (withBte u s) = withBte u (writeSlot e d p buf ctl s) := by
  simp only [writeSlot, withBte_cfg, writeWord_withBte]

theorem readBytes_withBte (u s : State) (a : Word) (n : Nat) : readBytes (withBte u s) a n = readBytes s a n := by
  induction n generalizing a with
  | zero => rfl
  | succ n ih => rw [readBytes, readBytes, ih]; rfl

@[simp] theorem slotCtl_withBte (e : Endpoint) (d : Dir) (p : Bit) (u s : State) :
    slotCtl (withBte u s) e d p = slotCtl s e d p := slotCtl_congr rfl rfl e d p

@[simp] theorem slotBuf_withBte (e : Endpoint) (d : Dir) (p : Bit) (u s : State) :
    slotBuf (withBte u s) e d p = slotBuf s e d p := slotBuf_congr rfl rfl e d p

@[simp] theorem slotFree_withBte (e : Endpoint) (d : Dir) (p : Bit) (u s : State) :
    slotFree (withBte u s) e d p = slotFree s e d p := by
  rw [slotFree, slotFree, slotCtl_withBte]

theorem rearm_withBte (e : Endpoint) (p : Bit) (u s : State) : rearm e p (withBte u s) = withBte u (rearm e p s) := by
  rw [rearm_eq, rearm_eq, writeSlot_withBte]
  dsimp only [withBte]

@[simp] theorem ackStatus_withBte (v : Byte) (u s : State) :
    ackStatus v (withBte u s) = withBte u (ackStatus v s) := by
  simp only [ackStatus_eq]
  rfl

@[simp] theorem conditionDone_withBte (v : Byte) (u s : State) :
    conditionDone v (withBte u s) = withBte u (conditionDone v s) := by
  simp only [conditionDone_eq]
  rfl

theorem callPhase_withBte (ph : CtsPhase) (u s : State) :
    callPhase ph (withBte u s) = withBte u (callPhase ph s) := by
  simp only [callPhase_eq]
  rfl

theorem applyAddress_withBte (u s : State) : applyAddress (withBte u s) = withBte u (applyAddress s) := by
  simp only [applyAddress_eq]
  rfl

/-- The two slots of parity `p` as BusResetRebuild leaves them (spec/44_usb_dispatcher.md R233). -/
def rebuildSlots (e : Endpoint) (p : Bit) (s : State) : State :=
  let s := writeWord (slotAddr s.cfg e .tx p) 0#32 s
  let s := writeWord (slotAddr s.cfg e .tx p + 4#32) 0#32 s
  writeSlot e .rx p (rxBuf s.cfg e p) (armedCtl e) s

/-- The trackers of an endpoint as BusResetRebuild leaves them (R233). -/
def rebuildTrackers (e : Endpoint) (s : State) : State :=
  { s with
    parity := (s.parity.set e .rx 0#1).set e .tx 0#1
    toggle := (s.toggle.set e .rx 0#1).set e .tx 0#1 }

theorem rebuildEndpoint_eq (e : Endpoint) (s : State) :
    rebuildEndpoint e s = rebuildTrackers e (rebuildSlots e 1#1 (rebuildSlots e 0#1 s)) := rfl

theorem rebuildSlots_withBte (e : Endpoint) (p : Bit) (u s : State) :
    rebuildSlots e p (withBte u s) = withBte u (rebuildSlots e p s) := by
  simp only [rebuildSlots, withBte_cfg, writeWord_withBte, writeSlot_withBte]

theorem rebuildTrackers_withBte (e : Endpoint) (u s : State) :
    rebuildTrackers e (withBte u s) = withBte u (rebuildTrackers e s) := rfl

theorem rebuildEndpoint_withBte (e : Endpoint) (u s : State) :
    rebuildEndpoint e (withBte u s) = withBte u (rebuildEndpoint e s) := by
  rw [rebuildEndpoint_eq, rebuildEndpoint_eq, rebuildSlots_withBte, rebuildSlots_withBte, rebuildTrackers_withBte]

theorem rebuildEndpoints_withBte (es : List Endpoint) (u s : State) :
    rebuildEndpoints es (withBte u s) = withBte u (rebuildEndpoints es s) := by
  induction es generalizing s with
  | nil => rfl
  | cons e es ih => rw [rebuildEndpoints, rebuildEndpoint_withBte, ih]; rfl

theorem busResetRebuild_withBte (u s : State) : busResetRebuild (withBte u s) = withBte u (busResetRebuild s) := by
  simp only [busResetRebuild, withBte_cfg, rebuildEndpoints_withBte]
  generalize rebuildEndpoints s.cfg.activeEndpoints s = t
  rfl

/-! ## The CTS's operations and the BTE's half -/

theorem submit_withBte (e : Endpoint) (ptr : Word) (n : BitVec 10) (u s : State) :
    submit e ptr n (withBte u s) = (submit e ptr n s).map (withBte u) := by
  rw [submit_eq, submit_eq, writeSlot_withBte]
  refine Flow.ite_map (by rw [slotFree_withBte]; rfl) ?_ rfl
  dsimp only [Flow.map, withBte]

theorem consume_withBte (e : Endpoint) (d : Dir) (p : Bit) (u s : State) {k : BitVec 10 → State → Flow}
    (hk : ∀ n v, k n (withBte u v) = (k n v).map (withBte u)) :
    consume e d p (withBte u s) k = (consume e d p s k).map (withBte u) := by
  rw [consume_eq, consume_eq, slotFree_withBte, slotCtl_withBte]
  exact Flow.ite_map Iff.rfl (hk _ s) rfl

theorem ackRequest_withBte (u s : State) : ackRequest (withBte u s) = (ackRequest s).map (withBte u) :=
  Flow.andThen_map (submit_withBte ..) fun _ => rfl

theorem serviceChunk_withBte (u s : State) : serviceChunk (withBte u s) = (serviceChunk s).map (withBte u) := by
  refine Flow.ite_map Iff.rfl ?_ (Flow.ite_map Iff.rfl ?_ rfl)
  · exact Flow.andThen_map (submit_withBte ..) fun _ => rfl
  · exact Flow.andThen_map (submit_withBte ..) fun _ => rfl

/-- The cursor as StartResponse loads it (spec/43_ep0_control.md R197). -/
def loadCursor (ptr : Word) (len limit : Half) (s : State) : State :=
  { s with
    zlpPending := if owesZlp len limit then 1#1 else 0#1
    cursorPtr := ptr
    cursorRemaining := responseSize len limit }

theorem startResponse_eq (ptr : Word) (len limit : Half) (s : State) :
    startResponse ptr len limit s =
      if responseSize len limit = 0#16 then
        (submit 0 0#32 0#10 (loadCursor ptr len limit s)).andThen fun s =>
          .go { s with cursorValid := 0#1, ctlState := .statusPending }
      else
        (serviceChunk (loadCursor ptr len limit s)).andThen fun s =>
          (if s.cursorRemaining ≠ 0#16 ∨ s.zlpPending = 1#1 then serviceChunk s else .go s).andThen fun s =>
            .go { s with ctlState := .dataStage } := rfl

theorem loadCursor_withBte (ptr : Word) (len limit : Half) (u s : State) :
    loadCursor ptr len limit (withBte u s) = withBte u (loadCursor ptr len limit s) := rfl

theorem startResponse_withBte (ptr : Word) (len limit : Half) (u s : State) :
    startResponse ptr len limit (withBte u s) = (startResponse ptr len limit s).map (withBte u) := by
  rw [startResponse_eq, startResponse_eq, loadCursor_withBte]
  refine Flow.ite_map Iff.rfl ?_ ?_
  · exact Flow.andThen_map (submit_withBte ..) fun _ => rfl
  · refine Flow.andThen_map (serviceChunk_withBte ..) fun v => ?_
    exact Flow.andThen_map (Flow.ite_map Iff.rfl (serviceChunk_withBte u v) rfl) fun _ => rfl

theorem stallPath_withBte (u s : State) : stallPath (withBte u s) = (stallPath s).map (withBte u) := rfl

theorem handlerReturn_withBte (u s : State) : handlerReturn (withBte u s) = (handlerReturn s).map (withBte u) := by
  rw [handlerReturn_eq, handlerReturn_eq]
  rfl

/-- A row whose handler commutes, returned from (spec/44_usb_dispatcher.md R231). -/
theorem returned_withBte {u : State} {f f' : Flow} (h : f' = f.map (withBte u)) :
    (f'.andThen handlerReturn).outcome = mapNext (withBte u) (f.andThen handlerReturn).outcome := by
  rw [Flow.andThen_map h (handlerReturn_withBte u), Flow.outcome_map]

/-! ## The rows of the CTS -/

/-- The vendor handler is shown the request `p`, and its answer is taken (spec/43_ep0_control.md R204). -/
def askVendor (p : Setup) (s : State) : State :=
  { s with usbTrace := .vendorRequest p :: s.usbTrace, vendorAnswers := s.vendorAnswers.tail }

/-- What is done on the vendor handler's answer `a` (R204). -/
def actOn (a : VendorAction) (length : Half) (s : State) : Flow :=
  match a with
  | .respond ptr len => startResponse ptr len length s
  | .acknowledge => ackRequest s
  | .reject => stallPath s
  | .nothing => .go s

theorem execVendor_eq (rt code : Byte) (value index length : Half) (s : State) :
    execVendor rt code value index length s =
      ((actOn (s.vendorAnswers.head?.getD s.cfg.vendorDefault) length (askVendor
        { requestType := rt, requestCode := code, value := value, index := index, length := length } s)).andThen
        handlerReturn).outcome := by
  simp only [execVendor, vendorAnswer_eq]
  rfl

theorem askVendor_withBte (p : Setup) (u s : State) : askVendor p (withBte u s) = withBte u (askVendor p s) := rfl

theorem actOn_withBte (a : VendorAction) (length : Half) (u s : State) :
    actOn a length (withBte u s) = (actOn a length s).map (withBte u) := by
  cases a with
  | respond ptr len => exact startResponse_withBte ptr len length u s
  | acknowledge => exact ackRequest_withBte u s
  | reject => exact stallPath_withBte u s
  | nothing => rfl

theorem execVendor_withBte (rt code : Byte) (value index length : Half) (u s : State) :
    execVendor rt code value index length (withBte u s)
      = mapNext (withBte u) (execVendor rt code value index length s) := by
  rw [execVendor_eq, execVendor_eq, withBte_cfg, withBte_vendorAnswers, askVendor_withBte]
  exact returned_withBte (actOn_withBte ..)

theorem execGetDescriptor_withBte (rt : Byte) (value index length : Half) (u s : State) :
    execGetDescriptor rt value index length (withBte u s)
      = mapNext (withBte u) (execGetDescriptor rt value index length s) := by
  refine returned_withBte ?_
  rw [withBte_cfg]
  cases findDescriptor s.cfg value index with
  | some d => exact startResponse_withBte ..
  | none => rfl

/-- What EP0.SETUP does after Rearm: the pending things of an abandoned transfer are cleared and Classify is called
(spec/43_ep0_control.md R191). -/
def callClassify (s : State) : State :=
  callPhase .request { s with
    toggle := s.toggle.set 0 .tx 1#1
    cursorValid := 0#1
    cursorRemaining := 0#16
    zlpPending := 0#1
    addrPending := 0#1 }

theorem callClassify_withBte (u s : State) : callClassify (withBte u s) = withBte u (callClassify s) := by
  simp only [callClassify, callPhase_eq]
  rfl

/-- The 8 bytes EP0.SETUP reads, as a setup packet (R191). -/
def takenPacket (p : Bit) (s : State) : Setup :=
  match readBytes s (slotBuf s 0 .rx p) 8 with
  | [b0, b1, b2, b3, b4, b5, b6, b7] => Setup.ofBytes b0 b1 b2 b3 b4 b5 b6 b7
  | _ => s.setup

theorem takenPacket_withBte (p : Bit) (u s : State) : takenPacket p (withBte u s) = takenPacket p s := by
  rw [takenPacket, slotBuf_withBte, readBytes_withBte]
  rfl

theorem execEp0Setup_eq (p : Bit) (s : State) :
    execEp0Setup p s = (consume 0 .rx p s fun n s =>
      if n ≠ 8#10 then .halted (raise (.badSetupLength n) s)
      else .go (callClassify (rearm 0 p { s with setup := takenPacket p s }))).outcome := rfl

theorem execEp0Setup_withBte (p : Bit) (u s : State) :
    execEp0Setup p (withBte u s) = mapNext (withBte u) (execEp0Setup p s) := by
  rw [execEp0Setup_eq, execEp0Setup_eq, ← Flow.outcome_map]
  refine congrArg Flow.outcome (consume_withBte _ _ _ _ _ fun n v => Flow.ite_map Iff.rfl rfl ?_)
  have hrearm := rearm_withBte 0 p u { v with setup := takenPacket p v }
  rw [takenPacket_withBte]
  exact congrArg Flow.go ((congrArg callClassify hrearm).trans (callClassify_withBte u _))

theorem execSetAddress_withBte (rt : Byte) (value index length : Half) (u s : State) :
    execSetAddress rt value index length (withBte u s)
      = mapNext (withBte u) (execSetAddress rt value index length s) :=
  returned_withBte (ackRequest_withBte u { s with addrValue := value.extractLsb' 0 7, addrPending := 1#1 })

theorem execSetConfiguration_withBte (rt : Byte) (value index length : Half) (u s : State) :
    execSetConfiguration rt value index length (withBte u s)
      = mapNext (withBte u) (execSetConfiguration rt value index length s) :=
  returned_withBte (ackRequest_withBte u s)

theorem execUnrecognised_withBte (rt code : Byte) (value index length : Half) (u s : State) :
    execUnrecognised rt code value index length (withBte u s)
      = mapNext (withBte u) (execUnrecognised rt code value index length s) :=
  returned_withBte (stallPath_withBte u s)

theorem execEp0Unexpected_withBte (t : BitVec 12) (u s : State) :
    execEp0Unexpected t (withBte u s) = mapNext (withBte u) (execEp0Unexpected t s) :=
  returned_withBte (consume_withBte _ _ _ _ _ fun _ _ => rfl)

theorem execEpnDefault_withBte (t : BitVec 12) (u s : State) :
    execEpnDefault t (withBte u s) = mapNext (withBte u) (execEpnDefault t s) :=
  returned_withBte rfl

/-- What EP0.OUT makes of the state register (R201). -/
def endDataStage (s : State) : State :=
  { s with ctlState := if s.ctlState = .dataStage then .awaitingSetup else s.ctlState }

theorem endDataStage_withBte (u s : State) : endDataStage (withBte u s) = withBte u (endDataStage s) := rfl

theorem execEp0Out_eq (p : Bit) (s : State) :
    execEp0Out p s =
      ((consume 0 .rx p s fun _ s => .go (endDataStage (rearm 0 p s))).andThen handlerReturn).outcome := rfl

theorem execEp0Out_withBte (p : Bit) (u s : State) :
    execEp0Out p (withBte u s) = mapNext (withBte u) (execEp0Out p s) := by
  rw [execEp0Out_eq, execEp0Out_eq]
  refine returned_withBte (consume_withBte _ _ _ _ _ fun n v => ?_)
  rw [rearm_withBte, endDataStage_withBte]
  rfl

theorem execEp0In_withBte (p : Bit) (u s : State) :
    execEp0In p (withBte u s) = mapNext (withBte u) (execEp0In p s) := by
  refine returned_withBte (consume_withBte _ _ _ _ _ fun n v => Flow.andThen_map ?_ fun w => ?_)
  · exact Flow.ite_map Iff.rfl (serviceChunk_withBte u v) rfl
  · simp only [applyAddress_withBte]
    rfl

/-- A quiet condition: acknowledged and done with (spec/44_usb_dispatcher.md R231). -/
theorem condition_withBte (v : Byte) (u s : State) :
    conditionDone v (ackStatus v (withBte u s)) = withBte u (conditionDone v (ackStatus v s)) := by
  rw [ackStatus_withBte, conditionDone_withBte]

theorem execUsbrst_withBte (u s : State) : execUsbrst (withBte u s) = mapNext (withBte u) (execUsbrst s) := by
  simp only [execUsbrst, busResetRebuild_withBte, ackStatus_withBte]
  rfl

/-- Every row of the CTS commutes with replacing the BTE's half of the state. -/
theorem exec_withBte {i : Instr} (hi : isRequest i = false) (u s : State) :
    exec i (withBte u s) = mapNext (withBte u) (exec i s) := by
  cases i with
  | tx | txrx | txc | rxr | resync | halt | reset | bteIllegal => cases hi
  | vendor rt code value index length => exact execVendor_withBte rt code value index length u s
  | getDescriptor rt value index length => exact execGetDescriptor_withBte rt value index length u s
  | setAddress rt value index length => exact execSetAddress_withBte rt value index length u s
  | setConfiguration rt value index length => exact execSetConfiguration_withBte rt value index length u s
  | unrecognised rt code value index length => exact execUnrecognised_withBte rt code value index length u s
  | ep0Setup p => exact execEp0Setup_withBte p u s
  | ep0Out p => exact execEp0Out_withBte p u s
  | ep0In p => exact execEp0In_withBte p u s
  | ep0Unexpected t => exact execEp0Unexpected_withBte t u s
  | epnDefault t => exact execEpnDefault_withBte t u s
  | usbrst => exact execUsbrst_withBte u s
  | error =>
    have hlog := condition_withBte 0x02#8 u { s with usbTrace := .logTransferError :: s.usbTrace }
    exact congrArg Host.Outcome.next hlog
  | softok => exact congrArg Host.Outcome.next (condition_withBte 0x04#8 u s)
  | tokdne => exact congrArg Host.Outcome.next (callPhase_withBte .token u s)
  | sleep => exact congrArg Host.Outcome.next (condition_withBte 0x10#8 u s)
  | stall => exact congrArg Host.Outcome.next (condition_withBte 0x80#8 u s)

/-- Settles O20: each row commutes with replacing the BTE's half of the state, so it reads none of it; replaced by its
own value that half stays, so it writes none. -/
theorem ctsOperationsLeaveTheBteAlone : Obligations.CtsOperationsLeaveTheBteAlone :=
  fun _ u s hi => untouched_of_commutes withBte_self (exec_withBte hi) u s

/-! ## The BTE's run and the CTS's half -/

theorem withCts_self (s : State) : withCts s s = s := rfl

@[simp] theorem withCts_bteSeq (u s : State) : (withCts u s).bteSeq = s.bteSeq := rfl

theorem sampleDin_withCts (u s : State) : sampleDin (withCts u s) = withCts u (sampleDin s) := by
  simp only [sampleDin_eq]
  rfl

theorem doMicro_withCts (m : Micro) (u s : State) : doMicro m (withCts u s) = withCts u (doMicro m s) := by
  cases m with
  | sample => exact sampleDin_withCts u s
  | _ => rfl

/-- A delay's loop moves the timer first. -/
theorem runMicro_withCts (m : Micro) (u s : State) : runMicro m (withCts u s) = withCts u (runMicro m s) := by
  unfold runMicro
  split
  · exact doMicro_withCts _ u (timerRuns _ s)
  · exact doMicro_withCts _ u s

theorem runMicros_withCts (ms : List Micro) (u s : State) :
    runMicros ms (withCts u s) = withCts u (runMicros ms s) := by
  induction ms generalizing s with
  | nil => rfl
  | cons m ms ih => rw [runMicros, runMicro_withCts, ih, runMicros]

/-- The tests of the pseudocode read BTE state and the parameters only. -/
theorem decideTail_withCts (test : Tail) (u s : State) : decideTail test (withCts u s) = decideTail test s := by
  cases test <;> rfl

theorem finish_withCts (op : ReqOp) (n : Nat) (rest : List Micro) (test : Tail) (u s : State) :
    finish op n rest test (withCts u s) = withCts u (finish op n rest test s) := by
  induction n generalizing rest test s with
  | zero => simp only [finish, runMicros_withCts]; rfl
  | succ n ih =>
    simp only [finish, runMicros_withCts, decideTail_withCts]
    split
    · rfl
    · exact ih ..

theorem resume_withCts (u s : State) : resume (withCts u s) = withCts u (resume s) := by
  simp only [resume, withCts_bteSeq]
  cases s.bteSeq with
  | idle => rfl
  | running op rest test => exact finish_withCts op maxTests rest test u s

theorem accept_withCts (op : ReqOp) (u s : State) : accept op (withCts u s) = withCts u (accept op s) := rfl

theorem runRequest_withCts (op : ReqOp) (u s : State) :
    runRequest op (withCts u s) = mapNext (withCts u) (runRequest op s) := by
  simp only [runRequest, withCts_bteSeq, accept_withCts, resume_withCts]
  cases s.bteSeq with
  | idle => rfl
  | running op rest test => rfl

theorem exec_of_reqOpOf {i : Instr} {op : ReqOp} (h : reqOpOf i = some op) : exec i = runRequest op := by
  cases i with
  | tx | txrx | txc | rxr | resync | halt | reset | bteIllegal => cases h; rfl
  | _ => cases h

/-- The request rows are the ones with a BTE operation. -/
theorem exists_reqOpOf {i : Instr} (hi : isRequest i = true) : ∃ op, reqOpOf i = some op := by
  cases i with
  | tx | txrx | txc | rxr | resync | halt | reset | bteIllegal => exact ⟨_, rfl⟩
  | _ => cases hi

/-- Settles O21: by induction over the run, each position and each test commutes with replacing the CTS's half of the
state, the memory with the BDT in it included. -/
theorem bteOperationsLeaveTheCtsAlone : Obligations.BteOperationsLeaveTheCtsAlone := by
  intro i u s hi
  obtain ⟨op, hop⟩ := exists_reqOpOf hi
  rw [exec_of_reqOpOf hop]
  exact untouched_of_commutes withCts_self (runRequest_withCts op) u s

end Sys2Proof.Machine
end

section
/-!
SUPPORT. Position by position and run to its end: the two ways of taking an operation of the BTE come to the same state up
to time (spec/10_state.md R21, log 6). Every test of a loop is made with fewer rounds left than the one before, so `maxTests`
is always enough and one test more or less changes nothing.
-/

namespace Sys2Proof.Machine

open Sys2Proof Sys2Proof.Safety

/-! ## Positions that leave the loop counters and the port alone -/

/-- The position writes neither RETRY nor PROBE nor the request port. -/
def isPlain : Micro → Bool
  | .loadRetry | .decRetry | .loadProbe | .decProbe | .putByte _ | .setResult _ => false
  | .clk _ | .bkpt _ | .rst _ | .drive _ | .driveShift | .sample | .latch | .loadOut _ | .clearIn | .count _ | .waitStart
  | .waitPoll _ _ | .clearResetDetected => true

theorem writesPort_of_isPlain {m : Micro} (h : isPlain m = true) : writesPort m = false := by
  cases m with
  | putByte | setResult => cases h
  | _ => rfl

theorem isPlain_delay (c : Params) (t : Nat) : (delay c t).all isPlain = true := by
  unfold delay
  split
  · rfl
  · simp [isPlain]

theorem isPlain_cell (c : Params) {d : Micro} (hd : isPlain d = true) : (cell c d).all isPlain = true := by
  simp only [cell, List.all_append, List.all_cons, List.all_nil, isPlain_delay, hd]
  rfl

theorem isPlain_frameCells (c : Params) (n : Nat) : (frameCells c n).all isPlain = true := by
  induction n with
  | zero => rfl
  | succ n ih =>
    rw [frameCells, frameCell, List.cons_append, List.all_cons, List.all_append, List.all_append, ih,
      isPlain_cell c (d := .driveShift) rfl]
    rfl

theorem isPlain_message (c : Params) (w : Half) : (message c w).all isPlain = true := by
  rw [message, List.all_append, isPlain_frameCells]
  rfl

theorem isPlain_completingCells (c : Params) (n : Nat) : (completingCells c n).all isPlain = true := by
  induction n with
  | zero => rfl
  | succ n ih =>
    rw [completingCells, List.all_append, ih, isPlain_cell c rfl]
    rfl

/-- A plain position leaves both loop counters as they were. -/
theorem runMicro_counters {m : Micro} (h : isPlain m = true) (s : State) :
    (runMicro m s).retry = s.retry ∧ (runMicro m s).probe = s.probe := by
  cases m with
  | loadRetry | decRetry | loadProbe | decProbe | putByte | setResult => cases h
  | sample => simp only [runMicro, doMicro, sampleDin_eq, and_self]
  | _ => exact ⟨rfl, rfl⟩

theorem runMicros_counters {ms : List Micro} (h : ms.all isPlain = true) (s : State) :
    (runMicros ms s).retry = s.retry ∧ (runMicros ms s).probe = s.probe := by
  induction ms generalizing s with
  | nil => exact ⟨rfl, rfl⟩
  | cons m ms ih =>
    obtain ⟨hm, hms⟩ : isPlain m = true ∧ ms.all isPlain = true := by simpa only [List.all_cons, Bool.and_eq_true] using h
    have h1 := runMicro_counters hm s
    have h2 := ih hms (runMicro m s)
    exact ⟨h2.1.trans h1.1, h2.2.trans h1.2⟩

/-- One exchange of a retrying operation takes one from RETRY (spec/41_bit_transport.md R135). -/
theorem retryExchange_retry (c : Params) (s : State) : (runMicros (retryExchange c) s).retry = s.retry - 1#8 := by
  rw [retryExchange, runMicros_append]
  exact congrArg (· - 1#8) (runMicros_counters (isPlain_message c c.fillerWord) s).1

/-- One probe pulse takes one from PROBE (R145). -/
theorem probePulse_probe (c : Params) (s : State) : (runMicros (probePulse c) s).probe = s.probe - 1#8 := by
  rw [probePulse, runMicros_append]
  exact congrArg (· - 1#8) (runMicros_counters (isPlain_cell c rfl) s).2

/-! ## How many tests an operation makes -/

/-- At a test, how many tests at most are still to be made, this one among them (R150). -/
def testsAhead : Tail → State → Nat
  | .leave, _ => 1
  | .confirmTest, s | .rxTest _, s => s.retry.toNat + 2
  | .probeTest, s => s.probe.toNat + 2
  | .resyncTest, _ => 258

theorem testsAhead_pos (t : Tail) (s : State) : 0 < testsAhead t s := by
  cases t <;> simp only [testsAhead] <;> omega

theorem testsAhead_lt_maxTests (t : Tail) (s : State) : testsAhead t s < maxTests := by
  have hr := s.retry.isLt
  have hp := s.probe.isLt
  cases t <;> simp only [testsAhead, maxTests] <;> omega

/-- What a test that is not the end of a return can choose: the writes of a return, perhaps after the cells that complete a
frame; another exchange while RETRY is not 0; the first probe pulse; another one while PROBE is not 0. -/
theorem decideTail_cases {t : Tail} (ht : t ≠ .leave) (s : State) :
    (∃ body code out, body.all isPlain = true ∧ decideTail t s = (body ++ returnWrites code out, .leave))
      ∨ (s.retry ≠ 0#8 ∧ (∀ u, testsAhead t u = u.retry.toNat + 2) ∧ decideTail t s = (retryExchange s.cfg, t))
      ∨ (t = .resyncTest ∧ decideTail t s = (.loadProbe :: probePulse s.cfg, .probeTest))
      ∨ (t = .probeTest ∧ s.probe ≠ 0#8 ∧ decideTail t s = (probePulse s.cfg, .probeTest)) := by
  cases t with
  | leave => exact absurd rfl ht
  | confirmTest =>
    simp only [decideTail]
    split
    · exact .inl ⟨[], statusOk, false, rfl, rfl⟩
    · split
      · exact .inl ⟨[], statusBusy, false, rfl, rfl⟩
      · exact .inr (.inl ⟨‹_›, fun _ => rfl, rfl⟩)
  | rxTest out =>
    simp only [decideTail]
    split
    · split
      · exact .inl ⟨[], statusBusy, out, rfl, rfl⟩
      · exact .inr (.inl ⟨‹_›, fun _ => rfl, rfl⟩)
    · split
      · exact .inl ⟨[], statusOk, out, rfl, rfl⟩
      · exact .inl ⟨[], statusTarget, out, rfl, rfl⟩
  | resyncTest =>
    simp only [decideTail]
    split
    · exact .inl ⟨[], statusResyncDead, false, rfl, rfl⟩
    · exact .inr (.inr (.inl ⟨trivial, rfl⟩))
  | probeTest =>
    simp only [decideTail]
    split
    · exact .inl ⟨completingCells s.cfg 16, statusOk, false, isPlain_completingCells s.cfg 16, rfl⟩
    · split
      · exact .inl ⟨[], statusResyncNoStart, false, rfl, rfl⟩
      · exact .inr (.inr (.inr ⟨trivial, ‹_›, rfl⟩))

/-- A counter of a loop that goes on is smaller after its round. -/
theorem toNat_sub_one_lt {v : Byte} (h : v ≠ 0#8) : (v - 1#8).toNat < v.toNat := by bv_omega

/-- After what a test chooses fewer tests are ahead: its loop's counter was not 0 and goes down. -/
theorem testsAhead_decideTail {t : Tail} (ht : t ≠ .leave) (s : State) :
    testsAhead (decideTail t s).2 (runMicros (decideTail t s).1 s) < testsAhead t s := by
  have two_le : 1 < testsAhead t s := by
    cases t <;> simp only [testsAhead, ne_eq, not_true_eq_false] at ht ⊢ <;> omega
  obtain ⟨body, code, out, -, h⟩ | ⟨hr, hcount, h⟩ | ⟨rfl, h⟩ | ⟨rfl, hp, h⟩ := decideTail_cases ht s <;> rw [h]
  · exact two_le
  · rw [hcount, hcount, retryExchange_retry]
    exact Nat.add_lt_add_right (toNat_sub_one_lt hr) 2
  · exact Nat.add_lt_add_right (BitVec.isLt _) 2
  · rw [testsAhead, probePulse_probe]
    exact Nat.add_lt_add_right (toNat_sub_one_lt hp) 2

/-- No test leaves the operation by itself: another round, or the writes of a return, come first (R140). -/
theorem decideTail_ne_nil {t : Tail} (ht : t ≠ .leave) (s : State) : (decideTail t s).1 ≠ [] := by
  obtain ⟨body, code, out, -, h⟩ | ⟨-, -, h⟩ | ⟨-, h⟩ | ⟨-, -, h⟩ := decideTail_cases ht s <;>
    simp [h, returnWrites, retryExchange, probePulse]

/-- With as many tests as are ahead, one more changes nothing. -/
theorem finish_succ_of_testsAhead_le (op : ReqOp) {n : Nat} {rest : List Micro} {tail : Tail} {s : State}
    (h : testsAhead tail (runMicros rest s) ≤ n) : finish op (n + 1) rest tail s = finish op n rest tail s := by
  induction n generalizing rest tail s with
  | zero => exact absurd h (by have := testsAhead_pos tail (runMicros rest s); omega)
  | succ n ih =>
    rw [finish, finish]
    by_cases htail : tail = .leave
    · subst htail
      rfl
    · have hlt := testsAhead_decideTail htail (runMicros rest s)
      generalize decideTail tail (runMicros rest s) = d at hlt
      obtain ⟨_ | ⟨m, ms⟩, t⟩ := d
      · rfl
      · exact ih (Nat.le_of_lt_succ (Nat.lt_of_lt_of_le hlt h))

/-- Taking the first position before the rest of the run changes nothing. -/
theorem finish_cons (op : ReqOp) (n : Nat) (m : Micro) (rest : List Micro) (tail : Tail) (s : State) :
    finish op n (m :: rest) tail s = finish op n rest tail (runMicro m s) := by
  cases n <;> rfl

/-- What is left of an operation may be run from the position that comes next. -/
theorem finish_of_ahead (op : ReqOp) {rest rest' : List Micro} {tail tail' : Tail} {m : Micro} {s : State}
    (h : ahead rest tail s = (m :: rest', tail')) :
    finish op maxTests rest tail s = finish op maxTests rest' tail' (runMicro m s) := by
  cases rest with
  | cons m0 rest0 =>
    cases h
    exact finish_cons ..
  | nil =>
    have hd : decideTail tail s = (m :: rest', tail') := h
    have hlt := testsAhead_decideTail (t := tail) (by rintro rfl; cases hd) s
    rw [hd] at hlt
    have hle : testsAhead tail' (runMicros (m :: rest') s) ≤ 299 :=
      Nat.le_of_lt_succ (hlt.trans (testsAhead_lt_maxTests tail s))
    have hrun : finish op maxTests [] tail s = finish op 299 (m :: rest') tail' s := by
      rw [maxTests, finish, runMicros, hd]
    rw [hrun, ← finish_succ_of_testsAhead_le op hle, finish_cons]
    rfl

/-! ## The run does not depend on time, nor on `bte_seq` -/

theorem runMicros_leaveOp (ms : List Micro) (s : State) : runMicros ms (leaveOp s) = leaveOp (runMicros ms s) := by
  have one (m : Micro) (u : State) : runMicro m (leaveOp u) = leaveOp (runMicro m u) := by
    cases m with
    | sample => simp only [runMicro, doMicro, sampleDin_eq]; rfl
    | _ => rfl
  induction ms generalizing s with
  | nil => rfl
  | cons m ms ih => rw [runMicros, one, ih, runMicros]

/-- The same state but for `bte_seq` and the registers of the delay loop. -/
def SameButTime (s u : State) : Prop := eraseTime (leaveOp s) = eraseTime (leaveOp u)

theorem SameButTime.runMicros {s u : State} (h : SameButTime s u) (ms : List Micro) :
    SameButTime (runMicros ms s) (runMicros ms u) := by
  rw [SameButTime, ← runMicros_leaveOp, ← runMicros_leaveOp]
  exact eraseTime_runMicros h ms

theorem SameButTime.decideTail {s u : State} (h : SameButTime s u) (t : Tail) : decideTail t s = decideTail t u := by
  have erase (v : State) : Machine.decideTail t (eraseTime (leaveOp v)) = Machine.decideTail t v := by cases t <;> rfl
  rw [← erase s, ← erase u, h]

theorem SameButTime.finish {s u : State} (h : SameButTime s u) (op : ReqOp) (n : Nat) (rest : List Micro) (tail : Tail) :
    eraseTime (finish op n rest tail s) = eraseTime (finish op n rest tail u) := by
  induction n generalizing rest tail s u with
  | zero => exact congrArg (fun v : State => { v with bteSeq := .running op [] tail }) (h.runMicros rest)
  | succ n ih =>
    have hr := h.runMicros rest
    rw [Machine.finish, Machine.finish, hr.decideTail tail]
    obtain ⟨_ | ⟨m, ms⟩, t⟩ := Machine.decideTail tail (Machine.runMicros rest u)
    · exact hr
    · exact ih hr (m :: ms) t

/-- A position taken by itself does what it does in a run, but for time. -/
theorem sameButTime_doMicro (m : Micro) (q : BteSeq) (s : State) :
    SameButTime { doMicro m s with bteSeq := q } (runMicro m s) := by
  cases m <;> rfl

/-! ## One position -/

/-- What one position can do: leave the operation, wait for the timer, or do what comes next. -/
theorem advance_cases {s : State} {op : ReqOp} {rest : List Micro} {tail : Tail} (h : s.bteSeq = .running op rest tail) :
    ((ahead rest tail s).1 = [] ∧ advance s = leaveOp s)
      ∨ ∃ m rest' tail', ahead rest tail s = (m :: rest', tail')
        ∧ (advance s = s ∨ advance s = { doMicro m s with bteSeq := .running op rest' tail' }) := by
  unfold advance
  rw [h]
  simp only
  obtain ⟨_ | ⟨m, rest'⟩, tail'⟩ := ahead rest tail s
  · exact .inl ⟨rfl, rfl⟩
  · refine .inr ⟨m, rest', tail', rfl, ?_⟩
    simp only
    split
    · split
      · exact .inr rfl
      · exact .inl rfl
    · exact .inr rfl

/-- Nothing is ahead only where the operation is to leave. -/
theorem ahead_eq_nil {rest : List Micro} {tail : Tail} {s : State} (h : (ahead rest tail s).1 = []) :
    rest = [] ∧ tail = .leave := by
  cases rest with
  | cons m rest => cases h
  | nil => exact ⟨rfl, by_contra fun ht => decideTail_ne_nil ht s h⟩

theorem resume_of_running {s : State} {op : ReqOp} {rest : List Micro} {tail : Tail}
    (h : s.bteSeq = .running op rest tail) : resume s = finish op maxTests rest tail s := by
  rw [resume, h]

/-- One position, then what is left: the same end. -/
theorem eraseTime_resume_advance (s : State) : eraseTime (resume (advance s)) = eraseTime (resume s) := by
  cases h : s.bteSeq with
  | idle => rw [show advance s = s by rw [advance, h]]
  | running op rest tail =>
    obtain ⟨hnil, hadv⟩ | ⟨m, rest', tail', hahead, hadv | hadv⟩ := advance_cases h
    · obtain ⟨rfl, rfl⟩ := ahead_eq_nil hnil
      rw [hadv, resume_of_running h]
      rfl
    · rw [hadv]
    · rw [hadv, resume_of_running h, finish_of_ahead op hahead, resume_of_running rfl]
      exact (sameButTime_doMicro m _ s).finish op maxTests rest' tail'

/-- BUSY is cleared by the last position of a return alone (R140). -/
theorem leaving_of_busy_cleared {s : State} (hs : busy s = 1#1) (ht : busy (advance s) = 0#1) :
    ∃ op, s.bteSeq = .running op [] .leave := by
  have of_running {u : State} {op : ReqOp} {rest : List Micro} {tail : Tail} (hu : u.bteSeq = .running op rest tail) :
      busy u = 1#1 := by rw [busy, hu]
  cases h : s.bteSeq with
  | idle => simp [busy, h] at hs
  | running op rest tail =>
    obtain ⟨hnil, hadv⟩ | ⟨m, rest', tail', hahead, hadv | hadv⟩ := advance_cases h
    · obtain ⟨rfl, rfl⟩ := ahead_eq_nil hnil
      exact ⟨op, rfl⟩
    · rw [hadv, hs] at ht
      cases ht
    · rw [hadv, of_running rfl] at ht
      cases ht

/-! ## The writes of a return close a run -/

/-- A run of plain positions that goes on to a test writes no port. -/
theorem returnsLast_of_no_write {rest : List Micro} {tail : Tail} (ht : tail ≠ .leave)
    (h : (rest.all fun m => !writesPort m) = true) : ReturnsLast rest tail := by
  rw [ReturnsLast, if_neg ht]
  intro m hm
  simpa using List.all_eq_true.1 h m hm

/-- Plain positions closed by the writes of a return. -/
theorem returnsLast_of_returnWrites {body : List Micro} (h : body.all isPlain = true) (code : Byte) (out : Bool) :
    ReturnsLast (body ++ returnWrites code out) .leave := by
  rw [ReturnsLast, if_pos rfl]
  refine ⟨body, code, fun m hm => writesPort_of_isPlain (List.all_eq_true.1 h m hm), ?_⟩
  cases out
  · exact .inl rfl
  · exact .inr rfl

theorem noWrite_of_isPlain {ms : List Micro} (h : ms.all isPlain = true) : (ms.all fun m => !writesPort m) = true := by
  rw [List.all_eq_true] at h ⊢
  intro m hm
  rw [writesPort_of_isPlain (h m hm)]
  rfl

theorem noWrite_retryExchange (c : Params) : ((retryExchange c).all fun m => !writesPort m) = true := by
  rw [retryExchange, List.all_append, noWrite_of_isPlain (isPlain_message c c.fillerWord)]
  rfl

theorem noWrite_probePulse (c : Params) : ((probePulse c).all fun m => !writesPort m) = true := by
  rw [probePulse, List.all_append, noWrite_of_isPlain (isPlain_cell c rfl)]
  rfl

theorem returnsLast_program (c : Params) (op : ReqOp) : ReturnsLast (program c op).1 (program c op).2 := by
  have hmsg (w : Half) := isPlain_message c w
  have exchange {pre : List Micro} {tail : Tail} (ht : tail ≠ .leave) (hpre : pre.all isPlain = true) :
      ReturnsLast (pre ++ .loadRetry :: retryExchange c) tail :=
    returnsLast_of_no_write ht (by
      rw [List.all_append, List.all_cons, noWrite_of_isPlain hpre, noWrite_retryExchange]
      rfl)
  cases op with
  | tx w => exact returnsLast_of_returnWrites (hmsg w) statusOk false
  | txrx w => exact returnsLast_of_returnWrites (hmsg w) statusOk true
  | txc => exact exchange (pre := []) Tail.noConfusion rfl
  | rxr => exact exchange (pre := []) Tail.noConfusion rfl
  | resync =>
    refine returnsLast_of_no_write Tail.noConfusion (noWrite_of_isPlain ?_)
    simp only [program, List.all_append, hmsg, Bool.and_self]
  | halt => exact exchange Tail.noConfusion (by simp [isPlain, isPlain_delay])
  | reset h => exact exchange Tail.noConfusion (by split <;> simp [isPlain, isPlain_delay])
  | illegal => exact returnsLast_of_returnWrites (body := []) rfl statusIllegalOp false

theorem returnsLast_decideTail {test : Tail} (ht : test ≠ .leave) (s : State) :
    ReturnsLast (decideTail test s).1 (decideTail test s).2 := by
  obtain ⟨body, code, out, hbody, h⟩ | ⟨-, -, h⟩ | ⟨-, h⟩ | ⟨-, -, h⟩ := decideTail_cases ht s <;> rw [h]
  · exact returnsLast_of_returnWrites hbody code out
  · exact returnsLast_of_no_write ht (noWrite_retryExchange s.cfg)
  · exact returnsLast_of_no_write Tail.noConfusion (noWrite_probePulse s.cfg)
  · exact returnsLast_of_no_write Tail.noConfusion (noWrite_probePulse s.cfg)

theorem advance_putByte {s : State} {op : ReqOp} {left : List Micro} {tail : Tail} {k : Fin 3}
    (h : s.bteSeq = .running op (.putByte k :: left) tail) :
    advance s = { s with bteSeq := .running op left tail, reqBuf := s.reqBuf.set k (reportByte s k) } := by
  rw [advance, h]
  rfl

/-- The buffer-out bytes as fields of the frame (spec/30_encoding.md R91, R93). -/
theorem reportByte_eq (s : State) (k : Fin 3) : reportByte s k = match k with
    | 0 => (s.shiftIn.extractLsb' 16 1).setWidth 8
    | 1 => s.shiftIn.extractLsb' 8 8
    | 2 => s.shiftIn.extractLsb' 0 8 := by
  have extend : ∀ b : Bit, (0#7 ++ b : Byte) = b.setWidth 8 := by decide
  match k with
  | 0 => exact extend _
  | 1 =>
    apply BitVec.eq_of_getLsbD_eq
    intro i hi
    simp [reportByte, highByte, frameData, hi]
  | 2 =>
    apply BitVec.eq_of_getLsbD_eq
    intro i hi
    simp [reportByte, lowByte, frameData, hi]

/-- Settles O19: the position that comes next is the first of what a run performs, and no operation needs more tests than
`maxTests`, so the run may start behind it; the return's writes close the programs and what every test chooses. -/
theorem positionByPositionIsTheSameRun : Obligations.PositionByPositionIsTheSameRun := by
  refine ⟨eraseTime_resume_advance, fun s i op hop hidle => ?_, fun s op left tail => ⟨fun k h => ?_, fun code h => ?_,
    fun h => ?_⟩, fun s hs ht => leaving_of_busy_cleared hs ht, returnsLast_program,
    fun _ s ht => returnsLast_decideTail ht s⟩
  · rw [exec_of_reqOpOf hop, runRequest, hidle]
  · rw [advance_putByte h, reportByte_eq] <;> rfl
  · rw [advance, h]
    rfl
  · rw [advance, h]
    rfl

end Sys2Proof.Machine
end

section
/-!
SUPPORT. What a step can do to the part of the state the two sides of the buffer-descriptor hand-off share: the slots, the
trackers and parities, the completion queue, the conditions, and the USB trace. Said once for every row of the CTS, for the
BTE, and for every move of the environment; the invariants of spec/10_state.md section 8 are derived from it.
-/

namespace Sys2Proof.Machine

open Sys2Proof Sys2Proof.Safety

/-! ## Steps that leave the hand-off alone -/

/-- The event shows no Submit, no Rearm and not the bus-reset rebuild (the only writer of 0x01 to EP0_CTL, R233). -/
def isQuiet : UsbEvent → Bool
  | .submit _ _ _ _ _ | .rearm _ _ => false
  | .write r v => !decide (r = .ep0Ctl ∧ v = 0x01#8)
  | .logTransferError | .logUnexpectedToken _ | .logUnexpectedEndpoint _ _ _ | .vendorRequest _ => true

/-- `t` has the slots, trackers, parities and queue of `s`, stands where `s` stands in its invocation, and its trace goes on
quietly. -/
structure Still (s t : State) : Prop where
  cfg : t.cfg = s.cfg
  mem : t.mem = s.mem
  ctsSeq : t.ctsSeq = s.ctsSeq
  toggle : t.toggle = s.toggle
  parity : t.parity = s.parity
  sieParity : t.sieParity = s.sieParity
  queue : t.queue = s.queue
  trace : ∃ added, t.usbTrace = added ++ s.usbTrace ∧ added.all isQuiet = true

/-- `t` has the interrupt registers of `s` and shows the same token event. -/
structure SameFlags (s t : State) : Prop where
  intStatus : t.intStatus = s.intStatus
  intEnable : t.intEnable = s.intEnable
  tokStatus : t.tokStatus = s.tokStatus

/-- `t` has the pending-transmit cursor and the faults of `s`. -/
structure SameCursor (s t : State) : Prop where
  cursorValid : t.cursorValid = s.cursorValid
  cursorRemaining : t.cursorRemaining = s.cursorRemaining
  zlpPending : t.zlpPending = s.zlpPending
  faults : t.faults = s.faults

theorem SameFlags.refl (s : State) : SameFlags s s := ⟨rfl, rfl, rfl⟩

theorem Still.refl (s : State) : Still s s := ⟨rfl, rfl, rfl, rfl, rfl, rfl, rfl, [], rfl, rfl⟩

/-- One quiet event more. -/
theorem Still.logged {s t : State} (h : Still s t) {ev : UsbEvent} (hq : isQuiet ev = true) :
    Still s { t with usbTrace := ev :: t.usbTrace } := by
  obtain ⟨hc, hm, hs, ht, hp, hsp, hqu, added, htr, hall⟩ := h
  refine ⟨hc, hm, hs, ht, hp, hsp, hqu, ev :: added, congrArg (ev :: ·) htr, ?_⟩
  rw [List.all_cons, hq, hall]
  rfl

/-! ## What the handlers of endpoint 0 do -/

/-- `s` after a Submit that raised no fault (spec/42_bdt_handoff.md R161). -/
def afterSubmit (e : Endpoint) (ptr : Word) (n : BitVec 10) (s : State) : State :=
  { s with
    mem := (writeSlot e .tx (s.parity.get e .tx) ptr (ctlWord n 1#1 (s.toggle.get e .tx) 0#4) s).mem
    toggle := s.toggle.flip e .tx
    parity := s.parity.flip e .tx
    usbTrace := .submit e (s.parity.get e .tx) ptr n (s.toggle.get e .tx) :: s.usbTrace }

@[simp] theorem afterSubmit_cfg (e : Endpoint) (ptr : Word) (n : BitVec 10) (s : State) :
    (afterSubmit e ptr n s).cfg = s.cfg := by rw [afterSubmit]
@[simp] theorem afterSubmit_intStatus (e : Endpoint) (ptr : Word) (n : BitVec 10) (s : State) :
    (afterSubmit e ptr n s).intStatus = s.intStatus := by rw [afterSubmit]
@[simp] theorem afterSubmit_intEnable (e : Endpoint) (ptr : Word) (n : BitVec 10) (s : State) :
    (afterSubmit e ptr n s).intEnable = s.intEnable := by rw [afterSubmit]
@[simp] theorem afterSubmit_tokStatus (e : Endpoint) (ptr : Word) (n : BitVec 10) (s : State) :
    (afterSubmit e ptr n s).tokStatus = s.tokStatus := by rw [afterSubmit]
@[simp] theorem afterSubmit_ctsSeq (e : Endpoint) (ptr : Word) (n : BitVec 10) (s : State) :
    (afterSubmit e ptr n s).ctsSeq = s.ctsSeq := by rw [afterSubmit]
@[simp] theorem afterSubmit_sieParity (e : Endpoint) (ptr : Word) (n : BitVec 10) (s : State) :
    (afterSubmit e ptr n s).sieParity = s.sieParity := by rw [afterSubmit]
@[simp] theorem afterSubmit_queue (e : Endpoint) (ptr : Word) (n : BitVec 10) (s : State) :
    (afterSubmit e ptr n s).queue = s.queue := by rw [afterSubmit]

theorem submit_eq_afterSubmit (e : Endpoint) (ptr : Word) (n : BitVec 10) (s : State) :
    submit e ptr n s = if slotFree s e .tx (s.parity.get e .tx) then .go (afterSubmit e ptr n s)
      else .halted (raise (.slotBusy e .tx (s.parity.get e .tx)) s) := submit_eq e ptr n s

/-- From `s` to `t` a handler submits packets on endpoint 0, each into a free slot, and leaves the rest of the hand-off
alone. -/
inductive Sends (s : State) : State → Prop where
  | refl : Sends s s
  | still {u v : State} (h : Sends s u) (hs : Still u v) (hf : SameFlags u v) : Sends s v
  | submit {u : State} (h : Sends s u) (ptr : Word) (n : BitVec 10) (hfree : slotFree u 0 .tx (u.parity.get 0 .tx) = true) :
      Sends s (afterSubmit 0 ptr n u)

theorem Sends.trans {s u v : State} (h : Sends s u) (g : Sends u v) : Sends s v := by
  induction g with
  | refl => exact h
  | still _ hs hf ih => exact ih.still hs hf
  | submit _ ptr n hfree ih => exact ih.submit ptr n hfree

/-- A part of a handler that only writes what the hand-off does not read. -/
theorem Sends.of_still {s t : State} (h : Still s t) (hf : SameFlags s t) : Sends s t := .still .refl h hf

/-- A handler sends; where it raises a fault, it has sent before and stops (spec/60_exceptions.md R262). -/
def FlowSends (s : State) : Flow → Prop
  | .go t => Sends s t
  | .halted t => ∃ f u, Sends s u ∧ t = raise f u

theorem FlowSends.of_sends {s u : State} {f : Flow} (h : Sends s u) (hf : FlowSends u f) : FlowSends s f := by
  cases f with
  | go t => exact Sends.trans h hf
  | halted t =>
    obtain ⟨f, v, hv, rfl⟩ := hf
    exact ⟨f, v, h.trans hv, rfl⟩

theorem FlowSends.andThen {s : State} {f : Flow} {k : State → Flow} (hf : FlowSends s f) (hk : ∀ u, FlowSends u (k u)) :
    FlowSends s (f.andThen k) := by
  cases f with
  | go u => exact .of_sends hf (hk u)
  | halted u => exact hf

theorem flowSends_submit (ptr : Word) (n : BitVec 10) (s : State) : FlowSends s (submit 0 ptr n s) := by
  rw [submit_eq_afterSubmit]
  split
  · exact Sends.refl.submit ptr n ‹_›
  · exact ⟨_, s, .refl, rfl⟩

/-- Going on in a state that only differs in what the hand-off does not read. -/
theorem flowSends_go {s t : State} (h : Still s t) (hf : SameFlags s t) : FlowSends s (.go t) := Sends.of_still h hf

theorem flowSends_ackRequest (s : State) : FlowSends s (ackRequest s) :=
  (flowSends_submit _ _ s).andThen fun u => flowSends_go { Still.refl u with } { SameFlags.refl u with }

theorem flowSends_serviceChunk (s : State) : FlowSends s (serviceChunk s) := by
  unfold serviceChunk
  split
  · exact (flowSends_submit _ _ s).andThen fun u => flowSends_go { Still.refl u with } { SameFlags.refl u with }
  · split
    · exact (flowSends_submit _ _ s).andThen fun u => flowSends_go { Still.refl u with } { SameFlags.refl u with }
    · exact flowSends_go { Still.refl s with } { SameFlags.refl s with }

theorem flowSends_startResponse (ptr : Word) (len limit : Half) (s : State) :
    FlowSends s (startResponse ptr len limit s) := by
  have load : Sends s (loadCursor ptr len limit s) := .of_still { Still.refl s with } { SameFlags.refl s with }
  rw [startResponse_eq]
  refine .of_sends load ?_
  split
  · exact (flowSends_submit _ _ _).andThen fun u => flowSends_go { Still.refl u with } { SameFlags.refl u with }
  · refine (flowSends_serviceChunk _).andThen fun u => FlowSends.andThen ?_ fun w =>
      flowSends_go { Still.refl w with } { SameFlags.refl w with }
    split
    · exact flowSends_serviceChunk u
    · exact Sends.refl

theorem flowSends_stallPath (s : State) : FlowSends s (stallPath s) :=
  flowSends_go ⟨rfl, rfl, rfl, rfl, rfl, rfl, rfl, [.write .ep0Ctl 0x03#8], rfl, rfl⟩ ⟨rfl, rfl, rfl⟩

theorem flowSends_actOn (a : VendorAction) (length : Half) (s : State) : FlowSends s (actOn a length s) := by
  cases a with
  | respond ptr len => exact flowSends_startResponse ptr len length s
  | acknowledge => exact flowSends_ackRequest s
  | reject => exact flowSends_stallPath s
  | nothing => exact Sends.refl

/-- The status stage writes DEV_ADDR at most. -/
theorem sends_applyAddress (s : State) : Sends s (applyAddress s) := by
  unfold applyAddress
  split
  · exact .of_still ⟨rfl, rfl, rfl, rfl, rfl, rfl, rfl, [.write .devAddr (0#1 ++ s.addrValue)], rfl, rfl⟩ ⟨rfl, rfl, rfl⟩
  · exact .refl

/-- Consume changes nothing by itself. -/
theorem flowSends_consume {e : Endpoint} {d : Dir} {p : Bit} {s : State} {k : BitVec 10 → State → Flow}
    (hk : ∀ n, FlowSends s (k n s)) : FlowSends s (consume e d p s k) := by
  rw [consume_eq]
  split
  · exact hk _
  · exact ⟨_, s, .refl, rfl⟩

/-! ## The rows of the CTS -/

/-- The condition of an acknowledgement that has no effect but to clear it (spec/44_usb_dispatcher.md R234, R235, R237,
R238). -/
def isQuietCondition (v : Byte) : Prop := v = 0x02#8 ∨ v = 0x04#8 ∨ v = 0x10#8 ∨ v = 0x80#8

/-- The row is selected by a condition (spec/30_encoding.md R104). -/
def isConditionRow : Instr → Bool
  | .usbrst | .error | .softok | .tokdne | .sleep | .stall => true
  | .tx _ | .txrx _ | .txc | .rxr | .resync | .halt | .reset _ | .bteIllegal _ | .vendor _ _ _ _ _
  | .getDescriptor _ _ _ _ | .setAddress _ _ _ _ | .setConfiguration _ _ _ _ | .unrecognised _ _ _ _ _ | .ep0Setup _
  | .ep0Out _ | .ep0In _ | .ep0Unexpected _ | .epnDefault _ => false

/-- `s` after the bus-reset handler (R232): rebuilt, the snapshot acknowledged, the invocation returned. -/
def afterUsbrst (s : State) : State := { ackStatus (snapshot s) (busResetRebuild s) with ctsSeq := .idle }

/-- What a row of the CTS does to the hand-off. -/
inductive RowDid (s : State) : Instr → State → Prop where
  /-- A condition is acknowledged and done with. -/
  | condition {i : Instr} (hi : isConditionRow i = true) (v : Byte) (hv : isQuietCondition v) {u : State} (hs : Still s u)
      (hf : SameFlags s u) : RowDid s i (conditionDone v (ackStatus v u))
  /-- Control passes to the handler of the token event. -/
  | tokdne : RowDid s .tokdne (callPhase .token s)
  /-- The transfer state is rebuilt and the invocation returns. -/
  | usbrst : RowDid s .usbrst (afterUsbrst s)
  /-- The receive slot of a SETUP event is armed again and Classify is called. -/
  | setup (p : Bit) (packet : Setup) : RowDid s (.ep0Setup p) (callClassify (rearm 0 p { s with setup := packet }))
  /-- The receive slot of an OUT event is armed again and the handler returns. -/
  | out (p : Bit) : RowDid s (.ep0Out p) (tokenDone (endDataStage (rearm 0 p s)))
  /-- A handler sends what it has to send and returns. -/
  | handled {i : Instr} (hi : isConditionRow i = false) (hsetup : ∀ p, i ≠ .ep0Setup p) (hout : ∀ p, i ≠ .ep0Out p)
      {u : State} (h : Sends s u) : RowDid s i (tokenDone u)
  /-- A fault is raised and the rest of the row is not performed. -/
  | fault {i : Instr} (f : Fault) {u : State} (h : Sends s u) : RowDid s i (raise f u)

/-- A handler that sends at most, returned from. -/
theorem RowDid.of_flowSends {s t : State} {i : Instr} {f : Flow} (hi : isConditionRow i = false)
    (hsetup : ∀ p, i ≠ .ep0Setup p) (hout : ∀ p, i ≠ .ep0Out p) (h : FlowSends s f)
    (ht : (f.andThen handlerReturn).outcome = .next t) : RowDid s i t := by
  cases f with
  | go u =>
    rw [Flow.andThen_go, handlerReturn_eq] at ht
    cases ht
    exact .handled hi hsetup hout h
  | halted u =>
    cases ht
    obtain ⟨f, u, hu, rfl⟩ := h
    exact .fault f hu

theorem rowDid_ep0Setup {s t : State} {p : Bit} (h : execEp0Setup p s = .next t) : RowDid s (.ep0Setup p) t := by
  rw [execEp0Setup_eq, consume_eq] at h
  split at h
  · split at h
    · cases h
      exact .fault _ .refl
    · cases h
      exact .setup p _
  · cases h
    exact .fault _ .refl

theorem rowDid_ep0Out {s t : State} {p : Bit} (h : execEp0Out p s = .next t) : RowDid s (.ep0Out p) t := by
  rw [execEp0Out_eq, consume_eq] at h
  split at h
  · rw [Flow.andThen_go, handlerReturn_eq] at h
    cases h
    exact .out p
  · cases h
    exact .fault _ .refl

theorem flowSends_ep0In (s : State) :
    FlowSends s ((if s.cursorValid = 1#1 then serviceChunk s else .go s).andThen fun s =>
      let s := applyAddress s
      .go { s with ctlState := if s.ctlState = .statusPending then .awaitingSetup else s.ctlState }) := by
  refine FlowSends.andThen ?_ fun u => .of_sends (sends_applyAddress u) ?_
  · split
    · exact flowSends_serviceChunk s
    · exact Sends.refl
  · exact flowSends_go { Still.refl _ with } { SameFlags.refl _ with }

/-- Every row of the CTS. -/
theorem exec_rowDid {i : Instr} {s t : State} (hi : isRequest i = false) (h : exec i s = .next t) : RowDid s i t := by
  have logged (ev : UsbEvent) (hev : isQuiet ev = true) : Still s { s with usbTrace := ev :: s.usbTrace } :=
    (Still.refl s).logged hev
  cases i with
  | tx | txrx | txc | rxr | resync | halt | reset | bteIllegal => cases hi
  | vendor rt code value index length =>
    rw [exec, execVendor_eq] at h
    refine .of_flowSends rfl nofun nofun (.of_sends (.of_still ?_ ?_) (flowSends_actOn ..)) h
    · exact ⟨rfl, rfl, rfl, rfl, rfl, rfl, rfl, [.vendorRequest _], rfl, rfl⟩
    · exact ⟨rfl, rfl, rfl⟩
  | getDescriptor rt value index length =>
    refine .of_flowSends rfl nofun nofun ?_ h
    split
    · exact flowSends_startResponse ..
    · exact flowSends_stallPath s
  | setAddress rt value index length =>
    refine .of_flowSends rfl nofun nofun (.of_sends (.of_still ?_ ?_) (flowSends_ackRequest _)) h
    · exact { Still.refl s with }
    · exact { SameFlags.refl s with }
  | setConfiguration rt value index length => exact .of_flowSends rfl nofun nofun (flowSends_ackRequest s) h
  | unrecognised rt code value index length => exact .of_flowSends rfl nofun nofun (flowSends_stallPath s) h
  | ep0Setup p => exact rowDid_ep0Setup h
  | ep0Out p => exact rowDid_ep0Out h
  | ep0In p => exact .of_flowSends rfl nofun nofun (flowSends_consume fun _ => flowSends_ep0In s) h
  | ep0Unexpected e =>
    have sends : FlowSends s (.go { s with usbTrace := .logUnexpectedToken e :: s.usbTrace }) :=
      flowSends_go (logged _ rfl) { SameFlags.refl s with }
    exact .of_flowSends rfl nofun nofun (flowSends_consume fun _ => sends) h
  | epnDefault e => exact .of_flowSends rfl nofun nofun (flowSends_go (logged _ rfl) { SameFlags.refl s with }) h
  | usbrst =>
    cases h
    exact .usbrst
  | error =>
    cases h
    exact .condition rfl 0x02#8 (by simp [isQuietCondition]) (logged _ rfl) { SameFlags.refl s with }
  | softok =>
    cases h
    exact .condition rfl 0x04#8 (by simp [isQuietCondition]) (.refl s) (.refl s)
  | tokdne =>
    cases h
    exact .tokdne
  | sleep =>
    cases h
    exact .condition rfl 0x10#8 (by simp [isQuietCondition]) (.refl s) (.refl s)
  | stall =>
    cases h
    exact .condition rfl 0x80#8 (by simp [isQuietCondition]) (.refl s) (.refl s)

/-! ## The BTE -/

theorem isRequest_decodeReq (bs : List Byte) : isRequest (decodeReq bs) = true := by
  simp only [decodeReq]
  repeat' split
  all_goals rfl

theorem isRequest_decodeSetup (p : Setup) : isRequest (decodeSetup p) = false := by
  unfold decodeSetup
  repeat' split
  all_goals rfl

theorem isRequest_decodeToken (t : BitVec 12) : isRequest (decodeToken t) = false := by
  unfold decodeToken
  repeat' split
  all_goals rfl

theorem isRequest_decodeCond {st : Byte} {i : Instr} (h : decodeCond st = .ok i) : isRequest i = false := by
  unfold decodeCond at h
  repeat' split at h
  all_goals cases h
  all_goals rfl

theorem decode_req (bs : List Byte) :
    decode (.req bs) = if bs.length ≤ 255 then .ok (decodeReq bs) else .error .requestTooLong := rfl

/-- The BTE finds rows of format REQ only. -/
theorem isRequest_of_bteFetch {s : State} {c : Code} {i : Instr} (hf : bteFetch s = some c) (hd : decode c = .ok i) :
    isRequest i = true := by
  unfold bteFetch at hf
  split at hf
  · split at hf
    · cases hf
      rw [decode_req] at hd
      split at hd
      · cases hd
        exact isRequest_decodeReq s.reqBuf
      · cases hd
    · cases hf
  · cases hf

/-- The CTS finds rows of the other three formats only. -/
theorem isRequest_of_ctsFetch {s : State} {c : Code} {i : Instr} (hf : ctsFetch s = some c) (hd : decode c = .ok i) :
    isRequest i = false := by
  unfold ctsFetch at hf
  split at hf
  · cases hf
  · split at hf
    · split at hf
      · cases hf
        exact isRequest_decodeCond hd
      · cases hf
    · cases hf
      exact isRequest_decodeCond hd
    · cases hf
      cases hd
      exact isRequest_decodeToken _
    · cases hf
      cases hd
      exact isRequest_decodeSetup _

theorem advance_withCts (u s : State) : advance (withCts u s) = withCts u (advance s) := by
  have hahead (rest : List Micro) (tail : Tail) : ahead rest tail (withCts u s) = ahead rest tail s := by
    cases rest with
    | nil => exact decideTail_withCts tail u s
    | cons m rest => rfl
  have hmove (m : Micro) (q : BteSeq) :
      ({ doMicro m (withCts u s) with bteSeq := q } : State) = withCts u { doMicro m s with bteSeq := q } := by
    rw [doMicro_withCts]
    rfl
  unfold advance
  rw [withCts_bteSeq]
  cases s.bteSeq with
  | idle => rfl
  | running op rest tail =>
    simp only [hahead]
    obtain ⟨_ | ⟨m, rest'⟩, tail'⟩ := ahead rest tail s
    · rfl
    · simp only [hmove]
      split
      · exact (apply_ite (withCts u) _ _ _).symm
      · rfl

/-- A turn or a position of the BTE leaves the CTS's half of the state alone (spec/00_scope.md R8). -/
theorem withCts_of_bteTurn {s t : State} (h : bteTurn s = .next t) : withCts s t = t := by
  obtain rfl | rfl | ⟨c, i, hf, hd, hx⟩ := bteTurn_next h
  · rfl
  · exact (resume_withCts s s).symm
  · exact (bteOperationsLeaveTheCtsAlone i s s (isRequest_of_bteFetch hf hd)).2 t hx

theorem withCts_of_bteMicroTurn {s t : State} (h : bteMicroTurn s = .next t) : withCts s t = t := by
  obtain rfl | rfl | ⟨op, rfl⟩ := bteMicroTurn_next h
  · rfl
  · exact (advance_withCts s s).symm
  · rfl

theorem still_of_withCts {s t : State} (hcfg : t.cfg = s.cfg) (h : withCts s t = t) : Still s t := by
  rw [← h]
  exact ⟨hcfg, rfl, rfl, rfl, rfl, rfl, rfl, [], rfl, rfl⟩

theorem sameFlags_of_withCts {s t : State} (h : withCts s t = t) : SameFlags s t := by
  rw [← h]
  exact ⟨rfl, rfl, rfl⟩

theorem sameCursor_of_withCts {s t : State} (h : withCts s t = t) : SameCursor s t := by
  rw [← h]
  exact ⟨rfl, rfl, rfl, rfl⟩

/-! ## The environment's moves -/

/-- `s` after the SIE has completed the slot (`e`, `d`, `p`): the control word, the parity, the record
(spec/42_bdt_handoff.md R164, R165). -/
def completed (e : Endpoint) (d : Dir) (p : Bit) (n : BitVec 10) (tog : Bit) (kind : BitVec 4) (s : State) : State :=
  let s := writeWord (slotAddr s.cfg e d p) (ctlWord n 0#1 tog kind) s
  pushCompletion { endpoint := e, dir := d, parity := p } { s with sieParity := s.sieParity.flip e d }

/-- `s` after the SIE has filled the receive slot its parity names and completed it. -/
def filled (e : Endpoint) (tog : Bit) (kind : BitVec 4) (bytes : List Byte) (s : State) : State :=
  completed e .rx (s.sieParity.get e .rx) (BitVec.ofNat 10 bytes.length) tog kind
    (writeBytes (slotBuf s e .rx (s.sieParity.get e .rx)) bytes s)

/-- The slot is the SIE's, and the queue has room for its record (R166, R170). -/
structure CanComplete (e : Endpoint) (d : Dir) (s : State) : Prop where
  hasSlots : e.val < s.cfg.numEndpoints
  owned : slotFree s e d (s.sieParity.get e d) = false
  room : s.queue.length < s.cfg.queueDepth

/-- What a move that is no turn, or the BTE, does to the hand-off. -/
inductive MoveDid (s t : State) : Prop where
  /-- The hand-off stays; conditions other than TOKDNE may be set, and boot may write INT_ENABLE. -/
  | noted (hs : Still s t) (htok : t.tokStatus = s.tokStatus)
      (hint : ∃ v, v &&& 0x68#8 = 0#8 ∧ t.intStatus = s.intStatus ||| v)
      (hen : t.intEnable = s.intEnable ∨ ∃ v, t.intEnable = v &&& 0x9F#8) (hcur : SameCursor s t)
  /-- The SIE fills a receive slot and completes it. -/
  | received (e : Endpoint) (bytes : List Byte) (tog : Bit) (kind : BitVec 4) (hkind : kind = kindOut ∨ kind = kindSetup)
      (hcan : CanComplete e .rx s) (hfits : bytes.length ≤ (ctlCount (slotCtl s e .rx (s.sieParity.get e .rx))).toNat)
      (hs : Still (filled e tog kind bytes s) t) (hf : SameFlags (filled e tog kind bytes s) t)
      (hcur : SameCursor s t)
  /-- The SIE has sent a transmit slot and completes it. -/
  | sent (e : Endpoint) (n : BitVec 10) (tog : Bit) (hcan : CanComplete e .tx s)
      (hs : Still (completed e .tx (s.sieParity.get e .tx) n tog kindIn s) t)
      (hf : SameFlags (completed e .tx (s.sieParity.get e .tx) n tog kindIn s) t) (hcur : SameCursor s t)
  /-- The SIE writes a byte of a receive buffer it owns. -/
  | buffer (e : Endpoint) (p : Bit) (off : Nat) (b : Byte) (he : e.val < s.cfg.numEndpoints)
      (howned : slotFree s e .rx p = false) (hoff : off < (ctlCount (slotCtl s e .rx p)).toNat)
      (ht : t = writeByte (slotBuf s e .rx p + BitVec.ofNat 32 off) b s)

/-- The hand-off and the interrupt registers stay. -/
theorem MoveDid.of_still {s t : State} (hs : Still s t) (hf : SameFlags s t) (hcur : SameCursor s t) : MoveDid s t :=
  .noted hs hf.tokStatus ⟨0#8, by decide, by rw [hf.intStatus, BitVec.or_zero]⟩ (.inl hf.intEnable) hcur

/-- The SIE answers a token, and perhaps sets a condition. -/
theorem moveDid_reply (kind : BitVec 4) (e : Endpoint) (r : Reply) (s : State) : MoveDid s (reply kind e r s) :=
  .of_still { Still.refl s with } { SameFlags.refl s with } ⟨rfl, rfl, rfl, rfl⟩

theorem moveDid_setCondition {v : Byte} (hv : v &&& 0x68#8 = 0#8) (s : State) : MoveDid s (setCondition v s) :=
  .noted { Still.refl s with } rfl ⟨v, hv, rfl⟩ (.inl rfl) ⟨rfl, rfl, rfl, rfl⟩

theorem moveDid_reply_setCondition {v : Byte} (hv : v &&& 0x68#8 = 0#8) (kind : BitVec 4) (e : Endpoint) (r : Reply)
    (s : State) : MoveDid s (reply kind e r (setCondition v s)) :=
  .noted { Still.refl s with } rfl ⟨v, hv, rfl⟩ (.inl rfl) ⟨rfl, rfl, rfl, rfl⟩

/-- A slot with the ownership bit set is not the CTS's. -/
theorem slotFree_eq_false {s : State} {e : Endpoint} {d : Dir} {p : Bit} (h : ctlOwn (slotCtl s e d p) ≠ 0#1) :
    slotFree s e d p = false := by
  rw [slotFree, decide_eq_false_iff_not]
  exact h

theorem canComplete_of {s : State} {addr : BitVec 7} {e : Endpoint} {d : Dir} (hl : sieListens addr e s = true)
    (hown : ctlOwn (slotCtl s e d (s.sieParity.get e d)) ≠ 0#1) (hq : ¬ queueFull s = true) : CanComplete e d s := by
  simp only [sieListens, Bool.and_eq_true, decide_eq_true_eq] at hl
  simp only [queueFull, decide_eq_true_eq, Nat.not_le] at hq
  exact ⟨hl.2, slotFree_eq_false hown, hq⟩

theorem moveDid_receive {kind : BitVec 4} {e : Endpoint} {tog : Bit} {bytes : List Byte} {s t : State}
    (hkind : kind = kindOut ∨ kind = kindSetup) (hcan : CanComplete e .rx s)
    (hfits : bytes.length ≤ (ctlCount (slotCtl s e .rx (s.sieParity.get e .rx))).toNat)
    (h : receive kind e tog bytes s = .next t) : MoveDid s t := by
  unfold receive at h
  simp only at h
  split at h
  · cases h
  · have ht : t = reply kind e .ack (if kind = kindSetup ∧ e = 0 then clearEp0Stall (filled e tog kind bytes s)
        else filled e tog kind bytes s) := (Host.Outcome.next.inj h).symm
    have hkept (u : State) : Still u (reply kind e .ack (if kind = kindSetup ∧ e = 0 then clearEp0Stall u else u))
        ∧ SameFlags u (reply kind e .ack (if kind = kindSetup ∧ e = 0 then clearEp0Stall u else u)) := by
      split
      · exact ⟨{ Still.refl u with }, { SameFlags.refl u with }⟩
      · exact ⟨{ Still.refl u with }, { SameFlags.refl u with }⟩
    have hu := hkept (filled e tog kind bytes s)
    rw [← ht] at hu
    have hcur : SameCursor s t := by
      subst ht
      split <;> constructor <;> simp [reply, clearEp0Stall, filled, completed]
    exact .received e bytes tog kind hkind hcan hfits hu.1 hu.2 hcur

theorem moveDid_hostSetup {addr : BitVec 7} {e : Endpoint} {p : Setup} {s t : State}
    (h : hostSetup addr e p s = .next t) : MoveDid s t := by
  unfold hostSetup at h
  simp only at h
  split at h
  · obtain ⟨hl, hown, hcount, hq⟩ := ‹_ ∧ _›
    exact moveDid_receive (.inr rfl) (canComplete_of hl (by rw [hown]; decide) hq) (bytes := p.toBytes) hcount h
  · cases h
    exact moveDid_reply ..

theorem moveDid_hostOut {addr : BitVec 7} {e : Endpoint} {tog : Bit} {bytes : List Byte} {s t : State}
    (h : hostOut addr e tog bytes s = .next t) : MoveDid s t := by
  unfold hostOut at h
  simp only at h
  split at h
  · cases h
    exact moveDid_reply ..
  split at h
  · cases h
    exact moveDid_reply_setCondition (by decide) ..
  split at h
  · cases h
    exact moveDid_reply ..
  split at h
  · cases h
    exact moveDid_reply_setCondition (by decide) ..
  split at h
  · cases h
    exact moveDid_reply ..
  · rename_i hl _ hfree hcount _
    obtain ⟨hown, hq⟩ := not_or.1 hfree
    exact moveDid_receive (.inl rfl) (canComplete_of (not_not.1 hl) hown hq) (Nat.le_of_not_lt hcount) h

theorem moveDid_hostIn {addr : BitVec 7} {e : Endpoint} {acked : Bool} {s t : State}
    (h : hostIn addr e acked s = .next t) : MoveDid s t := by
  unfold hostIn at h
  simp only at h
  split at h
  · cases h
    exact moveDid_reply ..
  split at h
  · cases h
    split
    · exact moveDid_reply_setCondition (by decide) ..
    · exact moveDid_reply ..
  split at h
  · cases h
    exact moveDid_reply ..
  · rename_i hl _ hfree
    obtain ⟨hown, hq⟩ := not_or.1 hfree
    cases h
    cases acked with
    | false => exact moveDid_reply ..
    | true =>
      have hkept (u : State) (r : Reply) : Still u (reply kindIn e r u) ∧ SameFlags u (reply kindIn e r u) :=
        ⟨{ Still.refl u with }, { SameFlags.refl u with }⟩
      have hcur (r : Reply) : SameCursor s (reply kindIn e r (sent e s)) := by
        constructor <;> simp [reply, sent]
      exact .sent e _ _ (canComplete_of (not_not.1 hl) hown hq) (hkept (sent e s) _).1 (hkept (sent e s) _).2 (hcur _)

theorem moveDid_sieBufferWrite {e : Endpoint} {p : Bit} {off : Nat} {b : Byte} {s t : State}
    (h : sieBufferWrite e p off b s = .next t) : MoveDid s t := by
  unfold sieBufferWrite at h
  simp only at h
  split at h
  · obtain ⟨he, hown, hoff⟩ := ‹_ ∧ _›
    split at h
    · cases h
    · exact .buffer e p off b he (slotFree_eq_false (by rw [hown]; decide)) hoff (Host.Outcome.next.inj h).symm
  · cases h

/-- Every event that is no turn. -/
theorem applyEvent_moveDid {ev : Event} {s t : State} (hv : isMove ev = true) (h : applyEvent ev s = .next t) :
    MoveDid s t := by
  cases ev with
  | bte | bteMicro | cts => cases hv
  | request bytes =>
    simp only [applyEvent, issueRequest] at h
    split at h <;> cases h
    exact .of_still { Still.refl s with } { SameFlags.refl s with } ⟨rfl, rfl, rfl, rfl⟩
  | writeReq bytes =>
    simp only [applyEvent, writeRequest] at h
    split at h
    · cases h
    · split at h <;> cases h
      exact .of_still { Still.refl s with } { SameFlags.refl s with } ⟨rfl, rfl, rfl, rfl⟩
  | bootBte v =>
    simp only [applyEvent, bootBte] at h
    split at h
    · cases h
    · split at h <;> cases h
      exact .of_still { Still.refl s with } { SameFlags.refl s with } ⟨rfl, rfl, rfl, rfl⟩
  | bootIntEnable v =>
    simp only [applyEvent, bootIntEnable] at h
    split at h
    · cases h
    · split at h <;> cases h
      exact .noted ⟨rfl, rfl, rfl, rfl, rfl, rfl, rfl, [.write .intEnable v], rfl, rfl⟩ rfl
        ⟨0#8, by decide, (BitVec.or_zero).symm⟩ (.inr ⟨v, rfl⟩) ⟨rfl, rfl, rfl, rfl⟩
  | resetSense =>
    cases h
    exact .of_still { Still.refl s with } { SameFlags.refl s with } ⟨rfl, rfl, rfl, rfl⟩
  | tick k =>
    cases h
    exact .of_still { Still.refl s with } { SameFlags.refl s with } ⟨rfl, rfl, rfl, rfl⟩
  | busReset =>
    cases h
    exact .noted { Still.refl s with } rfl ⟨0x01#8, by decide, rfl⟩ (.inl rfl) ⟨rfl, rfl, rfl, rfl⟩
  | sof =>
    cases h
    exact moveDid_setCondition (by decide) s
  | sleep =>
    cases h
    exact moveDid_setCondition (by decide) s
  | busError =>
    cases h
    exact moveDid_setCondition (by decide) s
  | hostSetup addr e p => exact moveDid_hostSetup h
  | hostOut addr e tog bytes => exact moveDid_hostOut h
  | hostIn addr e acked => exact moveDid_hostIn h
  | sieBuffer e p off b => exact moveDid_sieBufferWrite h

/-! ## Every step -/

/-- Every step that answers a next state, as the hand-off sees it: beside notes of the script and of boot's time, a row of
the CTS or a move. -/
theorem step_did {s t : State} (h : step s = .next t) :
    configOk s.cfg = true ∧ ∃ u, Still s u ∧ SameFlags s u ∧ SameCursor s u ∧ ctsFetch u = ctsFetch s
      ∧ ((∃ c i, ctsFetch u = some c ∧ decode c = .ok i ∧ isRequest i = false ∧ exec i (ctsEnter u) = .next t)
        ∨ MoveDid u t) := by
  obtain ⟨hc, -, script, a, b, hdid⟩ := step_next h
  refine ⟨hc, { s with script := script, bootBteDone := a, bootIntDone := b }, { Still.refl s with },
    { SameFlags.refl s with }, ⟨rfl, rfl, rfl, rfl⟩, rfl, ?_⟩
  obtain rfl | ⟨c, i, hf, hd, hx⟩ | hb | hm | ⟨ev, hv, hx⟩ := hdid
  · exact .inr (.of_still (.refl _) (.refl _) ⟨rfl, rfl, rfl, rfl⟩)
  · exact .inl ⟨c, i, hf, hd, isRequest_of_ctsFetch hf hd, hx⟩
  · have hw := withCts_of_bteTurn hb
    exact .inr (.of_still (still_of_withCts (bteTurn_kept hb).1 hw) (sameFlags_of_withCts hw) (sameCursor_of_withCts hw))
  · have hw := withCts_of_bteMicroTurn hm
    exact .inr (.of_still (still_of_withCts (bteMicroTurn_kept hm).1 hw) (sameFlags_of_withCts hw)
      (sameCursor_of_withCts hw))
  · exact .inr (applyEvent_moveDid hv hx)

end Sys2Proof.Machine
end

section
/-!
SUPPORT. TOKDNE, TOK_STATUS and the completion queue agree (spec/10_state.md R45), and the cursor exists exactly when
something is left to send (R54): kept by every row and every move.
-/

namespace Sys2Proof.Machine

open Sys2Proof Sys2Proof.Safety

/-! ## The completion queue -/

theorem eq_withTokdne_iff (v : Byte) (q : List Completion) : v = withTokdne v q ↔ v[3] = !q.isEmpty := by
  have clear : ∀ v : Byte, v = v &&& ~~~0x08#8 ↔ v[3] = false := by decide
  have set : ∀ v : Byte, v = v ||| 0x08#8 ↔ v[3] = true := by decide
  cases q with
  | nil => exact clear v
  | cons r q => exact set v

/-- The reserved bits of INT_STATUS and INT_ENABLE (spec/30_encoding.md R104). -/
theorem reserved_eq_zero_iff (v : Byte) : v &&& 0x60#8 = 0#8 ↔ v[5] = false ∧ v[6] = false := by
  revert v
  decide

/-- The invariant, bit by bit. -/
theorem queueSound_iff (s : State) :
    QueueSound s ↔ s.intStatus[3] = !s.queue.isEmpty ∧ s.tokStatus = shownHead s.tokStatus s.queue
      ∧ s.queue.length ≤ s.cfg.queueDepth ∧ (s.intStatus[5] = false ∧ s.intStatus[6] = false)
      ∧ s.intEnable &&& 0x60#8 = 0#8 := by
  rw [QueueSound, eq_withTokdne_iff, reserved_eq_zero_iff]

/-- What is shown of a queue is what would be shown again. -/
theorem shownHead_shownHead (old : Byte) (q : List Completion) : shownHead old q = shownHead (shownHead old q) q := by
  cases q <;> rfl

theorem masked_reserved (v : Byte) : v &&& 0x9F#8 &&& 0x60#8 = 0#8 := by
  rw [BitVec.and_assoc]
  exact BitVec.and_zero

theorem queueSound_congr {s t : State} (hcfg : t.cfg = s.cfg) (hqueue : t.queue = s.queue) (hf : SameFlags s t)
    (h : QueueSound s) : QueueSound t := by
  rw [QueueSound, hcfg, hqueue, hf.intStatus, hf.intEnable, hf.tokStatus]
  exact h

theorem queueSound_of_still {s t : State} (hs : Still s t) (hf : SameFlags s t) (h : QueueSound s) : QueueSound t :=
  queueSound_congr hs.cfg hs.queue hf h

/-- Setting conditions other than TOKDNE, or INT_ENABLE, keeps the agreement. -/
theorem queueSound_of_noted {s t : State} (hs : Still s t) (htok : t.tokStatus = s.tokStatus) {v : Byte}
    (hv : v &&& 0x68#8 = 0#8) (hint : t.intStatus = s.intStatus ||| v)
    (hen : t.intEnable = s.intEnable ∨ ∃ v, t.intEnable = v &&& 0x9F#8) (h : QueueSound s) : QueueSound t := by
  have bits : ∀ v : Byte, v &&& 0x68#8 = 0#8 → v[3] = false ∧ v[5] = false ∧ v[6] = false := by decide
  obtain ⟨v3, v5, v6⟩ := bits v hv
  rw [queueSound_iff] at h ⊢
  obtain ⟨h3, hhead, hlen, ⟨h5, h6⟩, hmask⟩ := h
  have hmask' : t.intEnable &&& 0x60#8 = 0#8 := by
    obtain hen | ⟨w, hen⟩ := hen
    · rw [hen, hmask]
    · rw [hen, masked_reserved]
  rw [hs.queue, hs.cfg, htok, hint]
  simp only [BitVec.getElem_or, v3, v5, v6, Bool.or_false]
  exact ⟨h3, hhead, hlen, ⟨h5, h6⟩, hmask'⟩

/-- Setting TOKDNE leaves the reserved bits. -/
theorem or_eight_bits (v : Byte) : (v ||| 0x08#8)[3] = true ∧ (v ||| 0x08#8)[5] = v[5] ∧ (v ||| 0x08#8)[6] = v[6] := by
  revert v
  decide

/-- A completion keeps the agreement where there is room for its record. -/
theorem queueSound_completed {s : State} (e : Endpoint) (d : Dir) (p : Bit) (n : BitVec 10) (tog : Bit) (kind : BitVec 4)
    (hroom : s.queue.length < s.cfg.queueDepth) (h : QueueSound s) : QueueSound (completed e d p n tog kind s) := by
  rw [queueSound_iff] at h ⊢
  obtain ⟨-, hhead, -, ⟨h5, h6⟩, hmask⟩ := h
  obtain ⟨s3, s5, s6⟩ := or_eight_bits s.intStatus
  have hshown (r : Completion) : (if s.queue.isEmpty then tokStatusOf r else s.tokStatus)
      = shownHead (if s.queue.isEmpty then tokStatusOf r else s.tokStatus) (s.queue ++ [r]) := by
    cases hq : s.queue with
    | nil => rfl
    | cons r' q =>
      rw [hq] at hhead
      exact hhead
  simp only [completed, pushCompletion, writeWord_intStatus, writeWord_queue, writeWord_tokStatus, writeWord_cfg,
    writeWord_intEnable, List.length_append, List.length_singleton, s3, s5, s6, h5, h6]
  exact ⟨by simp, hshown _, hroom, ⟨trivial, trivial⟩, hmask⟩

/-- Acknowledging any conditions keeps the agreement (spec/42_bdt_handoff.md R169, R170). -/
theorem queueSound_ackStatus {s : State} (v : Byte) (h : QueueSound s) : QueueSound (ackStatus v s) := by
  rw [queueSound_iff] at h ⊢
  obtain ⟨h3, hhead, hlen, ⟨h5, h6⟩, hmask⟩ := h
  rw [ackStatus_eq]
  have htail : s.queue.length ≤ s.cfg.queueDepth + 1 := by omega
  have hshown := shownHead_shownHead s.tokStatus s.queue.tail
  cases v0 : v[0] with
  | true => by_cases hq : v[3] = true ∧ s.queue.tail ≠ [] <;> simp [v0, hq, h5, h6, hmask, shownHead]
  | false =>
    cases v3 : v[3] with
    | false => simp [v0, v3, h3, h5, h6, hmask, hlen, ← hhead]
    | true =>
      by_cases hq : s.queue.tail = []
      · simp [v0, v3, h5, h6, hmask, hq, shownHead]
      · simp [v0, v3, h5, h6, hmask, hq, htail, ← hshown]

theorem queueSound_conditionDone {s : State} (v : Byte) (h : QueueSound s) : QueueSound (conditionDone v s) := by
  rw [conditionDone_eq]
  exact h

theorem tokenDone_eq (s : State) : tokenDone s = conditionDone 0x08#8 (ackStatus 0x08#8 s) := by
  rw [ackStatus_tokdne, conditionDone_eq]
  rfl

theorem queueSound_tokenDone {s : State} (h : QueueSound s) : QueueSound (tokenDone s) := by
  rw [tokenDone_eq]
  exact queueSound_conditionDone _ (queueSound_ackStatus _ h)

theorem queueSound_sends {s t : State} (hsend : Sends s t) (h : QueueSound s) : QueueSound t := by
  induction hsend with
  | refl => exact h
  | still _ hs hf ih => exact queueSound_of_still hs hf ih
  | submit _ ptr n hfree ih => exact queueSound_congr (by simp) (by simp) (by constructor <;> simp) ih

theorem exists_mem_rebuildSlots (e : Endpoint) (p : Bit) (s : State) : ∃ m, rebuildSlots e p s = { s with mem := m } := by
  rw [rebuildSlots, writeSlot_eq, writeWord_eq, writeWord_eq (s := s)]
  exact ⟨_, rfl⟩

/-- The rebuild of the endpoints changes memory and the trackers only. -/
theorem exists_rebuildEndpoints_eq (es : List Endpoint) (s : State) :
    ∃ m p t, rebuildEndpoints es s = { s with mem := m, parity := p, toggle := t } := by
  induction es generalizing s with
  | nil => exact ⟨s.mem, s.parity, s.toggle, rfl⟩
  | cons e es ih =>
    obtain ⟨m, hm⟩ := exists_mem_rebuildSlots e 0#1 s
    obtain ⟨m', hm'⟩ := exists_mem_rebuildSlots e 1#1 { s with mem := m }
    rw [rebuildEndpoints, rebuildEndpoint_eq, hm, hm']
    obtain ⟨m'', p, t, h⟩ := ih (rebuildTrackers e { s with mem := m' })
    exact ⟨m'', p, t, h⟩

theorem queueSound_busResetRebuild {s : State} (h : QueueSound s) : QueueSound (busResetRebuild s) := by
  obtain ⟨htokdne, hhead, hlen, hres, -⟩ := h
  obtain ⟨m, p, t, ht⟩ := exists_rebuildEndpoints_eq s.cfg.activeEndpoints s
  rw [busResetRebuild, ht]
  exact ⟨htokdne, hhead, hlen, hres, masked_reserved 0x9F#8⟩

theorem queueSound_row {s t : State} {i : Instr} (hrow : RowDid s i t) (h : QueueSound s) : QueueSound t := by
  cases hrow with
  | condition _ v hv hs hf => exact queueSound_conditionDone v (queueSound_ackStatus v (queueSound_of_still hs hf h))
  | tokdne => exact queueSound_congr (by simp) (by simp) (by constructor <;> simp) h
  | usbrst =>
    have hacked := queueSound_ackStatus (snapshot s) (queueSound_busResetRebuild h)
    exact queueSound_congr rfl rfl ⟨rfl, rfl, rfl⟩ hacked
  | setup p packet =>
    refine queueSound_congr ?_ ?_ ?_ h
    · simp [callClassify, rearm_eq]
    · simp [callClassify, rearm_eq]
    · constructor <;> simp [callClassify, rearm_eq]
  | out p =>
    refine queueSound_tokenDone (queueSound_congr ?_ ?_ ?_ h)
    · simp [endDataStage, rearm_eq]
    · simp [endDataStage, rearm_eq]
    · constructor <;> simp [endDataStage, rearm_eq]
  | handled _ _ _ hsend => exact queueSound_tokenDone (queueSound_sends hsend h)
  | @fault _ f u hsend => exact queueSound_congr (s := u) rfl rfl ⟨rfl, rfl, rfl⟩ (queueSound_sends hsend h)

theorem queueSound_move {s t : State} (hmove : MoveDid s t) (h : QueueSound s) : QueueSound t := by
  cases hmove with
  | noted hs htok hint hen =>
    obtain ⟨v, hv, hint⟩ := hint
    exact queueSound_of_noted hs htok hv hint hen h
  | received e bytes tog kind hkind hcan hfits hs hf =>
    refine queueSound_of_still hs hf (queueSound_completed _ _ _ _ _ _ ?_ ?_)
    · rw [writeBytes_queue, writeBytes_cfg]
      exact hcan.room
    · rw [writeBytes_eq]
      exact h
  | sent e n tog hcan hs hf => exact queueSound_of_still hs hf (queueSound_completed _ _ _ _ _ _ hcan.room h)
  | buffer e p off b he howned hoff ht =>
    rw [ht]
    exact h

theorem queueSound_ctsEnter {s : State} (h : QueueSound s) : QueueSound (ctsEnter s) := by
  unfold ctsEnter
  split <;> exact h

/-- Settles O55: the queue changes with TOKDNE and TOK_STATUS in the two operations that move it, the SIE's completion and
the acknowledgement; nothing else writes them. -/
theorem stepKeepsTheQueueSound : Obligations.StepKeepsTheQueueSound := by
  intro s t hsound hstep
  obtain ⟨-, u, hs, hf, -, -, ⟨c, i, -, -, hi, hx⟩ | hmove⟩ := step_did hstep
  · exact queueSound_row (exec_rowDid hi hx) (queueSound_ctsEnter (queueSound_of_still hs hf hsound))
  · exact queueSound_move hmove (queueSound_of_still hs hf hsound)

end Sys2Proof.Machine
end

section
/-!
SUPPORT. The pending-transmit cursor exists exactly when something is left to send (spec/10_state.md R54): every operation
that writes one of its three parts ends in `updateCursorValid`, or clears all three, or raises a fault.
-/

namespace Sys2Proof.Machine

open Sys2Proof Sys2Proof.Safety

theorem cursorSound_congr {s t : State} (hc : SameCursor s t) (h : CursorSound s) : CursorSound t := by
  rw [CursorSound, hc.faults, hc.cursorValid, hc.cursorRemaining, hc.zlpPending]
  exact h

/-- Once a fault is recorded nothing is claimed (spec/60_exceptions.md R262). -/
theorem cursorSound_raise (f : Fault) (s : State) : CursorSound (raise f s) :=
  fun h => absurd h (List.append_ne_nil_of_right_ne_nil s.faults (List.cons_ne_nil f []))

theorem cursorSound_of_cleared {s : State} (hv : s.cursorValid = 0#1) (hr : s.cursorRemaining = 0#16)
    (hz : s.zlpPending = 0#1) : CursorSound s := by
  intro _
  rw [hv, hr, hz]
  decide

/-- The last line of ServiceChunk (spec/43_ep0_control.md R198) restores the invariant from any state. -/
theorem cursorSound_updateCursorValid (s : State) : CursorSound (updateCursorValid s) := by
  intro _
  have pos : ∀ r : Half, 0#16 < r ↔ r ≠ 0#16 := fun r => by bv_omega
  show (if s.cursorRemaining ≠ 0#16 ∨ s.zlpPending = 1#1 then 1#1 else 0#1) = 1#1
    ↔ 0#16 < s.cursorRemaining ∨ s.zlpPending = 1#1
  rw [pos]
  split
  · exact iff_of_true rfl ‹_›
  · exact iff_of_false (by decide) ‹_›

/-- An operation that may stop with a fault, and one after it that leaves the cursor sound. -/
theorem cursorSound_andThen {s : State} {f : Flow} {k : State → Flow} (hf : FlowSends s f)
    (hk : ∀ u, f = .go u → CursorSound (k u).state) : CursorSound (f.andThen k).state := by
  cases f with
  | go u => exact hk u rfl
  | halted u =>
    obtain ⟨f, v, -, rfl⟩ := hf
    exact cursorSound_raise f v

/-- A Submit leaves the cursor and the faults alone. -/
theorem sameCursor_of_submit {e : Endpoint} {ptr : Word} {n : BitVec 10} {s u : State} (h : submit e ptr n s = .go u) :
    SameCursor s u := by
  rw [submit_eq] at h
  split at h
  · cases h
    exact ⟨rfl, rfl, rfl, rfl⟩
  · cases h

theorem cursorSound_serviceChunk (s : State) : CursorSound (serviceChunk s).state := by
  unfold serviceChunk
  split
  · exact cursorSound_andThen (flowSends_submit ..) fun u _ => cursorSound_updateCursorValid _
  · split
    · exact cursorSound_andThen (flowSends_submit ..) fun u _ => cursorSound_updateCursorValid _
    · exact cursorSound_updateCursorValid s

theorem cursorSound_of_serviceChunk {s u : State} (h : serviceChunk s = .go u) : CursorSound u := by
  have hs := cursorSound_serviceChunk s
  rw [h] at hs
  exact hs

/-- StartResponse loads the cursor anew (R197): empty with nothing owed, or as its last ServiceChunk leaves it. -/
theorem cursorSound_startResponse (ptr : Word) (len limit : Half) (s : State) :
    CursorSound (startResponse ptr len limit s).state := by
  rw [startResponse_eq]
  split
  · rename_i hn
    refine cursorSound_andThen (flowSends_submit ..) fun u hu => ?_
    have hc := sameCursor_of_submit hu
    have hz : (loadCursor ptr len limit s).zlpPending = 0#1 := by simp [loadCursor, owesZlp, hn]
    exact cursorSound_of_cleared rfl (hc.cursorRemaining.trans hn) (hc.zlpPending.trans hz)
  · refine cursorSound_andThen (flowSends_serviceChunk _) fun u hu => ?_
    refine cursorSound_andThen (s := u) ?_ fun v hv => cursorSound_congr (s := v) ⟨rfl, rfl, rfl, rfl⟩ ?_
    · split
      · exact flowSends_serviceChunk u
      · exact Sends.refl
    · split at hv
      · exact cursorSound_of_serviceChunk hv
      · cases hv
        exact cursorSound_of_serviceChunk hu

theorem cursorSound_ackRequest {s : State} (h : CursorSound s) : CursorSound (ackRequest s).state :=
  cursorSound_andThen (flowSends_submit ..) fun u hu =>
    cursorSound_congr (s := u) ⟨rfl, rfl, rfl, rfl⟩ (cursorSound_congr (sameCursor_of_submit hu) h)

theorem cursorSound_stallPath {s : State} (h : CursorSound s) : CursorSound (stallPath s).state :=
  cursorSound_congr ⟨rfl, rfl, rfl, rfl⟩ h

theorem cursorSound_actOn (a : VendorAction) (length : Half) {s : State} (h : CursorSound s) :
    CursorSound (actOn a length s).state := by
  cases a with
  | respond ptr len => exact cursorSound_startResponse ptr len length s
  | acknowledge => exact cursorSound_ackRequest h
  | reject => exact cursorSound_stallPath h
  | nothing => exact h

/-- A handler that leaves the cursor sound, returned from. -/
theorem cursorSound_returned {t : State} {f : Flow} (h : CursorSound f.state)
    (ht : (f.andThen handlerReturn).outcome = .next t) : CursorSound t := by
  cases f with
  | go u =>
    rw [Flow.andThen_go, handlerReturn_eq] at ht
    cases ht
    exact cursorSound_congr (s := u) ⟨rfl, rfl, rfl, rfl⟩ h
  | halted u =>
    cases ht
    exact h

theorem cursorSound_consume {e : Endpoint} {d : Dir} {p : Bit} {s : State} {k : BitVec 10 → State → Flow}
    (hk : ∀ n, CursorSound (k n s).state) : CursorSound (consume e d p s k).state := by
  rw [consume_eq]
  split
  · exact hk _
  · exact cursorSound_raise _ s

theorem cursorSound_condition {s u : State} (v : Byte) (hc : SameCursor s u) (h : CursorSound s) :
    CursorSound (conditionDone v (ackStatus v u)) := by
  refine cursorSound_congr ?_ (cursorSound_congr hc h)
  constructor <;> simp

theorem cursorSound_ep0In {s : State} (h : CursorSound s) :
    CursorSound ((if s.cursorValid = 1#1 then serviceChunk s else .go s).andThen fun s =>
      let s := applyAddress s
      .go { s with ctlState := if s.ctlState = .statusPending then .awaitingSetup else s.ctlState }).state := by
  refine cursorSound_andThen (s := s) ?_ fun u hu => ?_
  · split
    · exact flowSends_serviceChunk s
    · exact Sends.refl
  · have husound : CursorSound u := by
      split at hu
      · exact cursorSound_of_serviceChunk hu
      · cases hu
        exact h
    refine cursorSound_congr ?_ husound
    rw [applyAddress_eq]
    exact ⟨rfl, rfl, rfl, rfl⟩

/-- EP0.SETUP clears what an abandoned transfer left (R191). -/
theorem cursorSound_callClassify (s : State) : CursorSound (callClassify s) := by
  rw [callClassify, callPhase_eq]
  exact cursorSound_of_cleared rfl rfl rfl

theorem cursorSound_ep0Setup (p : Bit) (s : State) : CursorSound (consume 0 .rx p s fun n s =>
    if n ≠ 8#10 then .halted (raise (.badSetupLength n) s)
    else .go (callClassify (rearm 0 p { s with setup := takenPacket p s }))).state := by
  refine cursorSound_consume fun n => ?_
  split
  · exact cursorSound_raise _ s
  · exact cursorSound_callClassify _

theorem sameCursor_rearm (e : Endpoint) (p : Bit) (s : State) : SameCursor s (endDataStage (rearm e p s)) := by
  constructor <;> rw [endDataStage, rearm_eq]

/-- Every row of the CTS. -/
theorem cursorSound_exec {i : Instr} {s t : State} (hi : isRequest i = false) (h : exec i s = .next t)
    (hs : CursorSound s) : CursorSound t := by
  cases i with
  | tx | txrx | txc | rxr | resync | halt | reset | bteIllegal => cases hi
  | vendor rt code value index length =>
    have hask (p : Setup) : CursorSound (askVendor p s) := cursorSound_congr ⟨rfl, rfl, rfl, rfl⟩ hs
    rw [exec, execVendor_eq] at h
    exact cursorSound_returned (cursorSound_actOn _ _ (hask _)) h
  | getDescriptor rt value index length =>
    refine cursorSound_returned ?_ h
    split
    · exact cursorSound_startResponse _ _ _ s
    · exact cursorSound_stallPath hs
  | setAddress rt value index length =>
    have hstored : CursorSound { s with addrValue := value.extractLsb' 0 7, addrPending := 1#1 } :=
      cursorSound_congr ⟨rfl, rfl, rfl, rfl⟩ hs
    exact cursorSound_returned (cursorSound_ackRequest hstored) h
  | setConfiguration rt value index length => exact cursorSound_returned (cursorSound_ackRequest hs) h
  | unrecognised rt code value index length => exact cursorSound_returned (cursorSound_stallPath hs) h
  | ep0Setup p =>
    rw [exec, execEp0Setup_eq] at h
    cases h
    exact cursorSound_ep0Setup p s
  | ep0Out p =>
    rw [exec, execEp0Out_eq] at h
    refine cursorSound_returned (cursorSound_consume fun _ => ?_) h
    exact cursorSound_congr (sameCursor_rearm 0 p s) hs
  | ep0In p =>
    refine cursorSound_returned (cursorSound_consume fun _ => ?_) h
    exact cursorSound_ep0In hs
  | ep0Unexpected e =>
    refine cursorSound_returned (cursorSound_consume fun _ => ?_) h
    exact cursorSound_congr (s := s) ⟨rfl, rfl, rfl, rfl⟩ hs
  | epnDefault e =>
    refine cursorSound_returned ?_ h
    exact cursorSound_congr (s := s) ⟨rfl, rfl, rfl, rfl⟩ hs
  | usbrst =>
    cases h
    apply cursorSound_of_cleared <;> simp [busResetRebuild]
  | error =>
    cases h
    exact cursorSound_condition 0x02#8 ⟨rfl, rfl, rfl, rfl⟩ hs
  | softok =>
    cases h
    exact cursorSound_condition 0x04#8 ⟨rfl, rfl, rfl, rfl⟩ hs
  | tokdne =>
    cases h
    rw [callPhase_eq]
    exact hs
  | sleep =>
    cases h
    exact cursorSound_condition 0x10#8 ⟨rfl, rfl, rfl, rfl⟩ hs
  | stall =>
    cases h
    exact cursorSound_condition 0x80#8 ⟨rfl, rfl, rfl, rfl⟩ hs

theorem sameCursor_of_moveDid {s t : State} (h : MoveDid s t) : SameCursor s t := by
  cases h with
  | noted _ _ _ _ hcur => exact hcur
  | received _ _ _ _ _ _ _ _ _ hcur => exact hcur
  | sent _ _ _ _ _ _ hcur => exact hcur
  | buffer e p off b _ _ _ ht =>
    rw [ht]
    exact ⟨rfl, rfl, rfl, rfl⟩

theorem cursorSound_ctsEnter {s : State} (h : CursorSound s) : CursorSound (ctsEnter s) := by
  unfold ctsEnter
  split <;> exact h

/-- Settles O56: the rows of the CTS end every write of the cursor with its flag brought up to date, the other agents write
none of it. -/
theorem stepKeepsTheCursorSound : Obligations.StepKeepsTheCursorSound := by
  intro s t hsound hstep
  obtain ⟨-, u, -, -, hc, -, ⟨c, i, -, -, hi, hx⟩ | hmove⟩ := step_did hstep
  · exact cursorSound_exec hi hx (cursorSound_ctsEnter (cursorSound_congr hc hsound))
  · exact cursorSound_congr (sameCursor_of_moveDid hmove) (cursorSound_congr hc hsound)

end Sys2Proof.Machine
end

section
/-!
SUPPORT. What the USB trace says of the slots and toggles of successive Submits and Rearms (spec/10_state.md R52, R53), and
how the rows of the CTS continue it.
-/

namespace Sys2Proof.Machine

open Sys2Proof Sys2Proof.Safety

/-! ## Bits of the trackers -/

@[simp] theorem EpBits.get_flip_self (x : EpBits) (e : Endpoint) (d : Dir) : (x.flip e d).get e d = x.get e d ^^^ 1#1 :=
  EpBits.get_set_self x e d _

theorem EpBits.get_flip_of_ne (x : EpBits) {e e' : Endpoint} {d d' : Dir} (h : ¬ (e = e' ∧ d = d')) :
    (x.flip e d).get e' d' = x.get e' d' :=
  EpBits.get_set_of_ne x _ h

/-- After the rebuild the trackers of an active endpoint are 0, every other is as it was (spec/44_usb_dispatcher.md R233). -/
theorem get_rebuildEndpoints (es : List Endpoint) (s : State) (e : Endpoint) (d : Dir) :
    (rebuildEndpoints es s).parity.get e d = (if e ∈ es then 0#1 else s.parity.get e d)
      ∧ (rebuildEndpoints es s).toggle.get e d = (if e ∈ es then 0#1 else s.toggle.get e d) := by
  have cleared (x : EpBits) (e' : Endpoint) :
      ((x.set e' .rx 0#1).set e' .tx 0#1).get e d = if e = e' then 0#1 else x.get e d := by
    by_cases he : e = e'
    · subst he
      cases d with
      | tx => simp
      | rx => rw [EpBits.get_set_of_ne _ _ (by simp), EpBits.get_set_self, if_pos rfl]
    · have hne {d' : Dir} : ¬ (e' = e ∧ d' = d) := fun h => he h.1.symm
      rw [EpBits.get_set_of_ne _ _ hne, EpBits.get_set_of_ne _ _ hne, if_neg he]
  induction es generalizing s with
  | nil => exact ⟨rfl, rfl⟩
  | cons e' es ih =>
    obtain ⟨hp, ht⟩ := ih (rebuildEndpoint e' s)
    obtain ⟨m, hm⟩ := exists_mem_rebuildSlots e' 0#1 s
    obtain ⟨m', hm'⟩ := exists_mem_rebuildSlots e' 1#1 { s with mem := m }
    have hone : rebuildEndpoint e' s = rebuildTrackers e' { s with mem := m' } := by rw [rebuildEndpoint_eq, hm, hm']
    rw [rebuildEndpoints, hp, ht, hone]
    simp only [rebuildTrackers, cleared, List.mem_cons]
    by_cases hes : e ∈ es <;> simp [hes]

/-! ## Quiet traces -/

/-- Two traces with the same Submits and Rearms of endpoint 0 since the last rebuild. -/
structure SameHandoffs (l l' : List UsbEvent) : Prop where
  nextTransmit : nextTransmitParity l' = nextTransmitParity l
  alternate : alternates l' ↔ alternates l
  nextReceive : nextReceiveParity l' = nextReceiveParity l
  rearms : rearmsAlternate l' ↔ rearmsAlternate l

theorem sameHandoffs_cons {ev : UsbEvent} (h : isQuiet ev = true) (l : List UsbEvent) : SameHandoffs l (ev :: l) := by
  cases ev with
  | submit | rearm => cases h
  | write r v =>
    have hne : ¬ (r = .ep0Ctl ∧ v = 0x01#8) := by simpa only [isQuiet, Bool.not_eq_true', decide_eq_false_iff_not] using h
    exact ⟨if_neg hne, Iff.rfl, if_neg hne, Iff.rfl⟩
  | _ => exact ⟨rfl, Iff.rfl, rfl, Iff.rfl⟩

theorem sameHandoffs_append {added : List UsbEvent} (h : added.all isQuiet = true) (l : List UsbEvent) :
    SameHandoffs l (added ++ l) := by
  induction added with
  | nil => exact ⟨rfl, Iff.rfl, rfl, Iff.rfl⟩
  | cons ev added ih =>
    rw [List.all_cons, Bool.and_eq_true] at h
    obtain ⟨ht, ha, hr, hra⟩ := ih h.2
    obtain ⟨ht', ha', hr', hra'⟩ := sameHandoffs_cons h.1 (added ++ l)
    exact ⟨ht'.trans ht, ha'.trans ha, hr'.trans hr, hra'.trans hra⟩

theorem submitToggles_quiet {added : List UsbEvent} (h : added.all isQuiet = true) : submitToggles added = [] := by
  induction added with
  | nil => rfl
  | cons ev added ih =>
    rw [List.all_cons, Bool.and_eq_true] at h
    cases ev with
    | submit | rearm => cases h.1
    | _ => exact ih h.2

/-- `t` has the trackers of `s`, and its trace goes on quietly. -/
structure Quietly (s t : State) : Prop where
  toggle : t.toggle = s.toggle
  parity : t.parity = s.parity
  trace : ∃ added, t.usbTrace = added ++ s.usbTrace ∧ added.all isQuiet = true

theorem Still.quietly {s t : State} (h : Still s t) : Quietly s t := ⟨h.toggle, h.parity, h.trace⟩

theorem quietly_tokenDone (s : State) : Quietly s (tokenDone s) := ⟨rfl, rfl, [.write .intStatus 0x08#8], rfl, rfl⟩

theorem quietly_endDataStage (s : State) : Quietly s (endDataStage s) := ⟨rfl, rfl, [], rfl, rfl⟩

theorem quietly_raise (f : Fault) (s : State) : Quietly s (raise f s) := ⟨rfl, rfl, [], rfl, rfl⟩

theorem quietly_callPhase (ph : CtsPhase) (s : State) : Quietly s (callPhase ph s) := by
  rw [callPhase_eq]
  exact ⟨rfl, rfl, [], rfl, rfl⟩

theorem quietly_condition (v : Byte) (s : State) : Quietly s (conditionDone v (ackStatus v s)) := by
  rw [conditionDone_eq, ackStatus_eq]
  refine ⟨rfl, rfl, [.write .intStatus v], rfl, rfl⟩

theorem quietly_ctsEnter (s : State) : Quietly s (ctsEnter s) := by
  unfold ctsEnter
  split <;> exact ⟨rfl, rfl, [], rfl, rfl⟩

theorem quietly_completed (e : Endpoint) (d : Dir) (p : Bit) (n : BitVec 10) (tog : Bit) (kind : BitVec 4) (s : State) :
    Quietly s (completed e d p n tog kind s) := by
  refine ⟨?_, ?_, [], ?_, rfl⟩ <;> simp [completed]

theorem quietly_writeBytes (a : Word) (bs : List Byte) (s : State) : Quietly s (writeBytes a bs s) := by
  rw [writeBytes_eq]
  exact ⟨rfl, rfl, [], rfl, rfl⟩

theorem Quietly.trans {s t u : State} (h : Quietly s t) (g : Quietly t u) : Quietly s u := by
  obtain ⟨added, ha, hqa⟩ := h.trace
  obtain ⟨more, hm, hqm⟩ := g.trace
  refine ⟨g.toggle.trans h.toggle, g.parity.trans h.parity, more ++ added, ?_, ?_⟩
  · rw [hm, ha, List.append_assoc]
  · rw [List.all_append, hqm, hqa]
    rfl

/-- No move of the SIE or of the environment shows in the trace of the hand-off. -/
theorem quietly_of_moveDid {s t : State} (h : MoveDid s t) : Quietly s t := by
  cases h with
  | noted hs => exact hs.quietly
  | received e bytes tog kind _ _ _ hs =>
    exact ((quietly_writeBytes _ bytes s).trans (quietly_completed ..)).trans hs.quietly
  | sent e n tog _ hs => exact (quietly_completed ..).trans hs.quietly
  | buffer e p off b _ _ _ ht =>
    rw [ht]
    exact ⟨rfl, rfl, [], rfl, rfl⟩

/-! ## The transmit slots alternate (R52) -/

theorem pingPong_of_quietly {s t : State} (h : Quietly s t) (hs : PingPong s) : PingPong t := by
  obtain ⟨added, htr, hq⟩ := h.trace
  have hsame := sameHandoffs_append hq s.usbTrace
  rw [PingPong, htr, h.parity, hsame.nextTransmit, hsame.alternate]
  exact hs

theorem pingPong_afterSubmit {s : State} (ptr : Word) (n : BitVec 10) (hs : PingPong s) :
    PingPong (afterSubmit 0 ptr n s) := by
  obtain ⟨halt, hnext⟩ := hs
  refine ⟨⟨fun _ => hnext, halt⟩, ?_⟩
  rw [afterSubmit, EpBits.get_flip_self]
  rfl

theorem pingPong_sends {s t : State} (h : Sends s t) (hs : PingPong s) : PingPong t := by
  induction h with
  | refl => exact hs
  | still _ hstill _ ih => exact pingPong_of_quietly hstill.quietly ih
  | submit _ ptr n _ ih => exact pingPong_afterSubmit ptr n ih

theorem pingPong_rearm {s : State} (p : Bit) (hs : PingPong s) : PingPong (rearm 0 p s) := by
  rw [rearm_eq]
  refine ⟨hs.1, ?_⟩
  rw [EpBits.get_flip_of_ne _ (by simp)]
  exact hs.2

theorem pingPong_callClassify {s : State} (hs : PingPong s) : PingPong (callClassify s) :=
  pingPong_of_quietly (quietly_callPhase ..) hs

/-- What a bus reset leaves of the trackers and the trace. -/
theorem afterUsbrst_trackers (s : State) :
    (afterUsbrst s).parity = (rebuildEndpoints s.cfg.activeEndpoints s).parity
      ∧ (afterUsbrst s).toggle = (rebuildEndpoints s.cfg.activeEndpoints s).toggle
      ∧ (afterUsbrst s).usbTrace = .write .intStatus (snapshot s) :: .write .intEnable 0x9F#8 :: .write .ep0Ctl 0x01#8
        :: .write .devAddr 0x00#8 :: s.usbTrace := by
  obtain ⟨m, p, t, h⟩ := exists_rebuildEndpoints_eq s.cfg.activeEndpoints s
  rw [afterUsbrst, ackStatus_eq, busResetRebuild, h]
  exact ⟨rfl, rfl, rfl⟩

theorem get_afterUsbrst {s : State} {e : Endpoint} (he : e ∈ s.cfg.activeEndpoints) (d : Dir) :
    (afterUsbrst s).parity.get e d = 0#1 ∧ (afterUsbrst s).toggle.get e d = 0#1 := by
  obtain ⟨hp, ht, -⟩ := afterUsbrst_trackers s
  obtain ⟨hp', ht'⟩ := get_rebuildEndpoints s.cfg.activeEndpoints s e d
  rw [hp, ht, hp', ht', if_pos he, if_pos he]
  exact ⟨rfl, rfl⟩

/-- The constraints on the endpoints and on where the descriptors stand (spec/00_scope.md R10; spec/20_memory.md R69). -/
theorem endpoints_of_configOk {c : Params} (h : configOk c = true) :
    (1 ≤ c.numEndpoints ∧ c.numEndpoints ≤ 16) ∧ (0 : Endpoint) ∈ c.activeEndpoints
      ∧ (∀ e ∈ c.activeEndpoints, e.val < c.numEndpoints)
      ∧ ∀ d ∈ c.descTable, disjoint d.pointer d.length.toNat c.bdtBase (32 * c.numEndpoints) = true := by
  simp only [configOk, Bool.and_eq_true, decide_eq_true_eq, List.all_eq_true, List.contains_iff_mem] at h
  obtain ⟨⟨⟨⟨⟨⟨⟨⟨⟨⟨⟨⟨⟨⟨⟨⟨-, -⟩, -⟩, hnum⟩, hzero⟩, -⟩, hactive⟩, -⟩, -⟩, -⟩, -⟩, -⟩, -⟩, -⟩, hdesc⟩, -⟩, -⟩ := h
  exact ⟨hnum, hzero, hactive, fun d hd => (hdesc d hd).2⟩

/-- A bus reset starts again from EVEN. -/
theorem pingPong_afterUsbrst {s : State} (h0 : 0 ∈ s.cfg.activeEndpoints) (hs : PingPong s) :
    PingPong (afterUsbrst s) := by
  obtain ⟨-, -, htrace⟩ := afterUsbrst_trackers s
  rw [PingPong, htrace, (get_afterUsbrst h0 .tx).1]
  exact ⟨hs.1, rfl⟩

theorem pingPong_row {s t : State} {i : Instr} (h0 : 0 ∈ s.cfg.activeEndpoints) (h : RowDid s i t) (hs : PingPong s) :
    PingPong t := by
  cases h with
  | condition _ v hv hstill hf => exact pingPong_of_quietly (hstill.quietly.trans (quietly_condition v _)) hs
  | tokdne => exact pingPong_of_quietly (quietly_callPhase _ s) hs
  | usbrst => exact pingPong_afterUsbrst h0 hs
  | setup p packet => exact pingPong_callClassify (pingPong_rearm (s := { s with setup := packet }) p hs)
  | out p =>
    have hdone := (quietly_endDataStage (rearm 0 p s)).trans (quietly_tokenDone _)
    exact pingPong_of_quietly hdone (pingPong_rearm p hs)
  | handled _ _ _ hsend => exact pingPong_of_quietly (quietly_tokenDone _) (pingPong_sends hsend hs)
  | fault f hsend => exact pingPong_of_quietly (quietly_raise f _) (pingPong_sends hsend hs)

/-! ## The toggles alternate (R53) -/

theorem submitToggles_append (a b : List UsbEvent) : submitToggles (a ++ b) = submitToggles b ++ submitToggles a := by
  induction a with
  | nil => simp [submitToggles]
  | cons ev a ih =>
    cases ev with
    | submit e p ptr n tog =>
      simp only [List.cons_append, submitToggles, ih]
      split
      · rw [List.append_assoc]
      · rfl
    | _ => exact ih

theorem alternatesFrom_append {b : Bit} {xs ys : List Bit} (hx : alternatesFrom b xs)
    (hy : alternatesFrom (b + BitVec.ofNat 1 xs.length) ys) : alternatesFrom b (xs ++ ys) := by
  induction xs generalizing b with
  | nil => simpa using hy
  | cons x xs ih =>
    have flip : ∀ b : Bit, b ^^^ 1#1 = b + 1#1 := by decide
    refine ⟨hx.1, ih hx.2 ?_⟩
    rw [flip, BitVec.add_assoc, BitVec.add_comm 1#1, ← BitVec.ofNat_add]
    exact hy

/-- From `s` to `t` the toggles of the Submits on endpoint 0 alternate from the one `s` holds, and `t` holds the next. -/
def TogglesRun (s t : State) : Prop :=
  ∃ added, t.usbTrace = added ++ s.usbTrace ∧ alternatesFrom (s.toggle.get 0 .tx) (submitToggles added)
    ∧ t.toggle.get 0 .tx = s.toggle.get 0 .tx + BitVec.ofNat 1 (submitToggles added).length

theorem TogglesRun.goOn {s t : State} (h : TogglesRun s t) : TogglesGoOn s t := by
  obtain ⟨added, htr, halt, htog⟩ := h
  exact ⟨added, htr, halt, .inl htog⟩

theorem togglesRun_of_quietly {s t : State} (h : Quietly s t) : TogglesRun s t := by
  obtain ⟨added, htr, hq⟩ := h.trace
  refine ⟨added, htr, ?_, ?_⟩ <;> rw [submitToggles_quiet hq]
  · trivial
  · rw [h.toggle]
    exact (BitVec.add_zero _).symm

theorem TogglesRun.trans {s t u : State} (h : TogglesRun s t) (g : TogglesRun t u) : TogglesRun s u := by
  obtain ⟨added, htr, halt, htog⟩ := h
  obtain ⟨more, gtr, galt, gtog⟩ := g
  refine ⟨more ++ added, by rw [gtr, htr, List.append_assoc], ?_, ?_⟩ <;> rw [submitToggles_append]
  · exact alternatesFrom_append halt (htog ▸ galt)
  · rw [gtog, htog, List.length_append, BitVec.ofNat_add, BitVec.add_assoc]

theorem togglesRun_afterSubmit (ptr : Word) (n : BitVec 10) (s : State) : TogglesRun s (afterSubmit 0 ptr n s) := by
  refine ⟨[.submit 0 (s.parity.get 0 .tx) ptr n (s.toggle.get 0 .tx)], by rw [afterSubmit]; rfl, ⟨rfl, trivial⟩, ?_⟩
  have flip : ∀ b : Bit, b ^^^ 1#1 = b + BitVec.ofNat 1 1 := by decide
  rw [afterSubmit, EpBits.get_flip_self]
  exact flip _

theorem togglesRun_sends {s t : State} (h : Sends s t) : TogglesRun s t := by
  induction h with
  | refl => exact togglesRun_of_quietly ⟨rfl, rfl, [], rfl, rfl⟩
  | still _ hstill _ ih => exact ih.trans (togglesRun_of_quietly hstill.quietly)
  | submit _ ptr n _ ih => exact ih.trans (togglesRun_afterSubmit ptr n _)

/-- A Rearm shows in the trace and leaves the toggles alone. -/
theorem togglesRun_rearm (p : Bit) (s : State) : TogglesRun s (rearm 0 p s) := by
  rw [rearm_eq]
  exact ⟨[.rearm 0 p], rfl, trivial, (BitVec.add_zero _).symm⟩

/-- Every row of the CTS, found in `s` and performed in the invocation `v`: the toggles run on, but for a SETUP event and a
bus reset, which submit nothing. -/
theorem togglesGoOn_row {s v t : State} {i : Instr} (h0 : 0 ∈ v.cfg.activeEndpoints) (hq : Quietly s v)
    (h : RowDid v i t) (hfinds : ctsFinds s i) : TogglesGoOn s t := by
  have hrun := togglesRun_of_quietly hq
  obtain ⟨added, htr, hadded⟩ := hq.trace
  have hnone : submitToggles added = [] := submitToggles_quiet hadded
  have halt : alternatesFrom (s.toggle.get 0 .tx) (submitToggles added) := by
    rw [hnone]
    trivial
  cases h with
  | condition _ b hb hstill hf =>
    exact (hrun.trans (togglesRun_of_quietly (hstill.quietly.trans (quietly_condition b _)))).goOn
  | tokdne => exact (hrun.trans (togglesRun_of_quietly (quietly_callPhase _ v))).goOn
  | usbrst =>
    obtain ⟨-, -, htrace⟩ := afterUsbrst_trackers v
    rw [htr] at htrace
    exact ⟨_ :: _ :: _ :: _ :: added, htrace, halt, .inr ⟨hnone, .inr ⟨hfinds, (get_afterUsbrst h0 .tx).2⟩⟩⟩
  | setup p packet =>
    have htoggle : (callClassify (rearm 0 p { v with setup := packet })).toggle.get 0 .tx = 1#1 := by simp [callClassify]
    have htrace : (callClassify (rearm 0 p { v with setup := packet })).usbTrace = .rearm 0 p :: added ++ s.usbTrace := by
      simp [callClassify, rearm_eq, htr]
    exact ⟨.rearm 0 p :: added, htrace, halt, .inr ⟨hnone, .inl ⟨p, hfinds, htoggle⟩⟩⟩
  | out p =>
    have hdone := (quietly_endDataStage (rearm 0 p v)).trans (quietly_tokenDone _)
    exact (hrun.trans ((togglesRun_rearm p v).trans (togglesRun_of_quietly hdone))).goOn
  | handled _ _ _ hsend =>
    exact (hrun.trans ((togglesRun_sends hsend).trans (togglesRun_of_quietly (quietly_tokenDone _)))).goOn
  | fault f hsend =>
    exact (hrun.trans ((togglesRun_sends hsend).trans (togglesRun_of_quietly (quietly_raise f _)))).goOn

end Sys2Proof.Machine
end

section
/-!
SUPPORT. The two sides' trackers as facts about bits and lists: the transmit tracker against the SIE's parity and the slots
outstanding, the receive tracker against the records queued (spec/10_state.md R52); and which slots a write of memory
changes.
-/

namespace Sys2Proof.Machine

open Sys2Proof Sys2Proof.Safety

theorem bit_cases (b : Bit) : b = 0#1 ∨ b = 1#1 := by
  revert b
  decide

/-- A parity that is not `p` is the other one. -/
theorem bit_eq_of_ne {p q : Bit} (h : q ≠ p) : q = p ^^^ 1#1 := by
  revert p q
  decide

theorem bit_ne_flip (p : Bit) : p ^^^ 1#1 ≠ p := by
  revert p
  decide

theorem bit_flip_flip (p : Bit) : p ^^^ 1#1 ^^^ 1#1 = p := by
  revert p
  decide

/-! ## The transmit tracker -/

/-- The tracker `par` is the SIE's parity `sie` plus the slots not free, modulo 2, and a single one of those is the one the
SIE takes next. -/
def TransmitTied (par sie : Bit) (free : Bit → Bool) : Prop :=
  par = sie + BitVec.ofNat 1 ([0#1, 1#1].countP fun p => !free p) ∧ (free sie = true → free (sie ^^^ 1#1) = true)

theorem transmitTracked_iff (s : State) (e : Endpoint) :
    TransmitTracked s e ↔ TransmitTied (s.parity.get e .tx) (s.sieParity.get e .tx) (slotFree s e .tx) := Iff.rfl

/-- The invariant from the SIE's side: which of its two slots are free, and where the tracker stands then. -/
theorem transmitTied_iff (par sie : Bit) (free : Bit → Bool) :
    TransmitTied par sie free ↔ (free sie = true ∧ free (sie ^^^ 1#1) = true ∧ par = sie)
      ∨ (free sie = false ∧ free (sie ^^^ 1#1) = true ∧ par = sie ^^^ 1#1)
      ∨ (free sie = false ∧ free (sie ^^^ 1#1) = false ∧ par = sie) := by
  have count : [0#1, 1#1].countP (fun p => !free p) = (if free sie then 0 else 1) + if free (sie ^^^ 1#1) then 0 else 1 := by
    obtain rfl | rfl := bit_cases sie <;> cases h0 : free 0#1 <;> cases h1 : free 1#1 <;> simp [h0, h1]
  have one : ∀ b : Bit, b + BitVec.ofNat 1 1 = b ^^^ 1#1 := by decide
  rw [TransmitTied, count]
  cases free sie <;> cases free (sie ^^^ 1#1) <;> simp [one]

/-- A Submit takes the slot the tracker names. -/
theorem TransmitTied.submit {par sie : Bit} {free free' : Bit → Bool} (h : TransmitTied par sie free)
    (hpar : free par = true) (htaken : free' par = false) (hother : free' (par ^^^ 1#1) = free (par ^^^ 1#1)) :
    TransmitTied (par ^^^ 1#1) sie free' := by
  rw [transmitTied_iff] at h ⊢
  obtain ⟨h0, h1, rfl⟩ | ⟨h0, h1, rfl⟩ | ⟨h0, h1, rfl⟩ := h
  · exact .inr (.inl ⟨htaken, hother.trans h1, rfl⟩)
  · rw [bit_flip_flip] at hother ⊢
    exact .inr (.inr ⟨hother.trans h0, htaken, rfl⟩)
  · rw [h0] at hpar
    cases hpar

/-- A completion frees the slot the SIE's parity names. -/
theorem TransmitTied.complete {par sie : Bit} {free free' : Bit → Bool} (h : TransmitTied par sie free)
    (htaken : free sie = false) (hfree : free' sie = true) (hother : free' (sie ^^^ 1#1) = free (sie ^^^ 1#1)) :
    TransmitTied par (sie ^^^ 1#1) free' := by
  rw [transmitTied_iff] at h ⊢
  rw [bit_flip_flip]
  obtain ⟨h0, -, -⟩ | ⟨-, h1, hp⟩ | ⟨-, h1, hp⟩ := h
  · rw [h0] at htaken
    cases htaken
  · exact .inl ⟨hother.trans h1, hfree, hp⟩
  · exact .inr (.inl ⟨hother.trans h1, hfree, hp⟩)

theorem transmitTied_of_free {b : Bit} {free : Bit → Bool} (h : ∀ p, free p = true) : TransmitTied b b free :=
  (transmitTied_iff b b free).2 (.inl ⟨h _, h _, rfl⟩)

/-! ## The receive tracker -/

/-- From parity `b` to parity `k` the receive records of endpoint 0 in `l` alternate; they are two at most, and the slot of
each satisfies `done`. -/
structure ReceiveTied (done : Bit → Prop) (b : Bit) (l : List Completion) (k : Bit) : Prop where
  alternate : receivesFrom b l k
  atMostTwo : (l.filter isControlReceive).length ≤ 2
  slots : ∀ r ∈ l, isControlReceive r = true → done r.parity

/-- The receive slot of endpoint 0 is the CTS's and holds a SETUP or OUT token (spec/42_bdt_handoff.md R164). -/
def ReceiveDone (s : State) (p : Bit) : Prop :=
  slotFree s 0 .rx p = true ∧ (ctlToken (slotCtl s 0 .rx p) = 0x1#4 ∨ ctlToken (slotCtl s 0 .rx p) = 0xD#4)

theorem receiveTracked_iff (s : State) :
    ReceiveTracked s ↔ ReceiveTied (ReceiveDone s) (s.parity.get 0 .rx) (unhandled s) (s.sieParity.get 0 .rx) :=
  ⟨fun ⟨h1, h2, h3⟩ => ⟨h1, h2, h3⟩, fun ⟨h1, h2, h3⟩ => ⟨h1, h2, h3⟩⟩

theorem receivesFrom_append_control {b k : Bit} {l : List Completion} {r : Completion} (hr : isControlReceive r = true)
    (hp : r.parity = k) (h : receivesFrom b l k) : receivesFrom b (l ++ [r]) (k ^^^ 1#1) := by
  induction l generalizing b with
  | nil =>
    cases h
    simp only [List.nil_append, receivesFrom, hr, if_true]
    exact ⟨hp, trivial⟩
  | cons r' l ih =>
    simp only [List.cons_append, receivesFrom] at h ⊢
    split
    · rw [if_pos ‹_›] at h
      exact ⟨h.1, ih h.2⟩
    · rw [if_neg ‹_›] at h
      exact ih h

theorem receivesFrom_append_other {b k : Bit} {l : List Completion} {r : Completion} (hr : isControlReceive r = false)
    (h : receivesFrom b l k) : receivesFrom b (l ++ [r]) k := by
  induction l generalizing b with
  | nil =>
    simp only [List.nil_append, receivesFrom, hr]
    exact h
  | cons r' l ih =>
    simp only [List.cons_append, receivesFrom] at h ⊢
    split
    · rw [if_pos ‹_›] at h
      exact ⟨h.1, ih h.2⟩
    · rw [if_neg ‹_›] at h
      exact ih h

/-- Where there is a receive record, the first of them has parity `b`. -/
theorem exists_first_record {b k : Bit} {l : List Completion} (h : receivesFrom b l k)
    (hl : 1 ≤ (l.filter isControlReceive).length) : ∃ r ∈ l, isControlReceive r = true ∧ r.parity = b := by
  induction l with
  | nil => simp at hl
  | cons r l ih =>
    rw [receivesFrom] at h
    cases hr : isControlReceive r with
    | true =>
      rw [if_pos hr] at h
      exact ⟨r, List.mem_cons_self, hr, h.1⟩
    | false =>
      rw [if_neg (by simp [hr])] at h
      rw [List.filter_cons_of_neg (by simp [hr])] at hl
      obtain ⟨r', hmem, hr'⟩ := ih h hl
      exact ⟨r', List.mem_cons_of_mem r hmem, hr'⟩

/-- Where there are two receive records, one has the other parity. -/
theorem exists_second_record {b k : Bit} {l : List Completion} (h : receivesFrom b l k)
    (hl : 2 ≤ (l.filter isControlReceive).length) : ∃ r ∈ l, isControlReceive r = true ∧ r.parity = b ^^^ 1#1 := by
  induction l with
  | nil => simp at hl
  | cons r l ih =>
    rw [receivesFrom] at h
    cases hr : isControlReceive r with
    | true =>
      rw [if_pos hr] at h
      rw [List.filter_cons_of_pos hr, List.length_cons] at hl
      obtain ⟨r', hmem, hr'⟩ := exists_first_record h.2 (by omega)
      exact ⟨r', List.mem_cons_of_mem r hmem, hr'⟩
    | false =>
      rw [if_neg (by simp [hr])] at h
      rw [List.filter_cons_of_neg (by simp [hr])] at hl
      obtain ⟨r', hmem, hr'⟩ := ih h hl
      exact ⟨r', List.mem_cons_of_mem r hmem, hr'⟩

/-- A single receive record has parity `b`. -/
theorem parity_of_single_record {b k : Bit} {l : List Completion} (h : receivesFrom b l k)
    (hl : (l.filter isControlReceive).length ≤ 1) : ∀ r ∈ l, isControlReceive r = true → r.parity = b := by
  intro r hmem hr
  induction l with
  | nil => cases hmem
  | cons r' l ih =>
    rw [receivesFrom] at h
    cases hr' : isControlReceive r' with
    | true =>
      rw [if_pos hr'] at h
      rw [List.filter_cons_of_pos hr', List.length_cons] at hl
      obtain rfl | hmem := List.mem_cons.1 hmem
      · exact h.1
      · have hmem' := List.mem_filter.2 ⟨hmem, hr⟩
        rw [List.eq_nil_of_length_eq_zero (by omega : (l.filter isControlReceive).length = 0)] at hmem'
        cases hmem'
    | false =>
      rw [if_neg (by simp [hr'])] at h
      rw [List.filter_cons_of_neg (by simp [hr'])] at hl
      obtain rfl | hmem := List.mem_cons.1 hmem
      · rw [hr] at hr'
        cases hr'
      · exact ih h hl hmem

theorem ReceiveTied.congr {done done' : Bit → Prop} {b k : Bit} {l : List Completion} (h : ReceiveTied done b l k)
    (hd : ∀ p, done p → done' p) : ReceiveTied done' b l k :=
  ⟨h.alternate, h.atMostTwo, fun r hmem hr => hd _ (h.slots r hmem hr)⟩

/-- Any other record is queued. -/
theorem ReceiveTied.push_other {done : Bit → Prop} {b k : Bit} {l : List Completion} {r : Completion}
    (h : ReceiveTied done b l k) (hr : isControlReceive r = false) : ReceiveTied done b (l ++ [r]) k := by
  refine ⟨receivesFrom_append_other hr h.alternate, ?_, fun r' hmem hr' => ?_⟩
  · rw [List.filter_append, List.filter_cons_of_neg (by simp [hr])]
    simpa using h.atMostTwo
  · obtain hmem | hmem := List.mem_append.1 hmem
    · exact h.slots r' hmem hr'
    · rw [List.mem_singleton.1 hmem, hr] at hr'
      cases hr'

/-- A receive record of endpoint 0 is queued when its slot, so far the SIE's, is done. -/
theorem ReceiveTied.push {done done' : Bit → Prop} {b k : Bit} {l : List Completion} {r : Completion}
    (h : ReceiveTied done b l k) (hr : isControlReceive r = true) (hp : r.parity = k) (hnot : ¬ done k) (hk : done' k)
    (hd : ∀ p, p ≠ k → done p → done' p) : ReceiveTied done' b (l ++ [r]) (k ^^^ 1#1) := by
  have hfew : (l.filter isControlReceive).length ≤ 1 := by
    by_contra hmany
    obtain ⟨r1, hmem1, hr1, hp1⟩ := exists_first_record h.alternate (by omega)
    obtain ⟨r2, hmem2, hr2, hp2⟩ := exists_second_record h.alternate (by omega)
    have h1 := h.slots r1 hmem1 hr1
    have h2 := h.slots r2 hmem2 hr2
    rw [hp1] at h1
    rw [hp2] at h2
    by_cases hkb : k = b
    · exact hnot (hkb ▸ h1)
    · exact hnot (bit_eq_of_ne hkb ▸ h2)
  refine ⟨receivesFrom_append_control hr hp h.alternate, ?_, fun r' hmem hr' => ?_⟩
  · rw [List.filter_append, List.filter_cons_of_pos hr, List.length_append]
    simp
    omega
  · by_cases hpk : r'.parity = k
    · rw [hpk]
      exact hk
    · obtain hmem | hmem := List.mem_append.1 hmem
      · exact hd _ hpk (h.slots r' hmem hr')
      · rw [List.mem_singleton.1 hmem] at hpk
        exact absurd hp hpk

/-- Any other record is dropped. -/
theorem ReceiveTied.pop_other {done : Bit → Prop} {b k : Bit} {l : List Completion} {r : Completion}
    (h : ReceiveTied done b (r :: l) k) (hr : isControlReceive r = false) : ReceiveTied done b l k := by
  obtain ⟨halt, htwo, hslots⟩ := h
  rw [receivesFrom, if_neg (by simp [hr])] at halt
  rw [List.filter_cons_of_neg (by simp [hr])] at htwo
  exact ⟨halt, htwo, fun r' hmem => hslots r' (List.mem_cons_of_mem r hmem)⟩

/-- The oldest receive record is dropped when its slot is armed again: the tracker goes on to the other slot. -/
theorem ReceiveTied.pop {done done' : Bit → Prop} {b k : Bit} {l : List Completion} {r : Completion}
    (h : ReceiveTied done b (r :: l) k) (hr : isControlReceive r = true) (hd : ∀ p, p ≠ b → done p → done' p) :
    ReceiveTied done' (b ^^^ 1#1) l k := by
  obtain ⟨halt, htwo, hslots⟩ := h
  rw [receivesFrom, if_pos hr] at halt
  rw [List.filter_cons_of_pos hr, List.length_cons] at htwo
  have hfew : (l.filter isControlReceive).length ≤ 1 := by omega
  refine ⟨halt.2, by omega, fun r' hmem hr' => hd _ ?_ (hslots r' (List.mem_cons_of_mem r hmem) hr')⟩
  rw [parity_of_single_record halt.2 hfew r' hmem hr']
  exact bit_ne_flip b

/-- The oldest receive record names the tracked slot. -/
theorem ReceiveTied.head_parity {done : Bit → Prop} {b k : Bit} {l : List Completion} {r : Completion}
    (h : ReceiveTied done b (r :: l) k) (hr : isControlReceive r = true) : r.parity = b := by
  have halt := h.alternate
  rw [receivesFrom, if_pos hr] at halt
  exact halt.1

end Sys2Proof.Machine
end

section
/-!
SUPPORT. Which slots the stores of the CTS and of the SIE change: a store of a slot or of one of its words changes that slot
only, a byte outside the BDT changes none, and the rebuild gives every active endpoint its slots as
spec/44_usb_dispatcher.md R233 says.
-/

namespace Sys2Proof.Machine

open Sys2Proof Sys2Proof.Safety

/-- The slot holds the same two words in both states. -/
def SameSlot (s t : State) (e : Endpoint) (d : Dir) (p : Bit) : Prop :=
  slotCtl t e d p = slotCtl s e d p ∧ slotBuf t e d p = slotBuf s e d p

theorem SameSlot.refl (s : State) (e : Endpoint) (d : Dir) (p : Bit) : SameSlot s s e d p := ⟨rfl, rfl⟩

theorem SameSlot.trans {s t u : State} {e : Endpoint} {d : Dir} {p : Bit} (h : SameSlot s t e d p)
    (g : SameSlot t u e d p) : SameSlot s u e d p := ⟨g.1.trans h.1, g.2.trans h.2⟩

theorem SameSlot.free {s t : State} {e : Endpoint} {d : Dir} {p : Bit} (h : SameSlot s t e d p) :
    slotFree t e d p = slotFree s e d p := by rw [slotFree, slotFree, h.1]

/-- The slots depend on the memory and the parameters alone. -/
theorem sameSlot_of_mem {s t : State} (hm : t.mem = s.mem) (hc : t.cfg = s.cfg) (e : Endpoint) (d : Dir) (p : Bit) :
    SameSlot s t e d p := ⟨slotCtl_congr hm hc e d p, slotBuf_congr hm hc e d p⟩

theorem memoryCanonical_congr {s t : State} (hm : t.mem = s.mem) (hc : t.cfg = s.cfg) (h : MemoryCanonical s) :
    MemoryCanonical t := by
  rw [MemoryCanonical, hm, hc]
  exact h

/-- A slot none of whose 8 bytes was written is the same. -/
theorem sameSlot_of_bytes {s t : State} (hc : t.cfg = s.cfg) {e : Endpoint} {d : Dir} {p : Bit}
    (h : ∀ k : Nat, k < 8 → readByte t (slotAddr s.cfg e d p + BitVec.ofNat 32 k)
      = readByte s (slotAddr s.cfg e d p + BitVec.ofNat 32 k)) : SameSlot s t e d p := by
  constructor
  · rw [slotCtl, slotCtl, hc]
    exact readWord_congr _ fun k hk => h k (by omega)
  · rw [slotBuf, slotBuf, hc]
    refine readWord_congr _ fun k hk => ?_
    rw [show slotAddr s.cfg e d p + 4#32 + BitVec.ofNat 32 k = slotAddr s.cfg e d p + BitVec.ofNat 32 (4 + k) by
      rw [BitVec.ofNat_add, BitVec.add_assoc]]
    exact h (4 + k) (by omega)

/-! ## One slot written -/

/-- The slots of `t` are those of `s`, but for one that holds these two words. -/
structure SetsSlot (s t : State) (e : Endpoint) (d : Dir) (p : Bit) (buf ctl : Word) : Prop where
  canonical : MemoryCanonical t
  ctl : slotCtl t e d p = ctl
  buf : slotBuf t e d p = buf
  others : ∀ {e' : Endpoint} {d' : Dir} {p' : Bit}, ¬ (e' = e ∧ d' = d ∧ p' = p) → SameSlot s t e' d' p'

/-- Nothing but memory and the parameters matters. -/
theorem SetsSlot.congr {s t u : State} {e : Endpoint} {d : Dir} {p : Bit} {buf ctl : Word}
    (h : SetsSlot s t e d p buf ctl) (hm : u.mem = t.mem) (hc : u.cfg = t.cfg) : SetsSlot s u e d p buf ctl := by
  have hsame (e' : Endpoint) (d' : Dir) (p' : Bit) := sameSlot_of_mem hm hc e' d' p'
  exact ⟨memoryCanonical_congr hm hc h.canonical, (hsame e d p).1.trans h.ctl, (hsame e d p).2.trans h.buf,
    fun hne => (h.others hne).trans (hsame _ _ _)⟩

theorem setsSlot_of_bytes {s t : State} {e : Endpoint} {d : Dir} {p : Bit} (hcanon : MemoryCanonical t)
    (hc : t.cfg = s.cfg) (h : ∀ a, ¬ InSlot s.cfg e d p a → readByte t a = readByte s a) :
    SetsSlot s t e d p (slotBuf t e d p) (slotCtl t e d p) := by
  refine ⟨hcanon, rfl, rfl, fun {e' d' p'} hne => sameSlot_of_bytes hc fun k hk => h _ ?_⟩
  exact not_inSlot_of_ne s.cfg (fun heq => hne (slotIndex_injective heq)) k hk

theorem setsSlot_writeSlot {s : State} (h : MemoryCanonical s) (e : Endpoint) (d : Dir) (p : Bit) (buf ctl : Word) :
    SetsSlot s (writeSlot e d p buf ctl s) e d p buf ctl := by
  have hset := setsSlot_of_bytes (memoryCanonical_writeSlot h e d p buf ctl) (writeSlot_cfg ..)
    fun a ha => readByte_writeSlot_of_outside h e d p buf ctl a ha
  rwa [slotBuf_writeSlot h, slotCtl_writeSlot h] at hset

/-- The control word alone is stored. -/
theorem setsSlot_writeCtl {s : State} (h : MemoryCanonical s) (e : Endpoint) (d : Dir) (p : Bit) (ctl : Word) :
    SetsSlot s (writeWord (slotAddr s.cfg e d p) ctl s) e d p (slotBuf s e d p) ctl := by
  have hset := setsSlot_of_bytes (e := e) (d := d) (p := p) (memoryCanonical_writeWord h (slotAddr s.cfg e d p) ctl)
    (writeWord_cfg ..) fun a ha => readByte_writeWord_of_outside h _ ctl a (by simp only [InSlot] at ha; omega)
  have hbuf : slotBuf (writeWord (slotAddr s.cfg e d p) ctl s) e d p = slotBuf s e d p := by
    rw [slotBuf, writeWord_cfg, readWord_writeWord_of_apart h _ _ _ (by bv_omega) (by bv_omega), slotBuf]
  have hctl : slotCtl (writeWord (slotAddr s.cfg e d p) ctl s) e d p = ctl := by
    rw [slotCtl, writeWord_cfg, readWord_writeWord h]
  rwa [hbuf, hctl] at hset

/-- The buffer word alone is stored. -/
theorem setsSlot_writeBuf {s : State} (h : MemoryCanonical s) (e : Endpoint) (d : Dir) (p : Bit) (buf : Word) :
    SetsSlot s (writeWord (slotAddr s.cfg e d p + 4#32) buf s) e d p buf (slotCtl s e d p) := by
  have hset := setsSlot_of_bytes (e := e) (d := d) (p := p)
    (memoryCanonical_writeWord h (slotAddr s.cfg e d p + 4#32) buf) (writeWord_cfg ..)
    fun a ha => readByte_writeWord_of_outside h _ buf a (by simp only [InSlot] at ha; bv_omega)
  have hctl : slotCtl (writeWord (slotAddr s.cfg e d p + 4#32) buf s) e d p = slotCtl s e d p := by
    rw [slotCtl, writeWord_cfg, readWord_writeWord_of_apart h _ _ _ (by bv_omega) (by bv_omega), slotCtl]
  have hbuf : slotBuf (writeWord (slotAddr s.cfg e d p + 4#32) buf s) e d p = buf := by
    rw [slotBuf, writeWord_cfg, readWord_writeWord h]
  rwa [hbuf, hctl] at hset

theorem setsSlot_afterSubmit {s : State} (h : MemoryCanonical s) (e : Endpoint) (ptr : Word) (n : BitVec 10) :
    SetsSlot s (afterSubmit e ptr n s) e .tx (s.parity.get e .tx) ptr (ctlWord n 1#1 (s.toggle.get e .tx) 0#4) :=
  (setsSlot_writeSlot h e .tx _ ptr _).congr (by rw [afterSubmit]) (by rw [afterSubmit, writeSlot_cfg])

theorem setsSlot_rearm {s : State} (h : MemoryCanonical s) (e : Endpoint) (p : Bit) :
    SetsSlot s (rearm e p s) e .rx p (rxBuf s.cfg e p) (armedCtl e) :=
  (setsSlot_writeSlot h e .rx p _ _).congr (by rw [rearm_eq]) (by rw [rearm_eq, writeSlot_cfg])

theorem setsSlot_completed {s : State} (h : MemoryCanonical s) (e : Endpoint) (d : Dir) (p : Bit) (n : BitVec 10)
    (tog : Bit) (kind : BitVec 4) :
    SetsSlot s (completed e d p n tog kind s) e d p (slotBuf s e d p) (ctlWord n 0#1 tog kind) :=
  (setsSlot_writeCtl h e d p _).congr rfl rfl

/-! ## Writes outside the BDT -/

/-- Every byte of a slot belongs to the BDT (spec/30_encoding.md R101). -/
theorem inBdt_slot (c : Params) {e : Endpoint} (he : e.val < c.numEndpoints) (d : Dir) (p : Bit) {k : Nat} (hk : k < 8) :
    InBdt c (slotAddr c e d p + BitVec.ofNat 32 k) := by
  have hidx : slotIndex e d p < 4 * c.numEndpoints := by
    have := p.isLt
    cases d <;> simp only [slotIndex, dirNum] <;> omega
  have hlt := slotIndex_lt e d p
  have hoff := toNat_slotOffset e d p
  have hk' : (BitVec.ofNat 32 k).toNat = k := by
    rw [BitVec.toNat_ofNat]
    omega
  rw [InBdt, slotAddr]
  generalize BitVec.ofNat 32 (8 * slotIndex e d p) = x at *
  generalize BitVec.ofNat 32 k = z at *
  bv_omega

/-- An address of one of two ranges without common bytes lies outside the other (spec/20_memory.md R69). -/
theorem outside_of_disjoint {a b x : Word} {n m : Nat} (h : disjoint a n b m = true) (hx : (x - b).toNat < m) :
    n ≤ (x - a).toNat := by
  simp only [disjoint, Bool.or_eq_true, Bool.and_eq_true, decide_eq_true_eq] at h
  obtain (rfl | rfl) | ⟨h1, h2⟩ := h
  · exact Nat.zero_le _
  · exact absurd hx (Nat.not_lt_zero _)
  · bv_omega

/-- Bytes stored in a receive buffer that stands outside the BDT change no slot. -/
theorem sameSlot_writeBytes {s : State} (h : MemoryCanonical s) {a : Word} {bs : List Byte}
    (hout : ∀ x, InBdt s.cfg x → bs.length ≤ (x - a).toNat) {e : Endpoint} (he : e.val < s.cfg.numEndpoints) (d : Dir)
    (p : Bit) : SameSlot s (writeBytes a bs s) e d p :=
  sameSlot_of_bytes (writeBytes_cfg a bs s) fun _ hk =>
    readByte_writeBytes_of_outside h a _ bs (hout _ (inBdt_slot s.cfg he d p hk))

/-! ## The rebuild -/

/-- The slots of the endpoint are as the rebuild leaves them: transmit slots the CTS's, receive slots armed (R233). -/
structure SlotsRebuilt (t : State) (e : Endpoint) : Prop where
  transmit : ∀ p, slotFree t e .tx p = true
  receiveCtl : ∀ p, slotCtl t e .rx p = armedCtl e
  receiveBuf : ∀ p, slotBuf t e .rx p = rxBuf t.cfg e p

theorem SlotsRebuilt.congr {t u : State} {e : Endpoint} (h : SlotsRebuilt t e) (hc : u.cfg = t.cfg)
    (hsame : ∀ d p, SameSlot t u e d p) : SlotsRebuilt u e :=
  ⟨fun p => (hsame .tx p).free.trans (h.transmit p), fun p => (hsame .rx p).1.trans (h.receiveCtl p), fun p => by
    rw [(hsame .rx p).2, hc]
    exact h.receiveBuf p⟩

theorem rebuildSlots_spec {s : State} (h : MemoryCanonical s) (e : Endpoint) (p : Bit) :
    MemoryCanonical (rebuildSlots e p s) ∧ slotCtl (rebuildSlots e p s) e .tx p = 0#32
      ∧ slotCtl (rebuildSlots e p s) e .rx p = armedCtl e ∧ slotBuf (rebuildSlots e p s) e .rx p = rxBuf s.cfg e p
      ∧ ∀ e' d' p', ¬ (e' = e ∧ p' = p) → SameSlot s (rebuildSlots e p s) e' d' p' := by
  have h1 := setsSlot_writeCtl h e .tx p 0#32
  have h2 := setsSlot_writeBuf h1.canonical e .tx p 0#32
  have h3 := setsSlot_writeSlot h2.canonical e .rx p (rxBuf s.cfg e p) (armedCtl e)
  have heq : rebuildSlots e p s = writeSlot e .rx p (rxBuf s.cfg e p) (armedCtl e)
      (writeWord (slotAddr (writeWord (slotAddr s.cfg e .tx p) 0#32 s).cfg e .tx p + 4#32) 0#32
        (writeWord (slotAddr s.cfg e .tx p) 0#32 s)) := by
    rw [rebuildSlots]
    simp only [writeWord_cfg]
  rw [heq]
  refine ⟨h3.canonical, ?_, h3.ctl, h3.buf, fun e' d' p' hne => ?_⟩
  · rw [(h3.others (by simp)).1, h2.ctl, h1.ctl]
  · have hne' {d : Dir} : ¬ (e' = e ∧ d' = d ∧ p' = p) := fun hall => hne ⟨hall.1, hall.2.2⟩
    exact ((h1.others hne').trans (h2.others hne')).trans (h3.others hne')

theorem rebuildSlots_cfg (e : Endpoint) (p : Bit) (s : State) : (rebuildSlots e p s).cfg = s.cfg := by
  obtain ⟨m, hm⟩ := exists_mem_rebuildSlots e p s
  rw [hm]

/-- A slot whose control word is 0 is the CTS's. -/
theorem slotFree_of_zero {s : State} {e : Endpoint} {d : Dir} {p : Bit} (h : slotCtl s e d p = 0#32) :
    slotFree s e d p = true := by
  rw [slotFree, h]
  decide

/-- Both parities one after the other. -/
theorem slotsRebuilt_of_both {s : State} (h : MemoryCanonical s) (e : Endpoint) :
    SlotsRebuilt (rebuildSlots e 1#1 (rebuildSlots e 0#1 s)) e := by
  obtain ⟨hcanon, htx0, hrx0, hbuf0, -⟩ := rebuildSlots_spec h e 0#1
  have hcfg0 := rebuildSlots_cfg e 0#1 s
  generalize rebuildSlots e 0#1 s = u at *
  obtain ⟨-, htx1, hrx1, hbuf1, hsame⟩ := rebuildSlots_spec hcanon e 1#1
  have hcfg1 := rebuildSlots_cfg e 1#1 u
  generalize rebuildSlots e 1#1 u = t at *
  have hkept (d : Dir) : SameSlot u t e d 0#1 := hsame e d 0#1 (by simp)
  refine ⟨fun p => ?_, fun p => ?_, fun p => ?_⟩ <;> obtain rfl | rfl := bit_cases p
  · exact slotFree_of_zero ((hkept .tx).1.trans htx0)
  · exact slotFree_of_zero htx1
  · exact (hkept .rx).1.trans hrx0
  · exact hrx1
  · rw [(hkept .rx).2, hbuf0, hcfg1, hcfg0]
  · rw [hbuf1, hcfg1]

theorem rebuildEndpoint_spec {s : State} (h : MemoryCanonical s) (e : Endpoint) :
    MemoryCanonical (rebuildEndpoint e s) ∧ SlotsRebuilt (rebuildEndpoint e s) e
      ∧ ∀ e' d p, e' ≠ e → SameSlot s (rebuildEndpoint e s) e' d p := by
  have hboth := slotsRebuilt_of_both h e
  obtain ⟨hcanon, -, -, -, hsame0⟩ := rebuildSlots_spec h e 0#1
  obtain ⟨hcanon', -, -, -, hsame1⟩ := rebuildSlots_spec hcanon e 1#1
  rw [rebuildEndpoint_eq]
  generalize rebuildSlots e 1#1 (rebuildSlots e 0#1 s) = t at *
  have hmem : (rebuildTrackers e t).mem = t.mem := by rw [rebuildTrackers]
  have hcfg : (rebuildTrackers e t).cfg = t.cfg := by rw [rebuildTrackers]
  have htrackers (e' : Endpoint) (d : Dir) (p : Bit) : SameSlot t (rebuildTrackers e t) e' d p :=
    sameSlot_of_mem hmem hcfg e' d p
  refine ⟨memoryCanonical_congr hmem hcfg hcanon', hboth.congr hcfg (htrackers e), fun e' d p hne => ?_⟩
  have hne' {q : Bit} : ¬ (e' = e ∧ p = q) := fun hall => hne hall.1
  exact ((hsame0 e' d p hne').trans (hsame1 e' d p hne')).trans (htrackers e' d p)

theorem rebuildEndpoints_cfg (es : List Endpoint) (s : State) : (rebuildEndpoints es s).cfg = s.cfg :=
  (kept_rebuildEndpoints es s).1

/-- Every listed endpoint is rebuilt, every other keeps its slots. -/
theorem rebuildEndpoints_spec (es : List Endpoint) {s : State} (h : MemoryCanonical s) :
    MemoryCanonical (rebuildEndpoints es s) ∧ (∀ e ∈ es, SlotsRebuilt (rebuildEndpoints es s) e)
      ∧ ∀ e d p, e ∉ es → SameSlot s (rebuildEndpoints es s) e d p := by
  induction es generalizing s with
  | nil => exact ⟨h, nofun, fun e d p _ => .refl s e d p⟩
  | cons e es ih =>
    obtain ⟨hcanon, hone, hsame⟩ := rebuildEndpoint_spec h e
    obtain ⟨hcanon', hall, hsame'⟩ := ih hcanon
    rw [rebuildEndpoints]
    refine ⟨hcanon', fun e' hmem => ?_, fun e' d p hmem => ?_⟩
    · by_cases he' : e' ∈ es
      · exact hall e' he'
      · obtain rfl := (List.mem_cons.1 hmem).resolve_right he'
        exact hone.congr (rebuildEndpoints_cfg es _) fun d p => hsame' e' d p he'
    · obtain ⟨hne, hmem'⟩ := not_or.1 (mt List.mem_cons.2 hmem)
      exact (hsame e' d p hne).trans (hsame' e' d p hmem')

end Sys2Proof.Machine
end

section
/-!
SUPPORT. The trackers of the CTS and the parities of the SIE go on agreeing (spec/10_state.md R52): kept by every packet
submitted, slot armed again, completion, acknowledgement and rebuild.
-/

namespace Sys2Proof.Machine

open Sys2Proof Sys2Proof.Safety

/-! ## The invariant, part by part -/

/-- What `Tracked` says beside `QueueSound`, by name. -/
structure Tied (s : State) : Prop where
  canonical : MemoryCanonical s
  invocation : InvocationSound s
  buffersApart : BuffersApart s.cfg
  armed : ArmedWithOwnBuffer s
  receive : ReceiveTied (ReceiveDone s) (s.parity.get 0 .rx) (unhandled s) (s.sieParity.get 0 .rx)
  rearms : rearmsAlternate s.usbTrace
  nextRearm : s.parity.get 0 .rx = nextReceiveParity s.usbTrace
  transmit : ∀ e : Endpoint, e.val < s.cfg.numEndpoints → TransmitTracked s e
  inactive : ∀ e : Endpoint, e.val < s.cfg.numEndpoints → e ∉ s.cfg.activeEndpoints → Untouched s e

theorem tracked_iff (s : State) : Tracked s ↔ QueueSound s ∧ Tied s := by
  constructor
  · rintro ⟨hcanon, hqueue, hinv, hbuf, harmed, hrec, hre, hnext, hends⟩
    exact ⟨hqueue, hcanon, hinv, hbuf, harmed, (receiveTracked_iff s).1 hrec, hre, hnext, fun e he => (hends e he).1,
      fun e he => (hends e he).2⟩
  · rintro ⟨hqueue, hcanon, hinv, hbuf, harmed, hrec, hre, hnext, htx, hin⟩
    exact ⟨hcanon, hqueue, hinv, hbuf, harmed, (receiveTracked_iff s).2 hrec, hre, hnext, fun e he => ⟨htx e he, hin e he⟩⟩

/-- `t` has the trackers and the parities of `s` for this endpoint and direction, and its slots. -/
structure SameSide (s t : State) (e : Endpoint) (d : Dir) : Prop where
  slots : ∀ p, SameSlot s t e d p
  parity : t.parity.get e d = s.parity.get e d
  sieParity : t.sieParity.get e d = s.sieParity.get e d

theorem transmitTracked_congr {s t : State} {e : Endpoint} (h : SameSide s t e .tx) (hs : TransmitTracked s e) :
    TransmitTracked t e := by
  have hfree : slotFree t e .tx = slotFree s e .tx := funext fun p => (h.slots p).free
  rw [transmitTracked_iff, h.parity, h.sieParity, hfree]
  exact hs

theorem untouched_congr {s t : State} {e : Endpoint} (h : ∀ d, SameSide s t e d) (hs : Untouched s e) : Untouched t e :=
  fun d => ⟨fun p => ((h d).slots p).free.trans ((hs d).1 p), (h d).parity.trans (hs d).2.1,
    (h d).sieParity.trans (hs d).2.2⟩

theorem receiveDone_congr {s t : State} {p : Bit} (h : SameSlot s t 0 .rx p) (hs : ReceiveDone s p) :
    ReceiveDone t p := by
  rw [ReceiveDone, h.free, h.1]
  exact hs

/-- A receive slot is as it was, or is armed as the statement asks. -/
theorem armed_of_cases {s t : State} (hc : t.cfg = s.cfg) (hs : ArmedWithOwnBuffer s)
    (h : ∀ e : Endpoint, e.val < s.cfg.numEndpoints → ∀ p, SameSlot s t e .rx p ∨ slotFree t e .rx p = true
      ∨ (e ∈ s.cfg.activeEndpoints ∧ slotBuf t e .rx p = rxBuf s.cfg e p ∧ slotCtl t e .rx p = armedCtl e)) :
    ArmedWithOwnBuffer t := by
  intro e he p hown
  rw [hc] at he ⊢
  obtain hsame | hfree | ⟨hact, hbuf, hctl⟩ := h e he p
  · rw [hsame.free] at hown
    rw [hsame.1, hsame.2]
    exact hs e he p hown
  · rw [hfree] at hown
    cases hown
  · rw [hbuf, hctl]
    exact ⟨hact, rfl, by rw [armedCtl, ctlCount_ctlWord, rxBufSize_eq]⟩

/-- The slots and trackers stay; what has been received and is not handled may be accounted for otherwise. -/
theorem Tied.of_sameSides {s t : State} (h : Tied s) (hc : t.cfg = s.cfg) (hcanon : MemoryCanonical t)
    (hsame : ∀ e : Endpoint, e.val < s.cfg.numEndpoints → ∀ d, SameSide s t e d)
    (htr : SameHandoffs s.usbTrace t.usbTrace) (hrx : t.parity.get 0 .rx = s.parity.get 0 .rx) (hinv : InvocationSound t)
    (hrec : ReceiveTied (ReceiveDone t) (t.parity.get 0 .rx) (unhandled t) (t.sieParity.get 0 .rx)) : Tied t where
  canonical := hcanon
  invocation := hinv
  buffersApart := hc ▸ h.buffersApart
  armed := armed_of_cases hc h.armed fun e he p => .inl ((hsame e he .rx).slots p)
  receive := hrec
  rearms := htr.rearms.2 h.rearms
  nextRearm := by rw [hrx, h.nextRearm, htr.nextReceive]
  transmit e he := transmitTracked_congr (hsame e (hc ▸ he) .tx) (h.transmit e (hc ▸ he))
  inactive e he hin := untouched_congr (hsame e (hc ▸ he)) (h.inactive e (hc ▸ he) (hc ▸ hin))

/-! ## Moving in the invocation -/

/-- `t` is `s` but for its place in the invocation, the queue, and what the hand-off does not read. -/
structure SameMemory (s t : State) : Prop where
  cfg : t.cfg = s.cfg
  mem : t.mem = s.mem
  parity : t.parity = s.parity
  sieParity : t.sieParity = s.sieParity
  trace : SameHandoffs s.usbTrace t.usbTrace

theorem SameMemory.sameSide {s t : State} (h : SameMemory s t) (e : Endpoint) (d : Dir) : SameSide s t e d :=
  ⟨sameSlot_of_mem h.mem h.cfg e d, by rw [h.parity], by rw [h.sieParity]⟩

theorem Tied.moved {s t : State} (h : Tied s) (hm : SameMemory s t) (hinv : InvocationSound t)
    (hrec : ReceiveTied (ReceiveDone s) (s.parity.get 0 .rx) (unhandled t) (s.sieParity.get 0 .rx)) : Tied t := by
  refine h.of_sameSides hm.cfg (memoryCanonical_congr hm.mem hm.cfg h.canonical) (fun e _ d => hm.sameSide e d) hm.trace
    (by rw [hm.parity]) hinv ?_
  rw [hm.parity, hm.sieParity]
  exact hrec.congr fun p => receiveDone_congr ((hm.sameSide 0 .rx).slots p)

theorem Still.sameMemory {s t : State} (h : Still s t) : SameMemory s t := by
  obtain ⟨added, htr, hq⟩ := h.trace
  exact ⟨h.cfg, h.mem, h.parity, h.sieParity, htr ▸ sameHandoffs_append hq s.usbTrace⟩

theorem invocationSound_congr {s t : State} (hseq : t.ctsSeq = s.ctsSeq) (hq : s.queue ≠ [] → t.queue ≠ [])
    (h : InvocationSound s) : InvocationSound t := by
  rw [InvocationSound, hseq]
  unfold InvocationSound at h
  split
  · trivial
  · rename_i st rest ph hst
    rw [hst] at h
    exact ⟨h.1, fun h3 => hq (h.2.1 h3), h.2.2⟩

theorem unhandled_congr {s t : State} (hseq : t.ctsSeq = s.ctsSeq) (hq : t.queue = s.queue) : unhandled t = unhandled s := by
  rw [unhandled, unhandled, hseq, hq]

theorem Tied.still {s t : State} (h : Tied s) (hs : Still s t) : Tied t :=
  h.moved hs.sameMemory (invocationSound_congr hs.ctsSeq (fun hq => hs.queue ▸ hq) h.invocation)
    (unhandled_congr hs.ctsSeq hs.queue ▸ h.receive)

theorem Tied.raise {s : State} (h : Tied s) (f : Fault) : Tied (raise f s) :=
  h.still { Still.refl s with }

/-! ## Packets submitted and slots armed again -/

/-- The tracker of another endpoint or direction stays when one is moved. -/
theorem sameSide_of_setsSlot {s t : State} {e : Endpoint} {d : Dir} {p : Bit} {buf ctl : Word}
    (hset : SetsSlot s t e d p buf ctl) (hpar : t.parity = s.parity.flip e d ∨ t.parity = s.parity)
    (hsie : t.sieParity = s.sieParity.flip e d ∨ t.sieParity = s.sieParity) {e' : Endpoint} {d' : Dir}
    (hne : ¬ (e = e' ∧ d = d')) : SameSide s t e' d' := by
  refine ⟨fun p' => hset.others fun h => hne ⟨h.1.symm, h.2.1.symm⟩, ?_, ?_⟩
  · obtain hpar | hpar := hpar <;> rw [hpar]
    exact EpBits.get_flip_of_ne _ hne
  · obtain hsie | hsie := hsie <;> rw [hsie]
    exact EpBits.get_flip_of_ne _ hne

/-- A slot whose control word says so is the SIE's. -/
theorem SetsSlot.taken {s t : State} {e : Endpoint} {d : Dir} {p : Bit} {buf ctl : Word}
    (h : SetsSlot s t e d p buf ctl) (hown : ctlOwn ctl = 1#1) : slotFree t e d p = false := by
  rw [slotFree, h.ctl, hown]
  rfl

theorem SetsSlot.freed {s t : State} {e : Endpoint} {d : Dir} {p : Bit} {buf ctl : Word}
    (h : SetsSlot s t e d p buf ctl) (hown : ctlOwn ctl = 0#1) : slotFree t e d p = true := by
  rw [slotFree, h.ctl, hown]
  rfl

/-- The SIE owns slots of active endpoints only (spec/44_usb_dispatcher.md R233). -/
theorem Tied.active_of_owned {s : State} (h : Tied s) {e : Endpoint} {d : Dir} {p : Bit} (he : e.val < s.cfg.numEndpoints)
    (hown : slotFree s e d p = false) : e ∈ s.cfg.activeEndpoints := by
  by_contra hin
  have hfree := (h.inactive e he hin d).1 p
  rw [hown] at hfree
  cases hfree

/-- What happens to an active endpoint does not touch the others. -/
theorem Tied.untouched_kept {s t : State} (h : Tied s) {e : Endpoint} {d : Dir} (hact : e ∈ s.cfg.activeEndpoints)
    (hside : ∀ {e' : Endpoint} {d' : Dir}, ¬ (e = e' ∧ d = d') → SameSide s t e' d') {e' : Endpoint}
    (he : e'.val < s.cfg.numEndpoints) (hin : e' ∉ s.cfg.activeEndpoints) : Untouched t e' :=
  untouched_congr (fun _ => hside fun hall => hin (hall.1 ▸ hact)) (h.inactive e' he hin)

theorem Tied.submit {s : State} (h : Tied s) (hact : 0 ∈ s.cfg.activeEndpoints) (ptr : Word) (n : BitVec 10)
    (hfree : slotFree s 0 .tx (s.parity.get 0 .tx) = true) : Tied (afterSubmit 0 ptr n s) := by
  have hset := setsSlot_afterSubmit h.canonical 0 ptr n
  have hpar : (afterSubmit 0 ptr n s).parity = s.parity.flip 0 .tx := by rw [afterSubmit]
  have htr : SameHandoffs s.usbTrace s.usbTrace := sameHandoffs_append (added := []) rfl _
  have htrace : (afterSubmit 0 ptr n s).usbTrace
      = .submit 0 (s.parity.get 0 .tx) ptr n (s.toggle.get 0 .tx) :: s.usbTrace := by rw [afterSubmit]
  have hcfg := afterSubmit_cfg 0 ptr n s
  have hseq := afterSubmit_ctsSeq 0 ptr n s
  have hsie := afterSubmit_sieParity 0 ptr n s
  have hqueue := afterSubmit_queue 0 ptr n s
  generalize afterSubmit 0 ptr n s = t at *
  have hside {e : Endpoint} {d : Dir} (hne : ¬ (0 = e ∧ Dir.tx = d)) : SameSide s t e d :=
    sameSide_of_setsSlot hset (.inl hpar) (.inr hsie) hne
  have hrx := hside (e := 0) (d := .rx) (by simp)
  refine ⟨hset.canonical, invocationSound_congr hseq (fun hq => hqueue ▸ hq) h.invocation, hcfg ▸ h.buffersApart, ?_, ?_, ?_,
    ?_, fun e he => ?_, fun e he hin => ?_⟩
  · exact armed_of_cases hcfg h.armed fun e _ p => .inl ((hside (by simp)).slots p)
  · rw [hrx.parity, hsie, unhandled_congr hseq hqueue]
    exact h.receive.congr fun p => receiveDone_congr (hrx.slots p)
  · rw [htrace]
    exact h.rearms
  · rw [htrace, hrx.parity]
    exact h.nextRearm
  · rw [hcfg] at he
    by_cases h0 : e = 0
    · subst h0
      rw [transmitTracked_iff, hpar, hsie, EpBits.get_flip_self]
      refine ((transmitTracked_iff s 0).1 (h.transmit 0 he)).submit hfree (hset.taken (by simp)) ?_
      exact (hset.others fun heq => bit_ne_flip _ heq.2.2).free
    · exact transmitTracked_congr (hside fun heq => h0 heq.1.symm) (h.transmit e he)
  · rw [hcfg] at he hin
    exact h.untouched_kept hact hside he hin

theorem Tied.sends {s t : State} (h : Tied s) (hact : 0 ∈ s.cfg.activeEndpoints) (hsend : Sends s t) :
    Tied t ∧ t.cfg = s.cfg ∧ t.ctsSeq = s.ctsSeq ∧ t.queue = s.queue := by
  induction hsend with
  | refl => exact ⟨h, rfl, rfl, rfl⟩
  | still _ hs _ ih =>
    obtain ⟨htied, hcfg, hseq, hqueue⟩ := ih
    exact ⟨htied.still hs, hs.cfg.trans hcfg, hs.ctsSeq.trans hseq, hs.queue.trans hqueue⟩
  | submit _ ptr n hfree ih =>
    obtain ⟨htied, hcfg, hseq, hqueue⟩ := ih
    refine ⟨htied.submit (hcfg ▸ hact) ptr n hfree, ?_, ?_, ?_⟩
    · rw [afterSubmit_cfg, hcfg]
    · rw [afterSubmit_ctsSeq, hseq]
    · rw [afterSubmit_queue, hqueue]

/-- The receive slot of the oldest record is armed again, and the record is handled. -/
theorem Tied.rearmed {s t : State} (h : Tied s) (hact : 0 ∈ s.cfg.activeEndpoints) {r : Completion}
    (hr : isControlReceive r = true) (hun : unhandled s = r :: unhandled t)
    (hset : SetsSlot s t 0 .rx r.parity (rxBuf s.cfg 0 r.parity) (armedCtl 0)) (hcfg : t.cfg = s.cfg)
    (hpar : t.parity = s.parity.flip 0 .rx) (hsie : t.sieParity = s.sieParity)
    (htr : SameHandoffs (.rearm 0 r.parity :: s.usbTrace) t.usbTrace) (hinv : InvocationSound t) : Tied t := by
  have hside {e : Endpoint} {d : Dir} (hne : ¬ (0 = e ∧ Dir.rx = d)) : SameSide s t e d :=
    sameSide_of_setsSlot hset (.inl hpar) (.inr hsie) hne
  have hrec := h.receive
  rw [hun] at hrec
  have hb := hrec.head_parity hr
  refine ⟨hset.canonical, hinv, hcfg ▸ h.buffersApart, ?_, ?_, ?_, ?_, fun e he => ?_, fun e he hin => ?_⟩
  · refine armed_of_cases hcfg h.armed fun e _ p => ?_
    by_cases heq : e = 0 ∧ p = r.parity
    · obtain ⟨rfl, rfl⟩ := heq
      exact .inr (.inr ⟨hact, hset.buf, hset.ctl⟩)
    · exact .inl (hset.others fun hall => heq ⟨hall.1, hall.2.2⟩)
  · rw [hpar, hsie, EpBits.get_flip_self]
    refine hrec.pop hr fun p hp => receiveDone_congr (hset.others fun hall => hp ?_)
    rw [hall.2.2, hb]
  · refine htr.rearms.2 ⟨fun _ => ?_, h.rearms⟩
    rw [hb, h.nextRearm]
  · rw [hpar, EpBits.get_flip_self, htr.nextReceive, ← hb]
    rfl
  · rw [hcfg] at he
    exact transmitTracked_congr (hside (by simp)) (h.transmit e he)
  · rw [hcfg] at he hin
    exact h.untouched_kept hact hside he hin

/-! ## Completions -/

theorem completed_queue (e : Endpoint) (d : Dir) (p : Bit) (n : BitVec 10) (tog : Bit) (kind : BitVec 4) (s : State) :
    (completed e d p n tog kind s).queue = s.queue ++ [{ endpoint := e, dir := d, parity := p }] := by
  simp [completed, pushCompletion]

theorem completed_frame (e : Endpoint) (d : Dir) (p : Bit) (n : BitVec 10) (tog : Bit) (kind : BitVec 4) (s : State) :
    (completed e d p n tog kind s).cfg = s.cfg ∧ (completed e d p n tog kind s).ctsSeq = s.ctsSeq
      ∧ (completed e d p n tog kind s).parity = s.parity
      ∧ (completed e d p n tog kind s).sieParity = s.sieParity.flip e d
      ∧ (completed e d p n tog kind s).usbTrace = s.usbTrace := by
  simp [completed]

/-- A record queued is unhandled, also while an earlier one is classified (log 7). -/
theorem unhandled_push {s t : State} (hinv : InvocationSound s) (hseq : t.ctsSeq = s.ctsSeq) {r : Completion}
    (hq : t.queue = s.queue ++ [r]) : unhandled t = unhandled s ++ [r] := by
  rw [unhandled, unhandled, hseq, hq]
  unfold InvocationSound at hinv
  cases hs : s.ctsSeq with
  | idle => rfl
  | inInvocation st rest ph =>
    rw [hs] at hinv
    obtain ⟨-, h3, hph⟩ := hinv
    cases ph with
    | select => rfl
    | token => rfl
    | request => exact List.tail_append_of_ne_nil (h3 (hph nofun))

/-- The SIE completes a transmit slot it owns. -/
theorem Tied.sent {s : State} (h : Tied s) {e : Endpoint} (hcan : CanComplete e .tx s) (n : BitVec 10) (tog : Bit)
    (kind : BitVec 4) : Tied (completed e .tx (s.sieParity.get e .tx) n tog kind s) := by
  have hset := setsSlot_completed h.canonical e .tx (s.sieParity.get e .tx) n tog kind
  obtain ⟨hcfg, hseq, hpar, hsie, htrace⟩ := completed_frame e .tx (s.sieParity.get e .tx) n tog kind s
  have hqueue := completed_queue e .tx (s.sieParity.get e .tx) n tog kind s
  generalize completed e .tx (s.sieParity.get e .tx) n tog kind s = t at *
  have hside {e' : Endpoint} {d : Dir} (hne : ¬ (e = e' ∧ Dir.tx = d)) : SameSide s t e' d :=
    sameSide_of_setsSlot hset (.inr hpar) (.inl hsie) hne
  have hrx := hside (e' := 0) (d := .rx) (by simp)
  refine ⟨hset.canonical, invocationSound_congr hseq (fun _ => by simp [hqueue]) h.invocation, hcfg ▸ h.buffersApart, ?_, ?_,
    ?_, ?_, fun e' he => ?_, fun e' he hin => ?_⟩
  · exact armed_of_cases hcfg h.armed fun e' _ p => .inl ((hside (by simp)).slots p)
  · rw [hrx.parity, hrx.sieParity, unhandled_push h.invocation hseq hqueue]
    exact (h.receive.congr fun p => receiveDone_congr (hrx.slots p)).push_other (by simp [isControlReceive])
  · rw [htrace]
    exact h.rearms
  · rw [htrace, hpar]
    exact h.nextRearm
  · rw [hcfg] at he
    by_cases heq : e = e'
    · subst heq
      rw [transmitTracked_iff, hpar, hsie, EpBits.get_flip_self]
      refine ((transmitTracked_iff s e).1 (h.transmit e he)).complete hcan.owned (hset.freed (by simp)) ?_
      exact (hset.others fun heq => bit_ne_flip _ heq.2.2).free
    · exact transmitTracked_congr (hside fun hall => heq hall.1) (h.transmit e' he)
  · rw [hcfg] at he hin
    exact h.untouched_kept (h.active_of_owned hcan.hasSlots hcan.owned) hside he hin

/-- The SIE completes a receive slot it owns with a SETUP or OUT token. -/
theorem Tied.received {s : State} (h : Tied s) {e : Endpoint} (hcan : CanComplete e .rx s) (n : BitVec 10) (tog : Bit)
    {kind : BitVec 4} (hkind : kind = kindOut ∨ kind = kindSetup) :
    Tied (completed e .rx (s.sieParity.get e .rx) n tog kind s) := by
  have hset := setsSlot_completed h.canonical e .rx (s.sieParity.get e .rx) n tog kind
  obtain ⟨hcfg, hseq, hpar, hsie, htrace⟩ := completed_frame e .rx (s.sieParity.get e .rx) n tog kind s
  have hqueue := completed_queue e .rx (s.sieParity.get e .rx) n tog kind s
  generalize completed e .rx (s.sieParity.get e .rx) n tog kind s = t at *
  have hside {e' : Endpoint} {d : Dir} (hne : ¬ (e = e' ∧ Dir.rx = d)) : SameSide s t e' d :=
    sameSide_of_setsSlot hset (.inr hpar) (.inl hsie) hne
  have hfreed : slotFree t e .rx (s.sieParity.get e .rx) = true := hset.freed (by simp)
  refine ⟨hset.canonical, invocationSound_congr hseq (fun _ => by simp [hqueue]) h.invocation, hcfg ▸ h.buffersApart, ?_, ?_,
    ?_, ?_, fun e' he => ?_, fun e' he hin => ?_⟩
  · refine armed_of_cases hcfg h.armed fun e' _ p => ?_
    by_cases heq : e' = e ∧ p = s.sieParity.get e .rx
    · rw [heq.1, heq.2]
      exact .inr (.inl hfreed)
    · exact .inl (hset.others fun hall => heq ⟨hall.1, hall.2.2⟩)
  · rw [hpar, unhandled_push h.invocation hseq hqueue]
    by_cases h0 : e = 0
    · subst h0
      rw [hsie, EpBits.get_flip_self]
      refine h.receive.push (by simp [isControlReceive]) rfl ?_ ?_ ?_
      · intro hdone
        rw [ReceiveDone, hcan.owned] at hdone
        cases hdone.1
      · rw [ReceiveDone, hset.ctl, ctlToken_ctlWord]
        exact ⟨hfreed, hkind⟩
      · exact fun p hp => receiveDone_congr (hset.others fun hall => hp hall.2.2)
    · have hrx := hside (e' := 0) (d := .rx) fun hall => h0 hall.1
      rw [hrx.sieParity]
      exact (h.receive.congr fun p => receiveDone_congr (hrx.slots p)).push_other (by simp [isControlReceive, h0])
  · rw [htrace]
    exact h.rearms
  · rw [htrace, hpar]
    exact h.nextRearm
  · rw [hcfg] at he
    exact transmitTracked_congr (hside (by simp)) (h.transmit e' he)
  · rw [hcfg] at he hin
    exact h.untouched_kept (h.active_of_owned hcan.hasSlots hcan.owned) hside he hin

/-- The SIE stores bytes within a receive buffer it owns. -/
theorem Tied.stored {s : State} (h : Tied s) {e : Endpoint} {p : Bit} (he : e.val < s.cfg.numEndpoints)
    (hown : slotFree s e .rx p = false) {off : Nat} {bs : List Byte}
    (hfits : off + bs.length ≤ (ctlCount (slotCtl s e .rx p)).toNat) :
    Tied (writeBytes (slotBuf s e .rx p + BitVec.ofNat 32 off) bs s)
      ∧ ∀ e', e'.val < s.cfg.numEndpoints → ∀ d q,
        SameSlot s (writeBytes (slotBuf s e .rx p + BitVec.ofNat 32 off) bs s) e' d q := by
  obtain ⟨hact, hbuf, hcount⟩ := h.armed e he p hown
  have h64 : off + bs.length ≤ 64 := by
    rw [hcount] at hfits
    exact hfits
  have hout (x : Word) (hx : InBdt s.cfg x) : bs.length ≤ (x - (slotBuf s e .rx p + BitVec.ofNat 32 off)).toNat := by
    have h1 := outside_of_disjoint (h.buffersApart e hact p) hx
    have hoff : (BitVec.ofNat 32 off).toNat = off := by
      rw [BitVec.toNat_ofNat]
      omega
    rw [hbuf]
    generalize BitVec.ofNat 32 off = z at *
    bv_omega
  have hsame (e' : Endpoint) (he' : e'.val < s.cfg.numEndpoints) (d : Dir) (q : Bit) :=
    sameSlot_writeBytes h.canonical hout he' d q
  have hcanon := memoryCanonical_writeBytes h.canonical (slotBuf s e .rx p + BitVec.ofNat 32 off) bs
  refine ⟨h.of_sameSides (writeBytes_cfg ..) hcanon (fun e' he' d => ⟨hsame e' he' d, ?_, ?_⟩) ?_ ?_ ?_ ?_, hsame⟩
  · rw [writeBytes_parity]
  · rw [writeBytes_sieParity]
  · rw [writeBytes_usbTrace]
    exact sameHandoffs_append (added := []) rfl _
  · rw [writeBytes_parity]
  · exact invocationSound_congr (writeBytes_ctsSeq ..) (by rw [writeBytes_queue]; exact id) h.invocation
  · rw [writeBytes_parity, writeBytes_sieParity, unhandled_congr (writeBytes_ctsSeq ..) (writeBytes_queue ..)]
    exact h.receive.congr fun q => receiveDone_congr (hsame 0 (Nat.zero_lt_of_lt he) .rx q)

theorem Tied.filled {s : State} (h : Tied s) {e : Endpoint} (hcan : CanComplete e .rx s) (tog : Bit) {kind : BitVec 4}
    (hkind : kind = kindOut ∨ kind = kindSetup) {bytes : List Byte}
    (hfits : bytes.length ≤ (ctlCount (slotCtl s e .rx (s.sieParity.get e .rx))).toNat) :
    Tied (filled e tog kind bytes s) := by
  obtain ⟨htied, hsame⟩ := h.stored (off := 0) (bs := bytes) hcan.hasSlots hcan.owned (by omega)
  rw [BitVec.add_zero] at htied hsame
  have hcan' : CanComplete e .rx (writeBytes (slotBuf s e .rx (s.sieParity.get e .rx)) bytes s) := by
    refine ⟨?_, ?_, ?_⟩
    · rw [writeBytes_cfg]
      exact hcan.hasSlots
    · rw [writeBytes_sieParity, (hsame e hcan.hasSlots .rx _).free]
      exact hcan.owned
    · rw [writeBytes_queue, writeBytes_cfg]
      exact hcan.room
  have hdone := htied.received hcan' (BitVec.ofNat 10 bytes.length) tog hkind
  rw [writeBytes_sieParity] at hdone
  exact hdone

/-- Every move of the SIE and of the environment. -/
theorem Tied.move {s t : State} (h : Tied s) (hmove : MoveDid s t) : Tied t := by
  cases hmove with
  | noted hs => exact h.still hs
  | received e bytes tog kind hkind hcan hfits hs => exact (h.filled hcan tog hkind hfits).still hs
  | sent e n tog hcan hs => exact (h.sent hcan n tog kindIn).still hs
  | buffer e p off b he howned hoff ht =>
    subst ht
    exact (h.stored (bs := [b]) he howned (by rw [List.length_singleton]; omega)).1

/-! ## Places in the invocation -/

theorem unhandled_of_seqAfter {s t : State} {v : Byte} (h : t.ctsSeq = seqAfter v s.ctsSeq) : unhandled t = t.queue := by
  rw [unhandled, h]
  cases s.ctsSeq with
  | idle => rfl
  | inInvocation st rest ph =>
    by_cases hz : rest &&& ~~~v &&& 0x9F#8 = 0#8
    · rw [seqAfter, if_pos hz]
    · rw [seqAfter, if_neg hz]

/-- Conditions done with leave the rest of the snapshot; where TOKDNE is done with, any queue will do. -/
theorem invocationSound_seqAfter {s t : State} {v : Byte} (h : InvocationSound s) (hseq : t.ctsSeq = seqAfter v s.ctsSeq)
    (hq : v.getLsbD 3 = true ∨ t.queue = s.queue) : InvocationSound t := by
  have part : ∀ rest st : Byte, rest &&& ~~~st = 0#8 → rest &&& ~~~v &&& ~~~st = 0#8 := fun rest st hz => by
    rw [BitVec.and_assoc, BitVec.and_comm (~~~v), ← BitVec.and_assoc, hz, BitVec.zero_and]
  have bit (rest : Byte) : (rest &&& ~~~v).getLsbD 3 = (rest.getLsbD 3 && !v.getLsbD 3) := by simp
  unfold InvocationSound at h ⊢
  cases hs : s.ctsSeq with
  | idle =>
    rw [hs, seqAfter] at hseq
    rw [hseq]
    trivial
  | inInvocation st rest ph =>
    rw [hs] at h
    rw [hs, seqAfter] at hseq
    obtain ⟨hpart, h3, -⟩ := h
    rw [hseq]
    split
    · trivial
    · rename_i st' rest' ph' heq
      split at heq
      · cases heq
      · cases heq
        refine ⟨part rest st hpart, fun hbit => ?_, fun hne => absurd rfl hne⟩
        rw [bit, Bool.and_eq_true] at hbit
        obtain hv | hq := hq
        · rw [hv] at hbit
          cases hbit.2
        · rw [hq]
          exact h3 hbit.1

/-- A token-done handler returns: the head of the queue is handled. -/
theorem Tied.tokenDone {s : State} (h : Tied s)
    (hrec : ReceiveTied (ReceiveDone s) (s.parity.get 0 .rx) s.queue.tail (s.sieParity.get 0 .rx)) :
    Tied (tokenDone s) := by
  have hseq : (Safety.tokenDone s).ctsSeq = seqAfter 0x08#8 s.ctsSeq := rfl
  refine h.moved ⟨rfl, rfl, rfl, rfl, ?_⟩ (invocationSound_seqAfter h.invocation hseq (.inl (by decide))) ?_
  · exact sameHandoffs_cons (ev := .write .intStatus 0x08#8) rfl s.usbTrace
  · rw [unhandled_of_seqAfter hseq]
    exact hrec

/-- A condition other than TOKDNE and USBRST is acknowledged and done with. -/
theorem Tied.condition {s : State} (h : Tied s) {v : Byte} (hv : isQuietCondition v) (hun : unhandled s = s.queue) :
    Tied (conditionDone v (ackStatus v s)) := by
  have hbits : v[0] = false ∧ v[3] = false := by
    obtain rfl | rfl | rfl | rfl := hv <;> decide
  have hack : ackStatus v s = { s with
      intStatus := s.intStatus &&& ~~~(v &&& 0x9F#8), usbTrace := .write .intStatus v :: s.usbTrace } := by
    rw [ackStatus_eq]
    simp [hbits]
  have hseq : (conditionDone v (ackStatus v s)).ctsSeq = seqAfter v s.ctsSeq := by rw [conditionDone_eq, hack]
  have hqueue : (conditionDone v (ackStatus v s)).queue = s.queue := by rw [conditionDone_eq, hack]
  refine h.moved ?_ (invocationSound_seqAfter h.invocation hseq (.inr hqueue)) ?_
  · rw [conditionDone_eq, hack]
    exact ⟨rfl, rfl, rfl, rfl, sameHandoffs_cons (ev := .write .intStatus v) rfl s.usbTrace⟩
  · rw [unhandled_of_seqAfter hseq, hqueue, ← hun]
    exact h.receive

end Sys2Proof.Machine
end

section
/-!
SUPPORT. Every row of the CTS keeps the trackers and the parities in agreement: where in its invocation the CTS finds a row,
which record is at the head of the queue there, and the rows one by one (spec/10_state.md R52, R53).
-/

namespace Sys2Proof.Machine

open Sys2Proof Sys2Proof.Safety

/-! ## Where a row is found -/

theorem decodeCond_spec {st : Byte} {i : Instr} (h : decodeCond st = .ok i) :
    isConditionRow i = true ∧ (i = .usbrst → st.getLsbD 0 = true) ∧ (i = .tokdne → st.getLsbD 3 = true) := by
  unfold decodeCond at h
  split at h
  · cases h
  split at h
  · cases h
    exact ⟨rfl, fun _ => ‹_›, nofun⟩
  split at h
  · cases h
    exact ⟨rfl, nofun, nofun⟩
  split at h
  · cases h
    exact ⟨rfl, nofun, nofun⟩
  split at h
  · cases h
    exact ⟨rfl, nofun, fun _ => ‹_›⟩
  split at h
  · cases h
    exact ⟨rfl, nofun, nofun⟩
  split at h
  · cases h
    exact ⟨rfl, nofun, nofun⟩
  · cases h

theorem decodeToken_spec (t : BitVec 12) :
    isConditionRow (decodeToken t) = false
      ∧ (∀ p, decodeToken t = .ep0Setup p → tokenEndpoint t = 0#4 ∧ tokenDirection t = 0#1 ∧ tokenParity t = p)
      ∧ (∀ p, decodeToken t = .ep0Out p → tokenEndpoint t = 0#4 ∧ tokenDirection t = 0#1 ∧ tokenParity t = p)
      ∧ (tokenEndpoint t = 0#4 → tokenDirection t = 0#1 → tokenKind t = 0x1#4 ∨ tokenKind t = 0xD#4 →
        ∃ p, decodeToken t = .ep0Setup p ∨ decodeToken t = .ep0Out p) := by
  unfold decodeToken
  split
  · exact ⟨rfl, nofun, nofun, fun he => absurd he ‹_›⟩
  have he := not_not.1 ‹¬ tokenEndpoint t ≠ 0#4›
  split
  · obtain ⟨hd, -⟩ := ‹tokenDirection t = 0#1 ∧ _›
    exact ⟨rfl, fun p hp => ⟨he, hd, Instr.ep0Setup.inj hp⟩, nofun, fun _ _ _ => ⟨_, .inl rfl⟩⟩
  split
  · obtain ⟨hd, -⟩ := ‹tokenDirection t = 0#1 ∧ tokenKind t = 0x1#4›
    exact ⟨rfl, nofun, fun p hp => ⟨he, hd, Instr.ep0Out.inj hp⟩, fun _ _ _ => ⟨_, .inr rfl⟩⟩
  have none (hd : tokenDirection t = 0#1) : ¬ (tokenKind t = 0x1#4 ∨ tokenKind t = 0xD#4) := by
    rintro (hk | hk)
    · exact absurd ⟨hd, hk⟩ ‹¬ (tokenDirection t = 0#1 ∧ tokenKind t = 0x1#4)›
    · exact absurd ⟨hd, hk⟩ ‹¬ (tokenDirection t = 0#1 ∧ tokenKind t = 0xD#4)›
  split
  · exact ⟨rfl, nofun, nofun, fun _ hd hk => absurd hk (none hd)⟩
  · exact ⟨rfl, nofun, nofun, fun _ hd hk => absurd hk (none hd)⟩

theorem decodeSetup_spec (p : Setup) :
    isConditionRow (decodeSetup p) = false ∧ (∀ q, decodeSetup p ≠ .ep0Setup q) ∧ ∀ q, decodeSetup p ≠ .ep0Out q := by
  unfold decodeSetup
  repeat' split
  all_goals exact ⟨rfl, nofun, nofun⟩

/-- The row is found in this phase of the invocation, with `rest` left of its snapshot (spec/44_usb_dispatcher.md R231,
R236; spec/43_ep0_control.md R192). -/
inductive RowAt (s : State) (rest : Byte) : CtsPhase → Instr → Prop
  | condition {i : Instr} (h : decodeCond rest = .ok i) : RowAt s rest .select i
  | token : RowAt s rest .token (decodeToken (tokenCode s))
  | request (p : Setup) : RowAt s rest .request (decodeSetup p)

theorem rowAt_of_ctsFetch {s : State} {c : Code} {i : Instr} (hf : ctsFetch s = some c) (hd : decode c = .ok i) :
    ∃ st rest ph, (ctsEnter s).ctsSeq = .inInvocation st rest ph ∧ RowAt (ctsEnter s) rest ph i := by
  unfold ctsFetch at hf
  split at hf
  · cases hf
  unfold ctsEnter
  split at hf
  · split at hf
    · cases hf
      rw [‹s.ctsSeq = .idle›]
      exact ⟨_, _, _, rfl, .condition hd⟩
    · cases hf
  · cases hf
    rw [‹s.ctsSeq = _›]
    exact ⟨_, _, _, ‹_›, .condition hd⟩
  · cases hf
    cases hd
    rw [‹s.ctsSeq = _›]
    exact ⟨_, _, _, ‹_›, .token⟩
  · cases hf
    cases hd
    rw [‹s.ctsSeq = _›]
    exact ⟨_, _, _, ‹_›, .request _⟩

/-- The rows of the conditions are found at the selection only. -/
theorem RowAt.selected {s : State} {rest : Byte} {ph : CtsPhase} {i : Instr} (h : RowAt s rest ph i)
    (hi : isConditionRow i = true) : ph = .select ∧ decodeCond rest = .ok i := by
  cases h with
  | condition h => exact ⟨rfl, h⟩
  | token =>
    rw [(decodeToken_spec _).1] at hi
    cases hi
  | request p =>
    rw [(decodeSetup_spec p).1] at hi
    cases hi

/-! ## The record at the head -/

/-- TOK_STATUS names the record it shows (spec/30_encoding.md R103). -/
theorem tokStatusOf_fields (r : Completion) : ((tokStatusOf r).extractLsb' 4 4).toFin = r.endpoint
    ∧ dirOfBit ((tokStatusOf r).extractLsb' 3 1) = r.dir ∧ (tokStatusOf r).extractLsb' 2 1 = r.parity := by
  obtain ⟨e, d, p⟩ := r
  cases d <;> revert e p <;> decide

/-- The fields of an event code are those of the record, and the token kind of its slot (spec/30_encoding.md R106). -/
theorem eventCode_fields (r : Completion) (kind : BitVec 4) :
    (tokenEndpoint (tokStatusOf r ++ kind) = 0#4 ↔ r.endpoint = 0)
      ∧ (tokenDirection (tokStatusOf r ++ kind) = 0#1 ↔ r.dir = .rx)
      ∧ tokenParity (tokStatusOf r ++ kind) = r.parity ∧ tokenKind (tokStatusOf r ++ kind) = kind := by
  obtain ⟨e, d, p⟩ := r
  cases d <;> revert e p kind <;> decide

/-- The event code where the queue's head is shown. -/
theorem tokenCode_of_head {s : State} {r : Completion} {q : List Completion} (hq : QueueSound s) (hr : s.queue = r :: q) :
    tokenCode s = tokStatusOf r ++ ctlToken (slotCtl s r.endpoint r.dir r.parity) := by
  obtain ⟨-, hhead, -, -, -⟩ := hq
  rw [hr, shownHead] at hhead
  obtain ⟨he, hd, hp⟩ := tokStatusOf_fields r
  rw [tokenCode, tokEndpoint, tokDir, tokParity, hhead, he, hd, hp]

/-- The CTS handles the record `r`, `q` being queued behind it. -/
structure Handles (s : State) (i : Instr) (r : Completion) (q : List Completion) : Prop where
  queue : s.queue = r :: q
  unhandled : unhandled s = r :: q
  rearms : ∀ p, i = .ep0Setup p ∨ i = .ep0Out p → isControlReceive r = true ∧ r.parity = p
  others : (∀ p, i ≠ .ep0Setup p) → (∀ p, i ≠ .ep0Out p) → isControlReceive r = false

/-- In the token phase a record is handled: its receive slot on endpoint 0 is armed again exactly by the rows of a SETUP and
an OUT event. -/
theorem exists_handles {s : State} (hq : QueueSound s) (h : Tied s) {st rest : Byte} {i : Instr}
    (hseq : s.ctsSeq = .inInvocation st rest .token) (hat : RowAt s rest .token i) : ∃ r q, Handles s i r q := by
  have hinv := h.invocation
  unfold InvocationSound at hinv
  rw [hseq] at hinv
  obtain ⟨-, hne, hbit⟩ := hinv
  obtain ⟨r, q, hrq⟩ := List.exists_cons_of_ne_nil (hne (hbit nofun))
  have hun : Safety.unhandled s = r :: q := by rw [Safety.unhandled, hseq, hrq]
  have hcode := tokenCode_of_head hq hrq
  obtain ⟨he, hd, hp, hk⟩ := eventCode_fields r (ctlToken (slotCtl s r.endpoint r.dir r.parity))
  rw [← hcode] at he hd hp hk
  have control : isControlReceive r = true ↔ tokenEndpoint (tokenCode s) = 0#4 ∧ tokenDirection (tokenCode s) = 0#1 := by
    rw [he, hd, isControlReceive, Bool.and_eq_true, decide_eq_true_eq, decide_eq_true_eq]
  obtain ⟨-, hsetup, hout, hrow⟩ := decodeToken_spec (tokenCode s)
  cases hat
  refine ⟨r, q, hrq, hun, ?_, fun hns hno => ?_⟩
  · rintro p (hi | hi)
    · obtain ⟨h0, hrx, hpar⟩ := hsetup p hi
      exact ⟨control.2 ⟨h0, hrx⟩, hp.symm.trans hpar⟩
    · obtain ⟨h0, hrx, hpar⟩ := hout p hi
      exact ⟨control.2 ⟨h0, hrx⟩, hp.symm.trans hpar⟩
  · rw [Bool.eq_false_iff]
    intro hr
    obtain ⟨h0, hrx⟩ := control.1 hr
    obtain ⟨-, hkind⟩ := h.receive.slots r (hun ▸ List.mem_cons_self) hr
    rw [he.1 h0, hd.1 hrx] at hk
    obtain ⟨p, hi | hi⟩ := hrow h0 hrx (by rw [hk]; exact hkind)
    · exact hns p hi
    · exact hno p hi

/-- The rows that arm a receive slot again are found in the token phase only. -/
theorem RowAt.rearms {s : State} {rest : Byte} {ph : CtsPhase} {i : Instr} (h : RowAt s rest ph i)
    (hi : ∃ p, i = .ep0Setup p ∨ i = .ep0Out p) : ph = .token := by
  obtain ⟨p, hi⟩ := hi
  cases h with
  | condition h =>
    have hcond := (decodeCond_spec h).1
    obtain rfl | rfl := hi <;> cases hcond
  | token => rfl
  | request packet =>
    obtain ⟨-, hsetup, hout⟩ := decodeSetup_spec packet
    exact absurd hi (not_or.2 ⟨hsetup p, hout p⟩)

/-! ## The rows one by one -/

/-- Control passes on within a handled token-done event. -/
theorem invocationSound_of_phase {s t : State} {st rest : Byte} {ph ph' : CtsPhase} (h : InvocationSound s)
    (hs : s.ctsSeq = .inInvocation st rest ph) (ht : t.ctsSeq = .inInvocation st rest ph') (hq : t.queue = s.queue)
    (hbit : rest.getLsbD 3 = true) : InvocationSound t := by
  unfold InvocationSound at h ⊢
  rw [hs] at h
  rw [ht, hq]
  obtain ⟨hpart, h3, -⟩ := h
  exact ⟨hpart, h3, fun _ => hbit⟩

theorem Tied.tokdne {s : State} (h : Tied s) {st rest : Byte} (hseq : s.ctsSeq = .inInvocation st rest .select)
    (hbit : rest.getLsbD 3 = true) : Tied (callPhase .token s) := by
  have hseq' : (callPhase .token s).ctsSeq = .inInvocation st rest .token := by rw [callPhase, hseq]
  have hun : unhandled (callPhase .token s) = unhandled s := by rw [unhandled, unhandled, hseq', hseq, callPhase_queue]
  refine h.moved ?_ (invocationSound_of_phase h.invocation hseq hseq' (by simp) hbit) (hun ▸ h.receive)
  obtain ⟨-, -, htrace⟩ := quietly_callPhase .token s
  obtain ⟨added, htr, hadded⟩ := htrace
  exact ⟨by simp, by simp, by simp, by simp, htr ▸ sameHandoffs_append hadded s.usbTrace⟩

/-- The handler of a SETUP event arms the slot of the record and calls Classify; the record stays at the head. -/
theorem Tied.setup {s : State} (h : Tied s) (hact : 0 ∈ s.cfg.activeEndpoints) {r : Completion} {q : List Completion}
    (hq : s.queue = r :: q) (hr : isControlReceive r = true) {st rest : Byte}
    (hseq : s.ctsSeq = .inInvocation st rest .token) : Tied (callClassify (rearm 0 r.parity s)) := by
  have hbit : rest.getLsbD 3 = true := by
    have hinv := h.invocation
    unfold InvocationSound at hinv
    rw [hseq] at hinv
    exact hinv.2.2 nofun
  have hset := setsSlot_rearm h.canonical 0 r.parity
  have hmem : (callClassify (rearm 0 r.parity s)).mem = (rearm 0 r.parity s).mem := by simp [callClassify]
  have hcfg : (callClassify (rearm 0 r.parity s)).cfg = s.cfg := by simp [callClassify, rearm_eq]
  have hcfg' : (rearm 0 r.parity s).cfg = s.cfg := by rw [rearm_eq]
  have hpar : (callClassify (rearm 0 r.parity s)).parity = s.parity.flip 0 .rx := by simp [callClassify, rearm_eq]
  have hsie : (callClassify (rearm 0 r.parity s)).sieParity = s.sieParity := by simp [callClassify, rearm_eq]
  have htr : (callClassify (rearm 0 r.parity s)).usbTrace = .rearm 0 r.parity :: s.usbTrace := by
    simp [callClassify, rearm_eq]
  have hqueue : (callClassify (rearm 0 r.parity s)).queue = s.queue := by simp [callClassify, rearm_eq]
  have hseq' : (callClassify (rearm 0 r.parity s)).ctsSeq = .inInvocation st rest .request := by
    rw [callClassify, callPhase_eq, rearm_eq]
    simp only [hseq, seqAt]
  have hset' := hset.congr hmem (hcfg.trans hcfg'.symm)
  generalize callClassify (rearm 0 r.parity s) = t at *
  refine h.rearmed hact hr ?_ hset' hcfg hpar hsie (htr ▸ ⟨rfl, Iff.rfl, rfl, Iff.rfl⟩)
    (invocationSound_of_phase h.invocation hseq hseq' hqueue hbit)
  rw [unhandled, hseq, unhandled, hseq', hqueue, hq]
  rfl

/-- What the end of an OUT event's handler leaves. -/
theorem tokenDone_endDataStage (s : State) :
    (Safety.tokenDone (endDataStage s)).cfg = s.cfg ∧ (Safety.tokenDone (endDataStage s)).mem = s.mem
      ∧ (Safety.tokenDone (endDataStage s)).parity = s.parity ∧ (Safety.tokenDone (endDataStage s)).sieParity = s.sieParity
      ∧ (Safety.tokenDone (endDataStage s)).ctsSeq = seqAfter 0x08#8 s.ctsSeq
      ∧ (Safety.tokenDone (endDataStage s)).queue = s.queue.tail
      ∧ (Safety.tokenDone (endDataStage s)).usbTrace = .write .intStatus 0x08#8 :: s.usbTrace :=
  ⟨rfl, rfl, rfl, rfl, rfl, rfl, rfl⟩

/-- The handler of an OUT event arms the slot of the record and returns. -/
theorem Tied.out {s : State} (h : Tied s) (hact : 0 ∈ s.cfg.activeEndpoints) {r : Completion} {q : List Completion}
    (hq : s.queue = r :: q) (hun : unhandled s = r :: q) (hr : isControlReceive r = true) :
    Tied (Safety.tokenDone (endDataStage (rearm 0 r.parity s))) := by
  have hset := setsSlot_rearm h.canonical 0 r.parity
  have hrear := rearm_eq 0 r.parity s
  have hcfg : (rearm 0 r.parity s).cfg = s.cfg := by rw [hrear]
  have hpar : (rearm 0 r.parity s).parity = s.parity.flip 0 .rx := by rw [hrear]
  have hsie : (rearm 0 r.parity s).sieParity = s.sieParity := by rw [hrear]
  have htr : (rearm 0 r.parity s).usbTrace = .rearm 0 r.parity :: s.usbTrace := by rw [hrear]
  have hseq : (rearm 0 r.parity s).ctsSeq = s.ctsSeq := by rw [hrear]
  have hqueue : (rearm 0 r.parity s).queue = r :: q := by rw [hrear]; exact hq
  clear hrear
  generalize rearm 0 r.parity s = u at *
  obtain ⟨hcfg', hmem', hpar', hsie', hseq', hqueue', htr'⟩ := tokenDone_endDataStage u
  generalize Safety.tokenDone (endDataStage u) = t at *
  have hafter := hseq'.trans (congrArg (seqAfter 0x08#8) hseq)
  refine h.rearmed hact hr ?_ (hset.congr hmem' hcfg') (hcfg'.trans hcfg) (hpar'.trans hpar) (hsie'.trans hsie) ?_
    (invocationSound_seqAfter h.invocation hafter (.inl (by decide)))
  · rw [hun, unhandled_of_seqAfter hafter, hqueue', hqueue]
    rfl
  · rw [htr', htr]
    exact sameHandoffs_cons rfl _

/-- A handler that arms no slot has sent what it sends, and returns. -/
theorem Tied.handled {s u : State} {i : Instr} (hq : QueueSound s) (h : Tied s) (hact : 0 ∈ s.cfg.activeEndpoints)
    {st rest : Byte} {ph : CtsPhase} (hseq : s.ctsSeq = .inInvocation st rest ph) (hat : RowAt s rest ph i)
    (hi : isConditionRow i = false) (hsetup : ∀ p, i ≠ .ep0Setup p) (hout : ∀ p, i ≠ .ep0Out p) (hsend : Sends s u) :
    Tied (Safety.tokenDone u) := by
  obtain ⟨htied, -, hseq', hqueue⟩ := h.sends hact hsend
  refine htied.tokenDone ?_
  have hrec := htied.receive
  rw [unhandled_congr hseq' hqueue] at hrec
  cases ph with
  | select =>
    cases hat with
    | condition hcond =>
      rw [(decodeCond_spec hcond).1] at hi
      cases hi
  | token =>
    obtain ⟨r, q, hh⟩ := exists_handles hq h hseq hat
    rw [hh.unhandled] at hrec
    rw [hqueue, hh.queue]
    exact hrec.pop_other (hh.others hsetup hout)
  | request =>
    rw [unhandled, hseq] at hrec
    rw [hqueue]
    exact hrec

theorem EpBits.get_zero (e : Endpoint) (d : Dir) : EpBits.zero.get e d = 0#1 := by
  cases d <;> simp [EpBits.get, EpBits.zero]

/-- Acknowledging USBRST (spec/42_bdt_handoff.md R169). -/
theorem ackStatus_usbrst {v : Byte} (hbit : v.getLsbD 0 = true) (s : State) :
    (ackStatus v s).cfg = s.cfg ∧ (ackStatus v s).mem = s.mem ∧ (ackStatus v s).sieParity = EpBits.zero
      ∧ (ackStatus v s).queue = [] := by
  rw [ackStatus_eq]
  exact ⟨rfl, rfl, if_pos hbit, if_pos hbit⟩

/-- What a bus reset leaves: the rebuilt slots, an empty queue, every parity of the SIE EVEN, no invocation
(spec/44_usb_dispatcher.md R232, R233). -/
theorem afterUsbrst_frame {s : State} (hbit : (snapshot s).getLsbD 0 = true) :
    (afterUsbrst s).cfg = s.cfg ∧ (afterUsbrst s).mem = (rebuildEndpoints s.cfg.activeEndpoints s).mem
      ∧ (afterUsbrst s).sieParity = EpBits.zero ∧ (afterUsbrst s).queue = [] ∧ (afterUsbrst s).ctsSeq = .idle := by
  have hrebuild : (busResetRebuild s).cfg = s.cfg
      ∧ (busResetRebuild s).mem = (rebuildEndpoints s.cfg.activeEndpoints s).mem := by
    obtain ⟨m, p, t, h⟩ := exists_rebuildEndpoints_eq s.cfg.activeEndpoints s
    rw [busResetRebuild, h]
    exact ⟨rfl, rfl⟩
  obtain ⟨hcfg, hmem, hsie, hqueue⟩ := ackStatus_usbrst hbit (busResetRebuild s)
  exact ⟨hcfg.trans hrebuild.1, hmem.trans hrebuild.2, hsie, hqueue, rfl⟩

theorem Tied.usbrst {s : State} (h : Tied s) (hact : 0 ∈ s.cfg.activeEndpoints) (hbit : (snapshot s).getLsbD 0 = true) :
    Tied (afterUsbrst s) := by
  obtain ⟨hcfg, hmem, hsie, hqueue, hseq⟩ := afterUsbrst_frame hbit
  obtain ⟨hpar, -, htrace⟩ := afterUsbrst_trackers s
  obtain ⟨hcanon, hrebuilt, hkept⟩ := rebuildEndpoints_spec s.cfg.activeEndpoints h.canonical
  have hcfg' := rebuildEndpoints_cfg s.cfg.activeEndpoints s
  have hget (e : Endpoint) (d : Dir) := (get_rebuildEndpoints s.cfg.activeEndpoints s e d).1
  rw [← hpar] at hget
  have hsame (e : Endpoint) (d : Dir) (p : Bit) := sameSlot_of_mem hmem (hcfg.trans hcfg'.symm) e d p
  have hslots (e : Endpoint) (he : e ∈ s.cfg.activeEndpoints) : SlotsRebuilt (afterUsbrst s) e :=
    (hrebuilt e he).congr (hcfg.trans hcfg'.symm) (hsame e)
  have hcanon' := memoryCanonical_congr hmem (hcfg.trans hcfg'.symm) hcanon
  have hothers (e : Endpoint) (he : e ∉ s.cfg.activeEndpoints) (d : Dir) (p : Bit) : SameSlot s (afterUsbrst s) e d p :=
    (hkept e d p he).trans (hsame e d p)
  generalize afterUsbrst s = t at *
  have huntouched (e : Endpoint) (he : e.val < s.cfg.numEndpoints) (hin : e ∉ s.cfg.activeEndpoints) : Untouched t e := by
    intro d
    obtain ⟨hfree, hzero, -⟩ := h.inactive e he hin d
    refine ⟨fun p => (hothers e hin d p).free.trans (hfree p), ?_, ?_⟩
    · rw [hget, if_neg hin, hzero]
    · rw [hsie, EpBits.get_zero]
  have hrx0 : t.parity.get 0 .rx = 0#1 := by rw [hget, if_pos hact]
  have hun : unhandled t = [] := by rw [unhandled, hseq, hqueue]
  refine ⟨hcanon', ?_, hcfg ▸ h.buffersApart, ?_, ?_, htrace ▸ h.rearms, ?_, fun e he => ?_, fun e he hin => ?_⟩
  · rw [InvocationSound, hseq]
    trivial
  · refine armed_of_cases hcfg h.armed fun e he p => ?_
    by_cases hin : e ∈ s.cfg.activeEndpoints
    · exact .inr (.inr ⟨hin, hcfg ▸ (hslots e hin).receiveBuf p, (hslots e hin).receiveCtl p⟩)
    · exact .inl (hothers e hin .rx p)
  · rw [hun, hsie, EpBits.get_zero, hrx0]
    exact ⟨rfl, Nat.zero_le _, nofun⟩
  · rw [hrx0, htrace]
    rfl
  · have hzero : t.parity.get e .tx = 0#1 ∧ ∀ p, slotFree t e .tx p = true := by
      by_cases hin : e ∈ s.cfg.activeEndpoints
      · exact ⟨by rw [hget, if_pos hin], (hslots e hin).transmit⟩
      · obtain ⟨hfree, hzero, -⟩ := huntouched e (hcfg ▸ he) hin .tx
        exact ⟨hzero, hfree⟩
    rw [transmitTracked_iff, hzero.1, hsie, EpBits.get_zero]
    exact transmitTied_of_free hzero.2
  · exact huntouched e (hcfg ▸ he) (hcfg ▸ hin)

/-- A condition still to be handled was asserted when the invocation was entered. -/
theorem snapshot_of_rest {rest st : Byte} (h : rest &&& ~~~st = 0#8) (hbit : rest.getLsbD 0 = true) :
    st.getLsbD 0 = true := by
  have hz := congrArg (BitVec.getLsbD · 0) h
  simpa [hbit] using hz

/-- Every row of the CTS, in the place where it is found. -/
theorem Tied.row {s t : State} {i : Instr} (hq : QueueSound s) (h : Tied s) (hact : 0 ∈ s.cfg.activeEndpoints)
    {st rest : Byte} {ph : CtsPhase} (hseq : s.ctsSeq = .inInvocation st rest ph) (hat : RowAt s rest ph i)
    (hrow : RowDid s i t) : Tied t := by
  cases hrow with
  | condition hi v hv hs hf =>
    obtain ⟨rfl, -⟩ := hat.selected hi
    refine (h.still hs).condition hv ?_
    rw [unhandled, hs.ctsSeq, hseq]
  | tokdne =>
    obtain ⟨rfl, hcond⟩ := hat.selected rfl
    exact h.tokdne hseq ((decodeCond_spec hcond).2.2 rfl)
  | usbrst =>
    obtain ⟨rfl, hcond⟩ := hat.selected rfl
    have hinv := h.invocation
    unfold InvocationSound at hinv
    rw [hseq] at hinv
    refine h.usbrst hact ?_
    rw [snapshot, hseq]
    exact snapshot_of_rest hinv.1 ((decodeCond_spec hcond).2.1 rfl)
  | setup p packet =>
    obtain rfl := hat.rearms ⟨p, .inl rfl⟩
    obtain ⟨r, q, hh⟩ := exists_handles hq h hseq hat
    obtain ⟨hr, rfl⟩ := hh.rearms p (.inl rfl)
    exact (h.still (t := { s with setup := packet }) { Still.refl s with }).setup hact hh.queue hr hseq
  | out p =>
    obtain rfl := hat.rearms ⟨p, .inr rfl⟩
    obtain ⟨r, q, hh⟩ := exists_handles hq h hseq hat
    obtain ⟨hr, rfl⟩ := hh.rearms p (.inr rfl)
    exact h.out hact hh.queue hh.unhandled hr
  | handled hi hsetup hout hsend => exact h.handled hq hact hseq hat hi hsetup hout hsend
  | fault f hsend => exact (h.sends hact hsend).1.raise f

/-! ## Every step -/

/-- Entering the invocation takes the conditions asserted as they are: TOKDNE among them only while a record is queued. -/
theorem Tied.enter {s : State} (hq : QueueSound s) (h : Tied s) : Tied (ctsEnter s) := by
  unfold ctsEnter
  split
  · have hun : unhandled (enterInvocation s) = unhandled s := by rw [unhandled, unhandled, ‹s.ctsSeq = .idle›]; rfl
    refine h.moved ⟨rfl, rfl, rfl, rfl, sameHandoffs_append (added := []) rfl _⟩ ?_ (hun ▸ h.receive)
    refine ⟨BitVec.and_not_self _, fun hbit hnil => ?_, fun hne => absurd rfl hne⟩
    obtain ⟨h3, -⟩ := (queueSound_iff s).1 hq
    have hnil' : s.queue = [] := hnil
    rw [hnil'] at h3
    have hbit' : s.intStatus[3] = true := hbit
    rw [h3] at hbit'
    cases hbit'
  · exact h

theorem ctsEnter_cfg (s : State) : (ctsEnter s).cfg = s.cfg := by
  unfold ctsEnter
  split <;> rfl

/-- Settles O57: the trackers move with the slots, the CTS's by a Submit or a Rearm and the SIE's by a completion, and the
records queued between the two account for the difference; a bus reset starts all of it again. -/
theorem stepKeepsPingPongAlternation : Obligations.StepKeepsPingPongAlternation := by
  intro s t hstep
  obtain ⟨hok, u, hs, hf, -, hfetch, ⟨c, i, hfound, hdec, hi, hx⟩ | hmove⟩ := step_did hstep
  · have hrow := exec_rowDid hi hx
    have hact : 0 ∈ (ctsEnter u).cfg.activeEndpoints := by
      rw [ctsEnter_cfg, hs.cfg]
      exact (endpoints_of_configOk hok).2.1
    have hquiet := hs.quietly.trans (quietly_ctsEnter u)
    refine ⟨fun hpp => pingPong_row hact hrow (pingPong_of_quietly hquiet hpp), fun htracked => ?_, ?_⟩
    · obtain ⟨hq, htied⟩ := (tracked_iff s).1 htracked
      have hqu := queueSound_of_still hs hf hq
      obtain ⟨st, rest, ph, hseq, hat⟩ := rowAt_of_ctsFetch hfound hdec
      exact (tracked_iff t).2 ⟨queueSound_row hrow (queueSound_ctsEnter hqu),
        ((htied.still hs).enter hqu).row (queueSound_ctsEnter hqu) hact hseq hat hrow⟩
    · exact togglesGoOn_row hact hquiet hrow ⟨c, hfetch ▸ hfound, hdec⟩
  · have hquiet := hs.quietly.trans (quietly_of_moveDid hmove)
    refine ⟨pingPong_of_quietly hquiet, fun htracked => ?_, (togglesRun_of_quietly hquiet).goOn⟩
    obtain ⟨hq, htied⟩ := (tracked_iff s).1 htracked
    exact (tracked_iff t).2 ⟨queueSound_move hmove (queueSound_of_still hs hf hq), (htied.still hs).move hmove⟩

end Sys2Proof.Machine
end

section
/-!
SUPPORT. The parameters, BTE_CFG and INT_ENABLE, and boot's two duties (spec/10_state.md R20, R24, R32;
spec/70_reset_and_hazards.md R292, R293; log 32): only boot's own two events write BTE_CFG or an arbitrary mask, and what
every other event leaves of boot's marks.
-/

namespace Sys2Proof.Machine

open Sys2Proof Sys2Proof.Safety

/-- `t` has the parameters, BTE_CFG and boot's marks of `s`, and its INT_ENABLE or the full mask (R233). -/
structure SameBoot (s t : State) : Prop where
  cfg : t.cfg = s.cfg
  bteDone : t.bootBteDone = s.bootBteDone
  intDone : t.bootIntDone = s.bootIntDone
  bteCfg : t.bteCfg = s.bteCfg
  intEnable : t.intEnable = s.intEnable ∨ t.intEnable = 0x9F#8

theorem SameBoot.refl (s : State) : SameBoot s s := ⟨rfl, rfl, rfl, rfl, .inl rfl⟩

theorem SameBoot.of_kept {s t : State} (h : Kept s t) (hb : t.bteCfg = s.bteCfg)
    (hi : t.intEnable = s.intEnable ∨ t.intEnable = 0x9F#8) : SameBoot s t := by
  obtain ⟨hcfg, -, hbte, hint, -⟩ := h
  exact ⟨hcfg, hbte, hint, hb, hi⟩

/-! ## The turns of the BTE -/

theorem doMicro_bteCfg (m : Micro) (s : State) : (doMicro m s).bteCfg = s.bteCfg := by
  cases m with
  | sample => rw [doMicro, sampleDin_eq]
  | _ => rfl

theorem runMicro_bteCfg (m : Micro) (s : State) : (runMicro m s).bteCfg = s.bteCfg := by
  unfold runMicro
  split
  · exact doMicro_bteCfg ..
  · exact doMicro_bteCfg ..

theorem runMicros_bteCfg (ms : List Micro) (s : State) : (runMicros ms s).bteCfg = s.bteCfg := by
  induction ms generalizing s with
  | nil => rfl
  | cons m ms ih => rw [runMicros, ih, runMicro_bteCfg]

theorem finish_bteCfg (op : ReqOp) (n : Nat) (rest : List Micro) (tail : Tail) (s : State) :
    (finish op n rest tail s).bteCfg = s.bteCfg := by
  induction n generalizing rest tail s with
  | zero => exact runMicros_bteCfg rest s
  | succ n ih =>
    rw [finish]
    split
    · exact runMicros_bteCfg rest s
    · rw [ih, runMicros_bteCfg]

theorem resume_bteCfg (s : State) : (resume s).bteCfg = s.bteCfg := by
  unfold resume
  split
  · rfl
  · exact finish_bteCfg ..

theorem advance_bteCfg (s : State) : (advance s).bteCfg = s.bteCfg := by
  unfold advance
  split
  · rfl
  split
  · rfl
  dsimp only
  split
  · split
    · exact doMicro_bteCfg ..
    · rfl
  · exact doMicro_bteCfg ..

theorem exec_request_bteCfg {i : Instr} {s t : State} (hi : isRequest i = true) (h : exec i s = .next t) :
    t.bteCfg = s.bteCfg := by
  obtain ⟨op, hop⟩ := exists_reqOpOf hi
  rw [exec_of_reqOpOf hop, runRequest] at h
  split at h
  · cases h
    exact resume_bteCfg _
  · cases h
    rfl

theorem sameBoot_bteTurn {s t : State} (h : bteTurn s = .next t) : SameBoot s t := by
  refine .of_kept (bteTurn_kept h) ?_ (.inl (sameFlags_of_withCts (withCts_of_bteTurn h)).intEnable)
  obtain rfl | rfl | ⟨c, i, hf, hd, hx⟩ := bteTurn_next h
  · rfl
  · exact resume_bteCfg s
  · exact exec_request_bteCfg (isRequest_of_bteFetch hf hd) hx

theorem sameBoot_bteMicroTurn {s t : State} (h : bteMicroTurn s = .next t) : SameBoot s t := by
  refine .of_kept (bteMicroTurn_kept h) ?_ (.inl (sameFlags_of_withCts (withCts_of_bteMicroTurn h)).intEnable)
  obtain rfl | rfl | ⟨op, rfl⟩ := bteMicroTurn_next h
  · rfl
  · exact advance_bteCfg s
  · exact accept_bteCfg op s

/-! ## The turn of the CTS -/

theorem intEnable_sends {s t : State} (h : Sends s t) : t.intEnable = s.intEnable := by
  induction h with
  | refl => rfl
  | still _ _ hf ih => exact hf.intEnable.trans ih
  | submit _ ptr n _ ih => exact (afterSubmit_intEnable 0 ptr n _).trans ih

theorem afterUsbrst_intEnable (s : State) : (afterUsbrst s).intEnable = 0x9F#8 := by
  have hrebuild : (busResetRebuild s).intEnable = 0x9F#8 := by
    rw [busResetRebuild, writeIntEnable]
    exact BitVec.and_self
  rw [← hrebuild]
  exact ackStatus_intEnable (snapshot s) (busResetRebuild s)

theorem tokenDone_intEnable (s : State) : (tokenDone s).intEnable = s.intEnable := rfl

theorem endDataStage_intEnable (s : State) : (endDataStage s).intEnable = s.intEnable := rfl

/-- Only the bus-reset rebuild writes INT_ENABLE, to the full mask (R233). -/
theorem intEnable_row {s t : State} {i : Instr} (h : RowDid s i t) : t.intEnable = s.intEnable ∨ t.intEnable = 0x9F#8 := by
  cases h with
  | condition _ v hv hs hf =>
    rw [conditionDone_intEnable, ackStatus_intEnable]
    exact .inl hf.intEnable
  | tokdne => exact .inl (callPhase_intEnable ..)
  | usbrst => exact .inr (afterUsbrst_intEnable s)
  | setup p packet => exact .inl (by simp [callClassify, rearm_eq])
  | out p =>
    rw [tokenDone_intEnable, endDataStage_intEnable, rearm_eq]
    exact .inl rfl
  | handled _ _ _ hsend =>
    rw [tokenDone_intEnable]
    exact .inl (intEnable_sends hsend)
  | fault f hsend =>
    rw [raise_intEnable]
    exact .inl (intEnable_sends hsend)

theorem bteCfg_of_withBte {s t : State} (h : withBte s t = t) : t.bteCfg = s.bteCfg := by
  rw [← h]
  rfl

theorem sameBoot_ctsTurn {s t : State} (h : ctsTurn s = .next t) : SameBoot s t := by
  have hkept := ctsTurn_kept h
  obtain rfl | ⟨c, i, hf, hd, hx⟩ := ctsTurn_next h
  · exact .refl _
  have hi := isRequest_of_ctsFetch hf hd
  have henter : (ctsEnter s).bteCfg = s.bteCfg ∧ (ctsEnter s).intEnable = s.intEnable := by
    unfold ctsEnter
    split <;> exact ⟨rfl, rfl⟩
  refine .of_kept hkept ?_ ?_
  · exact (bteCfg_of_withBte ((ctsOperationsLeaveTheBteAlone i s (ctsEnter s) hi).2 t hx)).trans henter.1
  · rw [← henter.2]
    exact intEnable_row (exec_rowDid hi hx)

/-! ## The moves of the environment -/

theorem SameBoot.reply {s t : State} (h : SameBoot s t) (kind : BitVec 4) (e : Endpoint) (r : Reply) :
    SameBoot s (reply kind e r t) := { h with }

theorem SameBoot.setCondition {s t : State} (h : SameBoot s t) (v : Byte) : SameBoot s (setCondition v t) := { h with }

theorem sameBoot_receive {kind : BitVec 4} {e : Endpoint} {tog : Bit} {bytes : List Byte} {s t : State}
    (h : receive kind e tog bytes s = .next t) : SameBoot s t := by
  have hkept := kept_receive h
  simp only [receive] at h
  split at h
  · cases h
  · rw [Host.Outcome.next.injEq] at h
    subst h
    refine .of_kept hkept ?_ (.inl ?_) <;> split <;> simp [Machine.reply, clearEp0Stall]

theorem sameBoot_sent (e : Endpoint) (s : State) : SameBoot s (sent e s) := by
  refine ⟨?_, ?_, ?_, ?_, .inl ?_⟩ <;> simp [sent]

theorem sameBoot_hostSetup {addr : BitVec 7} {e : Endpoint} {p : Setup} {s t : State}
    (h : hostSetup addr e p s = .next t) : SameBoot s t := by
  simp only [hostSetup] at h
  split at h
  · exact sameBoot_receive h
  · cases h
    exact (SameBoot.refl s).reply ..

theorem sameBoot_hostOut {addr : BitVec 7} {e : Endpoint} {tog : Bit} {bytes : List Byte} {s t : State}
    (h : hostOut addr e tog bytes s = .next t) : SameBoot s t := by
  simp only [hostOut] at h
  split at h
  · cases h
    exact (SameBoot.refl s).reply ..
  split at h
  · cases h
    exact ((SameBoot.refl s).setCondition _).reply ..
  split at h
  · cases h
    exact (SameBoot.refl s).reply ..
  split at h
  · cases h
    exact ((SameBoot.refl s).setCondition _).reply ..
  split at h
  · cases h
    exact (SameBoot.refl s).reply ..
  · exact sameBoot_receive h

theorem sameBoot_hostIn {addr : BitVec 7} {e : Endpoint} {acked : Bool} {s t : State}
    (h : hostIn addr e acked s = .next t) : SameBoot s t := by
  simp only [hostIn] at h
  split at h
  · cases h
    exact (SameBoot.refl s).reply ..
  split at h
  · cases h
    split
    · exact ((SameBoot.refl s).setCondition _).reply ..
    · exact (SameBoot.refl s).reply ..
  split at h
  · cases h
    exact (SameBoot.refl s).reply ..
  · cases h
    split
    · exact (sameBoot_sent e s).reply ..
    · exact (SameBoot.refl s).reply ..

theorem sameBoot_sieBufferWrite {e : Endpoint} {p : Bit} {off : Nat} {b : Byte} {s t : State}
    (h : sieBufferWrite e p off b s = .next t) : SameBoot s t := by
  simp only [sieBufferWrite] at h
  split at h
  · split at h
    · cases h
    · cases h
      exact { SameBoot.refl s with }
  · cases h

/-! ## Boot's two duties -/

theorem bootBte_eq {v : BitVec 2} {s : State} (h : busy s = 0#1) :
    bootBte v s = if s.bootBteDone then .refused .bootOver else .next { s with
      bteCfg := v, bootBteDone := true, dclk := 1#1, dout := 0#1
      bkpt := ~~~(v.extractLsb' 0 1), rst := ~~~(v.extractLsb' 1 1) } := by
  rw [bootBte, if_neg (by rw [h]; decide)]
  rfl

theorem bootIntEnable_eq (v : Byte) (s : State) :
    bootIntEnable v s = if s.bootIntDone then .refused .bootOver
      else if v.getLsbD 0 = false then .refused .bootMaskTooSmall
      else .next { s with
        intEnable := v &&& 0x9F#8, bootIntDone := true, usbTrace := .write .intEnable v :: s.usbTrace } := rfl

/-- What an event leaves of the parameters and of boot's marks, `s` being the state it is applied to. -/
inductive BootDid (s t : State) : Event → Prop
  | other {ev : Event} (hbte : ∀ v, ev ≠ .bootBte v) (hint : ∀ v, ev ≠ .bootIntEnable v) (h : SameBoot s t) : BootDid s t ev
  | bte {v : BitVec 2} (hnot : s.bootBteDone = false) (hdone : t.bootBteDone = true) (hcfg : t.cfg = s.cfg)
      (hint : t.bootIntDone = s.bootIntDone) (hen : t.intEnable = s.intEnable) : BootDid s t (.bootBte v)
  | int {v : Byte} (hnot : s.bootIntDone = false) (hdone : t.bootIntDone = true) (hcfg : t.cfg = s.cfg)
      (hbte : t.bootBteDone = s.bootBteDone) (hreg : t.bteCfg = s.bteCfg) : BootDid s t (.bootIntEnable v)

theorem bootDid_bootBte {v : BitVec 2} {s t : State} (h : bootBte v s = .next t) : BootDid s t (.bootBte v) := by
  rw [bootBte] at h
  split at h
  · cases h
  split at h
  · cases h
  · cases h
    exact .bte (Bool.not_eq_true _ ▸ ‹¬ s.bootBteDone = true›) rfl rfl rfl rfl

theorem bootDid_bootIntEnable {v : Byte} {s t : State} (h : bootIntEnable v s = .next t) :
    BootDid s t (.bootIntEnable v) := by
  rw [bootIntEnable] at h
  split at h
  · cases h
  split at h
  · cases h
  · cases h
    exact .int (Bool.not_eq_true _ ▸ ‹¬ s.bootIntDone = true›) rfl rfl rfl rfl

theorem applyEvent_bootDid {ev : Event} {s t : State} (h : applyEvent ev s = .next t) : BootDid s t ev := by
  cases ev with
  | bte => exact .other nofun nofun (sameBoot_bteTurn h)
  | bteMicro => exact .other nofun nofun (sameBoot_bteMicroTurn h)
  | cts => exact .other nofun nofun (sameBoot_ctsTurn h)
  | request bytes =>
    simp only [applyEvent, issueRequest] at h
    split at h <;> cases h
    exact .other nofun nofun { SameBoot.refl s with }
  | writeReq bytes =>
    simp only [applyEvent, writeRequest] at h
    split at h
    · cases h
    split at h <;> cases h
    exact .other nofun nofun { SameBoot.refl s with }
  | bootBte v => exact bootDid_bootBte h
  | bootIntEnable v => exact bootDid_bootIntEnable h
  | resetSense =>
    cases h
    exact .other nofun nofun { SameBoot.refl s with }
  | tick k =>
    cases h
    exact .other nofun nofun { SameBoot.refl s with }
  | busReset =>
    cases h
    exact .other nofun nofun { SameBoot.refl s with }
  | sof =>
    cases h
    exact .other nofun nofun ((SameBoot.refl s).setCondition _)
  | sleep =>
    cases h
    exact .other nofun nofun ((SameBoot.refl s).setCondition _)
  | busError =>
    cases h
    exact .other nofun nofun ((SameBoot.refl s).setCondition _)
  | hostSetup addr e p => exact .other nofun nofun (sameBoot_hostSetup h)
  | hostOut addr e tog bytes => exact .other nofun nofun (sameBoot_hostOut h)
  | hostIn addr e acked => exact .other nofun nofun (sameBoot_hostIn h)
  | sieBuffer e p off b => exact .other nofun nofun (sameBoot_sieBufferWrite h)

/-! ## Every step -/

/-- A step is a turn that takes no event, the script being empty or its request waiting, or applies the script's event. -/
theorem step_bootDid {s t : State} (h : step s = .next t) :
    (SameBoot s t ∧ (s.script = [] ∨ ∃ bytes rest, s.script = .request bytes :: rest ∧ requestWaits s = true))
      ∨ ∃ ev rest, s.script = ev :: rest ∧ (∀ bytes, ev = .request bytes → requestWaits s = false)
        ∧ BootDid (afterBoot ev { s with script := rest }) t ev := by
  unfold step stepMachine at h
  split at h <;> obtain ⟨-, -, hmove⟩ := guarded_next h
  · refine .inl ⟨?_, .inl ‹_›⟩
    unfold blockTurn at hmove
    split at hmove
    · exact sameBoot_ctsTurn hmove
    · exact sameBoot_bteTurn hmove
  · rename_i ev rest hscript
    unfold eventMove at hmove
    split at hmove
    · rename_i bytes
      split at hmove
      · exact .inl ⟨sameBoot_bteTurn hmove, .inr ⟨_, _, hscript, ‹_›⟩⟩
      · exact .inr ⟨_, _, hscript, fun _ _ => Bool.not_eq_true _ ▸ ‹¬ requestWaits s = true›,
          applyEvent_bootDid (ev := .request bytes) hmove⟩
    · rename_i hnot
      exact .inr ⟨_, _, hscript, fun bytes heq => absurd heq (hnot bytes), applyEvent_bootDid hmove⟩

theorem requestWaits_iff (s : State) : requestWaits s = false ↔ busy s = 0#1 ∧ s.reqValid = false := by
  have bit : ∀ b : Bit, ¬ b = 1#1 ↔ b = 0#1 := by decide
  simp [requestWaits, bit]

/-- What is done stays done, and what is written once is not written again. -/
theorem duties_kept {s t : State} (h : step s = .next t) :
    t.cfg = s.cfg ∧ (s.bootBteDone = true → t.bootBteDone = true ∧ t.bteCfg = s.bteCfg)
      ∧ (s.bootIntDone = true → t.bootIntDone = true ∧ (t.intEnable = s.intEnable ∨ t.intEnable = 0x9F#8)) := by
  obtain ⟨⟨hcfg, hbte, hint, hreg, hen⟩, -⟩ | ⟨ev, rest, -, -, hdid⟩ := step_bootDid h
  · exact ⟨hcfg, fun hd => ⟨hbte.trans hd, hreg⟩, fun hd => ⟨hint.trans hd, hen⟩⟩
  · have marked {b : Bool} (hd : b = true) : (b || endsBoot ev) = true := by rw [hd, Bool.true_or]
    cases hdid with
    | other _ _ hsame =>
      obtain ⟨hcfg, hbte, hint, hreg, hen⟩ := hsame
      exact ⟨hcfg, fun hd => ⟨hbte.trans (marked hd), hreg⟩, fun hd => ⟨hint.trans (marked hd), hen⟩⟩
    | bte hnot hdone hcfg hint hen =>
      exact ⟨hcfg, fun hd => absurd (marked hd) (Bool.eq_false_iff.1 hnot), fun hd => ⟨hint.trans (marked hd), .inl hen⟩⟩
    | int hnot hdone hcfg hbte hreg =>
      exact ⟨hcfg, fun hd => ⟨hbte.trans (marked hd), hreg⟩, fun hd => absurd (marked hd) (Bool.eq_false_iff.1 hnot)⟩

/-- Settles O50: boot's registers and marks are written by its own two events alone, beside the rebuild's full mask, and
the marks by the events that boot comes before. -/
theorem parametersNeverChange : Obligations.ParametersNeverChange := by
  refine ⟨fun s t h => duties_kept h, fun s t h => ?_, fun v s h => ?_, fun v s h => bootBte_eq h,
    fun v s => bootIntEnable_eq v s⟩
  · obtain ⟨⟨-, hbte, hint, -, -⟩, hscript | ⟨bytes, rest, hscript, hwaits⟩⟩ | ⟨ev, rest, hscript, hreq, hdid⟩ :=
      step_bootDid h
    · rw [hscript, hbte, hint]
      rfl
    · have hnot : ¬ (busy s = 0#1 ∧ s.reqValid = false) := by
        rw [← requestWaits_iff, hwaits]
        decide
      rw [hscript, hbte, hint, List.head?_cons]
      exact (if_neg hnot).symm
    · rw [hscript, List.head?_cons]
      cases hdid with
      | bte _ hdone _ hint _ =>
        rw [hdone, hint]
        simp [afterBoot, endsBoot]
      | int _ hdone _ hbte _ =>
        rw [hdone, hbte]
        simp [afterBoot, endsBoot]
      | other hnb hni hsame =>
        rw [hsame.bteDone, hsame.intDone]
        cases ev with
        | bootBte v => exact absurd rfl (hnb v)
        | bootIntEnable v => exact absurd rfl (hni v)
        | request bytes =>
          dsimp only
          rw [if_pos ((requestWaits_iff s).1 (hreq bytes rfl))]
          simp [afterBoot, endsBoot]
        | _ => simp [afterBoot, endsBoot]
  · exact if_pos h

end Sys2Proof.Machine
end

section
/-!
SUPPORT. What one step performs: where each sequencer looks for its next operation, and which turn or move the head of the
script asks for (spec/10_state.md R21; spec/41_bit_transport.md R140; spec/44_usb_dispatcher.md R231; log 5, 6, 18, 26).
-/

namespace Sys2Proof.Machine

open Sys2Proof Sys2Proof.Safety

/-! ## Where the sequencers look -/

theorem bteFetch_of_idle {s : State} (h : s.bteSeq = .idle) :
    bteFetch s = if s.reqValid then some (.req s.reqBuf) else none := by rw [bteFetch, h]

theorem bteFetch_of_running {s : State} {op : ReqOp} {left : List Micro} {tail : Tail}
    (h : s.bteSeq = .running op left tail) : bteFetch s = none := by rw [bteFetch, h]

/-- A request the BTE finds is at the port of an idle BTE. -/
theorem idle_of_bteFetch {s : State} {c : Code} (h : bteFetch s = some c) : s.bteSeq = .idle ∧ s.reqValid = true := by
  cases hb : s.bteSeq with
  | running op left tail =>
    rw [bteFetch_of_running hb] at h
    cases h
  | idle =>
    rw [bteFetch_of_idle hb] at h
    split at h
    · exact ⟨rfl, ‹_›⟩
    · cases h

/-- Where the CTS looks in each phase of an invocation (spec/44_usb_dispatcher.md R231, R236;
spec/43_ep0_control.md R192). -/
def codeAt (s : State) (rest : Byte) : CtsPhase → Code
  | .select => .cond rest
  | .token => .token (tokenCode s)
  | .request => .setup s.setup.toBytes

/-- Inside an invocation, without a fault: what the CTS finds, and that it enters nothing. -/
theorem ctsFetch_of_phase {s : State} {st rest : Byte} {ph : CtsPhase} (hf : s.faults = [])
    (hseq : s.ctsSeq = .inInvocation st rest ph) :
    ctsFetch s = some (codeAt s rest ph) ∧ ctsEnter s = s := by
  have hstopped : ctsStopped s = false := by rw [ctsStopped, hf]; rfl
  constructor
  · rw [ctsFetch, hstopped, hseq]
    cases ph <;> rfl
  · rw [ctsEnter, hseq]

/-! ## The turns -/

theorem bteTurn_of_running {s : State} {op : ReqOp} {left : List Micro} {tail : Tail}
    (h : s.bteSeq = .running op left tail) : bteTurn s = .next (resume s) := by rw [bteTurn, h]

theorem bteMicroTurn_of_running {s : State} {op : ReqOp} {left : List Micro} {tail : Tail}
    (h : s.bteSeq = .running op left tail) : bteMicroTurn s = .next (advance s) := by rw [bteMicroTurn, h]

/-- An idle BTE without a request waits. -/
theorem bteTurn_of_idle {s : State} (h : s.bteSeq = .idle) (hreq : s.reqValid = false) : bteTurn s = .next s := by
  have hfetch : bteFetch s = none := by rw [bteFetch_of_idle h, hreq]; rfl
  simp only [bteTurn, h, hfetch]

theorem blockTurn_of_ctsFetch {s : State} {c : Code} (h : ctsFetch s = some c) : blockTurn s = ctsTurn s := by
  rw [blockTurn, h]
  rfl

theorem blockTurn_of_none {s : State} (h : ctsFetch s = none) : blockTurn s = bteTurn s := by
  rw [blockTurn, h]
  rfl

/-! ## The script -/

/-- An event that boot does not come before leaves boot's marks. -/
theorem afterBoot_of_turn {ev : Event} (h : endsBoot ev = false) (s : State) : afterBoot ev s = s := by
  rw [afterBoot, h, Bool.or_false, Bool.or_false]

theorem eventMove_of_not_request {ev : Event} (h : ∀ bytes, ev ≠ .request bytes) (rest : List Event) (s : State) :
    eventMove ev rest s = applyEvent ev (afterBoot ev { s with script := rest }) := by
  cases ev with
  | request bytes => exact absurd rfl (h bytes)
  | _ => rfl

/-- A request waits at the head of the script while an earlier one is pending or running. -/
theorem eventMove_request_of_waits {s : State} (h : requestWaits s = true) (bytes : List Byte) (rest : List Event) :
    eventMove (.request bytes) rest s = bteTurn s := by
  rw [eventMove, if_pos h]

theorem requestWaits_of_running {s : State} {op : ReqOp} {left : List Micro} {tail : Tail}
    (h : s.bteSeq = .running op left tail) : requestWaits s = true := by
  rw [requestWaits, busy, h]
  rfl

theorem eventMove_request_of_idle {s : State} (h : s.bteSeq = .idle) (hreq : s.reqValid = false) (bytes : List Byte)
    (rest : List Event) : eventMove (.request bytes) rest s = if bytes.length ≤ 255 then .next { s with
        script := rest, reqBuf := bytes, reqValid := true, bootBteDone := true, bootIntDone := true }
      else .refused .requestTooLong := by
  have hwaits : ¬ requestWaits s = true := by
    rw [Bool.not_eq_true, requestWaits_iff, busy, h]
    exact ⟨rfl, hreq⟩
  rw [eventMove, if_neg hwaits, issueRequest, afterBoot]
  simp only [endsBoot, Bool.or_true]

theorem guarded_of_ok {s : State} (hc : configOk s.cfg = true) (hi : s.intStatus &&& 0x60#8 = 0#8)
    (move : Host.Outcome State Fault Refusal) : guarded s move = move := by
  rw [guarded, if_neg (by rw [hc]; decide), if_neg (not_not.2 hi)]

theorem step_of_nil {s : State} (hc : configOk s.cfg = true) (hi : s.intStatus &&& 0x60#8 = 0#8) (h : s.script = []) :
    step s = blockTurn s := by
  simp only [step, stepMachine, h]
  exact guarded_of_ok hc hi _

theorem step_of_cons {s : State} (hc : configOk s.cfg = true) (hi : s.intStatus &&& 0x60#8 = 0#8) {ev : Event}
    {rest : List Event} (h : s.script = ev :: rest) : step s = eventMove ev rest s := by
  simp only [step, stepMachine, h]
  exact guarded_of_ok hc hi _

/-- A step that takes a turn from the script. -/
theorem step_of_turn {s : State} (hc : configOk s.cfg = true) (hi : s.intStatus &&& 0x60#8 = 0#8) {ev : Event}
    {rest : List Event} (h : s.script = ev :: rest) (hev : endsBoot ev = false) :
    step s = applyEvent ev { s with script := rest } := by
  have hne (bytes : List Byte) : ev ≠ .request bytes := by
    rintro rfl
    cases hev
  rw [step_of_cons hc hi h, eventMove_of_not_request hne, afterBoot_of_turn hev]

/-- Settles O8: each clause is the equation of the turn or the move the script and the two sequencers select. -/
theorem stepRunsTheDecodedOperation : Obligations.StepRunsTheDecodedOperation := by
  refine ⟨fun s => ⟨bteFetch_of_idle, fun st rest hf => ⟨fun h => ctsFetch_of_phase hf h, fun h => ctsFetch_of_phase hf h,
    fun h => ctsFetch_of_phase hf h⟩⟩, fun s hc hi => ⟨?_, ?_, ?_, ?_, ?_, ?_, ?_, ?_, ?_, ?_, ?_⟩⟩
  · intro c i hs hf hd
    rw [step_of_nil hc hi hs, blockTurn_of_ctsFetch hf, ctsTurn_of_fetch hf hd]
  · intro c i hs hnone hf hd
    rw [step_of_nil hc hi hs, blockTurn_of_none hnone, bteTurn_of_fetch hf hd]
  · intro op left tail hs hnone hrun
    rw [step_of_nil hc hi hs, blockTurn_of_none hnone, bteTurn_of_running hrun]
  · intro hs hnone hidle hreq
    rw [step_of_nil hc hi hs, blockTurn_of_none hnone, bteTurn_of_idle hidle hreq]
  · intro c i rest hs hf hd
    rw [step_of_turn hc hi hs rfl]
    exact ctsTurn_of_fetch (s := { s with script := rest }) hf hd
  · intro c i rest hs hf hd
    rw [step_of_turn hc hi hs rfl]
    exact bteTurn_of_fetch (s := { s with script := rest }) hf hd
  · intro c i bytes rest hs hf hd
    obtain ⟨hidle, hreq⟩ := idle_of_bteFetch hf
    have hwaits : requestWaits s = true := by rw [requestWaits, hreq, Bool.or_true]
    rw [step_of_cons hc hi hs, eventMove_request_of_waits hwaits, bteTurn_of_fetch hf hd]
  · intro op left tail bytes rest hs hrun
    rw [step_of_cons hc hi hs, eventMove_request_of_waits (requestWaits_of_running hrun), bteTurn_of_running hrun]
  · intro op left tail rest hrun
    constructor
    · intro hs
      rw [step_of_turn hc hi hs rfl]
      exact bteTurn_of_running (s := { s with script := rest }) hrun
    · intro hs
      rw [step_of_turn hc hi hs rfl]
      exact bteMicroTurn_of_running (s := { s with script := rest }) hrun
  · intro bytes rest hs hidle hreq
    rw [step_of_cons hc hi hs, eventMove_request_of_idle hidle hreq]
  · intro ev rest hs hne
    rw [step_of_cons hc hi hs, eventMove_of_not_request hne, afterBoot]

end Sys2Proof.Machine
end

section
/-!
SUPPORT. The power-on state (spec/10_state.md R49): the BDT reads as zero, since no descriptor stands in it, and every
invariant holds.
-/

namespace Sys2Proof.Machine

open Sys2Proof Sys2Proof.Safety

/-! ## The BDT before anything is written -/

/-- The descriptors stand outside the BDT (spec/20_memory.md R69): there the unwritten memory reads as 0 (log 3). -/
theorem romByte_of_inBdt {c : Params} (hok : configOk c = true) {a : Word} (ha : InBdt c a) : romByte c a = 0#8 := by
  obtain ⟨-, -, -, hdesc⟩ := endpoints_of_configOk hok
  have hnone : c.descTable.findSome? (descByte a) = none := by
    refine List.findSome?_eq_none_iff.2 fun d hd => ?_
    have hout := outside_of_disjoint (hdesc d hd) ha
    rw [descByte]
    exact if_neg (Nat.not_lt.2 hout)
  rw [romByte, hnone]
  rfl

theorem readWord_eq_zero {s : State} {x : Word} (h : ∀ k : Nat, k < 4 → readByte s (x + BitVec.ofNat 32 k) = 0#8) :
    readWord s x = 0#32 := by
  have h0 := h 0 (by omega)
  rw [BitVec.add_zero] at h0
  rw [readWord, h0, h 1 (by omega), h 2 (by omega), h 3 (by omega)]
  rfl

/-- Every slot of a memory nothing has written holds two zero words. -/
theorem slots_of_unwritten {s : State} (hok : configOk s.cfg = true) (hmem : s.mem = []) {e : Endpoint}
    (he : e.val < s.cfg.numEndpoints) (d : Dir) (p : Bit) : slotCtl s e d p = 0#32 ∧ slotBuf s e d p = 0#32 := by
  have byte {k : Nat} (hk : k < 8) : readByte s (slotAddr s.cfg e d p + BitVec.ofNat 32 k) = 0#8 := by
    rw [readByte, hmem]
    exact romByte_of_inBdt hok (inBdt_slot s.cfg he d p hk)
  refine ⟨readWord_eq_zero fun k hk => byte (by omega), readWord_eq_zero fun k hk => ?_⟩
  rw [BitVec.add_assoc, ← BitVec.ofNat_add]
  exact byte (by omega)

/-! ## The reset state -/

theorem configOk_reset : configOk State.reset.cfg = true := by decide +kernel

theorem slots_reset (e : Endpoint) (d : Dir) (p : Bit) :
    slotCtl State.reset e d p = 0#32 ∧ slotBuf State.reset e d p = 0#32 :=
  slots_of_unwritten configOk_reset rfl e.isLt d p

theorem slotFree_reset (e : Endpoint) (d : Dir) (p : Bit) : slotFree State.reset e d p = true :=
  slotFree_of_zero (slots_reset e d p).1

theorem trackers_reset (e : Endpoint) (d : Dir) : State.reset.toggle.get e d = 0#1 ∧ State.reset.parity.get e d = 0#1
    ∧ State.reset.sieParity.get e d = 0#1 := ⟨EpBits.get_zero e d, EpBits.get_zero e d, EpBits.get_zero e d⟩

theorem queueSound_reset : QueueSound State.reset := ⟨rfl, rfl, Nat.zero_le _, rfl, rfl⟩

theorem tied_reset : Tied State.reset where
  canonical := memoryCanonical_reset
  invocation := trivial
  buffersApart := by
    unfold BuffersApart
    decide +kernel
  armed e _ p hown := by
    rw [slotFree_reset] at hown
    cases hown
  receive := ⟨rfl, Nat.zero_le _, nofun⟩
  rearms := trivial
  nextRearm := rfl
  transmit e _ := by
    obtain ⟨-, hpar, hsie⟩ := trackers_reset e .tx
    rw [transmitTracked_iff, hpar, hsie]
    exact transmitTied_of_free (slotFree_reset e .tx)
  inactive e _ _ d := ⟨slotFree_reset e d, (trackers_reset e d).2⟩

theorem pinsSound_reset : PinsSound State.reset := show levels State.reset = idleLevels State.reset by decide

/-- Settles O59: nothing is queued, owed, submitted or armed after power-on, and the pins are idle. -/
theorem resetIsSound : Obligations.ResetIsSound :=
  ⟨configOk_reset, memoryCanonical_reset, queueSound_reset, fun _ => by decide, pinsSound_reset, ⟨trivial, rfl⟩,
    (tracked_iff State.reset).2 ⟨queueSound_reset, tied_reset⟩⟩

/-- Settles O60: the slots by the descriptors' place outside the BDT, the rest as the reset state is written. -/
theorem powerOnResetValues : Obligations.PowerOnResetValues := by
  have epCtl (e : Endpoint) : State.reset.epCtl[e] = 0x00#8 := by
    revert e
    decide
  exact ⟨rfl, rfl, rfl, rfl, rfl, rfl, rfl, rfl, rfl, slots_reset, rfl, rfl, rfl, epCtl, rfl, trackers_reset, rfl, rfl, rfl,
    rfl, rfl, rfl, rfl, rfl⟩

end Sys2Proof.Machine
end

section
/-!
SUPPORT. Which bytes of memory a step can store (spec/20_memory.md R60, R75; spec/45_operation_laws.md R253): a row of the
CTS and a completion store slots, which stand in the BDT, and the SIE's packet bytes are refused where they touch a
descriptor; every one of these stores keeps the canonical form.
-/

namespace Sys2Proof.Machine

open Sys2Proof Sys2Proof.Safety

/-! ## Stores within a region -/

/-- From `s` to `t` only bytes of the region are stored, the parameters stay, and the memory list stays canonical. -/
structure WritesOnly (region : Params → Word → Prop) (s t : State) : Prop where
  cfg : t.cfg = s.cfg
  canonical : MemoryCanonical s → MemoryCanonical t
  outside : MemoryCanonical s → ∀ a, ¬ region s.cfg a → SameByte s t a

section
variable {region : Params → Word → Prop} {s t u : State}

theorem WritesOnly.of_mem (hm : t.mem = s.mem) (hc : t.cfg = s.cfg) : WritesOnly region s t :=
  ⟨hc, memoryCanonical_congr hm hc, fun _ a _ => readByte_congr hm hc a⟩

theorem WritesOnly.refl (s : State) : WritesOnly region s s := .of_mem rfl rfl

theorem WritesOnly.trans (h : WritesOnly region s t) (g : WritesOnly region t u) : WritesOnly region s u where
  cfg := g.cfg.trans h.cfg
  canonical hs := g.canonical (h.canonical hs)
  outside hs a ha := (g.outside (h.canonical hs) a (h.cfg.symm ▸ ha)).trans (h.outside hs a ha)

/-- What follows touches neither memory nor the parameters. -/
theorem WritesOnly.congr (h : WritesOnly region s t) (hm : u.mem = t.mem) (hc : u.cfg = t.cfg) : WritesOnly region s u :=
  h.trans (.of_mem hm hc)

/-- The parameters, so the endpoints with slots, are the same in both states. -/
theorem WritesOnly.hasSlots (h : WritesOnly region s t) {e : Endpoint} (he : e.val < s.cfg.numEndpoints) :
    e.val < t.cfg.numEndpoints := by
  rw [h.cfg]
  exact he

theorem WritesOnly.mono {region' : Params → Word → Prop} (h : WritesOnly region s t)
    (hsub : ∀ a, region s.cfg a → region' s.cfg a) : WritesOnly region' s t :=
  ⟨h.cfg, h.canonical, fun hs a ha => h.outside hs a fun hin => ha (hsub a hin)⟩

/-- The SIE's answer is no part of memory. -/
theorem WritesOnly.reply (h : WritesOnly region s t) (kind : BitVec 4) (e : Endpoint) (r : Reply) :
    WritesOnly region s (reply kind e r t) := h.congr rfl rfl

theorem writesOnly_writeBytes {a : Word} {bs : List Byte} (hin : ∀ x, (x - a).toNat < bs.length → region s.cfg x) :
    WritesOnly region s (writeBytes a bs s) where
  cfg := writeBytes_cfg a bs s
  canonical hs := memoryCanonical_writeBytes hs a bs
  outside hs x hx := readByte_writeBytes_of_outside hs a x bs (Nat.le_of_not_lt fun hlt => hx (hin x hlt))

theorem writesOnly_writeByte {a : Word} (b : Byte) (hin : region s.cfg a) : WritesOnly region s (writeByte a b s) where
  cfg := writeByte_cfg a b s
  canonical hs := memoryCanonical_writeByte hs a b
  outside hs x hx := by
    rw [SameByte, readByte_writeByte hs, if_neg fun heq : x = a => hx (heq ▸ hin)]

end

/-! ## Stores of slots -/

/-- A slot of an endpoint the BDT covers stands in the BDT (spec/30_encoding.md R101). -/
theorem inBdt_of_inSlot {c : Params} {e : Endpoint} (he : e.val < c.numEndpoints) {d : Dir} {p : Bit} {a : Word}
    (ha : InSlot c e d p a) : InBdt c a := by
  have hbyte := inBdt_slot c he d p (k := (a - slotAddr c e d p).toNat) ha
  rwa [BitVec.ofNat_toNat, BitVec.setWidth_eq, add_sub_cancel] at hbyte

section
variable {s : State} {e : Endpoint} (he : e.val < s.cfg.numEndpoints)
include he

theorem writesOnly_writeCtl (d : Dir) (p : Bit) (v : Word) :
    WritesOnly InBdt s (writeWord (slotAddr s.cfg e d p) v s) :=
  writesOnly_writeBytes fun x (hx : _ < 4) => inBdt_of_inSlot he (d := d) (p := p) (by rw [InSlot]; omega)

theorem writesOnly_writeBuf (d : Dir) (p : Bit) (v : Word) :
    WritesOnly InBdt s (writeWord (slotAddr s.cfg e d p + 4#32) v s) :=
  writesOnly_writeBytes fun x (hx : _ < 4) => inBdt_of_inSlot he (d := d) (p := p) (by rw [InSlot]; bv_omega)

theorem writesOnly_writeSlot (d : Dir) (p : Bit) (buf ctl : Word) : WritesOnly InBdt s (writeSlot e d p buf ctl s) := by
  have hbuf := writesOnly_writeBuf he d p buf
  have hctl := writesOnly_writeCtl (hbuf.hasSlots he) d p ctl
  rw [hbuf.cfg] at hctl
  rw [writeSlot]
  exact hbuf.trans hctl

theorem writesOnly_afterSubmit (ptr : Word) (n : BitVec 10) : WritesOnly InBdt s (afterSubmit e ptr n s) := by
  have hslot := writesOnly_writeSlot he .tx (s.parity.get e .tx) ptr (ctlWord n 1#1 (s.toggle.get e .tx) 0#4)
  exact hslot.congr (by rw [afterSubmit]) (by rw [afterSubmit, writeSlot_cfg])

theorem writesOnly_rearm (p : Bit) : WritesOnly InBdt s (rearm e p s) :=
  (writesOnly_writeSlot he .rx p (rxBuf s.cfg e p) (armedCtl e)).congr (by rw [rearm_eq]) (by rw [rearm_eq, writeSlot_cfg])

theorem writesOnly_completed (d : Dir) (p : Bit) (n : BitVec 10) (tog : Bit) (kind : BitVec 4) :
    WritesOnly InBdt s (completed e d p n tog kind s) :=
  (writesOnly_writeCtl he d p (ctlWord n 0#1 tog kind)).congr (by simp [completed]) (by simp [completed])

theorem writesOnly_rebuildSlots (p : Bit) : WritesOnly InBdt s (rebuildSlots e p s) := by
  have hctl := writesOnly_writeCtl he .tx p 0#32
  have hbuf := writesOnly_writeBuf (hctl.hasSlots he) .tx p 0#32
  have hboth := hctl.trans hbuf
  have hslot := fun buf ctl => writesOnly_writeSlot (hboth.hasSlots he) .rx p buf ctl
  rw [rebuildSlots]
  exact hboth.trans (hslot _ _)

theorem writesOnly_rebuildEndpoint : WritesOnly InBdt s (rebuildEndpoint e s) := by
  have heven := writesOnly_rebuildSlots he 0#1
  have hodd := writesOnly_rebuildSlots (heven.hasSlots he) 1#1
  rw [rebuildEndpoint_eq]
  exact (heven.trans hodd).congr (by rw [rebuildTrackers]) (by rw [rebuildTrackers])

end

theorem writesOnly_rebuildEndpoints {es : List Endpoint} {s : State} (hes : ∀ e ∈ es, e.val < s.cfg.numEndpoints) :
    WritesOnly InBdt s (rebuildEndpoints es s) := by
  induction es generalizing s with
  | nil => exact .refl s
  | cons e es ih =>
    obtain ⟨he, hes⟩ := List.forall_mem_cons.1 hes
    have hone := writesOnly_rebuildEndpoint he
    exact hone.trans (ih fun e h => hone.hasSlots (hes e h))

/-! ## The rows of the CTS -/

theorem writesOnly_afterUsbrst {s : State} (hact : ∀ e ∈ s.cfg.activeEndpoints, e.val < s.cfg.numEndpoints) :
    WritesOnly InBdt s (afterUsbrst s) :=
  (writesOnly_rebuildEndpoints hact).congr (by simp [afterUsbrst, busResetRebuild]) (by simp [afterUsbrst, busResetRebuild])

theorem writesOnly_sends {s t : State} (h0 : (0 : Endpoint).val < s.cfg.numEndpoints) (h : Sends s t) :
    WritesOnly InBdt s t := by
  induction h with
  | refl => exact .refl s
  | still _ hs _ ih => exact ih.congr hs.mem hs.cfg
  | submit _ ptr n _ ih => exact ih.trans (writesOnly_afterSubmit (ih.hasSlots h0) ptr n)

/-- A row of the CTS stores bytes of the BDT only (spec/45_operation_laws.md R253). -/
theorem writesOnly_row {s t : State} {i : Instr} (hok : configOk s.cfg = true) (h : RowDid s i t) :
    WritesOnly InBdt s t := by
  obtain ⟨⟨hnum, -⟩, -, hact, -⟩ := endpoints_of_configOk hok
  have h0 : (0 : Endpoint).val < s.cfg.numEndpoints := hnum
  cases h with
  | condition _ v _ hs _ => exact .of_mem (by simpa using hs.mem) (by simpa using hs.cfg)
  | tokdne => exact .of_mem (by simp) (by simp)
  | usbrst => exact writesOnly_afterUsbrst hact
  | setup p packet =>
    have htaken : WritesOnly InBdt s { s with setup := packet } := .of_mem rfl rfl
    have hrearm := htaken.trans (writesOnly_rearm (htaken.hasSlots h0) p)
    exact hrearm.congr (by simp [callClassify]) (by simp [callClassify])
  | out p => exact (writesOnly_rearm h0 p).congr (by rw [tokenDone, endDataStage]) (by rw [tokenDone, endDataStage])
  | handled _ _ _ hsend => exact (writesOnly_sends h0 hsend).congr (by rw [tokenDone]) (by rw [tokenDone])
  | fault f hsend => exact (writesOnly_sends h0 hsend).congr rfl rfl

/-! ## The descriptors -/

/-- The address belongs to no descriptor. -/
def OutsideDescriptors (c : Params) (a : Word) : Prop := ¬ InDescriptor c a

theorem outsideDescriptors_of_inBdt {c : Params} (hok : configOk c = true) {a : Word} (ha : InBdt c a) :
    OutsideDescriptors c a := by
  rintro ⟨d, hd, hin⟩
  obtain ⟨-, -, -, hdesc⟩ := endpoints_of_configOk hok
  exact Nat.not_lt.2 (outside_of_disjoint (hdesc d hd) ha) hin

theorem WritesOnly.outsideDescriptors {s t : State} (h : WritesOnly InBdt s t) (hok : configOk s.cfg = true) :
    WritesOnly OutsideDescriptors s t := h.mono fun _ ha => outsideDescriptors_of_inBdt hok ha

/-- The SIE's check (spec/93_implementation_defined.md U8): bytes that touch no descriptor lie outside them all. -/
theorem outsideDescriptors_of_not_touches {c : Params} {a x : Word} {n : Nat} (h : ¬ touchesDescriptor c a n = true)
    (hx : (x - a).toNat < n) : OutsideDescriptors c x := by
  rintro ⟨d, hd, hin⟩
  simp only [touchesDescriptor, List.any_eq_true, Bool.not_eq_true', not_exists, not_and, Bool.not_eq_false] at h
  exact Nat.not_lt.2 (outside_of_disjoint (h d hd) hin) hx

/-! ## The SIE's stores -/

theorem writesOnly_filled {s : State} (hok : configOk s.cfg = true) {e : Endpoint} (he : e.val < s.cfg.numEndpoints)
    (tog : Bit) (kind : BitVec 4) {bytes : List Byte}
    (h : ¬ touchesDescriptor s.cfg (slotBuf s e .rx (s.sieParity.get e .rx)) bytes.length = true) :
    WritesOnly OutsideDescriptors s (filled e tog kind bytes s) := by
  have hbytes : WritesOnly OutsideDescriptors s (writeBytes (slotBuf s e .rx (s.sieParity.get e .rx)) bytes s) :=
    writesOnly_writeBytes fun x hx => outsideDescriptors_of_not_touches h hx
  have hdone := writesOnly_completed (hbytes.hasSlots he) .rx (s.sieParity.get e .rx) (BitVec.ofNat 10 bytes.length) tog kind
  exact hbytes.trans (hdone.outsideDescriptors (hbytes.cfg ▸ hok))

/-- The SIE answers only endpoints that have slots (log 13). -/
theorem hasSlots_of_listens {addr : BitVec 7} {e : Endpoint} {s : State} (h : sieListens addr e s = true) :
    e.val < s.cfg.numEndpoints := by
  simp only [sieListens, Bool.and_eq_true, decide_eq_true_eq] at h
  exact h.2

section
variable {s t : State} (hok : configOk s.cfg = true)
include hok

theorem writesOnly_receive {kind : BitVec 4} {e : Endpoint} {tog : Bit} {bytes : List Byte}
    (he : e.val < s.cfg.numEndpoints) (h : receive kind e tog bytes s = .next t) : WritesOnly OutsideDescriptors s t := by
  simp only [receive] at h
  split at h
  · cases h
  · have hfilled := writesOnly_filled hok he tog kind ‹_›
    have ht : t = reply kind e .ack (if kind = kindSetup ∧ e = 0 then clearEp0Stall (filled e tog kind bytes s)
        else filled e tog kind bytes s) := (Host.Outcome.next.inj h).symm
    rw [ht]
    split
    · exact (hfilled.congr (by rw [clearEp0Stall]) (by rw [clearEp0Stall])).reply ..
    · exact hfilled.reply ..

theorem writesOnly_hostSetup {addr : BitVec 7} {e : Endpoint} {p : Setup} (h : hostSetup addr e p s = .next t) :
    WritesOnly OutsideDescriptors s t := by
  simp only [hostSetup] at h
  split at h
  · obtain ⟨hl, -⟩ := ‹_ ∧ _›
    exact writesOnly_receive hok (hasSlots_of_listens hl) h
  · cases h
    exact .of_mem rfl rfl

theorem writesOnly_hostOut {addr : BitVec 7} {e : Endpoint} {tog : Bit} {bytes : List Byte}
    (h : hostOut addr e tog bytes s = .next t) : WritesOnly OutsideDescriptors s t := by
  simp only [hostOut] at h
  split at h
  · cases h
    exact .of_mem rfl rfl
  split at h
  · cases h
    exact .of_mem rfl rfl
  split at h
  · cases h
    exact .of_mem rfl rfl
  split at h
  · cases h
    exact .of_mem rfl rfl
  split at h
  · cases h
    exact .of_mem rfl rfl
  · exact writesOnly_receive hok (hasSlots_of_listens (not_not.1 ‹¬ ¬ sieListens addr e s = true›)) h

theorem writesOnly_hostIn {addr : BitVec 7} {e : Endpoint} {acked : Bool} (h : hostIn addr e acked s = .next t) :
    WritesOnly OutsideDescriptors s t := by
  simp only [hostIn] at h
  split at h
  · cases h
    exact .of_mem rfl rfl
  split at h
  · cases h
    split
    · exact .of_mem rfl rfl
    · exact .of_mem rfl rfl
  split at h
  · cases h
    exact .of_mem rfl rfl
  · have he := hasSlots_of_listens (not_not.1 ‹¬ ¬ sieListens addr e s = true›)
    have hsent : WritesOnly InBdt s (sent e s) := writesOnly_completed he ..
    cases h
    cases acked with
    | false => exact .of_mem rfl rfl
    | true => exact (hsent.outsideDescriptors hok).reply ..

end

theorem writesOnly_sieBufferWrite {e : Endpoint} {p : Bit} {off : Nat} {b : Byte} {s t : State}
    (h : sieBufferWrite e p off b s = .next t) : WritesOnly OutsideDescriptors s t := by
  simp only [sieBufferWrite] at h
  split at h
  · split at h
    · cases h
    · cases h
      exact writesOnly_writeByte b (mt (touchesDescriptor_byte s.cfg _).2 ‹_›)
  · cases h

/-- Every event that is no turn. -/
theorem writesOnly_move {ev : Event} {s t : State} (hok : configOk s.cfg = true) (hv : isMove ev = true)
    (h : applyEvent ev s = .next t) : WritesOnly OutsideDescriptors s t := by
  cases ev with
  | bte | bteMicro | cts => cases hv
  | request bytes =>
    simp only [applyEvent, issueRequest] at h
    split at h <;> cases h
    exact .of_mem rfl rfl
  | writeReq bytes =>
    simp only [applyEvent, writeRequest] at h
    split at h
    · cases h
    split at h <;> cases h
    exact .of_mem rfl rfl
  | bootBte v =>
    simp only [applyEvent, bootBte] at h
    split at h
    · cases h
    split at h <;> cases h
    exact .of_mem rfl rfl
  | bootIntEnable v =>
    simp only [applyEvent, bootIntEnable] at h
    split at h
    · cases h
    split at h <;> cases h
    exact .of_mem rfl rfl
  | resetSense | tick | busReset | sof | sleep | busError =>
    cases h
    exact .of_mem rfl rfl
  | hostSetup addr e p => exact writesOnly_hostSetup hok h
  | hostOut addr e tog bytes => exact writesOnly_hostOut hok h
  | hostIn addr e acked => exact writesOnly_hostIn hok h
  | sieBuffer e p off b => exact writesOnly_sieBufferWrite h

/-! ## Every step -/

theorem ctsEnter_mem (s : State) : (ctsEnter s).mem = s.mem := by
  unfold ctsEnter
  split <;> rfl

/-- A row of the CTS, with the entry to its invocation where there is one. -/
theorem writesOnly_ctsRow {s t : State} {c : Code} {i : Instr} (hok : configOk s.cfg = true) (hf : ctsFetch s = some c)
    (hd : decode c = .ok i) (h : exec i (ctsEnter s) = .next t) : WritesOnly OutsideDescriptors s t := by
  have hok' : configOk (ctsEnter s).cfg = true := by
    rw [ctsEnter_cfg]
    exact hok
  have henter : WritesOnly OutsideDescriptors s (ctsEnter s) := .of_mem (ctsEnter_mem s) (ctsEnter_cfg s)
  have hrow := writesOnly_row hok' (exec_rowDid (isRequest_of_ctsFetch hf hd) h)
  exact henter.trans (hrow.outsideDescriptors hok')

theorem Still.writesOnly {region : Params → Word → Prop} {s t : State} (h : Still s t) : WritesOnly region s t :=
  .of_mem h.mem h.cfg

/-- Whichever agent moves, a step stores no byte of a descriptor (spec/20_memory.md R75). -/
theorem step_writesOnly {s t : State} (h : step s = .next t) : WritesOnly OutsideDescriptors s t := by
  obtain ⟨hok, -, script, a, b, hdid⟩ := step_next h
  have noted : WritesOnly OutsideDescriptors s { s with script := script, bootBteDone := a, bootIntDone := b } :=
    .of_mem rfl rfl
  refine noted.trans ?_
  obtain rfl | ⟨c, i, hf, hd, hx⟩ | hb | hm | ⟨ev, hv, hx⟩ := hdid
  · exact .refl _
  · exact writesOnly_ctsRow hok hf hd hx
  · exact (still_of_withCts (bteTurn_kept hb).1 (withCts_of_bteTurn hb)).writesOnly
  · exact (still_of_withCts (bteMicroTurn_kept hm).1 (withCts_of_bteMicroTurn hm)).writesOnly
  · exact writesOnly_move hok hv hx

/-- Settles O54: every store of a step goes through the list's one insertion, which keeps the canonical form. -/
theorem stepKeepsMemoryCanonical : Obligations.StepKeepsMemoryCanonical :=
  fun _ _ hcanon hstep => (step_writesOnly hstep).canonical hcanon

/-- Settles O51: the rows and the completions store slots, which stand in the BDT and so outside the descriptors; the SIE's
packet bytes are refused where they would touch one. -/
theorem descriptorBytesNeverChange : Obligations.DescriptorBytesNeverChange := by
  intro s t hcanon hstep d hd k hk
  have hin : InDescriptor s.cfg (d.pointer + BitVec.ofNat 32 k) := by
    refine ⟨d, hd, ?_⟩
    rw [add_sub_cancel_left, BitVec.toNat_ofNat]
    omega
  exact (step_writesOnly hstep).outside hcanon _ (not_not.2 hin)

end Sys2Proof.Machine
end

section
/-!
SUPPORT. The encoding tables row by row: what a masked word says of a field, what each decoder reads from the words of one
row, and that a packet or an event code is the join of its fields (spec/30_encoding.md R92 to R106).
-/

namespace Sys2Proof.Machine

open Sys2Proof

/-! ## Masks -/

/-- A mask of `n` ones at bit `lo` compares the field there, and nothing else. -/
theorem and_fieldMask_eq_iff {w n : Nat} (x : BitVec w) (lo : Nat) (v : BitVec n) (hn : lo + n ≤ w) :
    x &&& (BitVec.allOnes n).setWidth w <<< lo = v.setWidth w <<< lo ↔ x.extractLsb' lo n = v := by
  simp only [BitVec.eq_of_getLsbD_eq_iff, BitVec.getLsbD_and, BitVec.getLsbD_shiftLeft, BitVec.getLsbD_setWidth,
    BitVec.getLsbD_allOnes, BitVec.getLsbD_extractLsb']
  constructor <;> intro h i hi
  · simpa [hi, show lo + i < w by omega, show i < w by omega] using h (lo + i) (by omega)
  · by_cases hlo : i < lo
    · simp [hlo]
    by_cases hlt : i - lo < n
    · have hbit := h (i - lo) hlt
      rw [Nat.add_sub_cancel' (not_lt.1 hlo)] at hbit
      simpa [hi, hlt, hlo, show i - lo < w by omega] using hbit
    · have hv : v.getLsbD (i - lo) = false := BitVec.getLsbD_of_ge _ _ (not_lt.1 hlt)
      simp [hlt, hv]

theorem and_bitMask_eq_iff (st : Byte) {k : Nat} (hk : k < 8) : st &&& 1#8 <<< k = 1#8 <<< k ↔ st.getLsbD k = true := by
  rw [BitVec.getLsbD_eq_extractLsb', beq_iff_eq]
  exact and_fieldMask_eq_iff st k 1#1 hk

/-! ## Requests -/

theorem decode_req_of_fits {bs : List Byte} (hlen : bs.length ≤ 255) : decode (.req bs) = .ok (decodeReq bs) :=
  if_pos hlen

section

variable (a b : Byte) (rest : List Byte)

@[simp] theorem decodeReq_tx : decodeReq (0x01#8 :: a :: b :: rest) = .tx (a ++ b) := by simp [decodeReq, reqByte]

@[simp] theorem decodeReq_txrx : decodeReq (0x02#8 :: a :: b :: rest) = .txrx (a ++ b) := by simp [decodeReq, reqByte]

@[simp] theorem decodeReq_txc : decodeReq (0x03#8 :: rest) = .txc := by simp [decodeReq, reqByte]

@[simp] theorem decodeReq_rxr : decodeReq (0x04#8 :: a :: b :: rest) = .rxr := by simp [decodeReq, reqByte]

@[simp] theorem decodeReq_resync : decodeReq (0x05#8 :: rest) = .resync := by simp [decodeReq, reqByte]

@[simp] theorem decodeReq_halt : decodeReq (0x06#8 :: rest) = .halt := by simp [decodeReq, reqByte]

theorem decodeReq_reset : decodeReq (0x07#8 :: b :: rest) =
    if b.extractLsb' 1 7 = 0#7 then .reset (b.extractLsb' 0 1) else .bteIllegal (0x07#8 :: b :: rest) := by
  simp [decodeReq, reqByte]

end

theorem reqByte_zero_of_head {bs : List Byte} {op : Byte} (h : bs.head? = some op) : reqByte bs 0 = op := by
  obtain ⟨rest, rfl⟩ := List.head?_eq_some_iff.1 h
  rfl

/-- The seven reserved bits of RESET are zero in two bytes only (R93). -/
theorem resetReserved_eq_zero_iff : ∀ b : Byte, b.extractLsb' 1 7 = 0#7 ↔ b = 0x00#8 ∨ b = 0x01#8 := by decide

/-- `selectsOperation` is the guards of the seven rows of R93, as the decoder tests them. -/
theorem selectsOperation_iff (bs : List Byte) : selectsOperation bs = true ↔
    reqByte bs 0 = 0x01#8 ∧ 3 ≤ bs.length ∨ reqByte bs 0 = 0x02#8 ∧ 3 ≤ bs.length
      ∨ reqByte bs 0 = 0x03#8 ∧ 1 ≤ bs.length ∨ reqByte bs 0 = 0x04#8 ∧ 3 ≤ bs.length
      ∨ reqByte bs 0 = 0x05#8 ∧ 1 ≤ bs.length ∨ reqByte bs 0 = 0x06#8 ∧ 1 ≤ bs.length
      ∨ reqByte bs 0 = 0x07#8 ∧ 2 ≤ bs.length ∧ (reqByte bs 1).extractLsb' 1 7 = 0#7 := by
  match bs with
  | [] => simp [selectsOperation, reqByte]
  | [op] =>
    simp only [selectsOperation, reqByte, List.getD_cons_zero, Bool.or_eq_true, Bool.and_eq_true, decide_eq_true_eq,
      List.length_cons, List.length_nil, Nat.reduceAdd, Nat.reduceLeDiff]
    tauto
  | op :: b :: rest =>
    simp only [selectsOperation, reqByte, List.getD_cons_zero, List.getD_cons_succ, Bool.or_eq_true, Bool.and_eq_true,
      decide_eq_true_eq, List.length_cons, Nat.reduceLeDiff]
    tauto

theorem decodeReq_of_selectsNothing {bs : List Byte} (h : selectsOperation bs = false) :
    decodeReq bs = .bteIllegal bs := by
  rw [← Bool.not_eq_true, selectsOperation_iff] at h
  simp only [not_or] at h
  obtain ⟨htx, htxrx, htxc, hrxr, hresync, hhalt, hreset⟩ := h
  simp only [decodeReq, if_neg htx, if_neg htxrx, if_neg htxc, if_neg hrxr, if_neg hresync, if_neg hhalt, if_neg hreset]

theorem decodeReq_wf {bs : List Byte} (hlen : bs.length ≤ 255) : (decodeReq bs).wf = true := by
  cases h : selectsOperation bs with
  | false => simp [decodeReq_of_selectsNothing h, Instr.wf, hlen, h]
  | true =>
    rw [selectsOperation_iff] at h
    obtain ⟨hop, hmin⟩ | ⟨hop, hmin⟩ | ⟨hop, hmin⟩ | ⟨hop, hmin⟩ | ⟨hop, hmin⟩ | ⟨hop, hmin⟩ | ⟨hop, hmin, hreserved⟩ := h
    all_goals simp [decodeReq, Instr.wf, *]

/-! ## Setup packets -/

@[simp] theorem highByte_append_lowByte (h : Half) : highByte h ++ lowByte h = h := BitVec.extractLsb'_append_extractLsb'

@[simp] theorem lowByte_append (a b : Byte) : lowByte (a ++ b) = b := BitVec.extractLsb'_append_eq_right

@[simp] theorem highByte_append (a b : Byte) : highByte (a ++ b) = a := BitVec.extractLsb'_append_eq_left

@[simp] theorem decode_setup_toBytes (p : Setup) : decode (.setup p.toBytes) = .ok (decodeSetup p) := by
  simp [decode, Setup.toBytes, Setup.ofBytes]

@[simp] theorem decode_encodeSetup (rt code : Byte) (value index length : Half) :
    decode (encodeSetup rt code value index length) = .ok (decodeSetup ⟨rt, code, value, index, length⟩) :=
  decode_setup_toBytes _

/-- Only eight bytes are a setup packet (R109), and they are those of the packet that the decoder reads. -/
theorem exists_of_decode_setup {bs : List Byte} {i : Instr} (h : decode (.setup bs) = .ok i) :
    ∃ p : Setup, p.toBytes = bs ∧ decodeSetup p = i := by
  match bs, h with
  | [b0, b1, b2, b3, b4, b5, b6, b7], h =>
    exact ⟨.ofBytes b0 b1 b2 b3 b4 b5 b6 b7, by simp [Setup.toBytes, Setup.ofBytes], Except.ok.inj h⟩

theorem decodeSetup_wf (p : Setup) : (decodeSetup p).wf = true := by
  unfold decodeSetup
  repeat' split
  all_goals simp [Instr.wf, vendorClass, knownCode, *]

theorem encode_decodeSetup (p : Setup) : encode (decodeSetup p) = .setup p.toBytes := by
  unfold decodeSetup
  repeat' split
  all_goals simp [encode, encodeSetup, Setup.toBytes, *]

/-! ## Event codes -/

/-- An event code from all five fields of R106, bits 5:4 included. -/
def eventCode (e : BitVec 4) (d p : Bit) (unused : BitVec 2) (kind : BitVec 4) : BitVec 12 := e ++ d ++ p ++ unused ++ kind

theorem eventCode_tokenFields (t : BitVec 12) :
    eventCode (tokenEndpoint t) (tokenDirection t) (tokenParity t) (t.extractLsb' 4 2) (tokenKind t) = t := by
  rw [eventCode, tokenEndpoint, tokenDirection, tokenParity, tokenKind,
    BitVec.extractLsb'_append_extractLsb'_eq_extractLsb' (show 8 = 7 + 1 from rfl),
    BitVec.extractLsb'_append_extractLsb'_eq_extractLsb' (show 7 = 6 + 1 from rfl),
    BitVec.extractLsb'_append_extractLsb'_eq_extractLsb' (show 6 = 4 + 2 from rfl),
    BitVec.extractLsb'_append_extractLsb'_eq_extractLsb' (show 4 = 0 + 4 from rfl), BitVec.extractLsb'_eq_self]

section

variable (e : BitVec 4) (d p : Bit) (unused : BitVec 2) (kind : BitVec 4)

@[simp] theorem tokenKind_eventCode : tokenKind (eventCode e d p unused kind) = kind :=
  BitVec.extractLsb'_append_eq_right

@[simp] theorem tokenUnused_eventCode : (eventCode e d p unused kind).extractLsb' 4 2 = unused :=
  (BitVec.extractLsb'_append_eq_of_le (by decide)).trans BitVec.extractLsb'_append_eq_right

@[simp] theorem tokenParity_eventCode : tokenParity (eventCode e d p unused kind) = p :=
  (BitVec.extractLsb'_append_eq_of_le (by decide)).trans <|
    (BitVec.extractLsb'_append_eq_of_le (by decide)).trans BitVec.extractLsb'_append_eq_right

@[simp] theorem tokenDirection_eventCode : tokenDirection (eventCode e d p unused kind) = d :=
  (BitVec.extractLsb'_append_eq_of_le (by decide)).trans <|
    (BitVec.extractLsb'_append_eq_of_le (by decide)).trans <|
      (BitVec.extractLsb'_append_eq_of_le (by decide)).trans BitVec.extractLsb'_append_eq_right

@[simp] theorem tokenEndpoint_eventCode : tokenEndpoint (eventCode e d p unused kind) = e :=
  (BitVec.extractLsb'_append_eq_of_le (by decide)).trans <|
    (BitVec.extractLsb'_append_eq_of_le (by decide)).trans <|
      (BitVec.extractLsb'_append_eq_of_le (by decide)).trans BitVec.extractLsb'_append_eq_left

theorem eventCode_and (e' : BitVec 4) (d' p' : Bit) (unused' : BitVec 2) (kind' : BitVec 4) :
    eventCode e d p unused kind &&& eventCode e' d' p' unused' kind'
      = eventCode (e &&& e') (d &&& d') (p &&& p') (unused &&& unused') (kind &&& kind') := by
  have h : (e ++ d ++ p ++ unused ++ kind) &&& (e' ++ d' ++ p' ++ unused' ++ kind')
      = (e &&& e') ++ (d &&& d') ++ (p &&& p') ++ (unused &&& unused') ++ (kind &&& kind') := by
    simp only [BitVec.and_append]
  exact h

theorem encodeToken_eq : encodeToken e d p kind = .token (eventCode e d p 0#2 kind) := rfl

end

theorem decode_token (t : BitVec 12) : decode (.token t) = .ok (decodeToken t) := rfl

theorem expectedToken_iff (t : BitVec 12) : expectedToken t = true ↔ tokenEndpoint t = 0#4
    ∧ (tokenDirection t = 0#1 ∧ tokenKind t = 0xD#4 ∨ tokenDirection t = 0#1 ∧ tokenKind t = 0x1#4
      ∨ tokenDirection t = 1#1 ∧ tokenKind t = 0x9#4) := by
  simp only [expectedToken, tokenEndpoint, tokenDirection, tokenKind, Bool.and_eq_true, Bool.or_eq_true, decide_eq_true_eq]
  tauto

theorem decodeToken_wf (t : BitVec 12) : (decodeToken t).wf = true := by
  unfold decodeToken
  split
  · simpa [Instr.wf, tokenEndpoint] using ‹tokenEndpoint t ≠ 0#4›
  split
  · rfl
  split
  · rfl
  split
  · rfl
  · have hunexpected : expectedToken t = false := by
      rw [← Bool.not_eq_true, expectedToken_iff]
      tauto
    simpa [Instr.wf, hunexpected, tokenEndpoint] using ‹¬ tokenEndpoint t ≠ 0#4›

theorem decodeToken_of_unexpected {t : BitVec 12} (he : tokenEndpoint t = 0#4) (h : expectedToken t = false) :
    decodeToken t = .ep0Unexpected t := by
  rw [← Bool.not_eq_true, expectedToken_iff] at h
  simp only [he, true_and, not_or] at h
  obtain ⟨hsetup, hout, hin⟩ := h
  simp [decodeToken, he, if_neg hsetup, if_neg hout, if_neg hin]

/-- The code of endpoint 0's row for this direction and kind is all of `t`, where bits 5:4 are zero. -/
theorem encodeToken_of_fields {t : BitVec 12} {d : Bit} {kind : BitVec 4} (hunused : t.extractLsb' 4 2 = 0#2)
    (he : tokenEndpoint t = 0#4) (hd : tokenDirection t = d) (hk : tokenKind t = kind) :
    encodeToken 0#4 d (tokenParity t) kind = .token t := by
  rw [encodeToken_eq, ← hunused, ← he, ← hd, ← hk, eventCode_tokenFields]

theorem encode_decodeToken {t : BitVec 12} (hunused : t.extractLsb' 4 2 = 0#2) : encode (decodeToken t) = .token t := by
  unfold decodeToken
  split
  · rfl
  have he := not_not.1 ‹¬ tokenEndpoint t ≠ 0#4›
  split
  · obtain ⟨hd, hk⟩ := ‹_ ∧ tokenKind t = 0xD#4›
    exact encodeToken_of_fields hunused he hd hk
  split
  · obtain ⟨hd, hk⟩ := ‹_ ∧ tokenKind t = 0x1#4›
    exact encodeToken_of_fields hunused he hd hk
  split
  · obtain ⟨hd, hk⟩ := ‹_ ∧ tokenKind t = 0x9#4›
    exact encodeToken_of_fields hunused he hd hk
  · rfl

/-- The mask of endpoint 0's three rows leaves the parity and bits 5:4 out (R106). -/
theorem and_rowMask (t : BitVec 12) :
    t &&& 0xF8F#12 = eventCode (tokenEndpoint t) (tokenDirection t) 0#1 0#2 (tokenKind t) := by
  have hmask : 0xF8F#12 = eventCode (.allOnes 4) (.allOnes 1) 0#1 0#2 (.allOnes 4) := rfl
  conv_lhs => rw [← eventCode_tokenFields t, hmask]
  simp only [eventCode_and, BitVec.and_allOnes, BitVec.and_zero]

theorem and_rowMask_eq_iff (t : BitVec 12) (d : Bit) (kind : BitVec 4) :
    t &&& 0xF8F#12 = eventCode 0#4 d 0#1 0#2 kind
      ↔ tokenEndpoint t = 0#4 ∧ tokenDirection t = d ∧ tokenKind t = kind := by
  rw [and_rowMask]
  constructor
  · intro h
    exact ⟨by simpa using congrArg tokenEndpoint h, by simpa using congrArg tokenDirection h,
      by simpa using congrArg tokenKind h⟩
  · rintro ⟨he, hd, hk⟩
    rw [he, hd, hk]

/-! ## Conditions -/

theorem decodeCond_wf {st : Byte} {i : Instr} (h : decodeCond st = .ok i) : i.wf = true := by
  match i, (decodeCond_spec h).1 with
  | .usbrst, _ | .error, _ | .softok, _ | .tokdne, _ | .sleep, _ | .stall, _ => rfl

end Sys2Proof.Machine
end

section
/-!
SUPPORT. The obligations of the encodings (spec/30_encoding.md).
-/

namespace Sys2Proof.Machine

open Sys2Proof

/-- Settles O1, row by row: each decoder reads the word the encoder writes as the operation it was written for. -/
theorem decodeOfEncodeIsTheInstruction : Obligations.DecodeOfEncodeIsTheInstruction := by
  intro i h
  cases i with
  | tx w | txrx w => simp [encode, decode_req]
  | txc | rxr | resync | halt => rfl
  | reset hold =>
    have hhigh : (0#7 ++ hold).extractLsb' 1 7 = 0#7 := BitVec.extractLsb'_append_eq_left
    have hlow : (0#7 ++ hold).extractLsb' 0 1 = hold := BitVec.extractLsb'_append_eq_right
    rw [encode, decode_req_of_fits (by simp), decodeReq_reset, hhigh, hlow, if_pos rfl]
  | bteIllegal req =>
    simp only [Instr.wf, Bool.and_eq_true, decide_eq_true_eq, Bool.not_eq_true'] at h
    obtain ⟨hlen, hnothing⟩ := h
    rw [encode, decode_req_of_fits hlen, decodeReq_of_selectsNothing hnothing]
  | vendor rt code value index length =>
    have hvendor : rt.extractLsb' 5 2 = 2#2 := by simpa [Instr.wf, vendorClass] using h
    simp [encode, decodeSetup, hvendor]
  | getDescriptor rt value index length | setAddress rt value index length | setConfiguration rt value index length =>
    have hclass : rt.extractLsb' 5 2 ≠ 2#2 := by simpa [Instr.wf, vendorClass] using h
    simp [encode, decodeSetup, hclass]
  | unrecognised rt code value index length =>
    obtain ⟨hclass, ⟨h5, h6⟩, h9⟩ : rt.extractLsb' 5 2 ≠ 2#2 ∧ (code ≠ 0x05#8 ∧ code ≠ 0x06#8) ∧ code ≠ 0x09#8 := by
      simpa [Instr.wf, vendorClass, knownCode] using h
    simp [encode, decodeSetup, hclass, h5, h6, h9]
  | ep0Setup p | ep0Out p | ep0In p => simp [encode, encodeToken_eq, decode_token, decodeToken]
  | ep0Unexpected t =>
    simp only [Instr.wf, Bool.and_eq_true, decide_eq_true_eq, Bool.not_eq_true'] at h
    obtain ⟨he, hunexpected⟩ := h
    exact congrArg Except.ok (decodeToken_of_unexpected he hunexpected)
  | epnDefault t =>
    have he : tokenEndpoint t ≠ 0#4 := by simpa [Instr.wf, tokenEndpoint] using h
    exact congrArg Except.ok (if_pos he)
  | usbrst | error | softok | tokdne | sleep | stall => rfl

/-- Settles O2, decoder by decoder: a row is read only where the guards of the rows before it fail, which is what its
well-formedness asks. -/
theorem decodedInstructionIsWellFormed : Obligations.DecodedInstructionIsWellFormed := by
  refine ⟨fun c i h => ?_, fun bs i h => ?_, fun t i hunused h => ?_⟩
  · cases c with
    | req bs =>
      rw [decode_req] at h
      split at h
      · cases h
        exact decodeReq_wf ‹_›
      · cases h
    | setup bs =>
      obtain ⟨p, -, rfl⟩ := exists_of_decode_setup h
      exact decodeSetup_wf p
    | token t =>
      cases h
      exact decodeToken_wf t
    | cond st => exact decodeCond_wf h
  · obtain ⟨p, rfl, rfl⟩ := exists_of_decode_setup h
    exact encode_decodeSetup p
  · cases h
    exact encode_decodeToken hunused

/-- Settles O3: a request that selects an operation by its row's guard, and one that meets none of the guards. -/
theorem requestSelectsByFirstByte : Obligations.RequestSelectsByFirstByte := by
  refine ⟨fun a b rest hlen => ?_, fun rest hlen => ?_, fun b rest hlen => ?_, fun bs hlen h => ?_⟩
  · have hfits (op : Byte) : (op :: a :: b :: rest).length ≤ 255 := Nat.add_le_add_right hlen 3
    simp only [decode_req_of_fits (hfits _), decodeReq_tx, decodeReq_txrx, decodeReq_rxr, and_self]
  · have hfits (op : Byte) : (op :: rest).length ≤ 255 := Nat.succ_le_succ hlen
    simp only [decode_req_of_fits (hfits _), decodeReq_txc, decodeReq_resync, decodeReq_halt, and_self]
  · have hfits : (0x07#8 :: b :: rest).length ≤ 255 := Nat.add_le_add_right hlen 2
    rw [decode_req_of_fits hfits, decodeReq_reset]
    simp only [resetReserved_eq_zero_iff]
    by_cases h0 : b = 0x00#8
    · subst h0
      rfl
    by_cases h1 : b = 0x01#8
    · subst h1
      rfl
    · simp [h0, h1]
  · have hnothing : selectsOperation bs = false := by
      rw [← Bool.not_eq_true, selectsOperation_iff]
      obtain rfl | hzero | ⟨op, hop, hlarge⟩ | ⟨hshort, hop | hop | hop⟩ | rfl := h
      · simp [reqByte]
      · simp [reqByte_zero_of_head hzero]
      · have hselector : op ≠ 1#8 ∧ op ≠ 2#8 ∧ op ≠ 3#8 ∧ op ≠ 4#8 ∧ op ≠ 5#8 ∧ op ≠ 6#8 ∧ op ≠ 7#8 := by bv_omega
        simp [reqByte_zero_of_head hop, hselector]
      · simp [reqByte_zero_of_head hop, hshort]
      · simp [reqByte_zero_of_head hop, hshort]
      · simp [reqByte_zero_of_head hop, hshort]
      · simp [reqByte]
    rw [decode_req_of_fits hlen, decodeReq_of_selectsNothing hnothing]

/-- Settles O4: the masks of R98 compare the type class and the request code, where R96 puts them. -/
theorem setupPacketSelectsByPriority : Obligations.SetupPacketSelectsByPriority := by
  intro P rt code value index length
  have hclass : P &&& 0x0000000000000060#64 = 0x0000000000000040#64 ↔ rt.extractLsb' 5 2 = 2#2 := by
    rw [BitVec.extractLsb'_extractLsb'_of_le (by decide)]
    exact and_fieldMask_eq_iff P 5 2#2 (by decide)
  have hcode (v : Byte) : P &&& 0x000000000000FF00#64 = v.setWidth 64 <<< 8 ↔ code = v :=
    and_fieldMask_eq_iff P 8 v (by decide)
  have hfields : Setup.ofBytes (P.extractLsb' 0 8) (P.extractLsb' 8 8) (P.extractLsb' 16 8) (P.extractLsb' 24 8)
      (P.extractLsb' 32 8) (P.extractLsb' 40 8) (P.extractLsb' 48 8) (P.extractLsb' 56 8)
      = ⟨rt, code, value, index, length⟩ := by
    rw [Setup.ofBytes, BitVec.extractLsb'_append_extractLsb'_eq_extractLsb' (show 24 = 16 + 8 from rfl),
      BitVec.extractLsb'_append_extractLsb'_eq_extractLsb' (show 40 = 32 + 8 from rfl),
      BitVec.extractLsb'_append_extractLsb'_eq_extractLsb' (show 56 = 48 + 8 from rfl)]
  have hget : P &&& 0xFF00#64 = 0x0600#64 ↔ code = 0x06#8 := hcode 0x06#8
  have haddress : P &&& 0xFF00#64 = 0x0500#64 ↔ code = 0x05#8 := hcode 0x05#8
  have hconfiguration : P &&& 0xFF00#64 = 0x0900#64 ↔ code = 0x09#8 := hcode 0x09#8
  change Except.ok (decodeSetup (Setup.ofBytes ..)) = _
  rw [hfields]
  simp only [decodeSetup, hclass, hget, haddress, hconfiguration]

/-- Settles O5: the fields of the record and of its slot's token stand side by side in the event code. -/
theorem tokenEventSelectsByEndpointAndKind : Obligations.TokenEventSelectsByEndpointAndKind := by
  refine ⟨fun _ => rfl, fun r s hs => ?_, fun t => ?_⟩
  · have hcode : tokenCode s = eventCode (BitVec.ofNat 4 r.endpoint.val) (dirBit r.dir) r.parity 0#2
        (ctlToken (slotCtl s (tokEndpoint s) (tokDir s) (tokParity s))) := by
      rw [tokenCode, hs, tokStatusOf, eventCode]
    obtain ⟨he, hd, hp⟩ := tokStatusOf_fields r
    rw [← hs] at he hd hp
    rw [hcode]
    refine ⟨tokenEndpoint_eventCode .., ?_, tokenParity_eventCode .., tokenUnused_eventCode .., he, hd, hp⟩
    refine (tokenDirection_eventCode ..).trans ?_
    cases r.dir <;> rfl
  · have hsetup : t &&& 0xF8F#12 = 0x00D#12 ↔ _ := and_rowMask_eq_iff t 0#1 0xD#4
    have hout : t &&& 0xF8F#12 = 0x001#12 ↔ _ := and_rowMask_eq_iff t 0#1 0x1#4
    have hin : t &&& 0xF8F#12 = 0x089#12 ↔ _ := and_rowMask_eq_iff t 1#1 0x9#4
    have hzero : t &&& 0xF00#12 = 0x000#12 ↔ tokenEndpoint t = 0#4 := and_fieldMask_eq_iff t 8 0#4 (by decide)
    simp only [hsetup, hout, hin, hzero, decode_token, decodeToken]
    by_cases he : tokenEndpoint t = 0#4
    · simp [he, tokenParity]
    · simp [he]

/-- Settles O6: a mask of one bit compares that bit. -/
theorem conditionSelectsByPriority : Obligations.ConditionSelectsByPriority := by
  intro st
  have h0 : st &&& 0x01#8 = 0x01#8 ↔ _ := and_bitMask_eq_iff st (k := 0) (by decide)
  have h1 : st &&& 0x02#8 = 0x02#8 ↔ _ := and_bitMask_eq_iff st (k := 1) (by decide)
  have h2 : st &&& 0x04#8 = 0x04#8 ↔ _ := and_bitMask_eq_iff st (k := 2) (by decide)
  have h3 : st &&& 0x08#8 = 0x08#8 ↔ _ := and_bitMask_eq_iff st (k := 3) (by decide)
  have h4 : st &&& 0x10#8 = 0x10#8 ↔ _ := and_bitMask_eq_iff st (k := 4) (by decide)
  have h7 : st &&& 0x80#8 = 0x80#8 ↔ _ := and_bitMask_eq_iff st (k := 7) (by decide)
  simp only [decode, decodeCond, h0, h1, h2, h3, h4, h7]

/-- Settles O7: the decoders evaluate on these words. -/
theorem wordsOfTheTablesDecode : Obligations.WordsOfTheTablesDecode := by
  unfold Obligations.WordsOfTheTablesDecode
  decide

end Sys2Proof.Machine
end

section
/-!
SUPPORT. The delays of the bit-transport engine (spec/40_timing_primitive.md): how long one lasts, and that every operation
takes each of its delays whole.
-/

namespace Sys2Proof.Machine

open Sys2Proof Sys2Proof.Safety

/-! ## One delay (spec/40_timing_primitive.md R121 to R123) -/

theorem delay_of_fits {c : Params} {t : Nat} (h : t * c.cdTicksPerUs ≤ c.cdReload) :
    delay c t = [.waitStart, .waitPoll (t * c.cdTicksPerUs) t] := if_pos h

theorem delay_of_not_fits {c : Params} {t : Nat} (h : c.cdReload < t * c.cdTicksPerUs) :
    delay c t = (List.replicate ((t + 999) / 1000) [.waitStart, .waitPoll (1000 * c.cdTicksPerUs) 1000]).flatten :=
  if_neg (Nat.not_le_of_lt h)

/-- From the read of COUNTDOWN on, the timer runs for at least the ticks asked for and for less than a whole period of the
counter, which the loop could not see. -/
theorem exists_ticks_timerRuns {n : Nat} {s : State} (hn : n ≤ s.cfg.cdReload) (hstart : s.waitStart = s.countdown) :
    ∃ k, n ≤ k ∧ k ≤ s.cfg.cdReload ∧ (timerRuns n s).countdown = countDown s.cfg s.countdown k := by
  have hseen : elapsed s.cfg s.waitStart s.countdown = 0 := by
    simpa [hstart] using elapsed_countDown s.cfg s.countdown (Nat.zero_le _)
  have hextra := Nat.mod_lt (Config.delayExtra s.freeCount) (show 0 < s.cfg.cdReload + 1 - n by omega)
  refine ⟨n + Config.delayExtra s.freeCount % (s.cfg.cdReload + 1 - n), by omega, by omega, ?_⟩
  simp only [timerRuns, hseen, Nat.max_zero, Nat.sub_zero]

theorem runMicros_wait (n us : Nat) (s : State) :
    runMicros [.waitStart, .waitPoll n us] s = { s with
      countdown := (timerRuns n { s with waitStart := s.countdown }).countdown
      freeCount := s.freeCount + 1
      waitStart := s.countdown
      pinTrace := .w us :: s.pinTrace } := rfl

theorem advance_waitStart {s : State} {op : ReqOp} {rest : List Micro} {tail : Tail}
    (h : s.bteSeq = .running op (.waitStart :: rest) tail) :
    advance s = { s with waitStart := s.countdown, bteSeq := .running op rest tail } := by
  rw [advance, h]
  rfl

theorem advance_waitPoll {s : State} {n us : Nat} {op : ReqOp} {rest : List Micro} {tail : Tail}
    (h : s.bteSeq = .running op (.waitPoll n us :: rest) tail) :
    advance s = if n ≤ elapsed s.cfg s.waitStart s.countdown
      then { s with bteSeq := .running op rest tail, pinTrace := .w us :: s.pinTrace } else s := by
  rw [advance, h]
  rfl

/-! ## The delays of an operation -/

/-- Runs whose delays are whole and timed make such a run. -/
theorem delaysTimed_append {c : Params} {a b : List Micro} (ha : delaysTimed c a) (hb : delaysTimed c b) :
    delaysTimed c (a ++ b) := by
  induction a using delaysTimed.induct with
  | case1 => exact hb
  | case2 ticks us l ih => exact ⟨ha.1, ih ha.2⟩
  | case3 l hpoll =>
    rw [delaysTimed] at ha
    · exact ha.elim
    · exact hpoll
  | case4 => exact ha.elim
  | case5 m l hwait hstart hpoll ih =>
    cases m with
    | waitStart => exact (hstart rfl).elim
    | waitPoll ticks us => exact (hpoll ticks us rfl).elim
    | _ => exact ih ha

theorem delaysTimed_delay (c : Params) (t : Nat) : delaysTimed c (delay c t) := by
  rcases Nat.lt_or_ge c.cdReload (t * c.cdTicksPerUs) with h | h
  · rw [delay_of_not_fits h]
    generalize (t + 999) / 1000 = n
    induction n with
    | zero => trivial
    | succ n ih => exact ⟨rfl, ih⟩
  · rw [delay_of_fits h]
    exact ⟨rfl, trivial⟩

/-- A cell drives with a position that is no part of a delay. -/
theorem delaysTimed_cell (c : Params) {d : Micro} (hd : delaysTimed c [d]) : delaysTimed c (cell c d) := by
  have hlow : delaysTimed c ([.clk 0#1] ++ delay c c.tFallHold) := delaysTimed_delay ..
  have hdrive := delaysTimed_append hd (b := .sample :: delay c c.tDataHold) (delaysTimed_delay ..)
  have hhigh : delaysTimed c ([.clk 1#1] ++ delay c c.tRiseHold) := delaysTimed_delay ..
  simpa [cell] using delaysTimed_append (delaysTimed_append hlow hdrive) hhigh

theorem delaysTimed_frameCells (c : Params) (n : Nat) : delaysTimed c (frameCells c n) := by
  induction n with
  | zero => trivial
  | succ n ih =>
    have hcell : delaysTimed c (frameCell c n) := delaysTimed_append (delaysTimed_cell c trivial) trivial
    exact delaysTimed_append hcell ih

theorem delaysTimed_message (c : Params) (w : Half) : delaysTimed c (message c w) := delaysTimed_frameCells c 17

theorem delaysTimed_retryExchange (c : Params) : delaysTimed c (retryExchange c) :=
  delaysTimed_append (delaysTimed_message ..) trivial

theorem delaysTimed_probePulse (c : Params) : delaysTimed c (probePulse c) :=
  delaysTimed_append (delaysTimed_cell c trivial) trivial

theorem delaysTimed_completingCells (c : Params) (n : Nat) : delaysTimed c (completingCells c n) := by
  induction n with
  | zero => trivial
  | succ n ih => exact delaysTimed_append (delaysTimed_cell c trivial) ih

theorem delaysTimed_returnWrites (c : Params) (code : Byte) (out : Bool) : delaysTimed c (returnWrites code out) := by
  cases out <;> trivial

theorem delaysTimed_program (c : Params) (op : ReqOp) : delaysTimed c (program c op).1 := by
  have hmessage := delaysTimed_message c c.fillerWord
  have hexchange := delaysTimed_retryExchange c
  cases op with
  | tx w | txrx w => exact delaysTimed_append (delaysTimed_message c w) (delaysTimed_returnWrites ..)
  | txc | rxr => exact hexchange
  | resync => exact delaysTimed_append (delaysTimed_append hmessage hmessage) hmessage
  | halt =>
    have hhold : delaysTimed c ([.bkpt true] ++ delay c c.tBkptHold) := delaysTimed_delay ..
    exact delaysTimed_append (delaysTimed_append hhold trivial) hexchange
  | reset h =>
    have hbkpt (a : Bool) : delaysTimed c (if h = 1#1 then [.bkpt a] else []) := by split <;> trivial
    have hpulse := delaysTimed_append (hbkpt true) (b := .rst true :: delay c c.tRstPulse) (delaysTimed_delay ..)
    have hsettle := delaysTimed_append (a := .rst false :: delay c c.tRstSettle) (delaysTimed_delay ..) (hbkpt false)
    simpa [program] using delaysTimed_append (delaysTimed_append hpulse hsettle)
      (b := .clearResetDetected :: .loadRetry :: retryExchange c) hexchange
  | illegal => exact delaysTimed_returnWrites ..

/-- Whatever a test chooses: the writes of a return, another exchange or probe pulse, or the completing cells. -/
theorem delaysTimed_decideTail (test : Tail) (s : State) : delaysTimed s.cfg (decideTail test s).1 := by
  have hreturn := delaysTimed_returnWrites s.cfg
  have hexchange := delaysTimed_retryExchange s.cfg
  have hprobe := delaysTimed_probePulse s.cfg
  cases test with
  | leave => trivial
  | confirmTest =>
    simp only [decideTail]
    split
    · exact hreturn ..
    · split
      · exact hreturn ..
      · exact hexchange
  | rxTest out =>
    simp only [decideTail]
    split
    · split
      · exact hreturn ..
      · exact hexchange
    · split <;> exact hreturn ..
  | resyncTest =>
    simp only [decideTail]
    split
    · exact hreturn ..
    · exact hprobe
  | probeTest =>
    simp only [decideTail]
    split
    · exact delaysTimed_append (delaysTimed_completingCells ..) (hreturn ..)
    · split
      · exact hreturn ..
      · exact hprobe

/-- Settles O9: between a delay's read of COUNTDOWN and the end of its loop the timer runs for at least the ticks asked for
and less than a period; the programs and the tests' choices are put together from whole delays. -/
theorem delayIsNeverShort : Obligations.DelayIsNeverShort := by
  refine ⟨fun s t hfits => ?_, fun c t hlong => ⟨_, delay_of_not_fits hlong, by omega, by omega⟩,
    fun s t op rest tail hfits h => ?_, fun s n us op rest tail => advance_waitPoll, delaysTimed_program,
    fun s test => delaysTimed_decideTail test s⟩
  · obtain ⟨k, hticks, hperiod, hcd⟩ := exists_ticks_timerRuns (s := { s with waitStart := s.countdown }) hfits rfl
    refine ⟨countDown s.cfg s.countdown k, s.freeCount + 1, ?_, ?_, fun h => countDown_le s.cfg h k⟩
    · rw [delay_of_fits hfits, runMicros_wait, hcd]
    · rwa [elapsed_countDown s.cfg s.countdown hperiod]
  · rw [delay_of_fits hfits] at h
    exact advance_waitStart h

end Sys2Proof.Machine
end

section
/-!
SUPPORT. The pins between operations (spec/41_bit_transport.md R130): what a test can choose, what a run of positions leaves
of the clock and of the two control pins, and who writes them besides, which is boot alone.
-/

namespace Sys2Proof.Machine

open Sys2Proof Sys2Proof.Safety

/-! ## What a test can choose -/

/-- What a test of the pseudocode can choose in `s` (spec/41_bit_transport.md R135, R136, R145): the writes of a return, one
more round of its loop while a count is left, RESYNC's first pulse, or the cells that complete the start bit's frame. -/
inductive Choice (s : State) : Tail → List Micro × Tail → Prop
  | leave : Choice s .leave ([], .leave)
  | answered (test : Tail) (code : Byte) (out : Bool) : Choice s test (returnWrites code out, .leave)
  | confirmAgain (h : s.retry ≠ 0#8) : Choice s .confirmTest (retryExchange s.cfg, .confirmTest)
  | receiveAgain (out : Bool) (h : s.retry ≠ 0#8) : Choice s (.rxTest out) (retryExchange s.cfg, .rxTest out)
  | firstPulse : Choice s .resyncTest (.loadProbe :: probePulse s.cfg, .probeTest)
  | pulseAgain (h : s.probe ≠ 0#8) : Choice s .probeTest (probePulse s.cfg, .probeTest)
  | startBit : Choice s .probeTest (completingCells s.cfg 16 ++ returnWrites statusOk false, .leave)

theorem choice_decideTail (test : Tail) (s : State) : Choice s test (decideTail test s) := by
  cases test with
  | leave => exact .leave
  | confirmTest =>
    simp only [decideTail]
    split
    · exact .answered ..
    · split
      · exact .answered ..
      · exact .confirmAgain ‹_›
  | rxTest out =>
    simp only [decideTail]
    split
    · split
      · exact .answered ..
      · exact .receiveAgain out ‹_›
    · split <;> exact .answered ..
  | resyncTest =>
    simp only [decideTail]
    split
    · exact .answered ..
    · exact .firstPulse
  | probeTest =>
    simp only [decideTail]
    split
    · exact .startBit
    · split
      · exact .answered ..
      · exact .pulseAgain ‹_›

/-! ## The pins after a run of positions -/

theorem levelsAfter_append (s : State) (a b : List Micro) (l : Levels) :
    levelsAfter s (a ++ b) l = levelsAfter s b (levelsAfter s a l) := by
  induction a generalizing l with
  | nil => rfl
  | cons m a ih => cases m <;> exact ih _

theorem levelsAfter_cons (s : State) (m : Micro) (ms : List Micro) (l : Levels) :
    levelsAfter s (m :: ms) l = levelsAfter s ms (levelsAfter s [m] l) := levelsAfter_append s [m] ms l

/-- The levels a run drives depend on BTE_CFG only. -/
theorem levelsAfter_congr {s u : State} (h : s.bteCfg = u.bteCfg) (ms : List Micro) (l : Levels) :
    levelsAfter s ms l = levelsAfter u ms l := by
  have hb : bkptLevel s = bkptLevel u := by funext a; rw [bkptLevel, bkptLevel, h]
  have hr : rstLevel s = rstLevel u := by funext a; rw [rstLevel, rstLevel, h]
  induction ms generalizing l with
  | nil => rfl
  | cons m ms ih =>
    rw [levelsAfter_cons, ih, levelsAfter_cons u]
    cases m with
    | bkpt a => simp only [levelsAfter, hb]
    | rst a => simp only [levelsAfter, hr]
    | _ => rfl

theorem idleLevels_congr {s u : State} (h : s.bteCfg = u.bteCfg) : idleLevels s = idleLevels u := by
  rw [idleLevels, idleLevels, h]

theorem levels_doMicro (m : Micro) (s : State) : levels (doMicro m s) = levelsAfter s [m] (levels s) := by
  cases m with
  | sample => rw [doMicro, sampleDin_eq]; rfl
  | _ => rfl

theorem levels_runMicro (m : Micro) (s : State) : levels (runMicro m s) = levelsAfter s [m] (levels s) := by
  cases m with
  | waitPoll => rfl
  | _ => exact levels_doMicro _ s

theorem levels_runMicros (ms : List Micro) (s : State) : levels (runMicros ms s) = levelsAfter s ms (levels s) := by
  induction ms generalizing s with
  | nil => rfl
  | cons m ms ih =>
    rw [runMicros, ih, levelsAfter_congr (runMicro_bteCfg m s), levels_runMicro, levelsAfter_cons s m ms]

/-! ## Runs that lead back to the idle levels -/

/-- The run takes the pins from their idle levels back to them. -/
def KeepsIdle (s : State) (ms : List Micro) : Prop := levelsAfter s ms (idleLevels s) = idleLevels s

theorem KeepsIdle.append {s : State} {a b : List Micro} (ha : KeepsIdle s a) (hb : KeepsIdle s b) :
    KeepsIdle s (a ++ b) := by
  rw [KeepsIdle, levelsAfter_append, ha, hb]

/-- A delay touches no pin (spec/40_timing_primitive.md R121). -/
theorem levelsAfter_delay (s : State) (c : Params) (t : Nat) (l : Levels) : levelsAfter s (delay c t) l = l := by
  rcases Nat.lt_or_ge c.cdReload (t * c.cdTicksPerUs) with h | h
  · rw [delay_of_not_fits h]
    generalize (t + 999) / 1000 = n
    induction n with
    | zero => rfl
    | succ n ih => exact ih
  · rw [delay_of_fits h]
    rfl

/-- A cell ends with the clock high and moves no other pin of the three, whichever position drives DOUT (R132). -/
theorem levelsAfter_cell (s : State) (c : Params) {d : Micro} (hd : ∀ l, levelsAfter s [d] l = l) (l : Levels) :
    levelsAfter s (cell c d) l = { l with dclk := 1#1 } := by
  have hclk (b : Bit) (k : Levels) : levelsAfter s [.clk b] k = { k with dclk := b } := rfl
  have hdrive (k : Levels) : levelsAfter s [d, .sample] k = k := (levelsAfter_cons s d [.sample] k).trans (hd k)
  simp only [cell, levelsAfter_append, levelsAfter_delay, hclk, hdrive]

theorem keepsIdle_cell (s : State) (c : Params) {d : Micro} (hd : ∀ l, levelsAfter s [d] l = l) :
    KeepsIdle s (cell c d) := levelsAfter_cell s c hd _

theorem keepsIdle_frameCells (s : State) (c : Params) (n : Nat) : KeepsIdle s (frameCells c n) := by
  induction n with
  | zero => rfl
  | succ n ih =>
    have hcell : KeepsIdle s (frameCell c n) :=
      KeepsIdle.append (keepsIdle_cell s c (d := .driveShift) fun _ => rfl) (b := [.latch]) rfl
    exact hcell.append ih

theorem keepsIdle_message (s : State) (c : Params) (w : Half) : KeepsIdle s (message c w) := keepsIdle_frameCells s c 17

theorem keepsIdle_retryExchange (s : State) (c : Params) : KeepsIdle s (retryExchange c) :=
  (keepsIdle_message s c _).append rfl

theorem keepsIdle_probePulse (s : State) (c : Params) : KeepsIdle s (probePulse c) :=
  (keepsIdle_cell s c fun _ => rfl).append rfl

theorem keepsIdle_completingCells (s : State) (c : Params) (n : Nat) : KeepsIdle s (completingCells c n) := by
  induction n with
  | zero => rfl
  | succ n ih => exact (keepsIdle_cell s c fun _ => rfl).append ih

theorem keepsIdle_returnWrites (s : State) (code : Byte) (out : Bool) : KeepsIdle s (returnWrites code out) := by
  cases out <;> rfl

/-- What HALT does before it flushes (spec/41_bit_transport.md R146). -/
def haltPins (c : Params) : List Micro := [.bkpt true] ++ delay c c.tBkptHold ++ [.bkpt false]

/-- What RESET does before it flushes (R147). -/
def resetPins (c : Params) (h : Bit) : List Micro :=
  (if h = 1#1 then [.bkpt true] else []) ++ [.rst true] ++ delay c c.tRstPulse ++ [.rst false]
    ++ delay c c.tRstSettle ++ (if h = 1#1 then [.bkpt false] else []) ++ [.clearResetDetected]

theorem program_halt (c : Params) :
    program c .halt = (haltPins c ++ .loadRetry :: retryExchange c, .rxTest false) := rfl

theorem program_reset (c : Params) (h : Bit) :
    program c (.reset h) = (resetPins c h ++ .loadRetry :: retryExchange c, .rxTest false) := rfl

theorem keepsIdle_haltPins (s : State) (c : Params) : KeepsIdle s (haltPins c) := by
  rw [KeepsIdle, haltPins, levelsAfter_append, levelsAfter_append, levelsAfter_delay]
  rfl

theorem keepsIdle_resetPins (s : State) (c : Params) (h : Bit) : KeepsIdle s (resetPins c h) := by
  simp only [KeepsIdle, resetPins, levelsAfter_append, levelsAfter_delay]
  split <;> rfl

/-- HALT and RESET release each pin they assert (spec/41_bit_transport.md R146, R147). -/
theorem keepsIdle_program (s : State) (c : Params) (op : ReqOp) : KeepsIdle s (program c op).1 := by
  have hmessage := keepsIdle_message s c
  have hexchange := keepsIdle_retryExchange s c
  cases op with
  | tx w | txrx w => exact (hmessage w).append (keepsIdle_returnWrites ..)
  | txc | rxr => exact hexchange
  | resync => exact ((hmessage _).append (hmessage _)).append (hmessage _)
  | halt => exact (keepsIdle_haltPins s c).append hexchange
  | reset h => exact (keepsIdle_resetPins s c h).append hexchange
  | illegal => exact keepsIdle_returnWrites ..

theorem keepsIdle_decideTail (test : Tail) (s : State) : KeepsIdle s (decideTail test s).1 := by
  have hchoice := choice_decideTail test s
  generalize decideTail test s = d at hchoice ⊢
  cases hchoice with
  | leave => rfl
  | answered => exact keepsIdle_returnWrites ..
  | confirmAgain | receiveAgain => exact keepsIdle_retryExchange s s.cfg
  | firstPulse | pulseAgain => exact keepsIdle_probePulse s s.cfg
  | startBit => exact (keepsIdle_completingCells s s.cfg 16).append (keepsIdle_returnWrites ..)

/-! ## The turns of the BTE -/

theorem pinsSound_of_idle {s : State} (h : s.bteSeq = .idle) : PinsSound s ↔ levels s = idleLevels s := by
  rw [PinsSound, h]

theorem pinsSound_of_running {s : State} {op : ReqOp} {rest : List Micro} {tail : Tail}
    (h : s.bteSeq = .running op rest tail) : PinsSound s ↔ levelsAfter s rest (levels s) = idleLevels s := by
  rw [PinsSound, h]

/-- A run that leads back to the idle levels ends at them. -/
theorem idle_runMicros {s : State} {rest : List Micro} (h : levelsAfter s rest (levels s) = idleLevels s) :
    levels (runMicros rest s) = idleLevels (runMicros rest s) := by
  rw [levels_runMicros, h, idleLevels_congr (runMicros_bteCfg rest s)]

theorem pinsSound_finish (op : ReqOp) (n : Nat) {rest : List Micro} (tail : Tail) {s : State}
    (h : levelsAfter s rest (levels s) = idleLevels s) : PinsSound (finish op n rest tail s) := by
  induction n generalizing rest tail s with
  | zero => exact idle_runMicros h
  | succ n ih =>
    have hidle := idle_runMicros h
    have hnext := keepsIdle_decideTail tail (runMicros rest s)
    rw [finish]
    generalize decideTail tail (runMicros rest s) = d at hnext ⊢
    obtain ⟨_ | ⟨m, ms⟩, t⟩ := d
    · exact hidle
    · refine ih t ?_
      rw [hidle]
      exact hnext

theorem pinsSound_resume {s : State} (h : PinsSound s) : PinsSound (resume s) := by
  cases hq : s.bteSeq with
  | idle => rwa [resume, hq]
  | running op rest tail =>
    rw [resume_of_running hq]
    exact pinsSound_finish op maxTests tail ((pinsSound_of_running hq).1 h)

/-- At a test the pins are idle, and so they are after what the test chooses. -/
theorem levelsAfter_ahead {s : State} {rest : List Micro} (tail : Tail)
    (h : levelsAfter s rest (levels s) = idleLevels s) :
    levelsAfter s (ahead rest tail s).1 (levels s) = idleLevels s := by
  cases rest with
  | cons m rest => exact h
  | nil =>
    have hidle : levels s = idleLevels s := h
    rw [hidle]
    exact keepsIdle_decideTail tail s

theorem pinsSound_advance {s : State} (h : PinsSound s) : PinsSound (advance s) := by
  cases hq : s.bteSeq with
  | idle => rwa [advance, hq]
  | running op rest tail =>
    have hnext := levelsAfter_ahead tail ((pinsSound_of_running hq).1 h)
    obtain ⟨hnil, hadv⟩ | ⟨m, rest', tail', hahead, hadv | hadv⟩ := advance_cases hq <;> rw [hadv]
    · rw [hnil] at hnext
      exact hnext
    · exact h
    · have hcfg : ({ doMicro m s with bteSeq := .running op rest' tail' } : State).bteCfg = s.bteCfg := doMicro_bteCfg m s
      rw [hahead, levelsAfter_cons, ← levels_doMicro] at hnext
      rw [pinsSound_of_running rfl, levelsAfter_congr hcfg, idleLevels_congr hcfg]
      exact hnext

/-- Acceptance moves no pin, and the operation's first positions lead back to the idle levels. -/
theorem pinsSound_accept {s : State} (hidle : s.bteSeq = .idle) (h : PinsSound s) (op : ReqOp) :
    PinsSound (accept op s) := by
  have hlevels : levels (accept op s) = idleLevels (accept op s) := (pinsSound_of_idle hidle).1 h
  rw [pinsSound_of_running (s := accept op s) rfl, hlevels]
  exact keepsIdle_program (accept op s) s.cfg op

theorem pinsSound_runRequest {op : ReqOp} {s t : State} (hs : PinsSound s) (h : runRequest op s = .next t) :
    PinsSound t := by
  unfold runRequest at h
  split at h <;> cases h
  · exact pinsSound_resume (pinsSound_accept ‹_› hs op)
  · exact hs

theorem pinsSound_bteTurn {s t : State} (hs : PinsSound s) (h : bteTurn s = .next t) : PinsSound t := by
  obtain rfl | rfl | ⟨c, i, hf, hd, hx⟩ := bteTurn_next h
  · exact hs
  · exact pinsSound_resume hs
  · obtain ⟨op, hop⟩ := exists_reqOpOf (isRequest_of_bteFetch hf hd)
    rw [exec_of_reqOpOf hop] at hx
    exact pinsSound_runRequest hs hx

theorem pinsSound_bteMicroTurn {s t : State} (hs : PinsSound s) (h : bteMicroTurn s = .next t) : PinsSound t := by
  cases hq : s.bteSeq with
  | running op rest tail =>
    rw [bteMicroTurn_of_running hq] at h
    cases h
    exact pinsSound_advance hs
  | idle =>
    obtain rfl | rfl | ⟨op, rfl⟩ := bteMicroTurn_next h
    · exact hs
    · exact pinsSound_advance hs
    · exact pinsSound_accept hq hs op

/-! ## The CTS, the SIE and the environment -/

/-- Who leaves the three pins, BTE_CFG and the BTE's position leaves the pins sound. -/
theorem pinsSound_congr {s t : State} (hs : PinsSound s) (hseq : t.bteSeq = s.bteSeq) (hlevels : levels t = levels s)
    (hcfg : t.bteCfg = s.bteCfg) : PinsSound t := by
  cases hq : s.bteSeq with
  | idle =>
    rw [pinsSound_of_idle (hseq.trans hq), hlevels, idleLevels_congr hcfg]
    exact (pinsSound_of_idle hq).1 hs
  | running op rest tail =>
    rw [pinsSound_of_running (hseq.trans hq), hlevels, idleLevels_congr hcfg, levelsAfter_congr hcfg]
    exact (pinsSound_of_running hq).1 hs

theorem pinsSound_of_withBte {s t : State} (hs : PinsSound s) (h : withBte s t = t) : PinsSound t := by
  rw [← h]
  exact pinsSound_congr hs rfl rfl rfl

theorem pinsSound_ctsRow {c : Code} {i : Instr} {s t : State} (hs : PinsSound s) (hf : ctsFetch s = some c)
    (hd : decode c = .ok i) (hx : exec i (ctsEnter s) = .next t) : PinsSound t := by
  have henter : PinsSound (ctsEnter s) := by
    unfold ctsEnter
    split
    · exact pinsSound_congr hs rfl rfl rfl
    · exact hs
  exact pinsSound_of_withBte henter ((ctsOperationsLeaveTheBteAlone i s (ctsEnter s) (isRequest_of_ctsFetch hf hd)).2 t hx)

/-- The SIE completes a slot without touching the BTE (spec/00_scope.md R8). -/
theorem completed_withBte (e : Endpoint) (d : Dir) (p : Bit) (n : BitVec 10) (tog : Bit) (kind : BitVec 4) (u s : State) :
    completed e d p n tog kind (withBte u s) = withBte u (completed e d p n tog kind s) := by
  simp only [completed, withBte_cfg, writeWord_withBte]
  generalize writeWord (slotAddr s.cfg e d p) (ctlWord n 0#1 tog kind) s = v
  rfl

theorem filled_withBte (e : Endpoint) (tog : Bit) (kind : BitVec 4) (bytes : List Byte) (u s : State) :
    filled e tog kind bytes (withBte u s) = withBte u (filled e tog kind bytes s) := by
  rw [filled, filled, slotBuf_withBte, writeBytes_withBte, completed_withBte]
  rfl

theorem withBte_reply {s t : State} (h : withBte s t = t) (kind : BitVec 4) (e : Endpoint) (r : Reply) :
    withBte s (reply kind e r t) = reply kind e r t := congrArg (reply kind e r) h

theorem withBte_of_receive {kind : BitVec 4} {e : Endpoint} {tog : Bit} {bytes : List Byte} {s t : State}
    (h : receive kind e tog bytes s = .next t) : withBte s t = t := by
  have hfilled : withBte s (filled e tog kind bytes s) = filled e tog kind bytes s :=
    (filled_withBte e tog kind bytes s s).symm
  unfold receive at h
  dsimp only at h
  split at h
  · cases h
  · have ht : t = reply kind e .ack (if kind = kindSetup ∧ e = 0 then clearEp0Stall (filled e tog kind bytes s)
        else filled e tog kind bytes s) := (Host.Outcome.next.inj h).symm
    rw [ht]
    refine withBte_reply ?_ ..
    split
    · exact congrArg clearEp0Stall hfilled
    · exact hfilled

theorem withBte_sent (e : Endpoint) (s : State) : withBte s (sent e s) = sent e s :=
  (completed_withBte e .tx (s.sieParity.get e .tx) _ _ kindIn s s).symm

theorem withBte_of_hostSetup {addr : BitVec 7} {e : Endpoint} {p : Setup} {s t : State}
    (h : hostSetup addr e p s = .next t) : withBte s t = t := by
  simp only [hostSetup] at h
  split at h
  · exact withBte_of_receive h
  · cases h
    rfl

theorem withBte_of_hostOut {addr : BitVec 7} {e : Endpoint} {tog : Bit} {bytes : List Byte} {s t : State}
    (h : hostOut addr e tog bytes s = .next t) : withBte s t = t := by
  simp only [hostOut] at h
  iterate 5
    split at h
    · cases h
      rfl
  exact withBte_of_receive h

theorem withBte_of_hostIn {addr : BitVec 7} {e : Endpoint} {acked : Bool} {s t : State}
    (h : hostIn addr e acked s = .next t) : withBte s t = t := by
  simp only [hostIn] at h
  split at h
  · cases h
    rfl
  split at h
  · cases h
    split <;> rfl
  split at h <;> cases h
  · rfl
  · refine withBte_reply ?_ ..
    split
    · exact withBte_sent e s
    · rfl

theorem withBte_of_sieBufferWrite {e : Endpoint} {p : Bit} {off : Nat} {b : Byte} {s t : State}
    (h : sieBufferWrite e p off b s = .next t) : withBte s t = t := by
  simp only [sieBufferWrite] at h
  split at h
  · split at h <;> cases h
    rfl
  · cases h

theorem idle_of_not_busy {s : State} (h : busy s ≠ 1#1) : s.bteSeq = .idle := by
  cases hq : s.bteSeq with
  | idle => rfl
  | running op rest tail => exact absurd (by rw [busy, hq]) h

/-- Boot drives the pins to the idle levels of the BTE_CFG it writes (spec/70_reset_and_hazards.md R292; log 17). -/
theorem pinsSound_bootBte {v : BitVec 2} {s t : State} (h : bootBte v s = .next t) : PinsSound t := by
  unfold bootBte at h
  split at h
  · cases h
  split at h
  · cases h
  · rename_i hbusy _
    have hidle := idle_of_not_busy hbusy
    cases h
    refine (pinsSound_of_idle ?_).2 ?_
    · exact hidle
    · rfl

theorem pinsSound_applyEvent {ev : Event} {s t : State} (hs : PinsSound s) (hv : isMove ev = true)
    (h : applyEvent ev s = .next t) : PinsSound t := by
  cases ev with
  | bte | bteMicro | cts => cases hv
  | request bytes =>
    simp only [applyEvent, issueRequest] at h
    split at h <;> cases h
    exact pinsSound_congr hs rfl rfl rfl
  | writeReq bytes =>
    simp only [applyEvent, writeRequest] at h
    split at h
    · cases h
    split at h <;> cases h
    exact pinsSound_congr hs rfl rfl rfl
  | bootBte v => exact pinsSound_bootBte h
  | bootIntEnable v =>
    rw [applyEvent, bootIntEnable_eq] at h
    split at h
    · cases h
    split at h <;> cases h
    exact pinsSound_congr hs rfl rfl rfl
  | resetSense | tick k | busReset | sof | sleep | busError =>
    cases h
    exact pinsSound_congr hs rfl rfl rfl
  | hostSetup addr e p => exact pinsSound_of_withBte hs (withBte_of_hostSetup h)
  | hostOut addr e tog bytes => exact pinsSound_of_withBte hs (withBte_of_hostOut h)
  | hostIn addr e acked => exact pinsSound_of_withBte hs (withBte_of_hostIn h)
  | sieBuffer e p off b => exact pinsSound_of_withBte hs (withBte_of_sieBufferWrite h)

/-- Settles O58: every program and every choice of a test leads from the idle levels back to them, so each position of the
BTE keeps what is left of its operation leading there; nobody else but boot writes the pins or BTE_CFG. -/
theorem stepKeepsThePinsIdle : Obligations.StepKeepsThePinsIdle := by
  intro s t hs h
  obtain ⟨-, -, script, a, b, hdid⟩ := step_next h
  have hu : PinsSound { s with script := script, bootBteDone := a, bootIntDone := b } := pinsSound_congr hs rfl rfl rfl
  obtain rfl | ⟨c, i, hf, hd, hx⟩ | hb | hm | ⟨ev, hv, hx⟩ := hdid
  · exact hu
  · exact pinsSound_ctsRow hu hf hd hx
  · exact pinsSound_bteTurn hu hb
  · exact pinsSound_bteMicroTurn hu hm
  · exact pinsSound_applyEvent hu hv hx

end Sys2Proof.Machine
end

section
/-!
SUPPORT. The request port and the length of an operation: what acceptance does (spec/41_bit_transport.md R140), that every
operation ends, and how many cells it performs at most (R150).
-/

namespace Sys2Proof.Machine

open Sys2Proof Sys2Proof.Safety

/-! ## The port -/

theorem exec_of_idle {i : Instr} {op : ReqOp} {s : State} (hop : reqOpOf i = some op) (h : s.bteSeq = .idle) :
    exec i s = .next (finish op maxTests (program s.cfg op).1 (program s.cfg op).2 (accept op s)) := by
  rw [exec_of_reqOpOf hop, runRequest, h]
  rfl

theorem leaveOp_of_idle {s : State} (h : s.bteSeq = .idle) : leaveOp s = s := by
  rw [leaveOp, ← h]

theorem leaveOp_accept {s : State} (h : s.bteSeq = .idle) (op : ReqOp) :
    leaveOp (accept op s) = { s with reqValid := false } := by
  rw [← leaveOp_of_idle (s := { s with reqValid := false }) h]
  rfl

/-- Settles O16: the program of an illegal request is the one write of RESULT. -/
theorem illegalRequestOnlyReports : Obligations.IllegalRequestOnlyReports := by
  intro req s h
  have hend : leaveOp { accept .illegal s with result := 0x05#8 } = { s with reqValid := false, result := 0x05#8 } :=
    congrArg (fun u : State => { u with result := 0x05#8 }) (leaveOp_accept h .illegal)
  refine ⟨?_, rfl, rfl, ?_⟩
  · rw [exec_of_idle rfl h, ← hend]
    rfl
  · rw [← hend]
    rfl

/-- Settles O17: a running BTE has no step for a request, and an idle one takes the operation its port decodes to. -/
theorem busyPortAcceptsNothing : Obligations.BusyPortAcceptsNothing := by
  refine ⟨fun s i op hop hbusy => ?_, fun s i op hidle hvalid hlen hdec hop => ⟨?_, rfl⟩,
    fun bytes s hbusy => if_pos hbusy⟩
  · rw [exec_of_reqOpOf hop, runRequest]
    cases hq : s.bteSeq with
    | idle => simp [busy, hq] at hbusy
    | running op' rest tail => rfl
  · have hdecode : decode (.req s.reqBuf) = .ok i := by rw [decode_req, if_pos hlen, hdec]
    simp only [bteMicroTurn, hidle, hvalid, if_pos, hdecode, hop]
    rfl

/-! ## Every operation ends (R150) -/

theorem finish_of_leave (op : ReqOp) (n : Nat) (rest : List Micro) (s : State) :
    finish op (n + 1) rest .leave s = leaveOp (runMicros rest s) := rfl

/-- With as many tests as are ahead the operation comes to its return. -/
theorem finish_bteSeq (op : ReqOp) {n : Nat} {rest : List Micro} {tail : Tail} {s : State}
    (h : testsAhead tail (runMicros rest s) ≤ n) : (finish op n rest tail s).bteSeq = .idle := by
  induction n generalizing rest tail s with
  | zero => exact absurd h (Nat.not_le_of_lt (testsAhead_pos ..))
  | succ n ih =>
    by_cases htail : tail = .leave
    · subst htail
      rfl
    · have hlt := testsAhead_decideTail htail (runMicros rest s)
      rw [finish]
      generalize decideTail tail (runMicros rest s) = d at hlt ⊢
      obtain ⟨_ | ⟨m, ms⟩, t⟩ := d
      · rfl
      · exact ih (Nat.le_of_lt_succ (Nat.lt_of_lt_of_le hlt h))

theorem resume_bteSeq (s : State) : (resume s).bteSeq = .idle := by
  cases hq : s.bteSeq with
  | idle => rw [resume, hq, hq]
  | running op rest tail =>
    rw [resume_of_running hq]
    exact finish_bteSeq op (Nat.le_of_lt (testsAhead_lt_maxTests ..))

/-! ## How many cells an operation performs (R150) -/

/-- The position is the sample of a cell. -/
def isSample : Micro → Bool
  | .sample => true
  | _ => false

/-- How many cells a run of positions performs. -/
def cells (ms : List Micro) : Nat := ms.countP isSample

theorem cells_append (a b : List Micro) : cells (a ++ b) = cells a + cells b := List.countP_append

theorem samples_append (a b : List PinEvent) : samples (a ++ b) = samples a + samples b := by
  induction a with
  | nil => exact (Nat.zero_add _).symm
  | cons ev a ih =>
    cases ev with
    | i b => rw [List.cons_append, samples, samples, ih]; omega
    | _ => exact ih

/-- From `s` to `t` the trace goes on with at most `n` samples. -/
def Sampled (n : Nat) (s t : State) : Prop := ∃ added, t.pinTrace = added ++ s.pinTrace ∧ samples added ≤ n

theorem Sampled.trans {n m : Nat} {s t u : State} (h : Sampled n s t) (g : Sampled m t u) : Sampled (n + m) s u := by
  obtain ⟨a, ha, hn⟩ := h
  obtain ⟨b, hb, hm⟩ := g
  refine ⟨b ++ a, by rw [hb, ha, List.append_assoc], ?_⟩
  rw [samples_append]
  omega

theorem Sampled.mono {n m : Nat} {s t : State} (h : Sampled n s t) (hle : n ≤ m) : Sampled m s t := by
  obtain ⟨a, ha, hn⟩ := h
  exact ⟨a, ha, hn.trans hle⟩

/-- Only a cell's sample shows as one. -/
theorem sampled_runMicro (m : Micro) (s : State) : Sampled (cells [m]) s (runMicro m s) := by
  cases m with
  | sample =>
    change Sampled 1 s (sampleDin s)
    rw [sampleDin_eq]
    exact ⟨[.i (answer s 0)], rfl, Nat.le_refl 1⟩
  | clk b => exact ⟨[.c b], rfl, Nat.le_refl 0⟩
  | bkpt a => exact ⟨[.b a], rfl, Nat.le_refl 0⟩
  | rst a => exact ⟨[.r a], rfl, Nat.le_refl 0⟩
  | drive b => exact ⟨[.o b], rfl, Nat.le_refl 0⟩
  | driveShift => exact ⟨[.o _], rfl, Nat.le_refl 0⟩
  | waitPoll n us => exact ⟨[.w us], rfl, Nat.le_refl 0⟩
  | _ => exact ⟨[], rfl, Nat.le_refl 0⟩

theorem sampled_runMicros (ms : List Micro) (s : State) : Sampled (cells ms) s (runMicros ms s) := by
  induction ms generalizing s with
  | nil => exact ⟨[], rfl, Nat.le_refl 0⟩
  | cons m ms ih =>
    rw [show cells (m :: ms) = cells [m] + cells ms from cells_append [m] ms]
    exact (sampled_runMicro m s).trans (ih _)

theorem cells_delay (c : Params) (t : Nat) : cells (delay c t) = 0 := by
  rcases Nat.lt_or_ge c.cdReload (t * c.cdTicksPerUs) with h | h
  · rw [delay_of_not_fits h]
    generalize (t + 999) / 1000 = n
    induction n with
    | zero => rfl
    | succ n ih => exact ih
  · rw [delay_of_fits h]
    rfl

/-- A cell samples once, if its drive position is none (R132). -/
theorem cells_cell (c : Params) {d : Micro} (hd : isSample d = false) : cells (cell c d) = 1 := by
  have hdrive : cells [d, .sample] = 1 := by
    rw [cells, List.countP_cons, hd]
    rfl
  have hclk (b : Bit) : cells [.clk b] = 0 := rfl
  simp only [cell, cells_append, cells_delay, hclk, hdrive]

theorem cells_frameCells (c : Params) (n : Nat) : cells (frameCells c n) = n := by
  induction n with
  | zero => rfl
  | succ n ih =>
    have hframe : cells (frameCell c n) = 1 := by
      rw [show frameCell c n = [.count (BitVec.ofNat 5 n)] ++ (cell c .driveShift ++ [.latch]) from rfl, cells_append,
        cells_append, cells_cell c rfl]
      rfl
    rw [frameCells, cells_append, hframe, ih, Nat.add_comm]

theorem cells_message (c : Params) (w : Half) : cells (message c w) = 17 := by
  rw [message, cells_append, cells_frameCells]
  rfl

theorem cells_retryExchange (c : Params) : cells (retryExchange c) = 17 := by
  rw [retryExchange, cells_append, cells_message]
  rfl

theorem cells_probePulse (c : Params) : cells (probePulse c) = 1 := by
  rw [probePulse, cells_append, cells_cell c rfl]
  rfl

theorem cells_completingCells (c : Params) (n : Nat) : cells (completingCells c n) = n := by
  induction n with
  | zero => rfl
  | succ n ih => rw [completingCells, cells_append, cells_cell c rfl, ih, Nat.add_comm]

theorem cells_returnWrites (code : Byte) (out : Bool) : cells (returnWrites code out) = 0 := by
  cases out <;> rfl

/-- At a test, how many cells at most are still to be performed: an exchange for each count of RETRY, a pulse for each count
of PROBE and the cells that complete a frame. -/
def cellsAhead : Tail → State → Nat
  | .leave, _ => 0
  | .confirmTest, s | .rxTest _, s => 17 * s.retry.toNat
  | .resyncTest, s => s.cfg.resyncProbeMax + 16
  | .probeTest, s => s.probe.toNat + 16

/-- A counter's round uses up one count's cells. -/
theorem round_le {n : Nat} {v : Byte} (h : v ≠ 0#8) : n + n * (v - 1#8).toNat ≤ n * v.toNat := by
  have hround := Nat.mul_le_mul_left n (Nat.succ_le_of_lt (toNat_sub_one_lt h))
  rwa [Nat.mul_succ, Nat.add_comm] at hround

/-- A counter just loaded, after one round. -/
theorem toNat_loaded_sub_one {n : Nat} (h : 1 ≤ n ∧ n ≤ 255) : (BitVec.ofNat 8 n - 1#8).toNat = n - 1 := by
  obtain ⟨hlo, hhi⟩ := h
  rw [BitVec.toNat_sub, BitVec.toNat_ofNat]
  simp only [BitVec.toNat_ofNat]
  omega

/-- What a test chooses performs cells its counters allow for. -/
theorem cells_decideTail (test : Tail) {s : State} (hp : ProbesOk s.cfg) :
    cells (decideTail test s).1 + cellsAhead (decideTail test s).2 (runMicros (decideTail test s).1 s)
      ≤ cellsAhead test s := by
  have hexchange (h : s.retry ≠ 0#8) :
      cells (retryExchange s.cfg) + 17 * (runMicros (retryExchange s.cfg) s).retry.toNat ≤ 17 * s.retry.toNat := by
    rw [cells_retryExchange, retryExchange_retry]
    exact round_le h
  have hchoice := choice_decideTail test s
  generalize decideTail test s = d at hchoice ⊢
  cases hchoice with
  | leave => exact Nat.le_refl 0
  | answered =>
    rw [cells_returnWrites]
    exact Nat.zero_le _
  | confirmAgain h => exact hexchange h
  | receiveAgain out h => exact hexchange h
  | firstPulse =>
    have hcells : cells (.loadProbe :: probePulse s.cfg) = 1 := cells_probePulse s.cfg
    have hprobe : (runMicros (.loadProbe :: probePulse s.cfg) s).probe.toNat = s.cfg.resyncProbeMax - 1 := by
      rw [runMicros, probePulse_probe]
      exact toNat_loaded_sub_one hp
    obtain ⟨hlo, -⟩ := hp
    simp only [cellsAhead, hcells, hprobe]
    omega
  | pulseAgain h =>
    have hround := round_le (n := 1) h
    simp only [cellsAhead, cells_probePulse, probePulse_probe]
    omega
  | startBit =>
    rw [cells_append, cells_completingCells, cells_returnWrites]
    exact Nat.le_add_left 16 s.probe.toNat

theorem sampled_finish (op : ReqOp) (n : Nat) (rest : List Micro) (tail : Tail) {s : State} (hp : ProbesOk s.cfg) :
    Sampled (cells rest + cellsAhead tail (runMicros rest s)) s (finish op n rest tail s) := by
  induction n generalizing rest tail s with
  | zero => exact (sampled_runMicros rest s).mono (Nat.le_add_right ..)
  | succ n ih =>
    have hrun := sampled_runMicros rest s
    have hpu : ProbesOk (runMicros rest s).cfg := by rwa [runMicros_cfg]
    have hnext := cells_decideTail tail hpu
    rw [finish]
    generalize decideTail tail (runMicros rest s) = d at hnext ⊢
    obtain ⟨_ | ⟨m, ms⟩, t⟩ := d
    · exact hrun.mono (Nat.le_add_right ..)
    · exact hrun.trans ((ih (m :: ms) t hpu).mono hnext)

/-- The first exchange of a retrying operation leaves RETRY one below its load. -/
theorem firstExchange_retry (pre : List Micro) (s : State) :
    (runMicros (pre ++ .loadRetry :: retryExchange s.cfg) s).retry = BitVec.ofNat 8 s.cfg.retryBudget - 1#8 := by
  rw [runMicros_append, runMicros, retryExchange_retry]
  exact congrArg (fun c : Params => BitVec.ofNat 8 c.retryBudget - 1#8) (runMicros_cfg pre s)

theorem cells_haltPins (c : Params) : cells (haltPins c) = 0 := by
  rw [haltPins, cells_append, cells_append, cells_delay]
  rfl

theorem cells_resetPins (c : Params) (h : Bit) : cells (resetPins c h) = 0 := by
  simp only [resetPins, cells_append, cells_delay]
  split <;> rfl

theorem cells_program (op : ReqOp) {s : State} (hb : BudgetOk s.cfg) :
    cells (program s.cfg op).1 + cellsAhead (program s.cfg op).2 (runMicros (program s.cfg op).1 s)
      ≤ cellBound s.cfg op := by
  have hsend (w : Half) (out : Bool) : cells (message s.cfg w ++ returnWrites statusOk out) + 0 ≤ 17 := by
    rw [cells_append, cells_message, cells_returnWrites]
  have hretry {pre : List Micro} (hpre : cells pre = 0) :
      cells (pre ++ .loadRetry :: retryExchange s.cfg)
        + 17 * (runMicros (pre ++ .loadRetry :: retryExchange s.cfg) s).retry.toNat ≤ 17 * s.cfg.retryBudget := by
    have hfirst : cells (.loadRetry :: retryExchange s.cfg) = 17 := cells_retryExchange s.cfg
    rw [firstExchange_retry, toNat_loaded_sub_one hb, cells_append, hpre, hfirst]
    obtain ⟨hlo, -⟩ := hb
    omega
  cases op with
  | tx w => exact hsend w false
  | txrx w => exact hsend w true
  | txc | rxr => exact hretry (pre := []) rfl
  | resync =>
    simp only [program, cells_append, cells_message, cellsAhead, runMicros_cfg, cellBound]
    omega
  | halt => exact hretry (cells_haltPins s.cfg)
  | reset h => exact hretry (cells_resetPins s.cfg h)
  | illegal => exact Nat.le_refl 0

/-- Settles O18: no operation needs more than `maxTests` tests, and the cells still to be performed are counted down by RETRY
and PROBE. -/
theorem everyOperationEndsWithinItsCells : Obligations.EveryOperationEndsWithinItsCells := by
  refine ⟨resume_bteSeq, fun s i op hop hidle hb hp => ?_⟩
  have hsampled := (sampled_finish op maxTests (program s.cfg op).1 (program s.cfg op).2 (s := accept op s) hp).mono
    (cells_program op (s := accept op s) hb)
  obtain ⟨added, htrace, hle⟩ := hsampled
  exact ⟨_, added, exec_of_idle hop hidle, resume_bteSeq (accept op s), htrace, hle⟩

end Sys2Proof.Machine
end

section
/-!
SUPPORT. The operations that send whole messages (spec/41_bit_transport.md R141 to R147): the bounded loop every retrying
operation runs (R135, R136), and the state TX, TXRX, TXC, RXR, HALT and RESET end in.
-/

namespace Sys2Proof.Machine

open Sys2Proof Sys2Proof.Safety

/-! ## A bounded loop -/

theorem finish_of_runMicros (op : ReqOp) (n : Nat) (rest : List Micro) (tail : Tail) (s : State) :
    finish op n rest tail s = finish op n [] tail (runMicros rest s) := by
  cases n <;> rfl

/-- A test that chooses more positions lets the run go on with them. -/
theorem finish_of_decideTail {tail tail' : Tail} {next : List Micro} {s : State} (hd : decideTail tail s = (next, tail'))
    (hne : next ≠ []) (op : ReqOp) (n : Nat) : finish op (n + 1) [] tail s = finish op n next tail' s := by
  obtain ⟨m, ms, rfl⟩ := List.exists_cons_of_ne_nil hne
  rw [finish, runMicros, hd]

theorem returnWrites_ne_nil (code : Byte) (out : Bool) : returnWrites code out ≠ [] := by
  cases out <;> exact List.cons_ne_nil _ _

/-- A test that returns ends the run with the writes of the return. -/
theorem finish_of_return {tail : Tail} {body : List Micro} {code : Byte} {out : Bool} {s : State}
    (hd : decideTail tail s = (body ++ returnWrites code out, .leave)) (op : ReqOp) (n : Nat) :
    finish op (n + 2) [] tail s = leaveOp (runMicros (returnWrites code out) (runMicros body s)) := by
  rw [finish_of_decideTail hd (List.append_ne_nil_of_right_ne_nil _ (returnWrites_ne_nil code out)), finish_of_leave,
    runMicros_append]

/-- A loop whose test goes on while round `k` (from 0) does not stop it and a count is left performs as many rounds as
`attempts` says. `at_ k m v`: in `v`, `k` rounds are done and `m` are left. -/
theorem finish_loop (op : ReqOp) {test : Tail} {round : List Micro} {stop : Nat → Bool} {at_ : Nat → Nat → State → Prop}
    (hround : round ≠ [])
    (hgo : ∀ k m v, at_ (k + 1) (m + 1) v → stop k = false →
      decideTail test v = (round, test) ∧ at_ (k + 2) m (runMicros round v))
    {k m fuel : Nat} {u : State} (hat : at_ (k + 1) m u) (hfuel : m + 2 ≤ fuel) :
    let n := attempts (fun j => stop (k + j)) (m + 1)
    ∃ v j, at_ (k + n) (m + 1 - n) v ∧ finish op fuel [] test u = finish op (j + 2) [] test v := by
  induction m generalizing k fuel u with
  | zero =>
    obtain ⟨j, rfl⟩ := Nat.exists_eq_add_of_le' hfuel
    have hn : attempts (fun j => stop (k + j)) 1 = 1 := by simp [attempts]
    dsimp only
    rw [hn]
    exact ⟨u, j, hat, rfl⟩
  | succ m ih =>
    obtain ⟨j, rfl⟩ := Nat.exists_eq_add_of_le' hfuel
    dsimp only
    rw [attempts]
    cases hstop : stop (k + 0) with
    | true => exact ⟨u, m + j + 1, hat, by congr 1; omega⟩
    | false =>
      obtain ⟨hd, hnext⟩ := hgo k m u hat hstop
      obtain ⟨v, i, hv, hfin⟩ := ih (k := k + 1) (fuel := j + m + 2) hnext (by omega)
      have hshift : (fun j => stop (k + 1 + j)) = fun j => stop (k + (j + 1)) := by
        funext j
        rw [Nat.add_right_comm, Nat.add_assoc]
      rw [hshift] at hv
      rw [if_neg Bool.false_ne_true]
      generalize attempts (fun j => stop (k + (j + 1))) (m + 1) = n at hv ⊢
      refine ⟨v, i, ?_, ?_⟩
      · rwa [show k + (1 + n) = k + 1 + n by omega, show m + 1 + 1 - (1 + n) = m + 1 - n by omega]
      · rw [← hfin, ← finish_of_runMicros]
        exact finish_of_decideTail hd hround op (j + m + 2)

/-! ## Messages inside an operation -/

/-- `s` inside an operation: the BTE's position, the request's mark and RETRY replaced. -/
def withRun (q : BteSeq) (valid : Bool) (retry : Byte) (s : State) : State :=
  { s with bteSeq := q, reqValid := valid, retry := retry }

theorem withRun_accept (op : ReqOp) (s : State) :
    accept op s = withRun (.running op (program s.cfg op).1 (program s.cfg op).2) false s.retry s := rfl

/-- Messages neither read nor write these three. -/
theorem afterMessages_withRun {w : Half} {n : Nat} {s t : State} (h : AfterMessages w n s t) (q : BteSeq) (valid : Bool)
    (retry : Byte) : AfterMessages w n (withRun q valid retry s) (withRun q valid retry t) := by
  obtain ⟨cd, fc, ws, rfl⟩ := h
  exact ⟨cd, fc, ws, rfl⟩

/-- Messages do not depend on when they start. -/
theorem afterMessages_congr {w : Half} {n : Nat} {s u t : State} (h : eraseTime s = eraseTime u)
    (ht : AfterMessages w n s t) : AfterMessages w n u t := by
  obtain ⟨_, _, _, rfl⟩ := eraseTime_eq_iff.1 h
  obtain ⟨cd, fc, ws, rfl⟩ := ht
  exact ⟨cd, fc, ws, rfl⟩

theorem cfg_of_afterMessages {w : Half} {n : Nat} {s t : State} (h : AfterMessages w n s t) : t.cfg = s.cfg := by
  obtain ⟨_, _, _, rfl⟩ := h
  rfl

/-- The frame registers inside an operation hold the last frame heard. -/
theorem frame_of_afterMessages {w : Half} {n : Nat} {s v : State} {q : BteSeq} {valid : Bool} {retry : Byte}
    (h : AfterMessages w n (withRun q valid retry s) v) :
    frameStatus v = heardStatus s (17 * (n - 1)) ∧ frameData v = heardWord s (17 * (n - 1)) := by
  have hin : v.shiftIn = heard s (17 * (n - 1)) := (afterMessages_frame h).trans rfl
  exact ⟨by rw [frameStatus, hin, heard_status], by rw [frameData, hin, heardWord]⟩

/-! ## The state after a return -/

/-- Messages sent inside an operation: the state the messages alone would have left. -/
theorem exists_withRun {w : Half} {n : Nat} {s v : State} {q : BteSeq} {valid : Bool} {retry : Byte}
    (h : AfterMessages w n (withRun q valid retry s) v) : ∃ t, AfterMessages w n s t ∧ v = withRun q valid retry t := by
  refine ⟨_, afterMessages_withRun h s.bteSeq s.reqValid s.retry, ?_⟩
  obtain ⟨cd, fc, ws, rfl⟩ := h
  rfl

theorem bteSeq_of_afterMessages {w : Half} {n : Nat} {s t : State} (h : AfterMessages w n s t) : t.bteSeq = s.bteSeq := by
  obtain ⟨_, _, _, rfl⟩ := h
  rfl

theorem dclk_of_afterMessages {w : Half} {n : Nat} {s t : State} (h : AfterMessages w n s t) : t.dclk = 1#1 := by
  obtain ⟨_, _, _, rfl⟩ := h
  rfl

theorem target_of_afterMessages {w : Half} {n : Nat} {s t : State} (h : AfterMessages w n s t) :
    t.target = s.target.drop (17 * n) := by
  obtain ⟨_, _, _, rfl⟩ := h
  rfl

/-- After `n` messages the target's answers go on behind theirs. -/
theorem answer_of_afterMessages {w : Half} {n : Nat} {s t : State} (hn : 1 ≤ n) (h : AfterMessages w n s t) (k : Nat) :
    answer t k = answer s (17 * n + k) := by
  obtain ⟨_, _, _, rfl⟩ := h
  exact answer_of_used (17 * n) (by omega) rfl rfl k

/-- An operation of an idle BTE that has sent its messages answers `code` and leaves the buffer alone (R140). -/
theorem exists_answered {w : Half} {n : Nat} {s v : State} {q : BteSeq} {retry : Byte} (hidle : s.bteSeq = .idle)
    (h : AfterMessages w n (withRun q false retry s) v) (code : Byte) :
    ∃ t, AfterMessages w n s t ∧ leaveOp (runMicros (returnWrites code false) v)
      = { t with reqValid := false, retry := retry, result := code } := by
  obtain ⟨t, ht, rfl⟩ := exists_withRun h
  have hend : leaveOp { t with reqValid := false, retry := retry, result := code }
      = { t with reqValid := false, retry := retry, result := code } :=
    leaveOp_of_idle ((bteSeq_of_afterMessages ht).trans hidle)
  exact ⟨t, ht, hend⟩

/-- One that reports its frame puts the status bit and the word into the first three bytes of the buffer (R142, R144). -/
theorem exists_reported {w : Half} {n : Nat} {s v : State} {q : BteSeq} {retry : Byte} (hidle : s.bteSeq = .idle)
    (h : AfterMessages w n (withRun q false retry s) v) (code : Byte) {a b c : Byte} {more : List Byte}
    (hbuf : s.reqBuf = a :: b :: c :: more) :
    ∃ t, AfterMessages w n s t ∧ leaveOp (runMicros (returnWrites code true) v) = { t with
      reqValid := false
      retry := retry
      result := code
      reqBuf := (heardStatus s (17 * (n - 1))).setWidth 8 :: (heardWord s (17 * (n - 1))).extractLsb' 8 8
        :: (heardWord s (17 * (n - 1))).extractLsb' 0 8 :: more } := by
  have hwrites : leaveOp (runMicros (returnWrites code true) v) = { leaveOp (runMicros (returnWrites code false) v) with
      reqBuf := ((v.reqBuf.set 0 (reportByte v 0)).set 1 (reportByte v 1)).set 2 (reportByte v 2) } := rfl
  have hv : v.reqBuf = a :: b :: c :: more := by
    obtain ⟨cd, fc, ws, rfl⟩ := h
    exact hbuf
  have extend : ∀ x : Bit, (0#7 ++ x : Byte) = x.setWidth 8 := by decide
  have hstatus : reportByte v 0 = (heardStatus s (17 * (n - 1))).setWidth 8 := by
    rw [← extend]
    exact congrArg (fun x : Bit => (0#7 ++ x : Byte)) (frame_of_afterMessages h).1
  have hhigh : reportByte v 1 = (heardWord s (17 * (n - 1))).extractLsb' 8 8 :=
    congrArg highByte (frame_of_afterMessages h).2
  have hlow : reportByte v 2 = (heardWord s (17 * (n - 1))).extractLsb' 0 8 :=
    congrArg lowByte (frame_of_afterMessages h).2
  obtain ⟨t, ht, hend⟩ := exists_answered hidle h code
  refine ⟨t, ht, ?_⟩
  rw [hwrites, hend, hv, hstatus, hhigh, hlow]
  rfl

theorem retry_of_afterMessages {w : Half} {n : Nat} {s t : State} (h : AfterMessages w n s t) : t.retry = s.retry := by
  obtain ⟨_, _, _, rfl⟩ := h
  rfl

/-- The one message of TX and TXRX, sent by an accepted request. -/
theorem afterMessages_accept (w : Half) (op : ReqOp) (s : State) :
    AfterMessages w 1 (accept op s) (runMicros (message s.cfg w) (accept op s)) := afterMessages_one w (accept op s)

/-- Settles O10: the message is `afterMessages_one`, the rest the writes of a return. -/
theorem txAndTxrxSendOneMessage : Obligations.TxAndTxrxSendOneMessage := by
  intro w s hidle
  refine ⟨?_, fun a b c more hbuf => ?_⟩
  · obtain ⟨t, ht, hend⟩ := exists_answered hidle (afterMessages_accept w (.tx w) s) statusOk
    rw [← retry_of_afterMessages ht] at hend
    refine ⟨t, ht, ?_⟩
    rw [exec_of_idle rfl hidle, program, maxTests, finish_of_leave, runMicros_append]
    exact congrArg Host.Outcome.next hend
  · obtain ⟨t, ht, hend⟩ := exists_reported hidle (afterMessages_accept w (.txrx w) s) statusOk hbuf
    rw [← retry_of_afterMessages ht] at hend
    refine ⟨t, ht, ?_⟩
    rw [exec_of_idle rfl hidle, program, maxTests, finish_of_leave, runMicros_append]
    exact congrArg Host.Outcome.next hend

/-! ## Retrying (R135, R136) -/

theorem ofNat_succ_sub_one (m : Nat) : BitVec.ofNat 8 (m + 1) - 1#8 = BitVec.ofNat 8 m := by
  rw [BitVec.ofNat_add, BitVec.add_sub_cancel]

theorem ofNat_succ_ne_zero {m : Nat} (h : m + 1 < 256) : BitVec.ofNat 8 (m + 1) ≠ 0#8 := fun h0 => by
  simpa [Nat.mod_eq_of_lt h] using congrArg BitVec.toNat h0

theorem afterMessages_decRetry {w : Half} {n : Nat} {s v : State} {q : BteSeq} {valid : Bool} {retry : Byte}
    (h : AfterMessages w n (withRun q valid retry s) v) :
    AfterMessages w n (withRun q valid (retry - 1#8) s) (runMicros [.decRetry] v) := by
  obtain ⟨cd, fc, ws, rfl⟩ := h
  exact ⟨cd, fc, ws, rfl⟩

/-- The first exchange, RETRY loaded before it. `pre` is what the operation does before it retries. -/
theorem afterMessages_firstExchange {pre : List Micro} {s u : State} {q : BteSeq} {retry : Byte}
    (hpre : eraseTime (runMicros pre s) = eraseTime (withRun q false retry u)) :
    AfterMessages u.cfg.fillerWord 1 (withRun q false (BitVec.ofNat 8 u.cfg.retryBudget - 1#8) u)
      (runMicros (pre ++ .loadRetry :: retryExchange u.cfg) s) := by
  have hload : eraseTime (runMicro .loadRetry (runMicros pre s))
      = eraseTime (withRun q false (BitVec.ofNat 8 u.cfg.retryBudget) u) := eraseTime_runMicro hpre .loadRetry
  have hcfg : (runMicro .loadRetry (runMicros pre s)).cfg = u.cfg := (congrArg State.cfg hload :)
  have hone := afterMessages_one u.cfg.fillerWord (runMicro .loadRetry (runMicros pre s))
  rw [hcfg] at hone
  rw [runMicros_append, runMicros, retryExchange, runMicros_append]
  exact afterMessages_decRetry (afterMessages_congr hload hone)

/-- One more exchange. -/
theorem afterMessages_nextExchange {k : Nat} {u v : State} {q : BteSeq} {valid : Bool} {retry : Byte}
    (h : AfterMessages u.cfg.fillerWord (k + 1) (withRun q valid retry u) v) :
    AfterMessages u.cfg.fillerWord (k + 2) (withRun q valid (retry - 1#8) u) (runMicros (retryExchange u.cfg) v) := by
  rw [retryExchange, runMicros_append]
  exact afterMessages_decRetry (afterMessages_succ (Nat.succ_pos k) h)

/-- The test decides exchange `k` (from 0): it returns `code k` where the exchange ends the loop, ERR_BUSY where no count is
left, and else exchanges once more. -/
def Retries (test : Tail) (stop : Nat → Bool) (code : Nat → Byte) (out : Bool) (u : State) : Prop :=
  ∀ (k : Nat) (q : BteSeq) (retry : Byte) (v : State),
    AfterMessages u.cfg.fillerWord (k + 1) (withRun q false retry u) v →
    decideTail test v = if stop k then (returnWrites (code k) out, .leave)
      else if retry = 0#8 then (returnWrites statusBusy out, .leave) else (retryExchange u.cfg, test)

/-- A retrying operation makes as many exchanges as `attempts` says and returns what its last exchange decides. -/
theorem finish_retries {test : Tail} {stop : Nat → Bool} {code : Nat → Byte} {out : Bool} {u : State}
    (htest : Retries test stop code out u) (hb : BudgetOk u.cfg) (op : ReqOp) {pre : List Micro} {s : State} {q : BteSeq}
    {retry : Byte} (hpre : eraseTime (runMicros pre s) = eraseTime (withRun q false retry u)) :
    let n := attempts stop u.cfg.retryBudget
    ∃ v, AfterMessages u.cfg.fillerWord n (withRun q false (BitVec.ofNat 8 (u.cfg.retryBudget - n)) u) v
      ∧ finish op maxTests (pre ++ .loadRetry :: retryExchange u.cfg) test s
        = leaveOp (runMicros (returnWrites (if stop (n - 1) then code (n - 1) else statusBusy) out) v) := by
  obtain ⟨hlo, hhi⟩ := hb
  obtain ⟨m, hm⟩ := Nat.exists_eq_add_of_le' hlo
  have hfirst := afterMessages_firstExchange hpre
  rw [hm, ofNat_succ_sub_one] at hfirst
  have hloop := finish_loop op (test := test) (round := retryExchange u.cfg) (stop := stop) (k := 0) (m := m)
    (fuel := maxTests)
    (at_ := fun k m v => m < 256 ∧ AfterMessages u.cfg.fillerWord k (withRun q false (BitVec.ofNat 8 m) u) v)
    (List.append_ne_nil_of_right_ne_nil _ (List.cons_ne_nil _ _)) ?_ ⟨by omega, hfirst⟩ (by rw [maxTests]; omega)
  · simp only [Nat.zero_add] at hloop
    rw [hm]
    obtain ⟨v, j, ⟨-, hv⟩, hfin⟩ := hloop
    refine ⟨v, hv, ?_⟩
    rw [finish_of_runMicros, hfin]
    have hpos := attempts_pos stop (n := m + 1) (by omega)
    have hlast := attempts_last stop (m + 1) (by omega)
    generalize attempts stop (m + 1) = n at hv hpos hlast ⊢
    obtain ⟨k, rfl⟩ := Nat.exists_eq_add_of_le' hpos
    refine finish_of_return (body := []) ?_ op j
    rw [htest k q _ v hv]
    cases hstop : stop k with
    | true =>
      rw [Nat.add_sub_cancel, hstop]
      rfl
    | false =>
      rw [Nat.add_sub_cancel, hstop] at hlast
      rw [Nat.add_sub_cancel, hstop, hlast.resolve_left Bool.false_ne_true, Nat.sub_self]
      rfl
  · rintro k m v ⟨hm, hv⟩ hstop
    have hnext := afterMessages_nextExchange hv
    rw [ofNat_succ_sub_one] at hnext
    refine ⟨?_, by omega, hnext⟩
    rw [htest k q _ v hv, hstop, if_neg Bool.false_ne_true, if_neg (ofNat_succ_ne_zero hm)]

theorem retries_confirmTest (u : State) : Retries .confirmTest (confirmed u) (fun _ => statusOk) false u := by
  intro k q retry v h
  have hcfg : v.cfg = u.cfg := (cfg_of_afterMessages h).trans rfl
  have hretry : v.retry = retry := (retry_of_afterMessages h).trans rfl
  simp only [decideTail, frame_of_afterMessages h, hcfg, hretry, Nat.add_sub_cancel, confirmed, decide_eq_true_eq]

/-- RxRetry's loop ends with a frame that is not the not-ready frame: OK or ERR_TARGET by its status (R136). -/
def rxCode (u : State) (k : Nat) : Byte := if heardStatus u (17 * k) = 0#1 then statusOk else statusTarget

theorem ready_iff (s : State) (k : Nat) :
    ready s k = true ↔ ¬ (heardStatus s (17 * k) = 1#1 ∧ heardWord s (17 * k) = s.cfg.notReadyWord) := by
  simp [ready, imp_iff_not_or]

theorem retries_rxTest (out : Bool) (u : State) : Retries (.rxTest out) (ready u) (rxCode u) out u := by
  intro k q retry v h
  have hcfg : v.cfg = u.cfg := (cfg_of_afterMessages h).trans rfl
  have hretry : v.retry = retry := (retry_of_afterMessages h).trans rfl
  simp only [decideTail, frame_of_afterMessages h, hcfg, hretry, Nat.add_sub_cancel, ready_iff, rxCode]
  split
  · rfl
  · split <;> rfl

/-- The table of R136: what the last exchange decides. -/
theorem rxStatus_eq (s : State) (n : Nat) :
    (if ready s (n - 1) then rxCode s (n - 1) else statusBusy) = rxStatus s n := by
  have bit : ∀ b : Bit, b = 0#1 ∨ b = 1#1 := by decide
  simp only [ready_iff, rxCode, rxStatus]
  rcases bit (heardStatus s (17 * (n - 1))) with h | h
  · simp [h, statusOk]
  · simp [h, statusBusy, statusTarget]

/-- A retrying operation that flushes or receives returns `rxStatus` (R136). -/
theorem finish_rxRetries {op : ReqOp} {pre : List Micro} {out : Bool} {s u : State} {q : BteSeq} {retry : Byte}
    (hb : BudgetOk u.cfg) (hpre : eraseTime (runMicros pre s) = eraseTime (withRun q false retry u)) :
    ∃ v, AfterMessages u.cfg.fillerWord (rxExchanges u)
        (withRun q false (BitVec.ofNat 8 (u.cfg.retryBudget - rxExchanges u)) u) v
      ∧ finish op maxTests (pre ++ .loadRetry :: retryExchange u.cfg) (.rxTest out) s
        = leaveOp (runMicros (returnWrites (rxStatus u (rxExchanges u)) out) v) := by
  rw [← rxStatus_eq]
  exact finish_retries (retries_rxTest out u) hb op hpre

/-- Settles O11: Confirm's loop ends with a status bit of 0 or with the budget. -/
theorem txcConfirmsOrIsBusy : Obligations.TxcConfirmsOrIsBusy := by
  intro s hidle hb
  obtain ⟨v, hv, hfin⟩ := finish_retries (retries_confirmTest s) hb .txc (pre := []) (s := accept .txc s)
    (congrArg eraseTime (withRun_accept .txc s))
  obtain ⟨t, ht, hend⟩ := exists_answered hidle hv
    (if confirmed s (attempts (confirmed s) s.cfg.retryBudget - 1) then statusOk else statusBusy)
  refine ⟨t, ht, ?_⟩
  rw [exec_of_idle rfl hidle]
  refine congrArg Host.Outcome.next (hfin.trans (hend.trans ?_))
  simp only [confirmed, decide_eq_true_eq]
  rfl

/-- Settles O12: RxRetry's loop, its last frame reported. -/
theorem rxrReportsTheLastFrame : Obligations.RxrReportsTheLastFrame := by
  intro s a b c more hidle hb hbuf
  obtain ⟨v, hv, hfin⟩ := finish_rxRetries (op := .rxr) (pre := []) (out := true) (s := accept .rxr s) hb
    (congrArg eraseTime (withRun_accept .rxr s))
  obtain ⟨t, ht, hend⟩ := exists_reported hidle hv (rxStatus s (rxExchanges s)) hbuf
  refine ⟨t, ht, ?_⟩
  rw [exec_of_idle rfl hidle]
  exact congrArg Host.Outcome.next (hfin.trans hend)

/-! ## The control pins (R146, R147) -/

/-- An operation that drives the control pins and then flushes: `u` is `s` with the pins, RESET_DETECTED and the trace as
the operation's own positions leave them. -/
theorem exec_flush {i : Instr} {op : ReqOp} {pre : List Micro} {s u : State} {q : BteSeq} (hop : reqOpOf i = some op)
    (hidle : s.bteSeq = .idle) (huidle : u.bteSeq = .idle) (hb : BudgetOk u.cfg)
    (hprogram : program s.cfg op = (pre ++ .loadRetry :: retryExchange u.cfg, .rxTest false))
    (hpre : eraseTime (runMicros pre (accept op s)) = eraseTime (withRun q false s.retry u)) :
    ∃ t, AfterMessages u.cfg.fillerWord (rxExchanges u) u t ∧ exec i s = .next { t with
      reqValid := false
      retry := BitVec.ofNat 8 (u.cfg.retryBudget - rxExchanges u)
      result := rxStatus u (rxExchanges u) } := by
  obtain ⟨v, hv, hfin⟩ := finish_rxRetries (op := op) (out := false) hb hpre
  obtain ⟨t, ht, hend⟩ := exists_answered huidle hv (rxStatus u (rxExchanges u))
  refine ⟨t, ht, ?_⟩
  rw [exec_of_idle hop hidle, hprogram]
  exact congrArg Host.Outcome.next (hfin.trans hend)

theorem eraseTime_runMicros_append {a : List Micro} {s u : State} (h : eraseTime (runMicros a s) = eraseTime u)
    (b : List Micro) : eraseTime (runMicros (a ++ b) s) = eraseTime (runMicros b u) := by
  rw [runMicros_append, eraseTime_runMicros h]

theorem eraseTime_runMicros_delay {a : List Micro} {s u : State} (h : eraseTime (runMicros a s) = eraseTime u) (c : Params)
    (t : Nat) : eraseTime (runMicros (a ++ delay c t) s)
      = eraseTime { u with pinTrace := (delayTrace c t).reverse ++ u.pinTrace } := by
  rw [eraseTime_runMicros_append h, eraseTime_delay]

theorem advance_bkpt {s : State} {op : ReqOp} {left : List Micro} {tail : Tail} {asserted : Bool}
    (h : s.bteSeq = .running op (.bkpt asserted :: left) tail) : advance s = { s with
      bteSeq := .running op left tail, bkpt := bkptLevel s asserted, pinTrace := .b asserted :: s.pinTrace } := by
  rw [advance, h]
  rfl

theorem advance_rst {s : State} {op : ReqOp} {left : List Micro} {tail : Tail} {asserted : Bool}
    (h : s.bteSeq = .running op (.rst asserted :: left) tail) : advance s = { s with
      bteSeq := .running op left tail, rst := rstLevel s asserted, pinTrace := .r asserted :: s.pinTrace } := by
  rw [advance, h]
  rfl

theorem eraseTime_haltPins (s : State) : eraseTime (runMicros (haltPins s.cfg) s) = eraseTime { s with
    bkpt := bkptLevel s false
    pinTrace := [.b false] ++ (delayTrace s.cfg s.cfg.tBkptHold).reverse ++ [.b true] ++ s.pinTrace } := by
  rw [haltPins, eraseTime_runMicros_append (eraseTime_runMicros_delay rfl ..)]
  simp [eraseTime, runMicros, runMicro, doMicro, bkptLevel]

theorem eraseTime_resetPins (s : State) (h : Bit) : eraseTime (runMicros (resetPins s.cfg h) s) = eraseTime { s with
    bkpt := if h = 1#1 then bkptLevel s false else s.bkpt
    rst := rstLevel s false
    resetDetected := 0#1
    pinTrace := (if h = 1#1 then [.b false] else []) ++ (delayTrace s.cfg s.cfg.tRstSettle).reverse ++ [.r false]
      ++ (delayTrace s.cfg s.cfg.tRstPulse).reverse ++ [.r true] ++ (if h = 1#1 then [.b true] else [])
      ++ s.pinTrace } := by
  rw [resetPins, eraseTime_runMicros_append (eraseTime_runMicros_append (eraseTime_runMicros_delay
    (eraseTime_runMicros_append (eraseTime_runMicros_delay rfl ..) _) ..) _)]
  split
  · simp [eraseTime, runMicros, runMicro, doMicro, bkptLevel, rstLevel]
  · simp [eraseTime, runMicros, runMicro, doMicro, rstLevel]

/-- Settles O14: the breakpoint pin's two positions with the delay between them, then the loop of RXR. -/
theorem haltHoldsBreakpointThenFlushes : Obligations.HaltHoldsBreakpointThenFlushes := by
  refine ⟨fun s hidle hb => ?_, fun s => ⟨.loadRetry :: retryExchange s.cfg, .rxTest false, ?_⟩,
    fun asserted s op left tail => advance_bkpt⟩
  · exact exec_flush (q := .running .halt (program s.cfg .halt).1 (program s.cfg .halt).2) rfl hidle hidle hb
      (program_halt s.cfg) (eraseTime_haltPins (accept .halt s))
  · simp [accept, program]

/-- Settles O15: the positions of the reset pin and of the two delays, inside those of the breakpoint pin where it is
held, then the clear and the loop of RXR. -/
theorem resetPulsesThenFlushes : Obligations.ResetPulsesThenFlushes := by
  refine ⟨fun h s hidle hb => ?_, fun h s => ⟨.loadRetry :: retryExchange s.cfg, .rxTest false, ?_⟩,
    fun asserted s op left tail => advance_rst, fun s op left tail hrun => ?_⟩
  · exact exec_flush (q := .running (.reset h) (program s.cfg (.reset h)).1 (program s.cfg (.reset h)).2) rfl hidle hidle
      hb (program_reset s.cfg h) (eraseTime_resetPins (accept (.reset h) s) h)
  · simp [accept, program]
  · rw [advance, hrun]
    rfl

end Sys2Proof.Machine
end

section
/-!
SUPPORT. RESYNC (spec/41_bit_transport.md R145): the three messages, the probe pulses and the cells that complete a frame.
-/

namespace Sys2Proof.Machine

open Sys2Proof Sys2Proof.Safety

/-! ## Cells that drive a bit of their own -/

/-- `s` up to time after `n` cells, the last of which drove `out`; `trace` is what they showed. -/
def afterCells (n : Nat) (out : Bit) (trace : List PinEvent) (s : State) : State :=
  { s with
    dclk := 1#1, dout := out, din := answer s (n - 1), bIn := answer s (n - 1)
    target := s.target.drop n, pinTrace := trace.reverse ++ s.pinTrace }

theorem answer_afterCells (n : Nat) (out : Bit) (trace : List PinEvent) (s : State) (k : Nat) :
    answer (afterCells (n + 1) out trace s) k = answer s (n + 1 + k) :=
  answer_of_used (n + 1) (Nat.succ_pos n) rfl rfl k

theorem afterCells_afterCells (m n : Nat) (out out' : Bit) (trace trace' : List PinEvent) (s : State) :
    afterCells (n + 1) out' trace' (afterCells (m + 1) out trace s)
      = afterCells (m + 1 + (n + 1)) out' (trace ++ trace') s := by
  have hlast := answer_afterCells m out trace s n
  have hindex : m + 1 + (n + 1) - 1 = m + 1 + n := rfl
  rw [afterCells, Nat.add_sub_cancel, hlast]
  simp only [afterCells, hindex, List.drop_drop, List.reverse_append, List.append_assoc]

/-- One cell that drives `b`. -/
theorem eraseTime_driveCell (c : Params) (b : Bit) (s : State) :
    eraseTime (runMicros (cell c (.drive b)) s) = eraseTime (afterCells 1 b (cellTrace c b (answer s 0)) s) :=
  eraseTime_cell c (.drive b) b s fun _ _ _ => rfl

/-- What the last `n` completing cells show, driving FILLER_WORD bits `n-1` down to 0, the samples from answer `o` on. -/
def completingTrace (s : State) (o n : Nat) : List PinEvent :=
  (List.range n).flatMap fun i =>
    cellTrace s.cfg (BitVec.ofBool (s.cfg.fillerWord.getLsbD (n - 1 - i))) (answer s (o + i))

/-- After `m` cells the answers go on behind theirs. -/
theorem completingTrace_afterCells (m n o : Nat) (out : Bit) (trace : List PinEvent) (s : State) :
    completingTrace (afterCells (m + 1) out trace s) o n = completingTrace s (m + 1 + o) n := by
  simp only [completingTrace, answer_afterCells, Nat.add_assoc]
  rfl

theorem completingTrace_succ (s : State) (o n : Nat) : completingTrace s o (n + 1)
    = cellTrace s.cfg (BitVec.ofBool (s.cfg.fillerWord.getLsbD n)) (answer s o) ++ completingTrace s (o + 1) n := by
  simp only [completingTrace, List.range_succ_eq_map, List.flatMap_cons, List.flatMap_map]
  congr 1
  refine List.flatMap_congr fun i _ => ?_
  rw [show n + 1 - 1 - Nat.succ i = n - 1 - i by omega, show o + Nat.succ i = o + 1 + i by omega]

theorem eraseTime_completingCells (n : Nat) (s : State) :
    eraseTime (runMicros (completingCells s.cfg (n + 1)) s) = eraseTime
      (afterCells (n + 1) (BitVec.ofBool (s.cfg.fillerWord.getLsbD 0)) (completingTrace s 0 (n + 1)) s) := by
  induction n generalizing s with
  | zero =>
    rw [completingCells, completingCells, List.append_nil, eraseTime_driveCell, completingTrace_succ]
    simp [completingTrace]
  | succ n ih =>
    rw [completingCells, runMicros_append, eraseTime_runMicros (eraseTime_driveCell ..)]
    refine (ih (afterCells 1 _ _ s)).trans ?_
    rw [afterCells_afterCells, completingTrace_afterCells, completingTrace_succ s 0, Nat.add_comm (0 + 1) (n + 1)]
    rfl

/-! ## Probe pulses -/

/-- What `n` probe pulses show. -/
def pulsesTrace (s : State) (n : Nat) : List PinEvent :=
  (List.range n).flatMap fun k => cellTrace s.cfg 0#1 (answer s k)

theorem pulsesTrace_succ (s : State) (n : Nat) :
    pulsesTrace s (n + 1) = pulsesTrace s n ++ cellTrace s.cfg 0#1 (answer s n) := by
  simp [pulsesTrace, List.range_succ]

/-- `s` up to time after `n` probe pulses, with PROBE at `probe`. -/
def afterPulses (n : Nat) (probe : Byte) (s : State) : State :=
  { afterCells n 0#1 (pulsesTrace s n) s with probe := probe }

/-- The first pulse, PROBE loaded before it. -/
theorem eraseTime_firstPulse (s : State) : eraseTime (runMicros (.loadProbe :: probePulse s.cfg) s)
    = eraseTime (afterPulses 1 (BitVec.ofNat 8 s.cfg.resyncProbeMax - 1#8) s) := by
  rw [runMicros, probePulse, runMicros_append, eraseTime_runMicros (eraseTime_driveCell ..)]
  simp only [afterPulses, pulsesTrace_succ]
  rfl

/-- One more pulse. -/
theorem eraseTime_nextPulse {k : Nat} {probe : Byte} {s u : State}
    (h : eraseTime u = eraseTime (afterPulses (k + 1) probe s)) :
    eraseTime (runMicros (probePulse s.cfg) u) = eraseTime (afterPulses (k + 2) (probe - 1#8) s) := by
  have hans : answer (afterPulses (k + 1) probe s) 0 = answer s (k + 1) :=
    answer_afterCells k 0#1 (pulsesTrace s (k + 1)) s 0
  have hcells := afterCells_afterCells k 0 0#1 0#1 (pulsesTrace s (k + 1)) (cellTrace s.cfg 0#1 (answer s (k + 1))) s
  rw [← pulsesTrace_succ] at hcells
  rw [eraseTime_runMicros h, probePulse, runMicros_append, eraseTime_runMicros (eraseTime_driveCell ..), hans]
  exact (congrArg (fun v : State => eraseTime { v with probe := probe - 1#8 }) hcells :)

theorem decideTail_of_eraseTime {s u : State} (h : eraseTime s = eraseTime u) (test : Tail) :
    decideTail test s = decideTail test u := SameButTime.decideTail (congrArg leaveOp h) test

/-- The test after pulse `k` (from 0). -/
theorem decideTail_probeTest {k : Nat} {probe : Byte} {s u : State}
    (h : eraseTime u = eraseTime (afterPulses (k + 1) probe s)) :
    decideTail .probeTest u = if answer s k = 0#1 then (completingCells s.cfg 16 ++ returnWrites statusOk false, .leave)
      else if probe = 0#8 then (returnWrites statusResyncNoStart false, .leave) else (probePulse s.cfg, .probeTest) :=
  decideTail_of_eraseTime h .probeTest

/-- RESYNC pulses until a sample is 0, at most RESYNC_PROBE_MAX times (R145). -/
theorem finish_probes (op : ReqOp) {s : State} (hp : ProbesOk s.cfg) :
    let k := attempts (fun j => answer s j = 0#1) s.cfg.resyncProbeMax
    ∃ u j, eraseTime u = eraseTime (afterPulses k (BitVec.ofNat 8 (s.cfg.resyncProbeMax - k)) s)
      ∧ finish op 299 (.loadProbe :: probePulse s.cfg) .probeTest s = finish op (j + 2) [] .probeTest u := by
  obtain ⟨hlo, hhi⟩ := hp
  obtain ⟨m, hm⟩ := Nat.exists_eq_add_of_le' hlo
  have hfirst := eraseTime_firstPulse s
  rw [hm, ofNat_succ_sub_one] at hfirst
  have hloop := finish_loop op (test := .probeTest) (round := probePulse s.cfg) (stop := fun j => answer s j = 0#1)
    (k := 0) (m := m) (fuel := 299)
    (at_ := fun k m u => m < 256 ∧ eraseTime u = eraseTime (afterPulses k (BitVec.ofNat 8 m) s))
    (List.append_ne_nil_of_right_ne_nil _ (List.cons_ne_nil _ _)) ?_ ⟨by omega, hfirst⟩ (by omega)
  · simp only [Nat.zero_add] at hloop
    rw [hm]
    obtain ⟨u, j, ⟨-, hu⟩, hfin⟩ := hloop
    exact ⟨u, j, hu, by rw [finish_of_runMicros, hfin]⟩
  · rintro k m u ⟨hlt, hu⟩ hstop
    have hnext := eraseTime_nextPulse hu
    rw [ofNat_succ_sub_one] at hnext
    refine ⟨?_, by omega, hnext⟩
    rw [decideTail_probeTest hu, if_neg (of_decide_eq_false hstop), if_neg (ofNat_succ_ne_zero hlt)]

/-! ## The state after RESYNC -/

/-- The return of RESYNC after `n` more cells: `t` is the state its messages alone would have left. -/
theorem exists_leaveOp_afterCells {t u : State} {q : BteSeq} {n : Nat} {out : Bit} {trace : List PinEvent} {probe : Byte}
    (hidle : t.bteSeq = .idle) (hclk : t.dclk = 1#1)
    (h : eraseTime u = eraseTime { afterCells n out trace (withRun q false t.retry t) with probe := probe }) (code : Byte) :
    ∃ cd fc ws, leaveOp (runMicros (returnWrites code false) u) = { t with
      reqValid := false
      result := code
      probe := probe
      dout := out
      din := answer t (n - 1)
      bIn := answer t (n - 1)
      target := t.target.drop n
      pinTrace := trace.reverse ++ t.pinTrace
      countdown := cd, freeCount := fc, waitStart := ws } := by
  obtain ⟨cd, fc, ws, rfl⟩ := eraseTime_eq_iff.1 h
  refine ⟨cd, fc, ws, ?_⟩
  cases t
  dsimp only at hidle hclk
  subst hidle hclk
  rfl

/-- A start bit found by pulse `k` (from 0), and the cells that complete its frame. -/
theorem eraseTime_completed {k : Nat} {probe : Byte} {s u : State}
    (h : eraseTime u = eraseTime (afterPulses (k + 1) probe s)) :
    eraseTime (runMicros (completingCells s.cfg 16) u) = eraseTime
      { afterCells (k + 1 + 16) (BitVec.ofBool (s.cfg.fillerWord.getLsbD 0))
        (pulsesTrace s (k + 1) ++ completingTrace s (k + 1) 16) s with probe := probe } := by
  have htrace := completingTrace_afterCells k 16 0 0#1 (pulsesTrace s (k + 1)) s
  rw [eraseTime_runMicros h]
  refine (eraseTime_completingCells 15 (afterPulses (k + 1) probe s)).trans ?_
  rw [← afterCells_afterCells k 15 0#1, ← htrace]
  rfl

/-- The three messages of RESYNC. -/
theorem exists_resyncMessages {s : State} (hidle : s.bteSeq = .idle) :
    ∃ q t, AfterMessages s.cfg.fillerWord 3 s t
      ∧ exec .resync s = .next (finish .resync maxTests [] .resyncTest (withRun q false t.retry t)) := by
  have hmsgs : AfterMessages s.cfg.fillerWord 3 (accept .resync s)
      (runMicros (program s.cfg .resync).1 (accept .resync s)) := by
    rw [program, runMicros_append, runMicros_append]
    exact afterMessages_succ (by decide) (afterMessages_succ (by decide) (afterMessages_accept s.cfg.fillerWord .resync s))
  obtain ⟨t, ht, htv⟩ := exists_withRun (withRun_accept .resync s ▸ hmsgs)
  refine ⟨.running .resync (program s.cfg .resync).1 (program s.cfg .resync).2, t, ht, ?_⟩
  rw [exec_of_idle rfl hidle, finish_of_runMicros, retry_of_afterMessages ht, ← htv]
  rfl

/-- The dead-channel test reads the third word. -/
theorem decideTail_resyncTest {w : Half} {s t : State} (h : AfterMessages w 3 s t) (q : BteSeq) (valid : Bool)
    (retry : Byte) : decideTail .resyncTest (withRun q valid retry t) =
      if (heardWord s 34).extractLsb' 0 2 = 0#2 then (returnWrites statusResyncDead false, .leave)
      else (.loadProbe :: probePulse t.cfg, .probeTest) := by
  rw [decideTail, (frame_of_afterMessages (afterMessages_withRun h q valid retry)).2, withRun]

/-- How many probe pulses RESYNC makes from its dead-channel test on. -/
def pulses (t : State) : Nat := attempts (fun j => answer t j = 0#1) t.cfg.resyncProbeMax

/-- RESYNC's run from its dead-channel test on, `t` being the state its messages alone would have left. -/
def probing (q : BteSeq) (t : State) : State :=
  finish .resync 299 (.loadProbe :: probePulse t.cfg) .probeTest (withRun q false t.retry t)

theorem exists_probing {t : State} (hp : ProbesOk t.cfg) (q : BteSeq) : ∃ k u j, pulses t = k + 1
    ∧ eraseTime u = eraseTime
      (afterPulses (k + 1) (BitVec.ofNat 8 (t.cfg.resyncProbeMax - (k + 1))) (withRun q false t.retry t))
    ∧ probing q t = finish .resync (j + 2) [] .probeTest u := by
  obtain ⟨k, hk⟩ := Nat.exists_eq_add_of_le' (attempts_pos (fun j => answer t j = 0#1) hp.1)
  obtain ⟨u, j, hu, hfin⟩ := finish_probes .resync (s := withRun q false t.retry t) hp
  refine ⟨k, u, j, hk, ?_, hfin⟩
  rw [hu, ← hk]
  rfl

/-- A start bit is followed by the cells that complete its frame and OK. -/
theorem probing_of_startBit {t : State} (hidle : t.bteSeq = .idle) (hclk : t.dclk = 1#1) (hp : ProbesOk t.cfg)
    (q : BteSeq) (hstart : answer t (pulses t - 1) = 0#1) : ∃ cd fc ws, probing q t = { t with
      reqValid := false
      result := statusOk
      probe := BitVec.ofNat 8 (t.cfg.resyncProbeMax - pulses t)
      dout := BitVec.ofBool (t.cfg.fillerWord.getLsbD 0)
      din := answer t (pulses t + 15)
      bIn := answer t (pulses t + 15)
      target := t.target.drop (pulses t + 16)
      pinTrace := (completingTrace t (pulses t) 16).reverse ++ (pulsesTrace t (pulses t)).reverse ++ t.pinTrace
      countdown := cd, freeCount := fc, waitStart := ws } := by
  obtain ⟨k, u, j, hk, hu, hfin⟩ := exists_probing hp q
  rw [hk] at hstart ⊢
  obtain ⟨cd, fc, ws, hend⟩ := exists_leaveOp_afterCells hidle hclk (eraseTime_completed hu) statusOk
  refine ⟨cd, fc, ws, ?_⟩
  rw [hfin, finish_of_return ((decideTail_probeTest hu).trans (if_pos hstart)), hend, List.reverse_append]
  rfl

/-- No start bit within RESYNC_PROBE_MAX pulses fails. -/
theorem probing_of_noStartBit {t : State} (hidle : t.bteSeq = .idle) (hclk : t.dclk = 1#1) (hp : ProbesOk t.cfg)
    (q : BteSeq) (hstart : answer t (pulses t - 1) ≠ 0#1) : ∃ cd fc ws, probing q t = { t with
      reqValid := false
      result := statusResyncNoStart
      probe := 0#8
      dout := 0#1
      din := answer t (pulses t - 1)
      bIn := answer t (pulses t - 1)
      target := t.target.drop (pulses t)
      pinTrace := (pulsesTrace t (pulses t)).reverse ++ t.pinTrace
      countdown := cd, freeCount := fc, waitStart := ws } := by
  obtain ⟨k, u, j, hk, hu, hfin⟩ := exists_probing hp q
  have hall : k + 1 = t.cfg.resyncProbeMax :=
    hk ▸ (attempts_last (fun j => answer t j = 0#1) t.cfg.resyncProbeMax hp.1).resolve_left
      fun h => hstart (of_decide_eq_true h)
  rw [hall, Nat.sub_self, ← hall] at hu
  rw [hk] at hstart ⊢
  obtain ⟨cd, fc, ws, hend⟩ := exists_leaveOp_afterCells hidle hclk hu statusResyncNoStart
  have hdecide := (decideTail_probeTest hu).trans ((if_neg hstart).trans (if_pos rfl))
  refine ⟨cd, fc, ws, ?_⟩
  rw [hfin, finish_of_return (body := []) (code := statusResyncNoStart) (out := false) hdecide]
  exact hend

theorem pulsesTrace_eq_probesTrace {s t : State} (hcfg : t.cfg = s.cfg)
    (hans : ∀ j, answer t j = answer s (51 + j)) (k : Nat) : pulsesTrace t k = probesTrace s k := by
  simp only [pulsesTrace, probesTrace, hans, hcfg]

theorem completingTrace_eq_completionTrace {s t : State} (hcfg : t.cfg = s.cfg)
    (hans : ∀ j, answer t j = answer s (51 + j)) (k : Nat) : completingTrace t k 16 = completionTrace s k := by
  simp only [completingTrace, completionTrace, hans, hcfg, Nat.add_assoc]

/-- Settles O13: the three messages, the dead-channel test, and one of the two ends of the probing. -/
theorem resyncProbesForAStartBit : Obligations.ResyncProbesForAStartBit := by
  intro s hidle hp k
  obtain ⟨q, t, ht, hexec⟩ := exists_resyncMessages hidle
  have hcfg := cfg_of_afterMessages ht
  have hclk := dclk_of_afterMessages ht
  have htidle := (bteSeq_of_afterMessages ht).trans hidle
  have hans (j : Nat) : answer t j = answer s (51 + j) := answer_of_afterMessages (by decide) ht j
  have htarget (j : Nat) : t.target.drop j = s.target.drop (51 + j) := by
    rw [target_of_afterMessages ht, List.drop_drop]
  have hk : pulses t = k := by rw [pulses, hcfg, funext hans]
  have hpos : 1 ≤ k := attempts_pos _ hp.1
  have htest := decideTail_resyncTest ht q false t.retry
  refine ⟨t, ht, ?_⟩
  rw [hexec]
  by_cases hdead : (heardWord s 34).extractLsb' 0 2 = 0#2
  · rw [if_pos hdead] at htest ⊢
    rw [maxTests, finish_of_return (body := []) (code := statusResyncDead) (out := false) htest]
    exact congrArg Host.Outcome.next (leaveOp_of_idle (s := { t with reqValid := false, result := 0x03#8 }) htidle)
  rw [if_neg hdead] at htest ⊢
  rw [maxTests, finish_of_decideTail htest (List.cons_ne_nil _ _), ← probing]
  by_cases hstart : answer s (51 + (k - 1)) = 0#1
  · obtain ⟨cd, fc, ws, hend⟩ := probing_of_startBit htidle hclk (hcfg ▸ hp) q (by rw [hans, hk, hstart])
    rw [hk, completingTrace_eq_completionTrace hcfg hans, pulsesTrace_eq_probesTrace hcfg hans, hans, htarget,
      ← Nat.add_assoc, ← Nat.add_assoc] at hend
    rw [if_pos hstart, hend, hcfg]
    exact ⟨cd, fc, ws, rfl⟩
  · obtain ⟨cd, fc, ws, hend⟩ := probing_of_noStartBit htidle hclk (hcfg ▸ hp) q (by rw [hans, hk]; exact hstart)
    rw [hk, pulsesTrace_eq_probesTrace hcfg hans, hans, htarget, ← Nat.add_sub_assoc hpos] at hend
    rw [if_neg hstart, hend]
    exact ⟨cd, fc, ws, rfl⟩

end Sys2Proof.Machine
end

section
/-!
SUPPORT. The two sides of the hand-off (spec/42_bdt_handoff.md): Submit, Consume and Rearm of the CTS (R161 to R163), the
SIE's answer to each token (R164 to R168), and the environment's other moves (R169, R171, R172).
-/

namespace Sys2Proof.Machine

open Sys2Proof Sys2Proof.Safety

/-! ## The CTS's side (R161 to R163) -/

/-- Settles O22: the slot is free and stored through `writeSlot`, or the fault is the one thing that changes. -/
theorem submitHandsOverTheTrackedSlot : Obligations.SubmitHandsOverTheTrackedSlot := by
  intro e ptr n s
  constructor
  · intro hbusy
    rw [submit_eq, hbusy]
    rfl
  · intro hcanon hfree
    refine ⟨_, storedSlot_writeSlot hcanon e .tx _ ptr n 1#1 _ 0#4, ?_⟩
    rw [submit_eq, if_pos hfree]
    rfl

/-- Settles O23: Consume looks at the ownership bit and the count alone. -/
theorem consumeReadsTheCountOfACompletedSlot : Obligations.ConsumeReadsTheCountOfACompletedSlot := by
  intro e d p s k
  constructor
  · intro hbusy
    rw [consume_eq, hbusy]
    rfl
  · intro hfree
    rw [consume_eq, if_pos hfree, ctlCount]

/-- Settles O24: the armed control word is the one of 64 bytes with toggle 1 that the SIE owns. -/
theorem rearmGivesTheSlotItsOwnBuffer : Obligations.RearmGivesTheSlotItsOwnBuffer := by
  refine ⟨fun e p s hcanon => ?_, fun c => ⟨rfl, rfl⟩⟩
  exact ⟨_, storedSlot_writeSlot hcanon e .rx p (rxBuf s.cfg e p) 64#10 1#1 1#1 0#4, rearm_eq e p s⟩

/-! ## A packet in memory -/

/-- A read of some bytes is a read of each (spec/20_memory.md R62). -/
theorem readBytes_eq_map (s : State) (a : Word) (n : Nat) :
    readBytes s a n = (List.range n).map fun k => readByte s (a + BitVec.ofNat 32 k) := by
  induction n generalizing a with
  | zero => rfl
  | succ n ih =>
    rw [readBytes, ih, List.range_succ_eq_map, List.map_cons, List.map_map]
    congr 1
    · rw [BitVec.add_zero]
    · refine List.map_congr_left fun k _ => ?_
      rw [Function.comp_apply, Nat.succ_eq_one_add, BitVec.ofNat_add, ← BitVec.add_assoc]

theorem readBytes_eq_of_readByte {s : State} {a : Word} {bs : List Byte}
    (h : ∀ (k : Nat) (hk : k < bs.length), readByte s (a + BitVec.ofNat 32 k) = bs[k]) :
    readBytes s a bs.length = bs := by
  rw [readBytes_eq_map]
  refine List.ext_getElem (by simp) fun k _ hk => ?_
  rw [List.getElem_map, List.getElem_range, h k hk]

theorem disjoint_comm (a : Word) (n : Nat) (b : Word) (m : Nat) : disjoint a n b m = disjoint b m a n := by
  rw [disjoint, disjoint, Bool.or_comm (decide (n = 0)), Bool.and_comm]

/-- With memory `m`, the receive slot the SIE's parity names holds the packet `bytes`, completed, its buffer holds their
bytes, and every byte outside both reads as in `s` (spec/42_bdt_handoff.md R164). -/
def PacketStored (s : State) (m : Memory) (e : Endpoint) (tog : Bit) (kind : BitVec 4) (bytes : List Byte) : Prop :=
  let p := s.sieParity.get e .rx
  let buf := slotBuf s e .rx p
  SlotHolds { s with mem := m } e .rx p buf (BitVec.ofNat 10 bytes.length) 0#1 tog kind
    ∧ readBytes { s with mem := m } buf bytes.length = bytes
    ∧ ∀ a : Word, bytes.length ≤ (a - buf).toNat → ¬ InSlot s.cfg e .rx p a → SameByte s { s with mem := m } a

section
variable {s : State} (h : MemoryCanonical s) (e : Endpoint) (d : Dir) (p : Bit)
include h

/-- A byte outside a slot reads as before the slot's completion. -/
theorem readByte_completed_of_outside (n : BitVec 10) (tog : Bit) (kind : BitVec 4) {a : Word}
    (ha : ¬ InSlot s.cfg e d p a) : readByte (completed e d p n tog kind s) a = readByte s a := by
  have hword : readByte (completed e d p n tog kind s) a
      = readByte (writeWord (slotAddr s.cfg e d p) (ctlWord n 0#1 tog kind) s) a := readByte_congr rfl rfl a
  rw [hword]
  exact readByte_writeWord_of_outside h _ _ a (by simp only [InSlot] at ha; omega)

/-- A completion stores the slot with the buffer it has. -/
theorem storedSlot_completed (n : BitVec 10) (tog : Bit) (kind : BitVec 4) :
    StoredSlot s (completed e d p n tog kind s).mem e d p (slotBuf s e d p) n 0#1 tog kind := by
  have hset := setsSlot_completed h e d p n tog kind
  have hc : (completed e d p n tog kind s).cfg = s.cfg := (completed_frame e d p n tog kind s).1
  exact ⟨⟨(slotBuf_with_mem hc e d p).trans hset.buf, (slotCtl_with_mem hc e d p).trans hset.ctl⟩,
    fun a ha => (readByte_with_mem hc a).trans (readByte_completed_of_outside h e d p n tog kind ha)⟩

end

/-- A buffer that stands apart from its slot takes the packet, and the slot then the completion. -/
theorem packetStored_filled {s : State} (h : MemoryCanonical s) {e : Endpoint} (tog : Bit) (kind : BitVec 4)
    {bytes : List Byte} (hlen : bytes.length < 2 ^ 10)
    (hapart : disjoint (slotBuf s e .rx (s.sieParity.get e .rx)) bytes.length
      (slotAddr s.cfg e .rx (s.sieParity.get e .rx)) 8 = true) :
    PacketStored s (filled e tog kind bytes s).mem e tog kind bytes := by
  simp only [PacketStored, filled]
  generalize s.sieParity.get e .rx = p at *
  have hcfg := writeBytes_cfg (slotBuf s e .rx p) bytes s
  have hcanon := memoryCanonical_writeBytes h (slotBuf s e .rx p) bytes
  have hinside := readByte_writeBytes_of_inside h (slotBuf s e .rx p) bytes
  have houtside := fun x => readByte_writeBytes_of_outside h (slotBuf s e .rx p) x bytes
  have hsame : SameSlot s (writeBytes (slotBuf s e .rx p) bytes s) e .rx p :=
    sameSlot_of_bytes hcfg fun k hk => houtside _ <| outside_of_disjoint hapart <| by
      rw [add_sub_cancel_left, BitVec.toNat_ofNat]
      omega
  generalize writeBytes (slotBuf s e .rx p) bytes s = u at *
  have hset := setsSlot_completed hcanon e .rx p (BitVec.ofNat 10 bytes.length) tog kind
  have hkept := fun a => readByte_completed_of_outside hcanon e .rx p (BitVec.ofNat 10 bytes.length) tog kind (a := a)
  have hcfg' : (completed e .rx p (BitVec.ofNat 10 bytes.length) tog kind u).cfg = s.cfg :=
    (completed_frame ..).1.trans hcfg
  generalize completed e .rx p (BitVec.ofNat 10 bytes.length) tog kind u = t at *
  rw [hcfg] at hkept
  refine ⟨⟨?_, (slotCtl_with_mem hcfg' e .rx p).trans hset.ctl⟩, readBytes_eq_of_readByte fun k hk => ?_,
    fun a hbuf hslot => (readByte_with_mem hcfg' a).trans ((hkept a hslot).trans (houtside a hbuf))⟩
  · exact (slotBuf_with_mem hcfg' e .rx p).trans (hset.buf.trans hsame.2)
  · have hslot : ¬ InSlot s.cfg e .rx p (slotBuf s e .rx p + BitVec.ofNat 32 k) := by
      rw [disjoint_comm] at hapart
      refine Nat.not_lt.2 (outside_of_disjoint hapart ?_)
      rw [add_sub_cancel_left, BitVec.toNat_ofNat]
      omega
    rw [readByte_with_mem hcfg', hkept _ hslot, hinside k hk (by omega)]

/-! ## A completion (R164, R165) -/

/-- `s` after the SIE has completed the slot (`e`, `d`) its parity names, `m` being the memory then: the parity flips, and
the record is queued and shown. -/
def recorded (m : Memory) (e : Endpoint) (d : Dir) (s : State) : State :=
  { s with
    mem := m
    sieParity := s.sieParity.set e d (s.sieParity.get e d ^^^ 1#1)
    queue := s.queue ++ [{ endpoint := e, dir := d, parity := s.sieParity.get e d }]
    tokStatus := if s.queue = [] then tokStatusOf { endpoint := e, dir := d, parity := s.sieParity.get e d }
      else s.tokStatus
    intStatus := s.intStatus ||| 0x08#8 }

theorem completed_eq_recorded (e : Endpoint) (d : Dir) (n : BitVec 10) (tog : Bit) (kind : BitVec 4) (s : State) :
    completed e d (s.sieParity.get e d) n tog kind s
      = recorded (completed e d (s.sieParity.get e d) n tog kind s).mem e d s := by
  rw [completed, writeWord_eq]
  simp [recorded, pushCompletion, EpBits.flip]

theorem filled_eq_recorded (e : Endpoint) (tog : Bit) (kind : BitVec 4) (bytes : List Byte) (s : State) :
    filled e tog kind bytes s = recorded (filled e tog kind bytes s).mem e .rx s := by
  have hparity := writeBytes_sieParity (slotBuf s e .rx (s.sieParity.get e .rx)) bytes s
  have hu := writeBytes_eq (slotBuf s e .rx (s.sieParity.get e .rx)) bytes s
  rw [filled]
  generalize writeBytes (slotBuf s e .rx (s.sieParity.get e .rx)) bytes s = u at *
  rw [← hparity, completed_eq_recorded, hu]
  rfl

/-- A packet that fits, touches no descriptor (spec/93_implementation_defined.md U8) and stands apart from the slot is
stored and acknowledged. -/
theorem receive_stores {s : State} (h : MemoryCanonical s) {e : Endpoint} (tog : Bit) (kind : BitVec 4)
    {bytes : List Byte} (hlen : bytes.length < 2 ^ 10)
    (htouch : touchesDescriptor s.cfg (slotBuf s e .rx (s.sieParity.get e .rx)) bytes.length = false)
    (hapart : disjoint (slotBuf s e .rx (s.sieParity.get e .rx)) bytes.length
      (slotAddr s.cfg e .rx (s.sieParity.get e .rx)) 8 = true) :
    ∃ m, receive kind e tog bytes s = .next (reply kind e .ack (if kind = kindSetup ∧ e = 0
        then clearEp0Stall (recorded m e .rx s) else recorded m e .rx s)) ∧ PacketStored s m e tog kind bytes := by
  refine ⟨_, ?_, packetStored_filled h tog kind hlen hapart⟩
  rw [← filled_eq_recorded, receive, if_neg (by rw [htouch]; decide)]
  rfl

/-- A packet sent is completed in its slot, and nothing else in memory changes. -/
theorem sent_stores {s : State} (h : MemoryCanonical s) (e : Endpoint) :
    let p := s.sieParity.get e .tx
    let ctl := slotCtl s e .tx p
    ∃ m, sent e s = recorded m e .tx s
      ∧ StoredSlot s m e .tx p (slotBuf s e .tx p) (ctlCount ctl) 0#1 (ctlToggle ctl) 0x9#4 :=
  ⟨_, completed_eq_recorded .., storedSlot_completed h ..⟩

/-! ## Tokens (R164 to R168) -/

theorem sieListens_iff (addr : BitVec 7) (e : Endpoint) (s : State) :
    sieListens addr e s = true ↔ s.sieFrozen = 0#1 ∧ addr = s.devAddr ∧ e.val < s.cfg.numEndpoints := by
  simp only [sieListens, Bool.and_eq_true, decide_eq_true_eq, and_assoc]

theorem queueFull_iff (s : State) : queueFull s = true ↔ s.cfg.queueDepth ≤ s.queue.length := decide_eq_true_iff

/-- Settles O46: the model's test of a SETUP token is the rule's, and an accepted one is `receive` with its 8 bytes. -/
theorem setupTokenCompletesAnArmedSlot : Obligations.SetupTokenCompletesAnArmedSlot := by
  intro addr e q s p ctl buf accepted
  have haccepted : (sieListens addr e s ∧ ctlOwn ctl = 1#1 ∧ 8 ≤ (ctlCount ctl).toNat ∧ ¬ queueFull s) ↔ accepted := by
    rw [sieListens_iff, queueFull_iff, Nat.not_le, and_assoc, and_assoc]
  refine ⟨fun hnot => if_neg (mt haccepted.1 hnot), fun hacc htouch hcanon hapart => ?_⟩
  obtain ⟨m, hreceive, hstored⟩ :=
    receive_stores (bytes := q.toBytes) hcanon 0#1 kindSetup (by decide : 8 < 2 ^ 10) htouch hapart
  refine ⟨m, ?_, hstored⟩
  rw [hostSetup, if_pos (haccepted.2 hacc), hreceive]
  by_cases he : e = 0
  · rw [if_pos ⟨rfl, he⟩, if_pos he]
    rfl
  · rw [if_neg (not_and_of_not_right _ he), if_neg he]
    rfl

/-- The SIE's answer to an OUT token it sees, in the order of the rules. -/
theorem hostOut_of_listens {addr : BitVec 7} {e : Endpoint} {s : State} (h : sieListens addr e s = true) (tog : Bit)
    (bytes : List Byte) :
    hostOut addr e tog bytes s =
      let ctl := slotCtl s e .rx (s.sieParity.get e .rx)
      if e = 0 ∧ (s.epCtl[0]).getLsbD 1 = true then .next (reply kindOut e .stall (setCondition 0x80#8 s))
      else if ctlOwn ctl = 0#1 ∨ s.cfg.queueDepth ≤ s.queue.length then .next (reply kindOut e .nak s)
      else if (ctlCount ctl).toNat < bytes.length then .next (reply kindOut e .silent (setCondition 0x02#8 s))
      else if tog ≠ ctlToggle ctl then .next (reply kindOut e .silent s)
      else receive kindOut e tog bytes s := by
  simp only [hostOut, h, not_true_eq_false, if_false, queueFull_iff, epStalled]
  rfl

/-- The SIE's answer to an IN token it sees, in the order of the rules. -/
theorem hostIn_of_listens {addr : BitVec 7} {e : Endpoint} {s : State} (h : sieListens addr e s = true) (acked : Bool) :
    hostIn addr e acked s =
      let ctl := slotCtl s e .tx (s.sieParity.get e .tx)
      if (s.epCtl[e]).getLsbD 1 = true then
        .next (reply kindIn e .stall (if e = 0 then setCondition 0x80#8 s else s))
      else if ctlOwn ctl = 0#1 ∨ s.cfg.queueDepth ≤ s.queue.length then .next (reply kindIn e .nak s)
      else
        let buf := slotBuf s e .tx (s.sieParity.get e .tx)
        let packet := (List.range (ctlCount ctl).toNat).map fun k => readByte s (buf + BitVec.ofNat 32 k)
        .next (reply kindIn e (.data (ctlToggle ctl) packet) (if acked then sent e s else s)) := by
  simp only [hostIn, h, not_true_eq_false, if_false, queueFull_iff, epStalled, readBytes_eq_map]

/-- Settles O47: each answer is one branch of `hostOut`, in the rule's order. -/
theorem outTokenNeedsAnArmedSlotAndItsToggle : Obligations.OutTokenNeedsAnArmedSlotAndItsToggle := by
  intro addr e tog bytes s hfrozen haddr he
  have hrun := hostOut_of_listens ((sieListens_iff addr e s).2 ⟨hfrozen, haddr, he⟩) tog bytes
  dsimp only at hrun ⊢
  by_cases hstall : e = 0 ∧ (s.epCtl[0]).getLsbD 1 = true
  · rw [if_pos hstall] at hrun ⊢
    exact hrun
  rw [if_neg hstall] at hrun ⊢
  by_cases hnone : ctlOwn (slotCtl s e .rx (s.sieParity.get e .rx)) = 0#1 ∨ s.cfg.queueDepth ≤ s.queue.length
  · rw [if_pos hnone] at hrun ⊢
    exact hrun
  rw [if_neg hnone] at hrun ⊢
  by_cases hlong : (ctlCount (slotCtl s e .rx (s.sieParity.get e .rx))).toNat < bytes.length
  · rw [if_pos hlong] at hrun ⊢
    exact hrun
  rw [if_neg hlong] at hrun ⊢
  by_cases htog : tog ≠ ctlToggle (slotCtl s e .rx (s.sieParity.get e .rx))
  · rw [if_pos htog] at hrun ⊢
    exact hrun
  rw [if_neg htog] at hrun ⊢
  intro htouch hcanon hapart
  obtain ⟨m, hreceive, hstored⟩ := receive_stores hcanon tog kindOut
    (Nat.lt_of_le_of_lt (Nat.le_of_not_lt hlong) (BitVec.isLt _)) htouch hapart
  rw [hreceive, if_neg (not_and_of_not_left _ (by decide))] at hrun
  exact ⟨m, hrun, hstored⟩

/-- Settles O48: each answer is one branch of `hostIn`, in the rule's order; `sent` is reached only with the host's
acknowledgement. -/
theorem inTokenSendsTheSubmittedSlot : Obligations.InTokenSendsTheSubmittedSlot := by
  intro addr e acked s hfrozen haddr he
  have hrun := hostIn_of_listens ((sieListens_iff addr e s).2 ⟨hfrozen, haddr, he⟩) acked
  dsimp only at hrun ⊢
  by_cases hstall : (s.epCtl[e]).getLsbD 1 = true
  · rw [if_pos hstall] at hrun ⊢
    rw [hrun]
    split <;> rfl
  rw [if_neg hstall] at hrun ⊢
  by_cases hnone : ctlOwn (slotCtl s e .tx (s.sieParity.get e .tx)) = 0#1 ∨ s.cfg.queueDepth ≤ s.queue.length
  · rw [if_pos hnone] at hrun ⊢
    exact hrun
  rw [if_neg hnone] at hrun ⊢
  cases acked with
  | false => exact hrun
  | true =>
    intro hcanon
    obtain ⟨m, hsent, hstored⟩ := sent_stores hcanon e
    rw [if_pos rfl, hsent] at hrun
    exact ⟨m, hrun, hstored⟩

/-! ## The environment's other moves (R169, R171, R172; R25, R29, R72, R275) -/

/-- A token the SIE does not see is recorded as unanswered, whatever its kind (log 29). -/
theorem token_of_not_listens {addr : BitVec 7} {e : Endpoint} {s : State} (h : ¬ sieListens addr e s = true) (q : Setup)
    (tog : Bit) (bytes : List Byte) (acked : Bool) :
    hostSetup addr e q s = .next (reply kindSetup e .silent s)
      ∧ hostOut addr e tog bytes s = .next (reply kindOut e .silent s)
      ∧ hostIn addr e acked s = .next (reply kindIn e .silent s) :=
  ⟨if_neg fun hall => h hall.1, if_pos h, if_pos h⟩

/-- `Kept` lets RESET_DETECTED be cleared, never set. -/
theorem Kept.resetDetected {s t : State} (h : Kept s t) (ht : t.resetDetected = 1#1) : s.resetDetected = 1#1 := by
  obtain ⟨-, -, -, -, hreset⟩ := h
  exact hreset ht

/-- RESET_DETECTED is set by the reset sense alone (spec/10_state.md R25). -/
theorem resetDetected_of_applyEvent {ev : Event} {s t : State} (h : applyEvent ev s = .next t) (hev : ev ≠ .resetSense)
    (ht : t.resetDetected = 1#1) : s.resetDetected = 1#1 := by
  have same (hsame : withBte s t = t) : s.resetDetected = 1#1 := by
    rw [← hsame] at ht
    exact ht
  cases ev with
  | bte => exact (bteTurn_kept h).resetDetected ht
  | bteMicro => exact (bteMicroTurn_kept h).resetDetected ht
  | cts => exact (ctsTurn_kept h).resetDetected ht
  | request bytes =>
    simp only [applyEvent, issueRequest] at h
    split at h <;> cases h
    exact ht
  | writeReq bytes =>
    simp only [applyEvent, writeRequest] at h
    split at h
    · cases h
    split at h <;> cases h
    exact ht
  | bootBte v =>
    simp only [applyEvent, bootBte] at h
    split at h
    · cases h
    split at h <;> cases h
    exact ht
  | bootIntEnable v =>
    rw [applyEvent, bootIntEnable_eq] at h
    split at h
    · cases h
    split at h <;> cases h
    exact ht
  | resetSense => exact absurd rfl hev
  | tick | busReset | sof | sleep | busError =>
    cases h
    exact ht
  | hostSetup addr e p => exact same (withBte_of_hostSetup h)
  | hostOut addr e tog bytes => exact same (withBte_of_hostOut h)
  | hostIn addr e acked => exact same (withBte_of_hostIn h)
  | sieBuffer e p off b => exact same (withBte_of_sieBufferWrite h)

/-- A step is a turn, or applies the event at the head of the script. -/
theorem step_turn_or_event {s t : State} (h : step s = .next t) :
    ctsTurn s = .next t ∨ bteTurn s = .next t
      ∨ ∃ ev rest, s.script = ev :: rest ∧ applyEvent ev (afterBoot ev { s with script := rest }) = .next t := by
  unfold step stepMachine at h
  split at h <;> obtain ⟨-, -, hmove⟩ := guarded_next h
  · unfold blockTurn at hmove
    split at hmove
    · exact .inl hmove
    · exact .inr (.inl hmove)
  · unfold eventMove at hmove
    split at hmove
    · split at hmove
      · exact .inr (.inl hmove)
      · exact .inr (.inr ⟨.request _, _, ‹_›, hmove⟩)
    · exact .inr (.inr ⟨_, _, ‹_›, hmove⟩)

theorem resetDetected_of_step {s t : State} (h : step s = .next t) (ht : t.resetDetected = 1#1)
    (hev : s.script.head? ≠ some .resetSense) : s.resetDetected = 1#1 := by
  obtain hturn | hturn | ⟨ev, rest, hscript, hrun⟩ := step_turn_or_event h
  · exact (ctsTurn_kept hturn).resetDetected ht
  · exact (bteTurn_kept hturn).resetDetected ht
  · refine resetDetected_of_applyEvent (s := afterBoot ev { s with script := rest }) hrun (fun heq => hev ?_) ht
    rw [hscript, heq, List.head?_cons]

/-- The SIE writes a byte of a receive buffer it owns, unless a descriptor has it (spec/20_memory.md R72, R75). -/
theorem sieBufferWrite_eq (e : Endpoint) (p : Bit) (off : Nat) (b : Byte) (s : State) :
    sieBufferWrite e p off b s =
      if e.val < s.cfg.numEndpoints ∧ slotFree s e .rx p = false ∧ off < (ctlCount (slotCtl s e .rx p)).toNat then
        if touchesDescriptor s.cfg (slotBuf s e .rx p + BitVec.ofNat 32 off) 1 then .refused .immutableWrite
        else .next (writeByte (slotBuf s e .rx p + BitVec.ofNat 32 off) b s)
      else .refused .notOwnedBySie := by
  obtain ⟨hfree, hown⟩ | ⟨hfree, hown⟩ := slotFree_or s e .rx p <;> simp [sieBufferWrite, hfree, hown]

/-- Settles O49: each event is read off its move; for RESET_DETECTED, every other move keeps it or clears it. -/
theorem frozenOrForeignTokensChangeNothing : Obligations.FrozenOrForeignTokensChangeNothing := by
  refine ⟨fun s => ⟨rfl, rfl, rfl, rfl⟩, fun addr e q tog bytes acked s hdeaf => ?_, fun s => rfl,
    fun s t h ht hev => resetDetected_of_step h ht hev, fun s => ⟨rfl, ?_, ?_⟩, fun e p off b s => ?_, fun bytes s => rfl⟩
  · refine token_of_not_listens (fun hl => ?_) q tog bytes acked
    obtain ⟨hfrozen, haddr, -⟩ := (sieListens_iff addr e s).1 hl
    obtain h | h := hdeaf
    · rw [h] at hfrozen
      exact absurd hfrozen (by decide)
    · exact h haddr
  · rw [applyEvent, countDown_succ, countDown_zero]
  · intro k t h
    cases h
    simp only [applyEvent, countDown_succ, countDown_zero]
  · intro a owned run
    have hrun := sieBufferWrite_eq e p off b s
    have hdesc := touchesDescriptor_byte s.cfg a
    refine ⟨fun hnot => hrun.trans (if_neg hnot),
      fun howned hin => hrun.trans ((if_pos howned).trans (if_pos (hdesc.2 hin))), fun howned hin hcanon => ?_⟩
    have hread := fun x => readByte_writeByte hcanon a x b
    exact ⟨_, hrun.trans ((if_pos howned).trans (if_neg (mt hdesc.1 hin))), (hread a).trans (if_pos rfl),
      fun x hx => (hread x).trans (if_neg hx)⟩

end Sys2Proof.Machine
end

section
/-!
SUPPORT. Responses on endpoint 0 (spec/43_ep0_control.md R196 to R198): the pending-transmit cursor as a value of its own
and the packets it owes, and what ServiceChunk and StartResponse make of it.
-/

namespace Sys2Proof.Machine

open Sys2Proof Sys2Proof.Safety

/-! ## One packet (spec/42_bdt_handoff.md R161) -/

theorem submit_of_free {e : Endpoint} {s : State} (h : slotFree s e .tx (s.parity.get e .tx) = true) (ptr : Word)
    (n : BitVec 10) : submit e ptr n s = .go (afterSubmit e ptr n s) :=
  (submit_eq_afterSubmit e ptr n s).trans (if_pos h)

theorem submit_of_busy {e : Endpoint} {s : State} (h : slotFree s e .tx (s.parity.get e .tx) = false) (ptr : Word)
    (n : BitVec 10) : submit e ptr n s = .halted (raise (.slotBusy e .tx (s.parity.get e .tx)) s) :=
  (submit_eq_afterSubmit e ptr n s).trans (if_neg (by simp [h]))

theorem submitted_of_submit {s u : State} (hcanon : MemoryCanonical s) {ptr : Word} {n : BitVec 10}
    (h : submit 0 ptr n s = .go u) : Submitted ptr n s u := by
  rw [submit_eq_afterSubmit] at h
  split at h
  · cases h
    exact ⟨_, storedSlot_writeSlot hcanon 0 .tx _ ptr n 1#1 _ 0#4, rfl⟩
  · cases h

theorem exists_submit {s : State} (hcanon : MemoryCanonical s) (hfree : slotFree s 0 .tx (s.parity.get 0 .tx) = true)
    (ptr : Word) (n : BitVec 10) : ∃ u, submit 0 ptr n s = .go u ∧ Submitted ptr n s u ∧ MemoryCanonical u :=
  ⟨_, submit_of_free hfree ptr n, submitted_of_submit hcanon (submit_of_free hfree ptr n),
    (setsSlot_afterSubmit hcanon 0 ptr n).canonical⟩

/-- After a Submit the tracker names the other slot, which is as it was. -/
theorem nextSlot_of_submitted {ptr : Word} {n : BitVec 10} {s u : State} (h : Submitted ptr n s u) :
    u.parity.get 0 .tx = s.parity.get 0 .tx ^^^ 1#1
      ∧ slotFree u 0 .tx (s.parity.get 0 .tx ^^^ 1#1) = slotFree s 0 .tx (s.parity.get 0 .tx ^^^ 1#1) := by
  obtain ⟨m, hstored, rfl⟩ := h
  have hother : slotIndex 0 .tx (s.parity.get 0 .tx ^^^ 1#1) ≠ slotIndex 0 .tx (s.parity.get 0 .tx) := fun heq =>
    bit_ne_flip _ (slotIndex_injective heq).2.2
  refine ⟨EpBits.get_set_self s.parity 0 .tx _, ?_⟩
  rw [slotFree, slotFree, ← (storedSlot_other hstored hother).1]
  rfl

/-! ## The packets still owed (spec/45_operation_laws.md R251) -/

/-- Fuel beyond the number of bytes makes no difference. -/
theorem packetsFrom_congr {f g r : Nat} (hf : r ≤ f) (hg : r ≤ g) (ptr : Word) (zlp : Bool) :
    packetsFrom f ptr r zlp = packetsFrom g ptr r zlp := by
  induction f generalizing g r ptr with
  | zero =>
    obtain rfl : r = 0 := by omega
    cases g <;> simp [packetsFrom]
  | succ f ih =>
    cases g with
    | zero =>
      obtain rfl : r = 0 := by omega
      simp [packetsFrom]
    | succ g =>
      rw [packetsFrom, packetsFrom]
      split
      · rfl
      · rw [ih (g := g) (by omega) (by omega)]

theorem packets_zero (ptr : Word) (zlp : Bool) : packets ptr 0 zlp = if zlp then [(0#32, 0#10)] else [] := rfl

theorem packets_of_pos {r : Nat} (h : 0 < r) (ptr : Word) (zlp : Bool) :
    packets ptr r zlp = (ptr, BitVec.ofNat 10 (min r 64))
      :: packets (ptr + BitVec.ofNat 32 (min r 64)) (r - min r 64) zlp := by
  obtain ⟨k, rfl⟩ : ∃ k, r = k + 1 := ⟨r - 1, by omega⟩
  rw [packets, packetsFrom, if_neg (by omega), packets, packetsFrom_congr (by omega) le_rfl]

/-! ## The cursor (spec/10_state.md R40, R41) -/

/-- The pending-transmit cursor and the flag of the terminating zero-length packet. -/
structure Cursor where
  ptr : Word
  remaining : Half
  zlp : Bit
  valid : Bit

/-- The cursor of a state. -/
def cursorOf (s : State) : Cursor :=
  { ptr := s.cursorPtr, remaining := s.cursorRemaining, zlp := s.zlpPending, valid := s.cursorValid }

/-- `s` with the cursor `c`. -/
def setCursor (c : Cursor) (s : State) : State :=
  { s with cursorPtr := c.ptr, cursorRemaining := c.remaining, zlpPending := c.zlp, cursorValid := c.valid }

/-- A Submit leaves the cursor alone. -/
theorem cursorOf_of_submitted {ptr : Word} {n : BitVec 10} {s u : State} (h : Submitted ptr n s u) :
    cursorOf u = cursorOf s := by
  obtain ⟨m, -, rfl⟩ := h
  rfl

/-- The packets a cursor owes; those of a state's cursor are `owedPackets`. -/
def Cursor.owed (c : Cursor) : List (Word × BitVec 10) := packets c.ptr c.remaining.toNat (c.zlp = 1#1)

/-- The cursor after ServiceChunk (spec/43_ep0_control.md R198). -/
def Cursor.next (c : Cursor) : Cursor :=
  let remaining := BitVec.ofNat 16 (c.remaining.toNat - 64)
  let zlp := if c.remaining = 0#16 then 0#1 else c.zlp
  { ptr := c.ptr + BitVec.ofNat 32 (min c.remaining.toNat 64)
    remaining := remaining
    zlp := zlp
    valid := if remaining ≠ 0#16 ∨ zlp = 1#1 then 1#1 else 0#1 }

theorem Cursor.toNat_next_remaining (c : Cursor) : c.next.remaining.toNat = c.remaining.toNat - 64 := by
  have := c.remaining.isLt
  rw [Cursor.next, BitVec.toNat_ofNat, Nat.mod_eq_of_lt (by omega)]

section
variable {c : Cursor}

theorem Cursor.owed_of_bytes (h : c.remaining ≠ 0#16) :
    c.owed = (c.ptr, BitVec.ofNat 10 (min c.remaining.toNat 64)) :: c.next.owed := by
  have hpos : 0 < c.remaining.toNat := by bv_omega
  have hzlp : c.next.zlp = c.zlp := if_neg h
  rw [Cursor.owed, packets_of_pos hpos, Cursor.owed, c.toNat_next_remaining, hzlp]
  congr 2
  omega

/-- `next` while bytes are left, as R198 says it. -/
theorem Cursor.next_of_bytes (h : c.remaining ≠ 0#16) : c.next =
    { ptr := c.ptr + BitVec.ofNat 32 (min c.remaining.toNat 64)
      remaining := BitVec.ofNat 16 (c.remaining.toNat - 64)
      zlp := c.zlp
      valid := if 64 < c.remaining.toNat ∨ c.zlp = 1#1 then 1#1 else 0#1 } := by
  have hlt : BitVec.ofNat 16 (c.remaining.toNat - 64) ≠ 0#16 ↔ 64 < c.remaining.toNat := by bv_omega
  simp only [Cursor.next, if_neg h, hlt]

theorem Cursor.next_of_no_bytes (h : c.remaining = 0#16) : c.next = { c with zlp := 0#1, valid := 0#1 } := by
  obtain ⟨ptr, r, zlp, valid⟩ := c
  cases h
  simp [Cursor.next]

/-- Once no byte is left, at most the zero-length packet is owed, and nothing after it. -/
theorem Cursor.owed_of_no_bytes (h : c.remaining = 0#16) :
    c.owed = (if c.zlp = 1#1 then [(0#32, 0#10)] else []) ∧ c.next.owed = [] := by
  rw [Cursor.next_of_no_bytes h, Cursor.owed, Cursor.owed, h]
  exact ⟨by simp [packets_zero], by simp [packets_zero]⟩

theorem Cursor.owed_next (c : Cursor) : c.next.owed = c.owed.tail := by
  by_cases h : c.remaining = 0#16
  · obtain ⟨howed, hnext⟩ := c.owed_of_no_bytes h
    rw [hnext, howed]
    split <;> rfl
  · rw [c.owed_of_bytes h, List.tail_cons]

/-- Something is due exactly when a packet is owed. -/
theorem Cursor.owed_eq_nil_iff : c.owed = [] ↔ c.remaining = 0#16 ∧ c.zlp = 0#1 := by
  have bit : ∀ b : Bit, ¬ b = 1#1 ↔ b = 0#1 := by decide
  by_cases h : c.remaining = 0#16
  · rw [(c.owed_of_no_bytes h).1, ← bit]
    simp [h]
  · simp [c.owed_of_bytes h, h]

/-- The cursor after two chunks, where a zero-length packet is owed after whole packets only. -/
theorem Cursor.next_next (hr : c.remaining ≠ 0#16) (hz : c.zlp = 1#1 → c.remaining.toNat % 64 = 0) : c.next.next =
    { ptr := c.ptr + BitVec.ofNat 32 (min c.remaining.toNat 128)
      remaining := BitVec.ofNat 16 (c.remaining.toNat - 128)
      zlp := if c.zlp = 1#1 ∧ 128 ≤ c.remaining.toNat then 1#1 else 0#1
      valid := if 128 < c.remaining.toNat ∨ (c.zlp = 1#1 ∧ 128 ≤ c.remaining.toNat) then 1#1 else 0#1 } := by
  have hpos : 0 < c.remaining.toNat := by bv_omega
  have hrem := c.toNat_next_remaining
  have hptr : c.next.ptr = c.ptr + BitVec.ofNat 32 (min c.remaining.toNat 64) := rfl
  have hzlp : c.next.zlp = c.zlp := if_neg hr
  by_cases hmore : c.next.remaining = 0#16
  · have hle : c.remaining.toNat ≤ 64 := by bv_omega
    rw [next_of_no_bytes hmore, hptr, hmore]
    simp [show ¬ 128 ≤ c.remaining.toNat by omega, show ¬ 128 < c.remaining.toNat by omega,
      show min c.remaining.toNat 64 = min c.remaining.toNat 128 by omega, show c.remaining.toNat - 128 = 0 by omega]
  · have hlt : 64 < c.remaining.toNat := by bv_omega
    rw [next_of_bytes hmore, hptr, hzlp, hrem, BitVec.add_assoc, ← BitVec.ofNat_add,
      show min c.remaining.toNat 64 + min (c.remaining.toNat - 64) 64 = min c.remaining.toNat 128 by omega,
      show c.remaining.toNat - 64 - 64 = c.remaining.toNat - 128 by omega]
    have hlast : 64 < c.remaining.toNat - 64 ↔ 128 < c.remaining.toNat := by omega
    obtain h | h := bit_cases c.zlp
    · simp [h, hlast]
    · have := hz h
      simp [h, show 128 ≤ c.remaining.toNat by omega]

end

/-! ## ServiceChunk (R198) -/

theorem owedPackets_of_bytes {s : State} (h : s.cursorRemaining ≠ 0#16) :
    owedPackets s = (s.cursorPtr, BitVec.ofNat 10 (min s.cursorRemaining.toNat 64)) :: (cursorOf s).next.owed :=
  Cursor.owed_of_bytes (c := cursorOf s) h

theorem owedPackets_of_no_bytes {s : State} (h : s.cursorRemaining = 0#16) :
    owedPackets s = if s.zlpPending = 1#1 then [(0#32, 0#10)] else [] :=
  (Cursor.owed_of_no_bytes (c := cursorOf s) h).1

theorem owedPackets_eq_nil_iff (s : State) : owedPackets s = [] ↔ s.cursorRemaining = 0#16 ∧ s.zlpPending = 0#1 :=
  Cursor.owed_eq_nil_iff (c := cursorOf s)

theorem owedPackets_ne_nil {s : State} (h : s.cursorRemaining ≠ 0#16 ∨ s.zlpPending = 1#1) :
    owedPackets s ≠ [] := by
  intro hnil
  obtain ⟨hr, hz⟩ := (owedPackets_eq_nil_iff s).1 hnil
  rw [hr, hz] at h
  exact absurd h (by decide)

/-- The first of some packets is submitted on endpoint 0, if there is one. -/
def submitHead : List (Word × BitVec 10) → State → Flow
  | [], s => .go s
  | q :: _, s => submit 0 q.1 q.2 s

theorem afterSubmit_setCursor (e : Endpoint) (ptr : Word) (n : BitVec 10) (c : Cursor) (s : State) :
    afterSubmit e ptr n (setCursor c s) = setCursor c (afterSubmit e ptr n s) := by
  rw [afterSubmit, writeSlot_mem_congr (t := setCursor c s) (s := s) rfl rfl]
  rfl

theorem submit_setCursor (e : Endpoint) (ptr : Word) (n : BitVec 10) (c : Cursor) (s : State) :
    submit e ptr n (setCursor c s) = (submit e ptr n s).map (setCursor c) := by
  rw [submit_eq_afterSubmit, submit_eq_afterSubmit, afterSubmit_setCursor]
  exact Flow.ite_map Iff.rfl rfl rfl

theorem submitHead_setCursor (l : List (Word × BitVec 10)) (c : Cursor) (s : State) :
    submitHead l (setCursor c s) = (submitHead l s).map (setCursor c) := by
  cases l with
  | nil => rfl
  | cons q l => exact submit_setCursor ..

/-- What comes after a Submit finds the cursor as it was before. -/
theorem submit_andThen_congr {e : Endpoint} {ptr : Word} {n : BitVec 10} {s : State} {k k' : State → Flow}
    (h : ∀ u, cursorOf u = cursorOf s → k u = k' u) :
    (submit e ptr n s).andThen k = (submit e ptr n s).andThen k' := by
  rw [submit_eq_afterSubmit]
  split
  · exact h _ (by rw [cursorOf, afterSubmit]; rfl)
  · rfl

/-- The size of the next chunk, as a byte count, as an offset and off what remains. -/
theorem chunkSize_spec (r : Half) :
    (chunkSize r).setWidth 10 = BitVec.ofNat 10 (min r.toNat 64)
      ∧ (chunkSize r).setWidth 32 = BitVec.ofNat 32 (min r.toNat 64)
      ∧ r - chunkSize r = BitVec.ofNat 16 (r.toNat - 64) := by
  have hk : (chunkSize r).toNat = min r.toNat 64 := by
    rw [chunkSize, ep0MaxPacket]
    split
    · omega
    · simp; omega
  refine ⟨?_, ?_, ?_⟩ <;> apply BitVec.eq_of_toNat_eq
  · rw [BitVec.toNat_setWidth, hk, BitVec.toNat_ofNat]
  · rw [BitVec.toNat_setWidth, hk, BitVec.toNat_ofNat]
  · have := r.isLt
    rw [BitVec.toNat_sub_of_le (BitVec.le_def.2 (by omega)), hk, BitVec.toNat_ofNat]
    omega

/-- The cursor's own part of ServiceChunk, once a chunk, the zero-length packet or nothing is submitted. -/
theorem updateCursorValid_eq (s : State) :
    (s.cursorRemaining ≠ 0#16 → updateCursorValid { s with
        cursorPtr := s.cursorPtr + (chunkSize s.cursorRemaining).setWidth 32
        cursorRemaining := s.cursorRemaining - chunkSize s.cursorRemaining } = setCursor (cursorOf s).next s)
      ∧ (s.cursorRemaining = 0#16 →
        updateCursorValid { s with zlpPending := 0#1 } = setCursor (cursorOf s).next s) := by
  obtain ⟨-, h32, hsub⟩ := chunkSize_spec s.cursorRemaining
  refine ⟨fun hr => ?_, fun hr => ?_⟩
  · have hzlp : (cursorOf s).next.zlp = s.zlpPending := if_neg hr
    rw [h32, hsub, ← hzlp]
    rfl
  · rw [Cursor.next_of_no_bytes hr]
    simp [updateCursorValid, setCursor, cursorOf, hr]

/-- ServiceChunk submits the first packet the cursor owes and moves the cursor on. -/
theorem serviceChunk_eq (s : State) :
    serviceChunk s = (submitHead (owedPackets s) s).andThen fun u => .go (setCursor (cursorOf s).next u) := by
  rw [serviceChunk]
  by_cases hr : s.cursorRemaining = 0#16
  · rw [if_neg (not_not.2 hr), owedPackets_of_no_bytes hr]
    by_cases hzlp : s.zlpPending = 1#1
    · rw [if_pos hzlp, if_pos hzlp]
      refine submit_andThen_congr fun u hu => ?_
      rw [← hu, (updateCursorValid_eq u).2 ((congrArg Cursor.remaining hu).trans hr)]
    · have hs : { s with zlpPending := 0#1 } = s := by rw [← (bit_cases _).resolve_right hzlp]
      rw [if_neg hzlp, if_neg hzlp, submitHead, Flow.andThen_go, ← (updateCursorValid_eq s).2 hr, hs]
  · rw [if_pos hr, owedPackets_of_bytes hr, ← (chunkSize_spec s.cursorRemaining).1]
    refine submit_andThen_congr fun u hu => ?_
    have hsame : u.cursorRemaining = s.cursorRemaining := congrArg Cursor.remaining hu
    rw [← hu, ← hsame, (updateCursorValid_eq u).1 (hsame ▸ hr)]

/-- What ServiceChunk leaves, once its packet, if there is one, is submitted. -/
theorem chunkServed_next {s u : State} (hcanon : MemoryCanonical s) (h : submitHead (owedPackets s) s = .go u) :
    ChunkServed s (setCursor (cursorOf s).next u) := by
  unfold ChunkServed
  by_cases hr : s.cursorRemaining = 0#16
  · rw [owedPackets_of_no_bytes hr] at h
    rw [if_neg (not_not.2 hr), Cursor.next_of_no_bytes hr]
    by_cases hzlp : s.zlpPending = 1#1
    · rw [if_pos hzlp] at h
      have hsub := submitted_of_submit hcanon h
      rw [if_pos hzlp, ← cursorOf_of_submitted hsub]
      exact ⟨u, hsub, rfl⟩
    · rw [if_neg hzlp] at h
      cases h
      rw [if_neg hzlp, ← (bit_cases _).resolve_right hzlp]
      rfl
  · rw [owedPackets_of_bytes hr] at h
    have hsub := submitted_of_submit hcanon h
    have hzlp : u.zlpPending = (cursorOf s).zlp := congrArg Cursor.zlp (cursorOf_of_submitted hsub)
    rw [if_pos hr, Cursor.next_of_bytes hr]
    exact ⟨u, hsub, by rw [hzlp]; rfl⟩

/-- Where nothing is to be submitted, or the slot is free, Submit raises no fault. -/
theorem exists_submitHead {s : State} {l : List (Word × BitVec 10)}
    (h : slotFree s 0 .tx (s.parity.get 0 .tx) = true ∨ l = []) : ∃ u, submitHead l s = .go u := by
  cases l with
  | nil => exact ⟨s, rfl⟩
  | cons q l => exact ⟨_, submit_of_free (h.resolve_right (List.cons_ne_nil q l)) q.1 q.2⟩

/-- A packet that is due and finds its slot the SIE's. -/
theorem serviceChunk_of_busy {s : State} (hbusy : slotFree s 0 .tx (s.parity.get 0 .tx) = false)
    (hdue : owedPackets s ≠ []) :
    serviceChunk s = .halted (raise (.slotBusy 0 .tx (s.parity.get 0 .tx)) s) := by
  obtain ⟨q, l, hl⟩ := List.exists_cons_of_ne_nil hdue
  rw [serviceChunk_eq, hl, submitHead, submit_of_busy hbusy]
  rfl

theorem exists_serviceChunk {s : State} (hcanon : MemoryCanonical s)
    (h : slotFree s 0 .tx (s.parity.get 0 .tx) = true ∨ owedPackets s = []) :
    ∃ t, serviceChunk s = .go t ∧ ChunkServed s t := by
  obtain ⟨u, hu⟩ := exists_submitHead h
  exact ⟨_, by rw [serviceChunk_eq, hu]; rfl, chunkServed_next hcanon hu⟩

/-- Settles O25: ServiceChunk submits the first of the packets the cursor owes. -/
theorem serviceChunkSendsTheNextPacket : Obligations.ServiceChunkSendsTheNextPacket := fun s =>
  ⟨fun hcanon hroom => exists_serviceChunk hcanon (hroom.imp_right (owedPackets_eq_nil_iff s).2),
    fun hbusy hdue => serviceChunk_of_busy hbusy (owedPackets_ne_nil hdue)⟩

/-! ## StartResponse (R197) -/

theorem toNat_responseSize (len limit : Half) : (responseSize len limit).toNat = min len.toNat limit.toNat := by
  rw [responseSize]
  split <;> omega

theorem responseSize_eq_zero_iff (len limit : Half) :
    responseSize len limit = 0#16 ↔ min len.toNat limit.toNat = 0 := by
  rw [← toNat_responseSize]
  bv_omega

theorem owesZlp_eq (len limit : Half) : owesZlp len limit = zlpOwed len.toNat limit.toNat := by
  rw [owesZlp, zlpOwed, ← Bool.decide_and, ← Bool.decide_and, decide_eq_decide, ne_eq, responseSize_eq_zero_iff,
    toNat_responseSize, ep0MaxPacket]
  omega

/-- The cursor StartResponse loads owes the whole answer. -/
theorem owed_loadCursor {len limit : Half} (hn : responseSize len limit ≠ 0#16) (ptr : Word) (s : State) :
    (cursorOf (loadCursor ptr len limit s)).owed = answerPackets ptr len.toNat limit.toNat := by
  rw [answerPackets, if_neg (mt (responseSize_eq_zero_iff len limit).2 hn), ← toNat_responseSize, ← owesZlp_eq]
  cases h : owesZlp len limit <;> simp [Cursor.owed, cursorOf, loadCursor, h]

/-- The cursor StartResponse leaves: what the first two packets of the answer do not cover. -/
theorem next_next_loadCursor {len limit : Half} (hn : responseSize len limit ≠ 0#16) (ptr : Word) (s : State) :
    let n := min len.toNat limit.toNat
    let owed := zlpOwed len.toNat limit.toNat
    (cursorOf (loadCursor ptr len limit s)).next.next =
      { ptr := ptr + BitVec.ofNat 32 (min n 128)
        remaining := BitVec.ofNat 16 (n - 128)
        zlp := if owed ∧ 128 ≤ n then 1#1 else 0#1
        valid := if 128 < n ∨ (owed ∧ 128 ≤ n) then 1#1 else 0#1 } := by
  intro n owed
  have hsize : (cursorOf (loadCursor ptr len limit s)).remaining.toNat = n := toNat_responseSize len limit
  have hzlp : (cursorOf (loadCursor ptr len limit s)).zlp = 1#1 ↔ owed = true := by
    simp [cursorOf, loadCursor, owesZlp_eq, owed]
  have hptr : (cursorOf (loadCursor ptr len limit s)).ptr = ptr := rfl
  rw [Cursor.next_next hn, hsize, hptr]
  · simp only [hzlp]
  · rw [hzlp, hsize]
    simp only [owed, n, zlpOwed, decide_eq_true_eq]
    omega

theorem serviceChunk_setCursor_of_go {c : Cursor} {s u : State} (h : submitHead c.owed s = .go u) :
    serviceChunk (setCursor c s) = .go (setCursor c.next u) := by
  rw [serviceChunk_eq, submitHead_setCursor, show owedPackets (setCursor c s) = c.owed from rfl, h]
  rfl

theorem serveChunks_one (s : State) : serveChunks 1 s = serviceChunk s := by
  rw [serveChunks]
  cases serviceChunk s <;> rfl

/-- ServiceChunk leaves the cursor's flag up to date. -/
theorem updateCursorValid_of_serviceChunk {s u : State} (h : serviceChunk s = .go u) : updateCursorValid u = u := by
  rw [serviceChunk_eq] at h
  cases hf : submitHead (owedPackets s) s with
  | go v =>
    rw [hf] at h
    cases h
    rfl
  | halted v =>
    rw [hf] at h
    cases h

/-- A response of at least one byte is two chunks, the second of which may find nothing due. -/
theorem startResponse_eq_serveChunks {len limit : Half} (hn : responseSize len limit ≠ 0#16) (ptr : Word)
    (s : State) :
    startResponse ptr len limit s =
      (serveChunks 2 (loadCursor ptr len limit s)).andThen fun u => .go { u with ctlState := .dataStage } := by
  rw [startResponse_eq, if_neg hn, serveChunks]
  cases h : serviceChunk (loadCursor ptr len limit s) with
  | halted u => rfl
  | go u =>
    have second : (if u.cursorRemaining ≠ 0#16 ∨ u.zlpPending = 1#1 then serviceChunk u else .go u)
        = serviceChunk u := by
      split
      · rfl
      · rename_i hdone
        rw [serviceChunk, if_neg fun hr => hdone (.inl hr), if_neg fun hz => hdone (.inr hz),
          updateCursorValid_of_serviceChunk h]
    rw [Flow.andThen_go, Flow.andThen_go, second, serveChunks_one]

/-- A response of no byte at all is one zero-length packet. -/
theorem startResponse_of_empty {len limit : Half} (hn : responseSize len limit = 0#16) (ptr : Word) (s : State) :
    startResponse ptr len limit s =
      ((submit 0 0#32 0#10 s).map (setCursor (cursorOf (loadCursor ptr len limit s)))).andThen fun s =>
        .go { s with cursorValid := 0#1, ctlState := .statusPending } := by
  rw [startResponse_eq, if_pos hn, ← submit_setCursor]
  rfl

theorem answerPackets_of_empty {len limit : Half} (hn : responseSize len limit = 0#16) (ptr : Word) :
    answerPackets ptr len.toNat limit.toNat = [(0#32, 0#10)] :=
  if_pos ((responseSize_eq_zero_iff len limit).1 hn)

theorem exists_answerPackets {len limit : Half} (hn : responseSize len limit ≠ 0#16) (ptr : Word) :
    ∃ q l, answerPackets ptr len.toNat limit.toNat = q :: l := by
  have hpos : 0 < min len.toNat limit.toNat := Nat.pos_of_ne_zero (mt (responseSize_eq_zero_iff len limit).2 hn)
  rw [answerPackets, if_neg hpos.ne', packets_of_pos hpos]
  exact ⟨_, _, rfl⟩

/-- The first packet of the answer finds its slot taken. -/
theorem startResponse_of_busy {s : State} (hbusy : slotFree s 0 .tx (s.parity.get 0 .tx) = false) (ptr : Word)
    (len limit : Half) :
    startResponse ptr len limit s =
      .halted (raise (.slotBusy 0 .tx (s.parity.get 0 .tx)) (loadCursor ptr len limit s)) := by
  by_cases hn : responseSize len limit = 0#16
  · rw [startResponse_eq, if_pos hn, submit_of_busy (s := loadCursor ptr len limit s) hbusy]
    rfl
  · have hdue : owedPackets (loadCursor ptr len limit s) ≠ [] := fun hnil =>
      hn ((owedPackets_eq_nil_iff _).1 hnil).1
    rw [startResponse_eq_serveChunks hn, serveChunks, serviceChunk_of_busy (s := loadCursor ptr len limit s) hbusy hdue]
    rfl

/-- Once the first packet of the answer is submitted, what is left of the response is one chunk for the rest. -/
theorem startResponse_of_first {ptr : Word} {len limit : Half} {s u : State} {q : Word × BitVec 10}
    {l : List (Word × BitVec 10)} (hn : responseSize len limit ≠ 0#16)
    (hl : answerPackets ptr len.toNat limit.toNat = q :: l) (h : submit 0 q.1 q.2 s = .go u) :
    ∃ c : Cursor, c.owed = l ∧ c.next = (cursorOf (loadCursor ptr len limit s)).next.next ∧
      startResponse ptr len limit s =
        (serviceChunk (setCursor c u)).andThen fun v => .go { v with ctlState := .dataStage } := by
  have howed := owed_loadCursor hn ptr s
  rw [hl] at howed
  have hfirst : submitHead (cursorOf (loadCursor ptr len limit s)).owed s = .go u := howed ▸ h
  refine ⟨_, by rw [Cursor.owed_next, howed, List.tail_cons], rfl, ?_⟩
  rw [startResponse_eq_serveChunks hn, serveChunks,
    show serviceChunk (loadCursor ptr len limit s) = _ from serviceChunk_setCursor_of_go hfirst, Flow.andThen_go,
    serveChunks_one]

theorem exists_startResponse {ptr : Word} {len limit : Half} {s : State} (hcanon : MemoryCanonical s)
    (hroom : RoomFor ptr len limit s) : ∃ t, startResponse ptr len limit s = .go t ∧ Responded ptr len limit s t := by
  obtain ⟨hfree, hsecond⟩ := hroom
  unfold Responded
  by_cases hn : responseSize len limit = 0#16
  · have hzero := (responseSize_eq_zero_iff len limit).1 hn
    have hzlp : owesZlp len limit = false := by simp [owesZlp, hn]
    obtain ⟨u, hu, hsub, -⟩ := exists_submit hcanon hfree 0#32 0#10
    rw [startResponse_of_empty hn, hu, answerPackets_of_empty hn]
    refine ⟨_, rfl, u, hsub, ?_⟩
    simp [setCursor, cursorOf, loadCursor, hzero, hn, hzlp]
  · have hzero := mt (responseSize_eq_zero_iff len limit).2 hn
    obtain ⟨q, l, hl⟩ := exists_answerPackets hn ptr
    obtain ⟨u, hu, hsub, hcanon'⟩ := exists_submit hcanon hfree q.1 q.2
    obtain ⟨hpar, hother⟩ := nextSlot_of_submitted hsub
    obtain ⟨c, rfl, hnext, hstart⟩ := startResponse_of_first hn hl hu
    rw [next_next_loadCursor hn] at hnext
    rw [hl] at hsecond ⊢
    have hgo {v : State} (hv : submitHead c.owed u = .go v) : startResponse ptr len limit s =
        .go { setCursor c.next v with ctlState := .dataStage } := by
      rw [hstart, serviceChunk_setCursor_of_go hv, Flow.andThen_go]
    rw [hnext] at hgo
    cases h : c.owed with
    | nil =>
      rw [h] at hgo
      exact ⟨_, hgo rfl, u, hsub, by rw [if_neg hzero]; rfl⟩
    | cons r l =>
      rw [h] at hgo hsecond
      have hfree' : slotFree u 0 .tx (u.parity.get 0 .tx) = true := by
        rw [hpar, hother]
        exact hsecond (by simp)
      obtain ⟨v, hv, hsub', -⟩ := exists_submit hcanon' hfree' r.1 r.2
      exact ⟨_, hgo hv, v, ⟨u, hsub, hsub'⟩, by rw [if_neg hzero]; rfl⟩

/-- Settles O26: the packets of the answer are those the loaded cursor owes, and two chunks serve the first two. -/
theorem startResponseSendsTwoPackets : Obligations.StartResponseSendsTwoPackets := by
  intro ptr len limit s p n
  refine ⟨exists_startResponse, fun hbusy => ?_, fun hcanon hfree hbusy hlen => ?_⟩
  · have hsize : responseSize len limit = BitVec.ofNat 16 n := by
      rw [show n = _ from (toNat_responseSize len limit).symm, BitVec.ofNat_toNat, BitVec.setWidth_eq]
    rw [startResponse_of_busy hbusy, raise, loadCursor, owesZlp_eq, hsize]
  · have hn : responseSize len limit ≠ 0#16 := by
      intro h0
      rw [answerPackets_of_empty h0] at hlen
      exact absurd hlen (by decide)
    obtain ⟨q, l, hl⟩ := exists_answerPackets hn ptr
    obtain ⟨u, hu, hsub, -⟩ := exists_submit hcanon hfree q.1 q.2
    obtain ⟨hpar, hother⟩ := nextSlot_of_submitted hsub
    obtain ⟨c, rfl, -, hstart⟩ := startResponse_of_first hn hl hu
    rw [hl] at hlen ⊢
    have hbusy' : slotFree (setCursor c u) 0 .tx ((setCursor c u).parity.get 0 .tx) = false :=
      (congrArg (slotFree u 0 .tx) hpar).trans (hother.trans hbusy)
    have hdue : owedPackets (setCursor c u) ≠ [] := List.ne_nil_of_length_pos (Nat.le_of_succ_le_succ hlen)
    have hfaults : u.faults = s.faults := by
      obtain ⟨m, -, rfl⟩ := hsub
      rfl
    refine ⟨q, u, _, rfl, hsub, by rw [hstart, serviceChunk_of_busy hbusy' hdue, Flow.andThen_halted], ?_⟩
    rw [← hfaults, ← hpar]
    rfl

end Sys2Proof.Machine
end

section
/-!
SUPPORT. The rows of endpoint 0 (spec/43_ep0_control.md R190 to R195, R200 to R205): what each request and each event of
the control endpoint leaves, from what its internal operations do.
-/

namespace Sys2Proof.Machine

open Sys2Proof Sys2Proof.Safety

/-- The end of a row whose handler went on (spec/44_usb_dispatcher.md R231). -/
theorem returned_go (s : State) : ((Flow.go s).andThen handlerReturn).outcome = .next (Safety.tokenDone s) := by
  rw [Flow.andThen_go, handlerReturn_eq, Flow.outcome_go]

/-! ## Requests (R193 to R196, R202 to R204) -/

theorem exists_ackRequest {s : State} (hcanon : MemoryCanonical s)
    (hfree : slotFree s 0 .tx (s.parity.get 0 .tx) = true) :
    ∃ t, Submitted 0#32 0#10 s t ∧ ackRequest s = .go { t with ctlState := .statusPending } := by
  obtain ⟨t, ht, hsub, -⟩ := exists_submit hcanon hfree 0#32 0#10
  exact ⟨t, hsub, by rw [ackRequest, ht]; rfl⟩

theorem findDescriptor_eq_some {c : Params} {value index : Half} {before after : List DescEntry} {d : DescEntry}
    (htable : c.descTable = before ++ d :: after) (hbefore : ∀ d' ∈ before, ¬ (d'.value = value ∧ d'.index = index))
    (hvalue : d.value = value) (hindex : d.index = index) : findDescriptor c value index = some d := by
  rw [findDescriptor, htable, List.find?_eq_some_iff_append]
  exact ⟨by simp [hvalue, hindex], before, after, rfl, fun d' hd' => by rw [decide_eq_false (hbefore d' hd')]; rfl⟩

/-- Settles O28: the lookup finds the first entry of the key, and its response is StartResponse's. -/
theorem getDescriptorAnswersFromTheTable : Obligations.GetDescriptorAnswersFromTheTable := by
  intro rt value index length s
  refine ⟨fun before after d htable hbefore hvalue hindex hcanon hroom => ?_, fun hnone => ?_⟩
  · obtain ⟨t, hgo, ht⟩ := exists_startResponse hcanon hroom
    refine ⟨t, ht, ?_⟩
    rw [exec, execGetDescriptor, findDescriptor_eq_some htable hbefore hvalue hindex]
    simp only [hgo, returned_go]
  · have hfind : findDescriptor s.cfg value index = none := List.find?_eq_none.2 fun d hd => by simpa using hnone d hd
    rw [exec, execGetDescriptor, hfind]
    simp only [stallPath_eq, returned_go]

/-- Settles O30: the address is recorded before the acknowledgement, which does not look at it. -/
theorem setAddressIsDeferred : Obligations.SetAddressIsDeferred := by
  intro rt value index length s hcanon hfree
  obtain ⟨t, ⟨m, hm, rfl⟩, hack⟩ :=
    exists_ackRequest (s := { s with addrValue := value.extractLsb' 0 7, addrPending := 1#1 }) hcanon hfree
  refine ⟨_, ⟨m, hm, rfl⟩, ?_⟩
  rw [exec, execSetAddress, hack, returned_go]

/-- Settles O31: the row is the acknowledgement. -/
theorem setConfigurationIsAcknowledged : Obligations.SetConfigurationIsAcknowledged := by
  intro rt value index length s hcanon hfree
  obtain ⟨t, hsub, hack⟩ := exists_ackRequest hcanon hfree
  exact ⟨t, hsub, by rw [exec, execSetConfiguration, hack, returned_go]⟩

/-- Settles O32: the row is the stall path. -/
theorem unrecognisedRequestStalls : Obligations.UnrecognisedRequestStalls := by
  intro rt code value index length s
  rw [exec, execUnrecognised, stallPath_eq, returned_go]
  rfl

/-- Settles O33: each answer of the vendor handler is one internal operation. -/
theorem vendorHandlerPicksOneOfFourActions : Obligations.VendorHandlerPicksOneOfFourActions := by
  intro rt code value index length s shown run
  have hrun : run = ((actOn (s.vendorAnswers.head?.getD s.cfg.vendorDefault) length shown).andThen
    handlerReturn).outcome := execVendor_eq ..
  generalize s.vendorAnswers.head?.getD s.cfg.vendorDefault = a at *
  cases a with
  | respond ptr len =>
    intro hcanon hroom
    obtain ⟨t, hgo, ht⟩ := exists_startResponse (s := shown) hcanon hroom
    exact ⟨t, ht, by rw [hrun, actOn, hgo, returned_go]⟩
  | acknowledge =>
    intro hcanon hfree
    obtain ⟨t, hsub, hack⟩ := exists_ackRequest (s := shown) hcanon hfree
    exact ⟨t, hsub, by rw [hrun, actOn, hack, returned_go]⟩
  | reject => exact hrun.trans (returned_go _)
  | nothing => exact hrun.trans (returned_go _)

/-! ## Events (R190, R191, R200, R201, R205) -/

theorem consume_of_free {e : Endpoint} {d : Dir} {p : Bit} {s : State} (h : slotFree s e d p = true)
    (k : BitVec 10 → State → Flow) : consume e d p s k = k (ctlCount (slotCtl s e d p)) s :=
  (consume_eq e d p s k).trans (if_pos h)

theorem consume_of_busy {e : Endpoint} {d : Dir} {p : Bit} {s : State} (h : slotFree s e d p = false)
    (k : BitVec 10 → State → Flow) : consume e d p s k = .halted (raise (.ownershipViolation e d p) s) :=
  (consume_eq e d p s k).trans (if_neg (by simp [h]))

theorem rearmed_rearm {s : State} (h : MemoryCanonical s) (p : Bit) : Rearmed p s (rearm 0 p s) :=
  ⟨_, storedSlot_writeSlot h 0 .rx p (rxBuf s.cfg 0 p) 64#10 1#1 1#1 0#4, rearm_eq 0 p s⟩

/-- The snapshot of R191, byte by byte (R63). -/
theorem takenPacket_eq (p : Bit) (s : State) :
    takenPacket p s =
      let b := fun k : Nat => readByte s (slotBuf s 0 .rx p + BitVec.ofNat 32 k)
      Setup.mk (b 0) (b 1) (b 3 ++ b 2) (b 5 ++ b 4) (b 7 ++ b 6) := by
  rw [takenPacket, readBytes_eq_map]
  rfl

/-- Rearm and the clearing of R191 do not look at the packet. -/
theorem exists_callClassify {s : State} (hcanon : MemoryCanonical s) (p : Bit) (packet : Setup) :
    ∃ t, Rearmed p s t ∧ callClassify (rearm 0 p { s with setup := packet }) = { t with
      setup := packet
      toggle := s.toggle.set 0 .tx 1#1
      cursorValid := 0#1
      cursorRemaining := 0#16
      zlpPending := 0#1
      addrPending := 0#1
      ctsSeq := seqAt .request s.ctsSeq } := by
  obtain ⟨m, hm, hrearm⟩ := rearmed_rearm (s := { s with setup := packet }) hcanon p
  refine ⟨_, ⟨m, hm, rfl⟩, ?_⟩
  rw [hrearm, callClassify, callPhase_eq]

/-- Settles O34: the snapshot is read before Rearm stores the slot, and Rearm does not look at it. -/
theorem setupEventSnapshotsAndRearms : Obligations.SetupEventSnapshotsAndRearms := by
  intro p s hcanon hfree hcount b
  obtain ⟨t, ht, hleft⟩ := exists_callClassify hcanon p (takenPacket p s)
  refine ⟨t, ht, ?_⟩
  rw [exec, execEp0Setup_eq, consume_of_free hfree, if_neg (not_not.2 hcount), Flow.outcome_go, hleft, takenPacket_eq]

/-- Settles O35: Consume stops at a slot of the SIE's, EP0.SETUP at a count other than 8, and nothing comes before. -/
theorem brokenCompletionIsAFault : Obligations.BrokenCompletionIsAFault := by
  intro p s
  refine ⟨fun hbusy => ⟨?_, ?_⟩, fun hbusy => ?_, fun hfree hcount => ?_⟩
  · rw [exec, execEp0Setup_eq, consume_of_busy hbusy]
    rfl
  · rw [exec, execEp0Out_eq, consume_of_busy hbusy]
    rfl
  · rw [exec, execEp0In, consume_of_busy hbusy]
    rfl
  · rw [exec, execEp0Setup_eq, consume_of_free hfree, if_pos hcount]
    rfl

/-- Settles O36: Consume and Rearm, then the state register. -/
theorem outEventRearmsTheSlot : Obligations.OutEventRearmsTheSlot := by
  intro p s hcanon hfree
  obtain ⟨m, hm, hrearm⟩ := rearmed_rearm hcanon p
  refine ⟨_, ⟨m, hm, rfl⟩, ?_⟩
  rw [exec, execEp0Out_eq, consume_of_free hfree, returned_go, hrearm, endDataStage]

/-- An IN event whose slot is completed: what is left of the row after the chunk. -/
theorem exec_ep0In_of_free {p : Bit} {s : State} (hfree : slotFree s 0 .tx p = true) :
    exec (.ep0In p) s = (((if s.cursorValid = 1#1 then serviceChunk s else .go s).andThen
      fun t => .go (inStatusStage t)).andThen handlerReturn).outcome := by
  rw [exec, execEp0In, consume_of_free hfree]
  simp only [applyAddress_eq]
  rfl

/-- Settles O37: the chunk by ServiceChunk's own statement, then the status stage. -/
theorem inEventServesTheCursorThenTheAddress : Obligations.InEventServesTheCursorThenTheAddress := by
  intro p s hfree
  rw [exec_ep0In_of_free hfree]
  refine ⟨fun hvalid => ?_, fun hvalid hcanon hroom => ?_, fun hvalid hdue hbusy => ?_⟩
  · rw [if_neg (by simp [hvalid]), Flow.andThen_go, returned_go]
  · obtain ⟨t, hgo, hserved⟩ := exists_serviceChunk hcanon (.inl hroom)
    exact ⟨t, hserved, by rw [if_pos hvalid, hgo, Flow.andThen_go, returned_go]⟩
  · rw [if_pos hvalid, serviceChunk_of_busy hbusy (owedPackets_ne_nil hdue)]
    rfl

/-- Settles O38: Consume and one line of the trace; EPN.DEFAULT without Consume. -/
theorem unexpectedEventIsOnlyLogged : Obligations.UnexpectedEventIsOnlyLogged := by
  intro t s d p
  have hd : dirOfBit (tokenDirection t) = d := rfl
  have hp : tokenParity t = p := rfl
  refine ⟨fun hfree => ?_, fun hbusy => ?_, returned_go _⟩
  · rw [exec, execEp0Unexpected, hd, hp, consume_of_free hfree, returned_go]
  · rw [exec, execEp0Unexpected, hd, hp, consume_of_busy hbusy]
    rfl

end Sys2Proof.Machine
end

section
/-!
SUPPORT. The dispatcher (spec/44_usb_dispatcher.md R230 to R239): what an acknowledgement clears, what each condition's
row leaves, and the slots and bytes the bus-reset rebuild stores.
-/

namespace Sys2Proof.Machine

open Sys2Proof Sys2Proof.Safety

/-! ## The acknowledgement (R239; spec/42_bdt_handoff.md R169, R170) -/

/-- Without TOKDNE and USBRST an acknowledgement clears its conditions and does nothing else. -/
theorem ackStatus_of_plain {v : Byte} (h0 : v.getLsbD 0 = false) (h3 : v.getLsbD 3 = false) (s : State) :
    ackStatus v s = { s with
      intStatus := s.intStatus &&& ~~~(v &&& 0x9F#8), usbTrace := .write .intStatus v :: s.usbTrace } := by
  simp only [ackStatus, h0, h3, Bool.false_eq_true, if_false]

/-- Acknowledging TOKDNE removes the head of the queue, and TOKDNE and TOK_STATUS follow what is left of it (R170). -/
theorem ackStatus_of_tokdne {v : Byte} (h0 : v.getLsbD 0 = false) (h3 : v.getLsbD 3 = true) (s : State) :
    ackStatus v s = { s with
      intStatus := withTokdne (s.intStatus &&& ~~~(v &&& 0x9F#8)) s.queue.tail
      tokStatus := shownHead s.tokStatus s.queue.tail
      queue := s.queue.tail
      usbTrace := .write .intStatus v :: s.usbTrace } := by
  have hcleared : s.intStatus &&& ~~~(v &&& 0x9F#8) = withTokdne (s.intStatus &&& ~~~(v &&& 0x9F#8)) [] :=
    (eq_withTokdne_iff _ []).2 (by simp [← BitVec.getLsbD_eq_getElem, h3])
  rw [ackStatus_eq]
  cases s.queue.tail with
  | nil => simp only [h0, h3, ne_eq, not_true_eq_false, and_false, Bool.false_eq_true, if_true, if_false, ← hcleared]
  | cons r q =>
    simp only [h0, h3, ne_eq, reduceCtorEq, not_false_eq_true, and_self, Bool.false_eq_true, if_true, if_false]
    rfl

/-- Acknowledging USBRST clears TOKDNE whatever is left of the queue (R169). -/
theorem ackStatus_of_busReset {v : Byte} (h0 : v.getLsbD 0 = true) (s : State) :
    ackStatus v s = { s with
      intStatus := s.intStatus &&& ~~~(v &&& 0x9F#8) &&& ~~~0x08#8
      tokStatus := if v.getLsbD 3 then shownHead s.tokStatus s.queue.tail else s.tokStatus
      queue := []
      sieParity := EpBits.zero
      sieFrozen := 0#1
      usbTrace := .write .intStatus v :: s.usbTrace } := by
  have cleared : ∀ x : Byte, (x ||| 0x08#8) &&& ~~~0x08#8 = x &&& ~~~0x08#8 := by decide
  rw [ackStatus_eq]
  simp only [h0, if_true]
  split
  · rw [cleared]
  · rfl

/-- TOKDNE is shown exactly while the queue holds a record. -/
theorem tokdne_withTokdne (v : Byte) (q : List Completion) : (withTokdne v q).getLsbD 3 = !q.isEmpty := by
  cases q <;> simp [withTokdne]

/-- A condition other than TOKDNE stays exactly where the written byte does not name it: what else an acknowledgement
does to INT_STATUS is at bit 3. -/
theorem condition_ackStatus (v : Byte) (s : State) {k : Nat} (hk : k < 8) (h3 : k ≠ 3) :
    (ackStatus v s).intStatus.getLsbD k = (s.intStatus.getLsbD k && !(v.getLsbD k && (0x9F#8).getLsbD k)) := by
  have eight : ∀ k < 8, k ≠ 3 → (0x08#8).getLsbD k = false := by decide
  rw [ackStatus_eq]
  dsimp only
  split <;> split <;>
    simp only [BitVec.getLsbD_and, BitVec.getLsbD_or, BitVec.getLsbD_not, eight k hk h3, hk, decide_true, Bool.true_and,
      Bool.not_false, Bool.and_true, Bool.or_false]

/-- Settles O43: one equation for each of the cases the written byte makes. -/
theorem acknowledgementClearsWhatItNames : Obligations.AcknowledgementClearsWhatItNames := by
  intro v s
  refine ⟨fun k => condition_ackStatus v s, fun h0 h3 => ackStatus_of_plain h0 h3 s, fun h0 h3 => ?_, fun h0 => ?_,
    ?_⟩
  · rw [ackStatus_of_tokdne h0 h3]
    exact ⟨rfl, tokdne_withTokdne _ _, fun r rest hq => congrArg (shownHead s.tokStatus) hq, rfl, rfl⟩
  · rw [ackStatus_of_busReset h0]
    exact ⟨rfl, by simp, EpBits.get_zero, rfl⟩
  · rw [ackStatus_eq]

/-! ## The quiet conditions (R234, R235, R237, R238) -/

/-- A condition other than TOKDNE and USBRST that is acknowledged and done with. -/
theorem conditionDone_ackStatus {v : Byte} (h0 : v.getLsbD 0 = false) (h3 : v.getLsbD 3 = false) (s : State) :
    conditionDone v (ackStatus v s) = { s with
      intStatus := s.intStatus &&& ~~~(v &&& 0x9F#8)
      usbTrace := .write .intStatus v :: s.usbTrace
      ctsSeq := seqAfter v s.ctsSeq } := by
  rw [conditionDone_eq, ackStatus_of_plain h0 h3]

/-- Settles O41: four times the same acknowledgement. -/
theorem quietConditionsAreAcknowledged : Obligations.QuietConditionsAreAcknowledged := fun s =>
  ⟨congrArg _ (conditionDone_ackStatus (v := 0x02#8) rfl rfl { s with usbTrace := .logTransferError :: s.usbTrace }),
    congrArg _ (conditionDone_ackStatus (v := 0x04#8) rfl rfl s),
    congrArg _ (conditionDone_ackStatus (v := 0x10#8) rfl rfl s),
    congrArg _ (conditionDone_ackStatus (v := 0x80#8) rfl rfl s)⟩

/-! ## Entry and the token-done selection (R230, R231, R236) -/

/-- Settles O42: only `cts_seq` moves, so what is fetched next is the event code of the same state. -/
theorem tokenDoneCallsTheHandler : Obligations.TokenDoneCallsTheHandler := by
  intro s
  refine ⟨congrArg _ (callPhase_eq .token s), fun hf hseq => ?_⟩
  cases h : s.ctsSeq with
  | idle => exact absurd h hseq
  | inInvocation st rest ph =>
    refine (ctsFetch_of_phase (st := st) (rest := rest) (ph := .token) ?_ rfl).1
    exact hf

/-- Outside an invocation, without a fault, the CTS looks at the asserted and enabled conditions (R230). -/
theorem ctsFetch_of_idle {s : State} (hf : s.faults = []) (hseq : s.ctsSeq = .idle) :
    ctsFetch s = if s.intStatus &&& s.intEnable ≠ 0#8 then some (.cond s.intStatus) else none := by
  simp [ctsFetch, ctsStopped, invocationCondition, hf, hseq]

/-- Settles O44: the fetch of an idle CTS, and the entry of the invocation. -/
theorem invocationStartsOnAnEnabledCondition : Obligations.InvocationStartsOnAnEnabledCondition := by
  intro s hf hseq
  have hfetch := ctsFetch_of_idle hf hseq
  refine ⟨fun hcond => ⟨?_, ?_⟩, fun hcond => ?_⟩
  · rw [hfetch, if_pos hcond]
  · rw [ctsEnter, hseq]
    rfl
  · have hnone : ctsFetch s = none := by rw [hfetch, if_neg (not_not.2 hcond)]
    exact ⟨hnone, by rw [ctsTurn, hnone]⟩

/-! ## The transmit slots after the rebuild (R233) -/

/-- Both transmit slots of the endpoint are all zero. -/
def TransmitCleared (t : State) (e : Endpoint) : Prop := ∀ p, slotCtl t e .tx p = 0#32 ∧ slotBuf t e .tx p = 0#32

theorem TransmitCleared.congr {t u : State} {e : Endpoint} (h : TransmitCleared t e)
    (hsame : ∀ p, SameSlot t u e .tx p) : TransmitCleared u e :=
  fun p => ⟨(hsame p).1.trans (h p).1, (hsame p).2.trans (h p).2⟩

theorem slotBuf_rebuildSlots {s : State} (h : MemoryCanonical s) (e : Endpoint) (p : Bit) :
    slotBuf (rebuildSlots e p s) e .tx p = 0#32 := by
  have hctl := setsSlot_writeCtl h e .tx p 0#32
  have hbuf := setsSlot_writeBuf hctl.canonical e .tx p 0#32
  have hrx := setsSlot_writeSlot hbuf.canonical e .rx p
  rw [rebuildSlots]
  exact ((hrx _ _).others (by simp)).2.trans hbuf.buf

theorem transmitCleared_rebuildEndpoint {s : State} (h : MemoryCanonical s) (e : Endpoint) :
    TransmitCleared (rebuildEndpoint e s) e := by
  obtain ⟨hcanon, hctl0, -, -, -⟩ := rebuildSlots_spec h e 0#1
  obtain ⟨-, hctl1, -, -, hsame⟩ := rebuildSlots_spec hcanon e 1#1
  have hkept := hsame e .tx 0#1 (by simp)
  have hboth : TransmitCleared (rebuildSlots e 1#1 (rebuildSlots e 0#1 s)) e := fun p => by
    obtain rfl | rfl := bit_cases p
    · exact ⟨hkept.1.trans hctl0, hkept.2.trans (slotBuf_rebuildSlots h e 0#1)⟩
    · exact ⟨hctl1, slotBuf_rebuildSlots hcanon e 1#1⟩
  rw [rebuildEndpoint_eq]
  exact hboth.congr fun p => sameSlot_of_mem (by rw [rebuildTrackers]) (by rw [rebuildTrackers]) e .tx p

theorem transmitCleared_rebuildEndpoints {es : List Endpoint} {s : State} (h : MemoryCanonical s) {e : Endpoint}
    (he : e ∈ es) : TransmitCleared (rebuildEndpoints es s) e := by
  induction es generalizing s with
  | nil => cases he
  | cons e' es ih =>
    have hcanon := (rebuildEndpoint_spec h e').1
    rw [rebuildEndpoints]
    by_cases hes : e ∈ es
    · exact ih hcanon hes
    · obtain rfl := (List.mem_cons.1 he).resolve_right hes
      exact (transmitCleared_rebuildEndpoint h e).congr fun p => (rebuildEndpoints_spec es hcanon).2.2 e .tx p hes

/-! ## The bytes the rebuild stores (R233) -/

section
variable {region : Params → Word → Prop} {s t : State} {e : Endpoint}

theorem WritesOnly.writeCtl (h : WritesOnly region s t) {d : Dir} {p : Bit}
    (hin : ∀ a, InSlot s.cfg e d p a → region s.cfg a) (v : Word) :
    WritesOnly region s (writeWord (slotAddr t.cfg e d p) v t) := by
  refine h.trans (writesOnly_writeBytes fun x (hx : _ < 4) => ?_)
  rw [h.cfg] at hx ⊢
  exact hin x (by rw [InSlot]; omega)

theorem WritesOnly.writeBuf (h : WritesOnly region s t) {d : Dir} {p : Bit}
    (hin : ∀ a, InSlot s.cfg e d p a → region s.cfg a) (v : Word) :
    WritesOnly region s (writeWord (slotAddr t.cfg e d p + 4#32) v t) := by
  refine h.trans (writesOnly_writeBytes fun x (hx : _ < 4) => ?_)
  rw [h.cfg] at hx ⊢
  exact hin x (by rw [InSlot]; bv_omega)

/-- The slots the rebuild stores are the endpoint's own. -/
theorem WritesOnly.rebuildSlots (h : WritesOnly region s t) (hin : ∀ d p a, InSlot s.cfg e d p a → region s.cfg a)
    (p : Bit) : WritesOnly region s (rebuildSlots e p t) := by
  have htx := (h.writeCtl (hin .tx p) 0#32).writeBuf (hin .tx p) 0#32
  have hrx (buf ctl : Word) := (htx.writeBuf (hin .rx p) buf).writeCtl (hin .rx p) ctl
  simp only [writeWord_cfg] at hrx
  simp only [Machine.rebuildSlots, writeSlot, writeWord_cfg]
  exact hrx _ _

theorem WritesOnly.rebuildEndpoint (h : WritesOnly region s t) (hin : ∀ d p a, InSlot s.cfg e d p a → region s.cfg a) :
    WritesOnly region s (rebuildEndpoint e t) := by
  rw [rebuildEndpoint_eq]
  exact ((h.rebuildSlots hin 0#1).rebuildSlots hin 1#1).congr (by rw [rebuildTrackers]) (by rw [rebuildTrackers])

theorem WritesOnly.rebuildEndpoints {es : List Endpoint} (h : WritesOnly region s t)
    (hin : ∀ e ∈ es, ∀ d p a, InSlot s.cfg e d p a → region s.cfg a) : WritesOnly region s (rebuildEndpoints es t) := by
  induction es generalizing t with
  | nil => exact h
  | cons e es ih =>
    obtain ⟨he, hes⟩ := List.forall_mem_cons.1 hin
    exact ih (h.rebuildEndpoint he) hes

end

/-- The address belongs to a slot of an active endpoint. -/
def InActiveSlot (c : Params) (a : Word) : Prop := ∃ e ∈ c.activeEndpoints, ∃ d p, InSlot c e d p a

theorem writesOnly_activeSlots (s : State) : WritesOnly InActiveSlot s (rebuildEndpoints s.cfg.activeEndpoints s) :=
  (WritesOnly.refl s).rebuildEndpoints fun e he d p _ ha => ⟨e, he, d, p, ha⟩

/-! ## The bus reset (R232, R233) -/

/-- The rebuild, but for memory and trackers, field by field. -/
theorem busResetRebuild_eq (s : State) :
    let t := rebuildEndpoints s.cfg.activeEndpoints s
    busResetRebuild s = { s with
      mem := t.mem, parity := t.parity, toggle := t.toggle
      cursorValid := 0#1, cursorPtr := 0#32, cursorRemaining := 0#16, zlpPending := 0#1
      addrPending := 0#1, addrValue := 0#7, ctlState := .awaitingSetup
      devAddr := 0#7, epCtl := s.epCtl.set 0 0x01#8, intEnable := 0x9F#8
      usbTrace := .write .intEnable 0x9F#8 :: .write .ep0Ctl 0x01#8 :: .write .devAddr 0x00#8 :: s.usbTrace } := by
  obtain ⟨m, par, tog, h⟩ := exists_rebuildEndpoints_eq s.cfg.activeEndpoints s
  rw [busResetRebuild, h]
  rfl

/-- Settles O39: slots and bytes by what the rebuild stores, trackers by `get_rebuildEndpoints`. -/
theorem busResetRebuildsTransferState : Obligations.BusResetRebuildsTransferState := by
  intro s hcanon
  obtain ⟨-, hrebuilt, -⟩ := rebuildEndpoints_spec s.cfg.activeEndpoints hcanon
  have hcleared {e : Endpoint} (he : e ∈ s.cfg.activeEndpoints) := transmitCleared_rebuildEndpoints hcanon he
  have hbytes := (writesOnly_activeSlots s).outside hcanon
  have hcfg := rebuildEndpoints_cfg s.cfg.activeEndpoints s
  refine ⟨_, _, _, busResetRebuild_eq s, fun e he p => ?_, fun a ha => ?_, get_rebuildEndpoints _ s⟩
  · simp only [SlotHolds, slotBuf_with_mem hcfg, slotCtl_with_mem hcfg]
    obtain ⟨hctl, hbuf⟩ := hcleared he p
    exact ⟨⟨((hrebuilt e he).receiveBuf p).trans (by rw [hcfg]), (hrebuilt e he).receiveCtl p⟩, hbuf, hctl⟩
  · exact (readByte_with_mem hcfg a).trans (hbytes a fun ⟨e, he, d, p, hin⟩ => ha e he d p hin)

/-- Settles O40: the rebuild touches nothing of the SIE's, and the acknowledgement of USBRST does the rest. -/
theorem busResetEndsTheInvocation : Obligations.BusResetEndsTheInvocation := by
  intro s hbit
  have hstatus : (busResetRebuild s).intStatus = s.intStatus := by rw [busResetRebuild_eq]
  refine ⟨(ackStatus (snapshot s) (busResetRebuild s)).tokStatus, ?_⟩
  rw [exec, execUsbrst, ackStatus_of_busReset hbit, hstatus]

end Sys2Proof.Machine
end

section
/-!
SUPPORT. What an operation writes and reads of memory (spec/45_operation_laws.md R253). Rows of the CTS store slots only. Two
states that differ in memory at most and have the same BDT stay so through each shared operation of the CTS: of memory it
tests slots of endpoint 0, and what it stores depends on no byte.
-/

namespace Sys2Proof.Machine

open Sys2Proof Sys2Proof.Safety

/-! ## What is written -/

/-- A row of the CTS stores bytes of the BDT only, and a request has no memory to store to (spec/00_scope.md R8). -/
theorem exec_writesOnly {i : Instr} {s t : State} (hok : configOk s.cfg = true) (h : exec i s = .next t) :
    WritesOnly InBdt s t := by
  cases hi : isRequest i with
  | false => exact writesOnly_row hok (exec_rowDid hi h)
  | true =>
    obtain ⟨hcfg, -⟩ := exec_kept h
    have hkept := (bteOperationsLeaveTheCtsAlone i s s hi).2 t h
    exact .of_mem (congrArg State.mem hkept).symm hcfg

/-- Settles O52: a row of the CTS stores slots, which stand in the BDT; a request stores nothing. -/
theorem operationsWriteOnlyTheBdt : Obligations.OperationsWriteOnlyTheBdt :=
  fun _ _ _ hok hcanon h => (exec_writesOnly hok h).outside hcanon

/-! ## Two memories with the same BDT -/

/-- The states differ in memory at most, and their BDTs, with endpoint 0's slots in them, hold the same bytes. -/
structure SameBdt (s u : State) : Prop where
  elsewhere : u = { s with mem := u.mem }
  canonical : MemoryCanonical s ∧ MemoryCanonical u
  hasSlots : 0 < s.cfg.numEndpoints
  bytes : ∀ a, InBdt s.cfg a → SameByte s u a

section
variable {s u : State}

/-- What does not look at memory is the same. -/
theorem SameBdt.reads (h : SameBdt s u) {α : Type} {f : State → α} (hf : ∀ m s, f { s with mem := m } = f s) :
    f u = f s := by
  rw [h.elsewhere, hf]

theorem SameBdt.cfg (h : SameBdt s u) : u.cfg = s.cfg := h.reads (f := State.cfg) fun _ _ => rfl

/-- An update that neither reads nor writes memory, nor writes the parameters. -/
theorem SameBdt.update (h : SameBdt s u) {φ : State → State}
    (hφ : ∀ m s, φ { s with mem := m } = { φ s with mem := m, cfg := s.cfg }) : SameBdt (φ s) (φ u) := by
  have hself (v : State) : φ v = { φ v with mem := v.mem, cfg := v.cfg } := hφ v.mem v
  have hmem (v : State) : (φ v).mem = v.mem := by rw [hself]
  have hcfg (v : State) : (φ v).cfg = v.cfg := by rw [hself]
  refine ⟨?_, ⟨?_, ?_⟩, (hcfg s).symm ▸ h.hasSlots, fun a ha => ?_⟩
  · rw [hmem, congrArg φ h.elsewhere, hφ, ← hcfg s]
  · exact memoryCanonical_congr (hmem s) (hcfg s) h.canonical.1
  · exact memoryCanonical_congr (hmem u) (hcfg u) h.canonical.2
  · rw [SameByte, readByte_congr (hmem u) (hcfg u), readByte_congr (hmem s) (hcfg s)]
    exact h.bytes a (hcfg s ▸ ha)

/-! ## Stores -/

theorem SameBdt.writeByte (h : SameBdt s u) (a : Word) (b : Byte) :
    SameBdt (writeByte a b s) (writeByte a b u) where
  elsewhere := by
    rw [congrArg (Machine.writeByte a b) h.elsewhere]
    rfl
  canonical := ⟨memoryCanonical_writeByte h.canonical.1 a b, memoryCanonical_writeByte h.canonical.2 a b⟩
  hasSlots := h.hasSlots
  bytes x hx := by
    rw [SameByte, readByte_writeByte h.canonical.1, readByte_writeByte h.canonical.2, h.bytes x hx]

theorem SameBdt.writeBytes (h : SameBdt s u) (a : Word) (bs : List Byte) :
    SameBdt (writeBytes a bs s) (writeBytes a bs u) := by
  induction bs generalizing a s u with
  | nil => exact h
  | cons b bs ih => exact ih (h.writeByte a b) (a + 1#32)

theorem SameBdt.writeWord (h : SameBdt s u) (a v : Word) : SameBdt (writeWord a v s) (writeWord a v u) :=
  h.writeBytes a _

theorem SameBdt.writeSlot (h : SameBdt s u) (e : Endpoint) (d : Dir) (p : Bit) (buf ctl : Word) :
    SameBdt (writeSlot e d p buf ctl s) (writeSlot e d p buf ctl u) := by
  rw [Machine.writeSlot, Machine.writeSlot, h.cfg]
  exact (h.writeWord _ buf).writeWord _ ctl

theorem SameBdt.rearm (h : SameBdt s u) (e : Endpoint) (p : Bit) : SameBdt (rearm e p s) (rearm e p u) := by
  rw [Machine.rearm, Machine.rearm, h.cfg]
  exact (h.writeSlot e .rx p (rxBuf s.cfg e p) (armedCtl e)).update (φ := fun s =>
    { s with parity := s.parity.flip e .rx, usbTrace := .rearm e p :: s.usbTrace }) fun _ _ => rfl

theorem SameBdt.rebuildSlots (h : SameBdt s u) (e : Endpoint) (p : Bit) :
    SameBdt (rebuildSlots e p s) (rebuildSlots e p u) := by
  simp only [Machine.rebuildSlots, writeWord_cfg, h.cfg]
  exact ((h.writeWord _ 0#32).writeWord _ 0#32).writeSlot e .rx p _ _

theorem SameBdt.rebuildEndpoint (h : SameBdt s u) (e : Endpoint) :
    SameBdt (rebuildEndpoint e s) (rebuildEndpoint e u) := by
  rw [rebuildEndpoint_eq, rebuildEndpoint_eq]
  exact ((h.rebuildSlots e 0#1).rebuildSlots e 1#1).update (φ := rebuildTrackers e) fun _ _ => rfl

theorem SameBdt.rebuildEndpoints (h : SameBdt s u) (es : List Endpoint) :
    SameBdt (rebuildEndpoints es s) (rebuildEndpoints es u) := by
  induction es generalizing s u with
  | nil => exact h
  | cons e es ih => exact ih (h.rebuildEndpoint e)

/-- Beside slots and trackers the bus-reset rebuild writes registers only (spec/44_usb_dispatcher.md R233). -/
theorem SameBdt.busResetRebuild (h : SameBdt s u) : SameBdt (busResetRebuild s) (busResetRebuild u) := by
  rw [Machine.busResetRebuild, Machine.busResetRebuild, h.cfg]
  exact (h.rebuildEndpoints s.cfg.activeEndpoints).update (φ := fun s => writeIntEnable 0x9F#8 (writeEp0Ctl 0x01#8
    (writeDevAddr 0#7 { s with
      cursorValid := 0#1, cursorRemaining := 0#16, cursorPtr := 0#32, zlpPending := 0#1
      addrPending := 0#1, addrValue := 0#7, ctlState := .awaitingSetup }))) fun _ _ => rfl

/-! ## Updates beside memory -/

theorem SameBdt.ackStatus (h : SameBdt s u) (v : Byte) : SameBdt (ackStatus v s) (ackStatus v u) :=
  h.update fun _ _ => by rw [ackStatus_eq, ackStatus_eq]

theorem SameBdt.conditionDone (h : SameBdt s u) (v : Byte) : SameBdt (conditionDone v s) (conditionDone v u) :=
  h.update fun _ _ => by rw [conditionDone_eq, conditionDone_eq]

theorem SameBdt.callPhase (h : SameBdt s u) (ph : CtsPhase) : SameBdt (callPhase ph s) (callPhase ph u) :=
  h.update fun _ _ => by rw [callPhase_eq, callPhase_eq]

theorem SameBdt.callClassify (h : SameBdt s u) : SameBdt (callClassify s) (callClassify u) :=
  (h.update (φ := fun s => { s with
    toggle := s.toggle.set 0 .tx 1#1
    cursorValid := 0#1
    cursorRemaining := 0#16
    zlpPending := 0#1
    addrPending := 0#1 }) fun _ _ => rfl).callPhase .request

theorem SameBdt.afterUsbrst (h : SameBdt s u) : SameBdt (afterUsbrst s) (afterUsbrst u) := by
  have hsnap : snapshot u = snapshot s := h.reads (f := snapshot) fun _ _ => rfl
  rw [Machine.afterUsbrst, Machine.afterUsbrst, hsnap]
  exact (h.busResetRebuild.ackStatus (snapshot s)).update (φ := fun s => { s with ctsSeq := .idle }) fun _ _ => rfl

theorem SameBdt.applyAddress (h : SameBdt s u) : SameBdt (applyAddress s) (applyAddress u) :=
  h.update fun _ _ => by rw [applyAddress_eq, applyAddress_eq]

/-- The line a row adds to the trace. -/
theorem SameBdt.logged (h : SameBdt s u) (ev : UsbEvent) :
    SameBdt { s with usbTrace := ev :: s.usbTrace } { u with usbTrace := ev :: u.usbTrace } :=
  h.update (φ := fun v => { v with usbTrace := ev :: v.usbTrace }) fun _ _ => rfl

/-! ## Tests of a slot -/

/-- A slot of endpoint 0 stands in the BDT, so it holds the same two words. -/
theorem SameBdt.slot (h : SameBdt s u) (d : Dir) (p : Bit) : SameSlot s u 0 d p :=
  sameSlot_of_bytes h.cfg fun _ hk => h.bytes _ (inBdt_slot s.cfg h.hasSlots d p hk)

/-- The packet of a SETUP event is the same where its 8 bytes are (spec/43_ep0_control.md R191). -/
theorem SameBdt.takenPacket (h : SameBdt s u) {p : Bit}
    (hpacket : ∀ k : Nat, k < 8 → SameByte s u (slotBuf s 0 .rx p + BitVec.ofNat 32 k)) :
    takenPacket p u = takenPacket p s := by
  have hread : readBytes u (slotBuf s 0 .rx p) 8 = readBytes s (slotBuf s 0 .rx p) 8 := by
    rw [readBytes_eq_map, readBytes_eq_map]
    exact List.map_congr_left fun k hk => hpacket k (List.mem_range.1 hk)
  have hsetup : u.setup = s.setup := h.reads (f := State.setup) fun _ _ => rfl
  rw [Machine.takenPacket, Machine.takenPacket, (h.slot .rx p).2, hread, hsetup]

end

/-! ## Operations side by side -/

/-- Both operations go on, or both raise a fault, in states with the same BDT. -/
inductive Flow.SameBdt : Flow → Flow → Prop where
  | go {s u : State} (h : Machine.SameBdt s u) : Flow.SameBdt (.go s) (.go u)
  | halted {s u : State} (h : Machine.SameBdt s u) : Flow.SameBdt (.halted s) (.halted u)

theorem Flow.SameBdt.andThen {f g : Flow} {k : State → Flow} (h : f.SameBdt g)
    (hk : ∀ s u, Machine.SameBdt s u → (k s).SameBdt (k u)) : (f.andThen k).SameBdt (g.andThen k) := by
  cases h with
  | go h => exact hk _ _ h
  | halted h => exact .halted h

theorem Flow.SameBdt.ite {p q : Prop} [Decidable p] [Decidable q] {f f' g g' : Flow} (hpq : q ↔ p)
    (hf : f.SameBdt f') (hg : g.SameBdt g') : (if p then f else g).SameBdt (if q then f' else g') := by
  rw [if_congr hpq rfl rfl]
  split
  · exact hf
  · exact hg

/-- A row whose handler answers alike answers alike. -/
theorem Flow.SameBdt.returned {f g : Flow} (h : f.SameBdt g) :
    (f.andThen handlerReturn).SameBdt (g.andThen handlerReturn) :=
  h.andThen fun s u hsu => by
    rw [handlerReturn_eq, handlerReturn_eq]
    exact .go (hsu.update (φ := tokenDone) fun _ _ => rfl)

section
variable {s u : State} (h : SameBdt s u)
include h

theorem sameBdt_raise (f : Fault) : (Flow.halted (raise f s)).SameBdt (.halted (raise f u)) :=
  .halted (h.update (φ := raise f) fun _ _ => rfl)

theorem sameBdt_submit (ptr : Word) (n : BitVec 10) : (submit 0 ptr n s).SameBdt (submit 0 ptr n u) := by
  have hparity : u.parity = s.parity := h.reads (f := State.parity) fun _ _ => rfl
  have htoggle : u.toggle = s.toggle := h.reads (f := State.toggle) fun _ _ => rfl
  rw [submit, submit, hparity, htoggle, (h.slot .tx _).1]
  refine .ite Iff.rfl (sameBdt_raise h _) (.go ?_)
  exact (h.writeSlot 0 .tx _ ptr _).update (φ := fun v => { v with
    toggle := v.toggle.flip 0 .tx
    parity := v.parity.flip 0 .tx
    usbTrace := .submit 0 (s.parity.get 0 .tx) ptr n (s.toggle.get 0 .tx) :: v.usbTrace }) fun _ _ => rfl

theorem sameBdt_consume {d : Dir} {p : Bit} {k : BitVec 10 → State → Flow} (hk : ∀ n, (k n s).SameBdt (k n u)) :
    (consume 0 d p s k).SameBdt (consume 0 d p u k) := by
  rw [consume_eq, consume_eq, (h.slot d p).free, (h.slot d p).1]
  exact .ite Iff.rfl (hk _) (sameBdt_raise h _)

theorem sameBdt_ackRequest : (ackRequest s).SameBdt (ackRequest u) :=
  (sameBdt_submit h _ _).andThen fun _ _ hsu =>
    .go (hsu.update (φ := fun s => { s with ctlState := .statusPending }) fun _ _ => rfl)

theorem sameBdt_serviceChunk : (serviceChunk s).SameBdt (serviceChunk u) := by
  have hcursor : cursorOf u = cursorOf s := h.reads (f := cursorOf) fun _ _ => rfl
  have howed : owedPackets u = owedPackets s := congrArg Cursor.owed hcursor
  rw [serviceChunk_eq, serviceChunk_eq, hcursor, howed]
  refine Flow.SameBdt.andThen ?_ fun _ _ hsu => .go (hsu.update (φ := setCursor _) fun _ _ => rfl)
  cases owedPackets s with
  | nil => exact .go h
  | cons q l => exact sameBdt_submit h q.1 q.2

theorem sameBdt_serveChunks (k : Nat) : (serveChunks k s).SameBdt (serveChunks k u) := by
  induction k generalizing s u with
  | zero => exact .go h
  | succ k ih => exact (sameBdt_serviceChunk h).andThen fun _ _ => ih

theorem sameBdt_startResponse (ptr : Word) (len limit : Half) :
    (startResponse ptr len limit s).SameBdt (startResponse ptr len limit u) := by
  have hload : SameBdt (loadCursor ptr len limit s) (loadCursor ptr len limit u) := h.update fun _ _ => rfl
  by_cases hn : responseSize len limit = 0#16
  · rw [startResponse_eq, startResponse_eq, if_pos hn, if_pos hn]
    exact (sameBdt_submit hload _ _).andThen fun _ _ hsu =>
      .go (hsu.update (φ := fun s => { s with cursorValid := 0#1, ctlState := .statusPending }) fun _ _ => rfl)
  · rw [startResponse_eq_serveChunks hn, startResponse_eq_serveChunks hn]
    exact (sameBdt_serveChunks hload 2).andThen fun _ _ hsu =>
      .go (hsu.update (φ := fun s => { s with ctlState := .dataStage }) fun _ _ => rfl)

theorem sameBdt_stallPath : (stallPath s).SameBdt (stallPath u) :=
  .go (h.update (φ := stalled) fun _ _ => rfl)

theorem sameBdt_actOn (a : VendorAction) (length : Half) : (actOn a length s).SameBdt (actOn a length u) := by
  cases a with
  | respond ptr len => exact sameBdt_startResponse h ptr len length
  | acknowledge => exact sameBdt_ackRequest h
  | reject => exact sameBdt_stallPath h
  | nothing => exact .go h

/-- An IN event's chunk, where the cursor exists (spec/43_ep0_control.md R200). -/
theorem sameBdt_dueChunk : (if s.cursorValid = 1#1 then serviceChunk s else .go s).SameBdt
    (if u.cursorValid = 1#1 then serviceChunk u else .go u) := by
  have hvalid : u.cursorValid = s.cursorValid := h.reads (f := State.cursorValid) fun _ _ => rfl
  exact .ite (by rw [hvalid]) (sameBdt_serviceChunk h) (.go h)

end

/-! ## The rows of the CTS -/

/-- Both operations answer next states with the same BDT. -/
def NextSameBdt (o o' : Host.Outcome State Fault Refusal) : Prop := ∃ s u, o = .next s ∧ o' = .next u ∧ SameBdt s u

theorem Flow.SameBdt.outcome {f g : Flow} (h : f.SameBdt g) : NextSameBdt f.outcome g.outcome := by
  cases h with
  | go h => exact ⟨_, _, rfl, rfl, h⟩
  | halted h => exact ⟨_, _, rfl, rfl, h⟩

section
variable {s u : State} (h : SameBdt s u)
include h

theorem sameBdt_ep0Setup {p : Bit}
    (hpacket : ∀ k : Nat, k < 8 → SameByte s u (slotBuf s 0 .rx p + BitVec.ofNat 32 k)) :
    NextSameBdt (execEp0Setup p s) (execEp0Setup p u) := by
  rw [execEp0Setup_eq, execEp0Setup_eq]
  refine (sameBdt_consume h fun n => .ite Iff.rfl (sameBdt_raise h _) (.go ?_)).outcome
  have htaken := h.update (φ := fun v => { v with setup := takenPacket p s }) fun _ _ => rfl
  rw [h.takenPacket hpacket]
  exact (htaken.rearm 0 p).callClassify

theorem sameBdt_ep0Out (p : Bit) : NextSameBdt (execEp0Out p s) (execEp0Out p u) := by
  rw [execEp0Out_eq, execEp0Out_eq]
  refine Flow.SameBdt.outcome (.returned (sameBdt_consume h fun _ => .go ?_))
  exact (h.rearm 0 p).update (φ := endDataStage) fun _ _ => rfl

theorem sameBdt_ep0In (p : Bit) : NextSameBdt (execEp0In p s) (execEp0In p u) := by
  rw [execEp0In, execEp0In]
  refine Flow.SameBdt.outcome (.returned (sameBdt_consume h fun _ => (sameBdt_dueChunk h).andThen fun v w hvw => .go ?_))
  exact hvw.applyAddress.update (φ := fun s => { s with
    ctlState := if s.ctlState = .statusPending then .awaitingSetup else s.ctlState }) fun _ _ => rfl

theorem sameBdt_vendor (rt code : Byte) (value index length : Half) :
    NextSameBdt (execVendor rt code value index length s) (execVendor rt code value index length u) := by
  have hanswers : u.vendorAnswers = s.vendorAnswers := h.reads (f := State.vendorAnswers) fun _ _ => rfl
  rw [execVendor_eq, execVendor_eq, h.cfg, hanswers]
  exact (sameBdt_actOn (h.update (φ := askVendor _) fun _ _ => rfl) _ length).returned.outcome

theorem sameBdt_getDescriptor (rt : Byte) (value index length : Half) :
    NextSameBdt (execGetDescriptor rt value index length s) (execGetDescriptor rt value index length u) := by
  rw [execGetDescriptor, execGetDescriptor, h.cfg]
  refine Flow.SameBdt.outcome (.returned ?_)
  cases findDescriptor s.cfg value index with
  | some d => exact sameBdt_startResponse h d.pointer d.length length
  | none => exact sameBdt_stallPath h

/-- A condition that is acknowledged and done with (spec/44_usb_dispatcher.md R231). -/
theorem sameBdt_condition (v : Byte) :
    NextSameBdt (.next (conditionDone v (ackStatus v s))) (.next (conditionDone v (ackStatus v u))) :=
  ⟨_, _, rfl, rfl, (h.ackStatus v).conditionDone v⟩

/-- Every row of the CTS. -/
theorem exec_sameBdt {i : Instr} (hi : isRequest i = false)
    (hpacket : ∀ p : Bit, i = .ep0Setup p → ∀ k : Nat, k < 8 → SameByte s u (slotBuf s 0 .rx p + BitVec.ofNat 32 k)) :
    NextSameBdt (exec i s) (exec i u) := by
  cases i with
  | tx | txrx | txc | rxr | resync | halt | reset | bteIllegal => cases hi
  | vendor rt code value index length => exact sameBdt_vendor h rt code value index length
  | getDescriptor rt value index length => exact sameBdt_getDescriptor h rt value index length
  | setAddress rt value index length =>
    have hrecorded := h.update (φ := fun v => { v with addrValue := value.extractLsb' 0 7, addrPending := 1#1 })
      fun _ _ => rfl
    exact (sameBdt_ackRequest hrecorded).returned.outcome
  | setConfiguration => exact (sameBdt_ackRequest h).returned.outcome
  | unrecognised => exact (sameBdt_stallPath h).returned.outcome
  | ep0Setup p => exact sameBdt_ep0Setup h (hpacket p rfl)
  | ep0Out p => exact sameBdt_ep0Out h p
  | ep0In p => exact sameBdt_ep0In h p
  | ep0Unexpected t =>
    refine Flow.SameBdt.outcome (.returned (sameBdt_consume h fun _ => ?_))
    exact .go (h.logged (.logUnexpectedToken t))
  | epnDefault t =>
    exact (Flow.SameBdt.go (h.logged (.logUnexpectedEndpoint _ _ _))).returned.outcome
  | usbrst => exact ⟨_, _, rfl, rfl, h.afterUsbrst⟩
  | error => exact sameBdt_condition (h.logged .logTransferError) 0x02#8
  | softok => exact sameBdt_condition h 0x04#8
  | tokdne => exact ⟨_, _, rfl, rfl, h.callPhase .token⟩
  | sleep => exact sameBdt_condition h 0x10#8
  | stall => exact sameBdt_condition h 0x80#8

end

/-- Settles O53: the two memories go on with the same BDT, and nothing else of the state differs. -/
theorem operationsReadOnlyTheBdtAndThePacket : Obligations.OperationsReadOnlyTheBdtAndThePacket := by
  intro i s m hi hok hcanon hcanon' hbdt hpacket
  obtain ⟨⟨hnum, -⟩, -⟩ := endpoints_of_configOk hok
  have hstart : SameBdt s { s with mem := m } := ⟨rfl, ⟨hcanon, hcanon'⟩, hnum, hbdt⟩
  obtain ⟨t, u, ht, hu, h⟩ := exec_sameBdt hstart hi hpacket
  obtain ⟨hcfg, -⟩ := exec_kept ht
  rw [ht, hu]
  refine ⟨congrArg Host.Outcome.next (h.reads (f := eraseMemory) fun _ _ => rfl), fun t' u' ht' hu' => ?_⟩
  cases ht'
  cases hu'
  exact hcfg ▸ h.bytes

end Sys2Proof.Machine
end

section
/-!
SUPPORT. The law of a response (spec/45_operation_laws.md R251): its packets in closed form, and what StartResponse and the
chunks after it submit of them and still owe.
-/

namespace Sys2Proof.Machine

open Sys2Proof Sys2Proof.Safety

/-! ## The packets in closed form -/

/-- The first `k` whole packets of a response at `ptr`. -/
def wholePackets (ptr : Word) (k : Nat) : List (Word × BitVec 10) :=
  (List.range k).map fun j => (ptr + BitVec.ofNat 32 (64 * j), 64#10)

theorem wholePackets_succ (ptr : Word) (k : Nat) :
    wholePackets ptr (k + 1) = wholePackets ptr k ++ [(ptr + BitVec.ofNat 32 (64 * k), 64#10)] := by
  rw [wholePackets, List.range_succ, List.map_append]
  rfl

theorem packets_of_whole (ptr : Word) (k r : Nat) (zlp : Bool) :
    packets ptr (64 * k + r) zlp = wholePackets ptr k ++ packets (ptr + BitVec.ofNat 32 (64 * k)) r zlp := by
  induction k generalizing r with
  | zero => simp [wholePackets]
  | succ k ih =>
    have hone := packets_of_pos (r := 64 + r) (by omega) (ptr + BitVec.ofNat 32 (64 * k)) zlp
    rw [show min (64 + r) 64 = 64 by omega, Nat.add_sub_cancel_left, BitVec.add_assoc, ← BitVec.ofNat_add] at hone
    rw [Nat.mul_succ, Nat.add_assoc, ih, hone, wholePackets_succ, List.append_assoc]
    rfl

/-- Fewer bytes than a whole packet holds. -/
theorem packets_of_lt {r : Nat} (h : r < 64) (ptr : Word) (zlp : Bool) :
    packets ptr r zlp = (if r = 0 then [] else [(ptr, BitVec.ofNat 10 r)]) ++ if zlp then [(0#32, 0#10)] else [] := by
  split
  · subst r
    rw [packets_zero, List.nil_append]
  · rw [packets_of_pos (by omega), Nat.min_eq_left (by omega), Nat.sub_self, packets_zero]
    rfl

theorem answerPackets_closed (ptr : Word) {len limit : Nat} (h : 0 < min len limit) :
    let n := min len limit
    answerPackets ptr len limit = wholePackets ptr (n / 64)
      ++ (if n % 64 = 0 then [] else [(ptr + BitVec.ofNat 32 (64 * (n / 64)), BitVec.ofNat 10 (n % 64))])
      ++ if zlpOwed len limit then [(0#32, 0#10)] else [] := by
  intro n
  have hsplit := packets_of_whole ptr (n / 64) (n % 64) (zlpOwed len limit)
  rw [Nat.div_add_mod, packets_of_lt (Nat.mod_lt n (by decide)), ← List.append_assoc] at hsplit
  rw [answerPackets, if_neg h.ne', hsplit]

/-! ## What is submitted and what is still owed -/

/-- From `s` to `t` the first `k` of the packets `l` are submitted, and `t` owes the rest. -/
def SubmitsFirst (k : Nat) (l : List (Word × BitVec 10)) (s t : State) : Prop :=
  submitted t.usbTrace = submitted s.usbTrace ++ l.take k ∧ owedPackets t = l.drop k

theorem SubmitsFirst.trans {j k : Nat} {l : List (Word × BitVec 10)} {s t u : State} (h : SubmitsFirst j l s t)
    (g : SubmitsFirst k (owedPackets t) t u) : SubmitsFirst (j + k) l s u := by
  obtain ⟨hsent, howed⟩ := h
  obtain ⟨hsent', howed'⟩ := g
  rw [howed] at hsent' howed'
  exact ⟨by rw [hsent', hsent, List.append_assoc, List.take_add], by rw [howed', List.drop_drop]⟩

/-- An operation that goes on went on in its first part. -/
theorem Flow.andThen_eq_go {f : Flow} {k : State → Flow} {t : State} (h : f.andThen k = .go t) :
    ∃ u, f = .go u ∧ k u = .go t := by
  cases f with
  | go u => exact ⟨u, rfl, h⟩
  | halted u => cases h

/-- A Submit that goes on adds its packet to those submitted and leaves the cursor alone. -/
theorem packet_of_submit {e : Endpoint} {ptr : Word} {n : BitVec 10} {s t : State} (h : submit e ptr n s = .go t) :
    submitted t.usbTrace = submitted s.usbTrace ++ [(ptr, n)] ∧ cursorOf t = cursorOf s := by
  rw [submit_eq_afterSubmit] at h
  split at h
  · cases h
    rw [cursorOf, afterSubmit]
    exact ⟨rfl, rfl⟩
  · cases h

theorem submitsFirst_serviceChunk {s t : State} (h : serviceChunk s = .go t) : SubmitsFirst 1 (owedPackets s) s t := by
  rw [serviceChunk_eq] at h
  obtain ⟨u, hu, ht⟩ := Flow.andThen_eq_go h
  cases ht
  refine ⟨?_, ((cursorOf s).owed_next).trans List.drop_one.symm⟩
  change submitted u.usbTrace = _
  cases hl : owedPackets s with
  | nil =>
    rw [hl] at hu
    cases hu
    exact (List.append_nil _).symm
  | cons q l =>
    rw [hl] at hu
    exact (packet_of_submit hu).1

theorem submitsFirst_serveChunks {k : Nat} {s t : State} (h : serveChunks k s = .go t) :
    SubmitsFirst k (owedPackets s) s t := by
  induction k generalizing s with
  | zero =>
    cases h
    exact ⟨(List.append_nil _).symm, rfl⟩
  | succ k ih =>
    obtain ⟨u, hu, ht⟩ := Flow.andThen_eq_go h
    rw [Nat.add_comm]
    exact (submitsFirst_serviceChunk hu).trans (ih ht)

theorem submitsFirst_startResponse {ptr : Word} {len limit : Half} {s t : State}
    (h : startResponse ptr len limit s = .go t) : SubmitsFirst 2 (answerPackets ptr len.toNat limit.toNat) s t := by
  by_cases hn : responseSize len limit = 0#16
  · rw [startResponse_eq, if_pos hn] at h
    obtain ⟨u, hu, ht⟩ := Flow.andThen_eq_go h
    obtain ⟨hsent, hcursor⟩ := packet_of_submit hu
    have hnone : owedPackets u = [] := by
      refine (congrArg Cursor.owed hcursor).trans (Cursor.owed_eq_nil_iff.2 ⟨hn, ?_⟩)
      simp [cursorOf, loadCursor, owesZlp, hn]
    cases ht
    rw [answerPackets_of_empty hn]
    exact ⟨hsent, hnone⟩
  · rw [startResponse_eq_serveChunks hn] at h
    obtain ⟨u, hu, ht⟩ := Flow.andThen_eq_go h
    have hserved := submitsFirst_serveChunks hu
    cases ht
    rw [← owed_loadCursor hn ptr s]
    exact hserved

/-- Settles O27: the closed form counts off the whole packets first; StartResponse and each chunk submit from the front of
what is owed. -/
theorem answerIsTruncatedAndTerminated : Obligations.AnswerIsTruncatedAndTerminated := by
  refine ⟨fun ptr len limit hpos => ?_, fun ptr len limit hzero => if_pos hzero,
    fun _ _ _ _ _ => submitsFirst_startResponse, fun _ _ => submitsFirst_serviceChunk, fun _ _ _ _ _ _ _ h hk => ?_⟩
  · simpa only [wholePackets, zlpOwed, decide_eq_true_eq] using answerPackets_closed ptr hpos
  · exact (submitsFirst_startResponse h).trans (submitsFirst_serveChunks hk)

end Sys2Proof.Machine
end

section
/-!
SUPPORT. The fault records (spec/60_exceptions.md R262; spec/10_state.md R43): a handler that goes on records nothing, one
that stops records one fault, and nothing but a row of the CTS records any.
-/

namespace Sys2Proof.Machine

open Sys2Proof Sys2Proof.Safety

/-! ## What the handlers record -/

/-- From the records `l` an operation that goes on adds none, and one that stops has added the fault that stopped it. -/
def FlowRecords (l : List Fault) : Flow → Prop
  | .go t => t.faults = l
  | .halted t => ∃ f, t.faults = l ++ [f]

theorem FlowRecords.andThen {l : List Fault} {f : Flow} {k : State → Flow} (hf : FlowRecords l f)
    (hk : ∀ u, FlowRecords u.faults (k u)) : FlowRecords l (f.andThen k) := by
  cases f with
  | go u => exact hf ▸ hk u
  | halted u => exact hf

theorem flowRecords_raise (f : Fault) (s : State) : FlowRecords s.faults (.halted (raise f s)) := ⟨f, rfl⟩

theorem flowRecords_submit (e : Endpoint) (ptr : Word) (n : BitVec 10) (s : State) :
    FlowRecords s.faults (submit e ptr n s) := by
  cases h : submit e ptr n s with
  | go u => exact (sameCursor_of_submit h).faults
  | halted u =>
    rw [submit_eq] at h
    split at h <;> cases h
    exact flowRecords_raise _ s

theorem flowRecords_consume {e : Endpoint} {d : Dir} {p : Bit} {s : State} {k : BitVec 10 → State → Flow}
    (hk : ∀ n, FlowRecords s.faults (k n s)) : FlowRecords s.faults (consume e d p s k) := by
  rw [consume_eq]
  split
  · exact hk _
  · exact flowRecords_raise _ s

theorem flowRecords_ackRequest (s : State) : FlowRecords s.faults (ackRequest s) :=
  (flowRecords_submit ..).andThen fun _ => rfl

theorem flowRecords_serviceChunk (s : State) : FlowRecords s.faults (serviceChunk s) := by
  unfold serviceChunk
  split
  · exact (flowRecords_submit ..).andThen fun _ => rfl
  · split
    · exact (flowRecords_submit ..).andThen fun _ => rfl
    · rfl

theorem flowRecords_startResponse (ptr : Word) (len limit : Half) (s : State) :
    FlowRecords s.faults (startResponse ptr len limit s) := by
  rw [startResponse_eq]
  change FlowRecords (loadCursor ptr len limit s).faults _
  split
  · exact (flowRecords_submit ..).andThen fun _ => rfl
  · refine (flowRecords_serviceChunk _).andThen fun u => FlowRecords.andThen ?_ fun _ => rfl
    split
    · exact flowRecords_serviceChunk u
    · rfl

theorem flowRecords_stallPath (s : State) : FlowRecords s.faults (stallPath s) := rfl

theorem flowRecords_actOn (a : VendorAction) (length : Half) (s : State) : FlowRecords s.faults (actOn a length s) := by
  cases a with
  | respond ptr len => exact flowRecords_startResponse ptr len length s
  | acknowledge => exact flowRecords_ackRequest s
  | reject => exact flowRecords_stallPath s
  | nothing => rfl

theorem flowRecords_handlerReturn (s : State) : FlowRecords s.faults (handlerReturn s) := by
  rw [handlerReturn_eq]
  rfl

theorem applyAddress_faults (s : State) : (applyAddress s).faults = s.faults := by rw [applyAddress_eq]

/-! ## The rows of the CTS -/

/-- `t` has the records of `s`, or one more after them. -/
def RecordsAtMostOne (s t : State) : Prop := t.faults = s.faults ∨ ∃ f, t.faults = s.faults ++ [f]

theorem FlowRecords.outcome {s t : State} {f : Flow} (h : FlowRecords s.faults f) (ht : f.outcome = .next t) :
    RecordsAtMostOne s t := by
  cases ht
  cases f with
  | go u => exact .inl h
  | halted u => exact .inr h

/-- A handler, returned from. -/
theorem FlowRecords.returned {s t : State} {f : Flow} (h : FlowRecords s.faults f)
    (ht : (f.andThen handlerReturn).outcome = .next t) : RecordsAtMostOne s t :=
  (h.andThen flowRecords_handlerReturn).outcome ht

theorem condition_faults (v : Byte) (s : State) : (conditionDone v (ackStatus v s)).faults = s.faults := by simp

/-- Every row of the CTS. -/
theorem exec_recordsAtMostOne {i : Instr} {s t : State} (hi : isRequest i = false) (h : exec i s = .next t) :
    RecordsAtMostOne s t := by
  cases i with
  | tx | txrx | txc | rxr | resync | halt | reset | bteIllegal => cases hi
  | vendor rt code value index length =>
    rw [exec, execVendor_eq] at h
    exact (flowRecords_actOn _ _ (askVendor _ s)).returned (s := s) h
  | getDescriptor rt value index length =>
    refine FlowRecords.returned ?_ h
    split
    · exact flowRecords_startResponse ..
    · exact flowRecords_stallPath s
  | setAddress rt value index length =>
    have hstored := flowRecords_ackRequest { s with addrValue := value.extractLsb' 0 7, addrPending := 1#1 }
    exact hstored.returned (s := s) h
  | setConfiguration rt value index length => exact (flowRecords_ackRequest s).returned h
  | unrecognised rt code value index length => exact (flowRecords_stallPath s).returned h
  | ep0Setup p =>
    rw [exec, execEp0Setup_eq] at h
    refine (flowRecords_consume fun n => ?_).outcome h
    split
    · exact flowRecords_raise _ s
    · simp [FlowRecords, callClassify, rearm_eq]
  | ep0Out p =>
    rw [exec, execEp0Out_eq] at h
    refine FlowRecords.returned (flowRecords_consume fun _ => ?_) h
    exact (sameCursor_rearm 0 p s).faults
  | ep0In p =>
    refine FlowRecords.returned (flowRecords_consume fun _ => FlowRecords.andThen ?_ fun u => ?_) h
    · split
      · exact flowRecords_serviceChunk s
      · rfl
    · exact applyAddress_faults u
  | ep0Unexpected e =>
    refine FlowRecords.returned (flowRecords_consume fun _ => ?_) h
    rfl
  | epnDefault e =>
    refine FlowRecords.returned ?_ h
    rfl
  | usbrst =>
    cases h
    exact .inl (by simp [busResetRebuild_eq])
  | error =>
    cases h
    exact .inl (condition_faults 0x02#8 _)
  | softok =>
    cases h
    exact .inl (condition_faults 0x04#8 s)
  | tokdne =>
    cases h
    exact .inl (callPhase_faults .token s)
  | sleep =>
    cases h
    exact .inl (condition_faults 0x10#8 s)
  | stall =>
    cases h
    exact .inl (condition_faults 0x80#8 s)

/-! ## Every step -/

theorem ctsEnter_faults (s : State) : (ctsEnter s).faults = s.faults := by
  unfold ctsEnter
  split <;> rfl

/-- A step records at most one fault and removes none: the rows of the CTS by `exec_recordsAtMostOne`, every other move
leaves the records alone. -/
theorem step_recordsAtMostOne {s t : State} (h : step s = .next t) : RecordsAtMostOne s t := by
  obtain ⟨-, u, -, -, hnoted, -, ⟨c, i, -, -, hi, hx⟩ | hmove⟩ := step_did h
  · have hrow := exec_recordsAtMostOne hi hx
    rwa [RecordsAtMostOne, ctsEnter_faults, hnoted.faults] at hrow
  · exact .inl ((sameCursor_of_moveDid hmove).faults.trans hnoted.faults)

theorem ctsFetch_of_fault {s : State} (h : s.faults ≠ []) : ctsFetch s = none := by
  simp [ctsFetch, ctsStopped, h]

/-- Settles O45: with a record the CTS finds no row, and a step adds at most one record to those there are. -/
theorem faultStopsTheCtsForGood : Obligations.FaultStopsTheCtsForGood := by
  refine ⟨fun s hf => ?_, fun s t hstep => ?_⟩
  · have hnone := ctsFetch_of_fault hf
    exact ⟨hnone, by rw [ctsTurn, hnone]⟩
  · obtain hsame | ⟨f, hmore⟩ := step_recordsAtMostOne hstep
    · exact ⟨[], by rw [hsame, List.append_nil]⟩
    · exact ⟨[f], hmore⟩

end Sys2Proof.Machine
end

section
/-!
SUPPORT. Requests that find their transmit slot the SIE's (spec/70_reset_and_hazards.md R304, spec/60_exceptions.md R262):
the row ends in the state its operation halts in, and the return of HandleToken is skipped.
-/

namespace Sys2Proof.Machine

open Sys2Proof Sys2Proof.Safety

/-- The end of a row whose handler raised a fault: the token is not acknowledged, the invocation does not return. -/
theorem returned_of_halted {f : Flow} {t : State} (h : f = .halted t) : (f.andThen handlerReturn).outcome = .next t := by
  rw [h, Flow.andThen_halted, Flow.outcome_halted]

theorem ackRequest_of_busy {s : State} (hbusy : slotFree s 0 .tx (s.parity.get 0 .tx) = false) :
    ackRequest s = .halted (raise (.slotBusy 0 .tx (s.parity.get 0 .tx)) s) := by
  rw [ackRequest, submit_of_busy hbusy, Flow.andThen_halted]

theorem exec_getDescriptor_of_found {value index : Half} {s : State} {d : DescEntry}
    (hfind : findDescriptor s.cfg value index = some d) (rt : Byte) (length : Half) :
    exec (.getDescriptor rt value index length) s =
      ((startResponse d.pointer d.length length s).andThen handlerReturn).outcome := by
  rw [exec, execGetDescriptor, hfind]

theorem exec_vendor_of_action {s : State} {a : VendorAction} (ha : s.vendorAnswers.head?.getD s.cfg.vendorDefault = a)
    (rt code : Byte) (value index length : Half) :
    exec (.vendor rt code value index length) s =
      ((actOn a length (askVendor (Setup.mk rt code value index length) s)).andThen handlerReturn).outcome := by
  rw [exec, execVendor_eq, ha]

/-- Settles O29: each of these rows is one acknowledgement or one StartResponse, and where that halts the row ends. What
a handler records or shows before it leaves the slot and the tracker as they were. -/
theorem responseToABusySlotIsAFault : Obligations.ResponseToABusySlotIsAFault := by
  intro rt value index length s busySlot action shown
  refine ⟨fun hbusy => ⟨?setAddress, ?setConfiguration, fun d hfind => ?getDescriptor, fun code hact => ?acknowledge,
    fun code ptr len hact => ?respond⟩, fun d t hfind hstop => ?getDescriptorStops,
    fun code ptr len t hact hstop => ?respondStops⟩
  case setAddress =>
    have hack := ackRequest_of_busy (s := { s with addrValue := value.extractLsb' 0 7, addrPending := 1#1 }) hbusy
    exact ⟨_, returned_of_halted hack, rfl, rfl, rfl, rfl, rfl, rfl⟩
  case setConfiguration => exact returned_of_halted (ackRequest_of_busy hbusy)
  case getDescriptor =>
    have hstop := startResponse_of_busy hbusy d.pointer d.length length
    exact ⟨_, (exec_getDescriptor_of_found hfind rt length).trans (returned_of_halted hstop), rfl, rfl, rfl, rfl, rfl⟩
  case acknowledge =>
    have hack := ackRequest_of_busy (s := shown code) hbusy
    exact (exec_vendor_of_action hact ..).trans (returned_of_halted hack)
  case respond =>
    obtain ⟨-, hstops, -⟩ := startResponseSendsTwoPackets ptr len length (shown code)
    exact (exec_vendor_of_action hact ..).trans (returned_of_halted (hstops hbusy))
  case getDescriptorStops => exact (exec_getDescriptor_of_found hfind rt length).trans (returned_of_halted hstop)
  case respondStops => exact (exec_vendor_of_action hact ..).trans (returned_of_halted hstop)

end Sys2Proof.Machine
end
